-- ==== Sys2Proof/Word.lean ====
section
/-! DEFINITION. The word types of the KT220: bytes on its ports, 16-bit batch sequence numbers and
32-bit wrapping counts. Everything the manual does not add modulo a power of two or send as bits is a
`Nat` or an `Int` in its unit (00_scope.md 0.7.1). -/

namespace Sys2Proof

/-- A byte of a telegram, an SPI request or response, or the configuration record. -/
abbrev Byte := BitVec 8

/-- A batch sequence number (00_scope.md 0.7.2): 16 bits, compared serially. -/
abbrev SeqNo := BitVec 16

/-- A count that wraps at 2^32: the delivery count D and the baselines taken from it (R31, R93). -/
abbrev Count32 := BitVec 32

end Sys2Proof
end

