-- ==== Sys2Proof/Syntax.lean ====
section
/-! DEFINITION. The commands of the KT220: one constructor for each row of spec/opcode_table.json, in the
table's order, with the operands the rules give the row. -/

namespace Sys2Proof

/-- The two trackline ports (R98): `up` faces the origin, `down` faces away from it. -/
inductive Port where
  | up | down
  deriving DecidableEq, Repr

/-- The eight routes, numbered 1..8 (R171). -/
inductive Route where
  | r1 | r2 | r3 | r4 | r5 | r6 | r7 | r8
  deriving DecidableEq, Repr

/-- One value for each of the eight routes. -/
structure PerRoute (α : Type) where
  r1 : α
  r2 : α
  r3 : α
  r4 : α
  r5 : α
  r6 : α
  r7 : α
  r8 : α
  deriving DecidableEq, Repr

/-- The same value at every route. -/
def PerRoute.fill {α : Type} (a : α) : PerRoute α := ⟨a, a, a, a, a, a, a, a⟩

/-- A symbol of the trackline's line code (R98). -/
inductive Symbol where
  | data (b : Byte) | idle | start | finish | invalid
  deriving DecidableEq, Repr

/-- The two limit inputs of a route: LOPNk and LCLSk (R171). -/
inductive Limit where
  | opened | closed
  deriving DecidableEq, Repr

/-- What the Configuration Loader reads from the serial memory (R207): its status byte, whether CFGIO was high all through that
read, and the record read after it from a memory that is present. They come with CONFIG_LOAD_DONE (log 54). -/
structure MemoryRead where
  status : Byte
  heldHigh : Bool
  image : List Byte
  deriving DecidableEq, Repr

/-- A delivery record place of ENTER_ORDER as it stands in the request (12.2, R200). -/
structure OrderPlace where
  station : Byte
  volume : BitVec 32
  deriving DecidableEq, Repr

/-- The commands: the rows of spec/opcode_table.json (95_what_each_step_holds.md calls each "whole and
indivisible"). -/
inductive Instr where
  | powerOnReset
  | resetRelease
  | configLoadDone (memory : MemoryRead)
  | mainlinePulse
  | trimNudge
  | deliveryPulse
  | densityCharacter (value : Byte) (goodStop : Bool)
  | frameCharTimeout
  | silenceTimerExpiry
  | portSignalDetected (port : Port)
  | portReachesUp (port : Port)
  | lossOfSignal (port : Port)
  | frameReceived (port : Port) (bytes : List Byte)
  | rxFrameAborted (port : Port)
  | noiseCleanExpiry (port : Port)
  | beaconTaken
  | peerSuspectExpiry (station : Nat)
  | peerSilenceExpiry (station : Nat)
  | peerFreeExpiry (station : Nat)
  | conflictHoldExpiry (station : Nat)
  | launchTaken
  | passageTaken
  | holdTaken
  | askTaken
  | itemTaken
  | askSend
  | transferTimerExpiry
  | reAskTimerExpiry
  | answerItemHanded
  | learnTimerExpiry
  | beaconTimerExpiry
  | txPortFree (port : Port)
  | limitChange (route : Route) (limit : Limit) (shown : Bool)
  | travelTimerExpiry (route : Route)
  | startReading
  | holdEntryExpiry (station : Nat) (product : Nat)
  | holdRefreshExpiry (product : Nat)
  | staleTimerExpiry
  | spiRequestAborted
  | spiBadRequest (bytes : List Byte)
  | readStatus
  | readEvent
  | readEventRetire
  | readCut
  | readCutRetire
  | readTrain (index : Byte)
  | readPeer (index : Byte)
  | ackAlarms (bits : BitVec 32)
  | setStatus (headrooms : PerRoute (BitVec 32))
  | enterOrder (product : Byte) (density : BitVec 16) (nominal : BitVec 32) (count : Byte)
      (places : List OrderPlace)
  | cancelOrder (index : Byte)
  | forceAdvance
  | forceTransmix
  | releaseTo (route : Byte)
  | closeDelivery
  | resync
  | lostNoticeQueued
  | trainingSymbolReceived (port : Port) (symbol : Symbol)
  deriving DecidableEq, Repr

end Sys2Proof
end

