-- ==== Sys2Proof/Decode.lean ====
section
/-! DEFINITION. What a word of spec/opcode_table.json spells. The table gives no row any bits (every row's
"fields" is empty), so no word spells a command. -/

namespace Sys2Proof

/-- The command that the word `w` of `nbits` bits spells: none, since no row of the table has bits. -/
def decodeTableWord (_nbits _w : Nat) : Option Instr := none

end Sys2Proof
end

