-- ==== Sys2Proof/Config.lean ====
section
/-! DEFINITION. What the manual leaves to the part and gives no value for: free values, constants without a
body, so that a claim holds whatever they are. -/

namespace Sys2Proof

/-- Free order (log 7): where the rules let two effects of one moment come in either order (R82, R203 and the
points named in the log), the order of the `n`-th such choice. -/
opaque Config.freeOrder : Nat → Bool

/-- Free byte (log 14): the byte at `place` of a reported number `value` that is too large for its field. The
rules state no such byte (R200). -/
opaque Config.freeByte : (value : Nat) → (place : Nat) → Byte

/-- Free trim (log 41): the trim at close that READ_STATUS sends for the open cut record `number`. The rules give that
field a value at the close alone (R136, R146, R156). -/
opaque Config.openTrim : (number : Nat) → Int

end Sys2Proof
end

