-- ==== Sys2Proof/Machine/State.lean ====
section
/-! DEFINITION. The state of the KT220: everything the manual gives its thirteen blocks (00_scope.md 0.4), as plain
data, with the queue of waiting commands, and the state right after reset. Times are due times in ms of the chip
time base; a stopped timer is `none`. -/

namespace Sys2Proof.Machine

/-! ### Configuration (12.6) -/

/-- The station's role (R207). -/
inductive Role where
  | origin | relay | delivery | terminus
  deriving DecidableEq, Repr

/-- The load state of the Configuration Loader (00_scope.md 0.4, R207, R208, R210). -/
inductive LoadState where
  | loading | run | configFault
  deriving DecidableEq, Repr

/-- Why CFL is in CONFIG_FAULT (R208). -/
inductive FaultCause where
  | memoryAbsent | badCrc | badStation | badRole | noTransmix
  deriving DecidableEq, Repr

/-- The assignment of a route (R131, R207). -/
inductive RouteUse where
  | unused
  | product (code : Nat)
  | transmix
  deriving DecidableEq, Repr

/-- The policy of a product pair (R132). -/
inductive Policy where
  | transmix | intoA | intoB | midpoint | none
  deriving DecidableEq, Repr

/-- The published configuration (R207, R210). `role` is absent until publication. -/
structure Published where
  station : Nat
  role : Option Role
  mark : Nat
  pulseWeight : Nat
  deliveryPulseWeight : Nat
  trimInitial : Int
  trimMax : Nat
  trimStep : Nat
  mixK : Nat
  deadband : Nat
  uncFloor : Nat
  uncPpm : Nat
  lead : Nat
  antic : Nat
  headFraction : Nat
  tailFraction : Nat
  minContrast : Nat
  prodTol : Nat
  densitometer : Bool
  settle : Nat
  deliveryGuard : Nat
  beaconPeriod : Nat
  beaconOffset : Nat
  travelTimeout : Nat
  holdMin : Nat
  holdHyst : Nat
  eventWatermark : Nat
  routes : PerRoute RouteUse
  watermarks : PerRoute Nat
  alarmMask : BitVec 32
  policies : List Policy
  deriving DecidableEq, Repr

/-- Nothing published (log 13). -/
def Published.unpublished : Published where
  station := 0
  role := none
  mark := 0
  pulseWeight := 0
  deliveryPulseWeight := 0
  trimInitial := 0
  trimMax := 0
  trimStep := 0
  mixK := 0
  deadband := 0
  uncFloor := 0
  uncPpm := 0
  lead := 0
  antic := 0
  headFraction := 0
  tailFraction := 0
  minContrast := 0
  prodTol := 0
  densitometer := false
  settle := 0
  deliveryGuard := 0
  beaconPeriod := 0
  beaconOffset := 0
  travelTimeout := 0
  holdMin := 0
  holdHyst := 0
  eventWatermark := 0
  routes := .fill .unused
  watermarks := .fill 0
  alarmMask := 0
  policies := []

/-- The Configuration Loader (R207 to R210): `reading` while the serial memory is being read; `adjusted` holds the
offsets of the adjusted fields, in order of offset (R209). -/
structure Cfl where
  load : LoadState
  reading : Bool
  fault : Option FaultCause
  published : Published
  adjusted : List Nat
  deriving DecidableEq, Repr

/-! ### Meter unit (chapter 2) -/

/-- A trim nudge request handed to MTR and not yet taken (R34, R35). -/
structure Nudge where
  up : Bool
  residual : Int
  deriving DecidableEq, Repr

/-- The Meter Unit: F, C, FD, D, T (R26, R27, R31, R33) and the nudge requests that wait (R35). -/
structure Mtr where
  fine : Nat
  count : Nat
  deliveryFine : Nat
  deliveryCount : Count32
  trim : Int
  nudges : List Nudge
  deriving DecidableEq, Repr

/-! ### Train store (chapters 1 and 7) -/

/-- A delivery record of a batch (R3): a station and an ordered volume. -/
structure DeliveryRec where
  station : Nat
  volume : Nat
  deriving DecidableEq, Repr

/-- The tracking state of an entry (R4). -/
inductive Track where
  | inbound | window | passed
  deriving DecidableEq, Repr

/-- The passage kind of an entry (R2, 3.5). -/
inductive PassageKind where
  | detected | estimated | missed
  deriving DecidableEq, Repr

/-- A train entry (R2). -/
structure Entry where
  seq : SeqNo
  product : Nat
  density : Nat
  nominal : Nat
  launched : Option Nat
  remaining : Nat
  deliveries : List DeliveryRec
  rlv : Int
  sinceSnap : Nat
  snapMark : Option Nat
  snappedByReference : Bool
  track : Track
  kind : Option PassageKind
  short : Bool
  untrackedFollows : Bool
  mismatch : Bool
  deriving DecidableEq, Repr

/-- The sync state (R8, R9). -/
inductive SyncState where
  | unsynced | asking | synced | seqLearn
  deriving DecidableEq, Repr

/-- The Train Store: the train, oldest entry first (R1), the sync state (R8, R9), the transfer context (R117), the
answer buffer (R123: the payloads of the items not yet handed on, in index order) and sequence learning (R128). -/
structure Trs where
  train : List Entry
  sync : SyncState
  attempts : Nat
  transferTimer : Option Nat
  adopted : Option (Nat × Nat)
  held : List Nat
  reAskTimer : Option Nat
  askDue : Bool
  answer : List (List Byte)
  learnTimer : Option Nat
  learned : Option SeqNo
  deriving DecidableEq, Repr

/-- The Tracking Engine's own state (R38, R62): M and Mh. -/
structure Tke where
  mix : Nat
  halfMix : Nat
  deriving DecidableEq, Repr

/-! ### Density unit (chapter 4) -/

/-- The receiver of the density line (R63); `last` is the time of the last character taken. -/
inductive Receiver where
  | hunt
  | frame (bytes : List Byte) (last : Nat)
  deriving DecidableEq, Repr

/-- The Density Unit (R63 to R70, R75). -/
structure Dsu where
  receiver : Receiver
  window : List Nat
  fill : Nat
  average : Option Nat
  lastSample : Option Nat
  healthy : Bool
  rejectRun : Nat
  goodRun : Nat
  silenceTimer : Option Nat
  departureRun : Nat
  deriving DecidableEq, Repr

/-! ### Peer table (chapter 5) -/

/-- The standing of a peer (R83). -/
inductive Standing where
  | heard | good | suspect | silent
  deriving DecidableEq, Repr

/-- A peer entry (R78). -/
structure Peer where
  station : Nat
  role : Role
  mark : Nat
  period : Nat
  synced : Bool
  densityHealthy : Bool
  restarted : Bool
  baseline : Count32
  newest : Option SeqNo
  arrival : Port
  standing : Standing
  lastBeacon : Nat
  goodCount : Nat
  conflictHold : Option Nat
  deriving DecidableEq, Repr

/-- The Peer Table: entries in ascending order of station number (R78), and the reference peer (R90). -/
structure Prt where
  peers : List Peer
  reference : Option Nat
  deriving DecidableEq, Repr

/-! ### Trackline controller (chapter 6) -/

/-- The link state of a port (R99). -/
inductive LinkState where
  | down | training | up
  deriving DecidableEq, Repr

/-- A telegram's frame (R102) without its length byte and CRC-16, which are functions of the rest. -/
structure Frame where
  kind : Byte
  station : Byte
  hops : Byte
  payload : List Byte
  deriving DecidableEq, Repr

/-- A frame that a transmitter is sending; `busyUntil` is when its slot ends (R110, R111), in microseconds. -/
structure Sending where
  frame : Frame
  busyUntil : Nat
  deriving DecidableEq, Repr

/-- One trackline port (R99, R104, R108, R110). -/
structure PortState where
  link : LinkState
  trainingCount : Nat
  urgent : List Frame
  routine : List Frame
  bulk : List Frame
  sending : Option Sending
  noisy : Bool
  badTimes : List Nat
  deriving DecidableEq, Repr

/-- A port at power-on reset (R99, R104, R108). -/
def PortState.reset : PortState where
  link := .down
  trainingCount := 0
  urgent := []
  routine := []
  bulk := []
  sending := none
  noisy := false
  badTimes := []

/-- A frame of the receive queue with the port on which it arrived (R106). -/
structure RxFrame where
  port : Port
  frame : Frame
  deriving DecidableEq, Repr

/-- The Trackline Controller (R116). -/
structure Tlc where
  upPort : PortState
  downPort : PortState
  rxQueue : List RxFrame
  beaconTimer : Option Nat
  restartCount : Nat
  deriving DecidableEq, Repr

/-! ### Cut sequencer (chapter 8) -/

/-- The cut state (R133). -/
inductive CutState where
  | unknown | steady | armed | mixing | settling | held
  deriving DecidableEq, Repr

/-- How thresholds are judged (R135, R136). -/
inductive CutMethod where
  | density | volume | mixed
  deriving DecidableEq, Repr

/-- The stage of an open record (R137). -/
inductive Stage where
  | lead | middle | trail
  deriving DecidableEq, Repr

/-- The source of a switch action (R142). -/
inductive Source where
  | density | volume | forced | missed
  deriving DecidableEq, Repr

/-- The kind of a switch action (R142). -/
inductive ActionKind where
  | head | final | none
  deriving DecidableEq, Repr

/-- The outcome of the product check (R74). -/
inductive ProductCheck where
  | confirmed | refuted | unjudged
  deriving DecidableEq, Repr

/-- The flags of a cut record, in the order R136 lists them. -/
structure CutFlags where
  shortBatch : Bool
  missed : Bool
  mismatch : Bool
  densityLost : Bool
  valveFault : Bool
  forced : Bool
  abandoned : Bool
  overwrite : Bool
  deriving DecidableEq, Repr

/-- No flag set (R136). -/
def CutFlags.clear : CutFlags := ⟨false, false, false, false, false, false, false, false⟩

/-- The open cut record (R135 to R137) with what CSQ keeps for the cut: the cut entry, the captured densities,
which thresholds are reached, and whether the final action has executed. `number` is the model's own mark of the
record (log 20). -/
structure OpenCut where
  number : Nat
  first : SeqNo
  last : Option SeqNo
  productA : Nat
  productB : Nat
  policy : Policy
  method : CutMethod
  start : Nat
  routeA : Option Route
  routeB : Option Route
  volumeA : Nat
  volumeX : Nat
  volumeB : Nat
  rlvAtDetection : Option Int
  check : Option ProductCheck
  flags : CutFlags
  stage : Stage
  cutEntry : SeqNo
  densityA : Nat
  densityB : Nat
  headReached : Bool
  finalReached : Bool
  finalExecuted : Bool
  deriving DecidableEq, Repr

/-- A queued switch action (R142). Its record is the open one. -/
structure Action where
  target : Route
  due : Nat
  source : Source
  reference : SeqNo
  kind : ActionKind
  deriving DecidableEq, Repr

/-- The Cut Sequencer (R133). -/
structure Csq where
  state : CutState
  routeInUse : Option Route
  cutThrough : Option SeqNo
  record : Option OpenCut
  queue : List Action
  settleRemaining : Nat
  lastSource : Option Source
  nextNumber : Nat
  deriving DecidableEq, Repr

/-- A closed cut record (R136, R146). -/
structure CutRecord where
  first : SeqNo
  last : Option SeqNo
  productA : Nat
  productB : Nat
  policy : Policy
  method : CutMethod
  start : Nat
  finish : Nat
  routeA : Option Route
  routeB : Option Route
  volumeA : Nat
  volumeX : Nat
  volumeB : Nat
  rlvAtDetection : Option Int
  trim : Int
  check : Option ProductCheck
  flags : CutFlags
  deriving DecidableEq, Repr

/-! ### Delivery sequencer (chapter 9) -/

/-- The delivery state (R158). -/
inductive DeliveryState where
  | idle | opening | delivering | closing
  deriving DecidableEq, Repr

/-- The flags of a delivery, in the order R165 lists them. -/
structure DeliveryFlags where
  short : Bool
  commanded : Bool
  valveFault : Bool
  abandoned : Bool
  overwrite : Bool
  deriving DecidableEq, Repr

/-- No flag set (R162). -/
def DeliveryFlags.clear : DeliveryFlags := ⟨false, false, false, false, false⟩

/-- The active delivery (R158). -/
structure ActiveDelivery where
  seq : SeqNo
  product : Nat
  route : Route
  ordered : Nat
  delivered : Nat
  start : Nat
  countAtOpening : Count32
  atCloseRequest : Option Nat
  flags : DeliveryFlags
  closePending : Bool
  deriving DecidableEq, Repr

/-- The delivery candidate (R158, R160) with the product and ordered volume that its skip event carries (R161). -/
structure Candidate where
  seq : SeqNo
  product : Nat
  ordered : Nat
  deriving DecidableEq, Repr

/-- The Delivery Sequencer (R158). `note` is the detection note: a sequence and the count C (R159). -/
structure Dsq where
  state : DeliveryState
  active : Option ActiveDelivery
  deliveredThrough : Option SeqNo
  note : Option (SeqNo × Nat)
  candidate : Option Candidate
  deriving DecidableEq, Repr

/-- A delivery record (R165). -/
structure DeliveryRecord where
  seq : SeqNo
  product : Nat
  route : Route
  ordered : Nat
  delivered : Nat
  atCloseRequest : Nat
  start : Nat
  finish : Nat
  countAtOpening : Count32
  countAtEnd : Count32
  flags : DeliveryFlags
  deriving DecidableEq, Repr

/-! ### Valve driver (chapter 10) -/

/-- The command latch of a route (R172). -/
inductive Latch where
  | none | opened | closed
  deriving DecidableEq, Repr

/-- The confirmed state of a route (R171). -/
inductive Confirmed where
  | opened | closed | travel | fault
  deriving DecidableEq, Repr

/-- One route of VLD (R171, R172). `travel` is the travel flag and its timer in one: the due time of the timer while
the flag is set. `startupClose` marks a start-up close in travel, whose outcome is reported to no block (R175). -/
structure RouteState where
  latch : Latch
  travel : Option Nat
  faultMark : Bool
  openLimit : Bool
  closeLimit : Bool
  startupClose : Bool
  deriving DecidableEq, Repr

/-- A route at power-on reset with both limit inputs not shown (R172, log 12). -/
def RouteState.reset : RouteState where
  latch := .none
  travel := none
  faultMark := false
  openLimit := false
  closeLimit := false
  startupClose := false

/-- What the requester of a switch wants back with its outcome (R144): the kind of the action, the number of the
record it concerns, and whether it was a RELEASE_TO made from UNKNOWN with no route in use. -/
structure SwitchTag where
  kind : ActionKind
  record : Option Nat
  fromUnknown : Bool
  deriving DecidableEq, Repr

/-- A requested switch (R176). -/
structure SwitchRequest where
  target : Route
  tag : SwitchTag
  deriving DecidableEq, Repr

/-- The phase of a switch, MAKE or BREAK (R176). -/
inductive Phase where
  | making | breaking
  deriving DecidableEq, Repr

/-- The switch in flight (R176, R178): `closing` lists the closes of BREAK that have not ended, `anyFault` says
that one of them faulted. -/
structure InFlight where
  request : SwitchRequest
  oldRoute : Option Route
  phase : Phase
  closing : List Route
  anyFault : Bool
  deriving DecidableEq, Repr

/-- How a switch ends (R176, R177): `abandoned` names the route on which the stream was left, if any. -/
inductive SwitchResult where
  | completed
  | abandoned (left : Option Route)
  | bothOpen
  deriving DecidableEq, Repr

/-- The outcome VLD reports to the block that requested the switch (R176). -/
structure SwitchOutcome where
  request : SwitchRequest
  result : SwitchResult
  deriving DecidableEq, Repr

/-- The Valve Driver (R172, R176, R179, R180). -/
structure Vld where
  routes : PerRoute RouteState
  current : Option Route
  inFlight : Option InFlight
  waiting : List SwitchRequest
  startTimer : Option Nat
  startRead : Bool
  deriving DecidableEq, Repr

/-! ### Launch scheduler and hold unit (chapter 11) -/

/-- A launch order (R183). -/
structure Order where
  product : Nat
  density : Nat
  nominal : Nat
  deliveries : List DeliveryRec
  deriving DecidableEq, Repr

/-- The running batch (R183): line fill while `seq` is absent. -/
structure Running where
  seq : Option SeqNo
  product : Option Nat
  nominal : Nat
  deliveries : List DeliveryRec
  source : Option Route
  launched : Nat
  deriving DecidableEq, Repr

/-- Line fill with launched count 0 and no source route (R183). -/
def Running.lineFill : Running where
  seq := none
  product := none
  nominal := 0
  deliveries := []
  source := none
  launched := 0

/-- An entry of the hold table (R192): key (station, product) and expiry time in ms. -/
structure Hold where
  station : Nat
  product : Nat
  expiry : Nat
  deriving DecidableEq, Repr

/-- The Launch Scheduler (R183). `switching` is the changeover state SWITCHING. -/
structure Lsc where
  orders : List Order
  running : Running
  nextSeq : Option SeqNo
  switching : Bool
  faultMark : Bool
  holds : List Hold
  deriving DecidableEq, Repr

/-- The hold state of one product code and its refresh timer (R194, R195). -/
structure HoldSlot where
  active : Bool
  refreshTimer : Option Nat
  deriving DecidableEq, Repr

/-- The Hold Unit (R194): `slots` holds the 16 product codes 0..15 in order. -/
structure Hlu where
  headrooms : PerRoute (Option Nat)
  stale : Bool
  staleTimer : Option Nat
  slots : List HoldSlot
  deriving DecidableEq, Repr

/-! ### Station port (chapter 12) -/

/-- The alarms (R205). -/
inductive Alarm where
  | configAdjusted | densityFault | trainFull | trainGap | missedInterface | shortBatch | productMismatch
  | untrackedInterface | noRoute | valveFault | routeUnknown | rxOverrun | txOverflow | fwdDrop | linkLost
  | lineNoisy | stationConflict | peerTableFull | holdConflict | statusStale | eventsLost
  deriving DecidableEq, Repr

/-- Why a delivery was skipped (R203). -/
inductive SkipReason where
  | noRoute | passed
  deriving DecidableEq, Repr

/-- The events (R203) with their fields. -/
inductive Event where
  | alarm (bit : Nat) (detail : Nat) (lost : Option Nat)
  | trainSynced
  | trainUnsynced
  | trimChanged (old new residual : Int)
  | referenceChanged (old new : Option Nat)
  | deliveryJump (station : Nat) (old new delta : Count32)
  | cutClosed (first : SeqNo) (last : Option SeqNo) (flags : CutFlags)
  | deliveryOpened (seq : SeqNo) (product : Nat) (route : Route) (ordered : Nat)
  | deliveryClosed (seq : SeqNo) (delivered : Nat) (flags : DeliveryFlags)
  | deliverySkipped (seq : SeqNo) (product ordered : Nat) (reason : SkipReason)
  | launched (seq : SeqNo) (product : Nat) (prior : Option (SeqNo × Nat)) (count : Nat) (outcome : SwitchResult)
  | resync
  deriving DecidableEq, Repr

/-- A queued event with the time at which it was queued (R203). -/
structure QueuedEvent where
  time : Nat
  event : Event
  deriving DecidableEq, Repr

/-- A record of the cut log (R204). -/
inductive LogRecord where
  | cut (r : CutRecord)
  | delivery (r : DeliveryRecord)
  deriving DecidableEq, Repr

/-- The Station Port (R198 to R206). `response` is the response of the present transaction; `readingEvent` and
`readingRecord` mark that the head event or the head record is being clocked out (R201). -/
structure Spc where
  events : List QueuedEvent
  lostCount : Nat
  lostOwed : Bool
  cutLog : List LogRecord
  alarms : BitVec 32
  response : List Byte
  readingEvent : Bool
  readingRecord : Bool
  deriving DecidableEq, Repr

/-! ### The whole machine -/

/-- The state of the KT220. `pending` is the queue of waiting commands, first in first out; `clock` counts
microseconds of the chip time base (log 2); `choices` counts the free orders used (log 7). -/
structure State where
  pending : List Instr
  clock : Nat
  choices : Nat
  cfl : Cfl
  mtr : Mtr
  trs : Trs
  tke : Tke
  dsu : Dsu
  prt : Prt
  tlc : Tlc
  csq : Csq
  dsq : Dsq
  vld : Vld
  lsc : Lsc
  hlu : Hlu
  spc : Spc
  deriving DecidableEq, Repr

/-- Why a step faults: never. The block has no exception entry, and every command of the table has an effect the
manual gives (NOTES.md, Stops); the type has no constructor. -/
inductive Fault where
  deriving DecidableEq, Repr

/-- Why a step is refused. -/
inductive Refusal where
  /-- Raised by `exec` for a command that has no meaning in the model; safe: the run stops. No arm uses it. -/
  | notModelled (mnemonic : String)
  deriving DecidableEq, Repr

/-- CFL at power-on reset: LOADING, nothing read or published (R207). -/
def Cfl.reset : Cfl where
  load := .loading
  reading := false
  fault := none
  published := .unpublished
  adjusted := []

/-- MTR at power-on reset (R37). -/
def Mtr.reset : Mtr where
  fine := 0
  count := 0
  deliveryFine := 0
  deliveryCount := 0
  trim := 0
  nudges := []

/-- TRS at power-on reset (R1, R8, R117, R123, R128). -/
def Trs.reset : Trs where
  train := []
  sync := .unsynced
  attempts := 0
  transferTimer := none
  adopted := none
  held := []
  reAskTimer := none
  askDue := false
  answer := []
  learnTimer := none
  learned := none

/-- TKE at power-on reset (R62). -/
def Tke.reset : Tke := ⟨0, 0⟩

/-- DSU at power-on reset (R70). -/
def Dsu.reset : Dsu where
  receiver := .hunt
  window := []
  fill := 0
  average := none
  lastSample := none
  healthy := false
  rejectRun := 0
  goodRun := 0
  silenceTimer := none
  departureRun := 0

/-- PRT at power-on reset (R97). -/
def Prt.reset : Prt := ⟨[], none⟩

/-- TLC at power-on reset (R116). -/
def Tlc.reset : Tlc where
  upPort := .reset
  downPort := .reset
  rxQueue := []
  beaconTimer := none
  restartCount := 0

/-- CSQ at power-on reset (R133). -/
def Csq.reset : Csq where
  state := .unknown
  routeInUse := none
  cutThrough := none
  record := none
  queue := []
  settleRemaining := 0
  lastSource := none
  nextNumber := 0

/-- DSQ at power-on reset (R158). -/
def Dsq.reset : Dsq where
  state := .idle
  active := none
  deliveredThrough := none
  note := none
  candidate := none

/-- VLD at power-on reset (R172, R181); the limit inputs are pins and are named in log 12. -/
def Vld.reset : Vld where
  routes := .fill .reset
  current := none
  inFlight := none
  waiting := []
  startTimer := none
  startRead := false

/-- LSC at power-on reset (R183). -/
def Lsc.reset : Lsc where
  orders := []
  running := .lineFill
  nextSeq := none
  switching := false
  faultMark := false
  holds := []

/-- HLU at power-on reset (R194). -/
def Hlu.reset : Hlu where
  headrooms := .fill none
  stale := false
  staleTimer := none
  slots := List.replicate 16 ⟨false, none⟩

/-- SPC at power-on reset (R203 to R205). -/
def Spc.reset : Spc where
  events := []
  lostCount := 0
  lostOwed := false
  cutLog := []
  alarms := 0
  response := []
  readingEvent := false
  readingRecord := false

/-- The machine right after reset. -/
def State.reset : State where
  pending := []
  clock := 0
  choices := 0
  cfl := .reset
  mtr := .reset
  trs := .reset
  tke := .reset
  dsu := .reset
  prt := .reset
  tlc := .reset
  csq := .reset
  dsq := .reset
  vld := .reset
  lsc := .reset
  hlu := .reset
  spc := .reset

end Sys2Proof.Machine
end

