-- ==== Sys2Proof/Machine/Arith.lean ====
section
/-! DEFINITION. The manual's arithmetic (00_scope.md 0.7.1, 0.7.2): serial order of sequences, clamping, the exact
integer square root, and the per-route, per-port and per-product views of the state's tables. -/

namespace Sys2Proof.Machine

/-- Sequence `a` is after `b` when (a − b) mod 65536 lies in 1..32767 (0.7.2). -/
def seqAfter (a b : SeqNo) : Bool := 1 ≤ (a - b).toNat && (a - b).toNat ≤ 32767

/-- The next of `n` is (n + 1) mod 65536 (0.7.2). -/
def seqNext (n : SeqNo) : SeqNo := n + 1

/-- `x` clamped into `lo..hi`. -/
def clampInt (lo hi x : Int) : Int := max lo (min hi x)

/-- `x` clamped into `lo..hi`. -/
def clampNat (lo hi x : Nat) : Nat := max lo (min hi x)

/-- The lowest RLV and position: −2,147,483,648 (R4, R6). -/
def lowestRlv : Int := -2147483648

/-- The highest RLV a field holds: 2,000,000,000 (R2, R16). -/
def highestRlv : Int := 2000000000

/-- Where S and the delivered volume saturate: 4,294,967,295 (R4, R158). -/
def highestCount : Nat := 4294967295

/-- RLV lowered by `n`, saturating at −2,147,483,648 (R43, R45). -/
def lowerRlv (rlv : Int) (n : Nat) : Int := max lowestRlv (rlv - n)

/-- S raised by `n`, saturating at 4,294,967,295 (R43, R45). -/
def raiseS (sinceSnap n : Nat) : Nat := min highestCount (sinceSnap + n)

/-- One binary digit of the root at a time, from the `k`-th down. -/
def isqrtFrom (x : Nat) : Nat → Nat → Nat
  | 0, acc => acc
  | k + 1, acc => if (acc + 2 ^ k) * (acc + 2 ^ k) ≤ x then isqrtFrom x k (acc + 2 ^ k) else isqrtFrom x k acc

/-- isqrt(x): the largest integer n with n × n ≤ x (0.7.1). -/
def isqrt (x : Nat) : Nat := isqrtFrom x (x.log2 / 2 + 1) 0

/-- The route numbers 1..8 (R171). -/
def routeNumber : Route → Nat
  | .r1 => 1 | .r2 => 2 | .r3 => 3 | .r4 => 4 | .r5 => 5 | .r6 => 6 | .r7 => 7 | .r8 => 8

/-- The routes in order (R194). -/
def allRoutes : List Route := [.r1, .r2, .r3, .r4, .r5, .r6, .r7, .r8]

/-- The route of a number, if it is 1..8 (R155). -/
def routeOfNumber : Nat → Option Route
  | 1 => some .r1 | 2 => some .r2 | 3 => some .r3 | 4 => some .r4
  | 5 => some .r5 | 6 => some .r6 | 7 => some .r7 | 8 => some .r8
  | _ => none

/-- The value at a route. -/
def routeGet {α : Type} (t : PerRoute α) : Route → α
  | .r1 => t.r1 | .r2 => t.r2 | .r3 => t.r3 | .r4 => t.r4
  | .r5 => t.r5 | .r6 => t.r6 | .r7 => t.r7 | .r8 => t.r8

/-- The table with one route's value replaced. -/
def routeSet {α : Type} (t : PerRoute α) (r : Route) (a : α) : PerRoute α :=
  match r with
  | .r1 => { t with r1 := a } | .r2 => { t with r2 := a } | .r3 => { t with r3 := a } | .r4 => { t with r4 := a }
  | .r5 => { t with r5 := a } | .r6 => { t with r6 := a } | .r7 => { t with r7 := a } | .r8 => { t with r8 := a }

/-- The state of a port. -/
def portGet (t : Tlc) : Port → PortState
  | .up => t.upPort
  | .down => t.downPort

/-- TLC with one port's state replaced. -/
def portSet (t : Tlc) (p : Port) (x : PortState) : Tlc :=
  match p with
  | .up => { t with upPort := x }
  | .down => { t with downPort := x }

/-- The other port (R105). -/
def otherPort : Port → Port
  | .up => .down
  | .down => .up

/-- The code of a port in events and responses: UP 0, DOWN 1 (R201, R203). -/
def portCode : Port → Nat
  | .up => 0
  | .down => 1

end Sys2Proof.Machine
end

