-- ==== Sys2Proof/Machine/Bytes.lean ====
section
/-! DEFINITION. Bytes: integers most significant byte first (R102, R198, R207), optional fields and lists (R200), and
the three cyclic redundancy checks (R102, R198, R207). -/

namespace Sys2Proof.Machine

/-- `value` in `size` bytes, most significant first. A value too large for the field has free bytes (log 14). -/
def natBytes (size value : Nat) : List Byte :=
  if value < 2 ^ (8 * size) then
    (List.range size).map fun i => BitVec.ofNat 8 (value / 2 ^ (8 * (size - 1 - i)))
  else
    (List.range size).map (Config.freeByte value)

/-- A signed value in `size` bytes, two's complement, most significant first (R103, R200). -/
def intBytes (size : Nat) (value : Int) : List Byte := natBytes size (value % 2 ^ (8 * size)).toNat

/-- A set-or-clear field: one byte of 0 or 1 (R201). -/
def boolBytes (b : Bool) : List Byte := [if b then 1 else 0]

/-- An optional field: a present byte, then the field in full width, 0 when absent (R200). -/
def optBytes {α : Type} (enc : α → List Byte) (zero : List Byte) : Option α → List Byte
  | some a => 1 :: enc a
  | none => 0 :: zero

/-- `size` zero bytes. -/
def zeroBytes (size : Nat) : List Byte := List.replicate size 0

/-- An optional number (R200). -/
def optNat (size : Nat) : Option Nat → List Byte := optBytes (natBytes size) (zeroBytes size)

/-- A list: its count in one byte, then its items (R200). -/
def listBytes {α : Type} (enc : α → List Byte) (l : List α) : List Byte := natBytes 1 l.length ++ l.flatMap enc

/-- A set of flags as one byte, bit 0 first (R200, R201). -/
def flagNat : List Bool → Nat
  | [] => 0
  | b :: rest => (if b then 1 else 0) + 2 * flagNat rest

/-- The number that bytes spell, most significant first. -/
def natOfBytes (bytes : List Byte) : Nat := bytes.foldl (fun acc b => acc * 256 + b.toNat) 0

/-- The number in `size` bytes at `offset`. -/
def natAt (bytes : List Byte) (offset size : Nat) : Nat := natOfBytes ((bytes.drop offset).take size)

/-- The signed number in `size` bytes at `offset`, two's complement. -/
def intAt (bytes : List Byte) (offset size : Nat) : Int :=
  if natAt bytes offset size < 2 ^ (8 * size - 1) then (natAt bytes offset size : Int)
  else (natAt bytes offset size : Int) - 2 ^ (8 * size)

/-- `n` steps of a division register, most significant bit first. -/
def crcShift {w : Nat} (poly : BitVec w) : Nat → BitVec w → BitVec w
  | 0, c => c
  | n + 1, c => crcShift poly n (if c.msb then (c <<< 1) ^^^ poly else c <<< 1)

/-- One byte taken into a cyclic redundancy check, most significant bit first. -/
def crcByte {w : Nat} (poly : BitVec w) (c : BitVec w) (b : Byte) : BitVec w :=
  crcShift poly 8 (c ^^^ ((b.setWidth w) <<< (w - 8)))

/-- CRC-8 of the station port: x^8 + x^2 + x + 1, initial value 00, no final inversion (R198). -/
def crc8 (bytes : List Byte) : BitVec 8 := bytes.foldl (crcByte 0x07#8) 0

/-- CRC-16 of a telegram: x^16 + x^12 + x^5 + 1, initial value FFFF, no final inversion (R102). -/
def crc16 (bytes : List Byte) : BitVec 16 := bytes.foldl (crcByte 0x1021#16) 0xFFFF#16

/-- CRC-32 of the configuration record: 04C11DB7, initial FFFFFFFF, final inversion (R207). -/
def crc32 (bytes : List Byte) : BitVec 32 := ~~~ (bytes.foldl (crcByte 0x04C11DB7#32) 0xFFFFFFFF#32)

end Sys2Proof.Machine
end

