-- ==== Sys2Proof/Machine/Flags.lean ====
section
/-! DEFINITION. The part's flags: the alarm bits (R205), the interrupt output (R206), LINK (R100), and the flag bytes of
records (R136, R165). -/

namespace Sys2Proof.Machine

/-- The bit of an alarm (R205). Bit 11 names no alarm. -/
def Alarm.bit : Alarm → Nat
  | .configAdjusted => 0
  | .densityFault => 1
  | .trainFull => 2
  | .trainGap => 3
  | .missedInterface => 4
  | .shortBatch => 5
  | .productMismatch => 6
  | .untrackedInterface => 7
  | .noRoute => 8
  | .valveFault => 9
  | .routeUnknown => 10
  | .rxOverrun => 12
  | .txOverflow => 13
  | .fwdDrop => 14
  | .linkLost => 15
  | .lineNoisy => 16
  | .stationConflict => 17
  | .peerTableFull => 18
  | .holdConflict => 19
  | .statusStale => 20
  | .eventsLost => 21

/-- The latched set with one alarm's latch set (R205). -/
def setAlarmBit (alarms : BitVec 32) (a : Alarm) : BitVec 32 := alarms ||| (1#32 <<< a.bit)

/-- The latched set without the latches whose bits are set (ACK_ALARMS, R205). -/
def clearAlarmBits (alarms bits : BitVec 32) : BitVec 32 := alarms &&& ~~~ bits

/-- Alarm `a` is latched. -/
def alarmLatched (s : State) (a : Alarm) : Bool := s.spc.alarms.getLsbD a.bit

/-- INT is asserted, INTN low (R206): in RUN by the event count against the watermark or by an unmasked latched alarm,
throughout CONFIG_FAULT, and not in LOADING. -/
def intAsserted (s : State) : Bool :=
  match s.cfl.load with
  | .loading => false
  | .configFault => true
  | .run => s.cfl.published.eventWatermark ≤ s.spc.events.length
      || (s.spc.alarms &&& ~~~ s.cfl.published.alarmMask) != 0

/-- LINK is asserted from RUN until the next power-on reset (R100). -/
def linkAsserted (s : State) : Bool := s.cfl.load == .run

/-- The flags of a cut record, bits from bit 0 in the order of R136 (R200). -/
def cutFlagsNat (f : CutFlags) : Nat :=
  flagNat [f.shortBatch, f.missed, f.mismatch, f.densityLost, f.valveFault, f.forced, f.abandoned, f.overwrite]

/-- The flags of a delivery record, bits from bit 0 in the order of R165 (R200). -/
def deliveryFlagsNat (f : DeliveryFlags) : Nat :=
  flagNat [f.short, f.commanded, f.valveFault, f.abandoned, f.overwrite]

end Sys2Proof.Machine
end

