-- ==== Sys2Proof/Machine/Ops.lean ====
section
/-! DEFINITION. The operations every block uses: time (log 2), roles, the free orders (log 7), the event queue (R203),
the alarms (R205), the cut log (R204) and the station port's response (R198). -/

namespace Sys2Proof.Machine

/-- The chip time base in ms (0.7.1). -/
def State.now (s : State) : Nat := s.clock / 1000

/-- The moment a timer is due: the clock moves to it when it is behind it (log 2). -/
def State.advanceTo (s : State) (due : Nat) : State := { s with clock := max s.clock (due * 1000) }

/-- The published configuration. -/
def State.cfg (s : State) : Published := s.cfl.published

/-- The Configuration Loader is in RUN. -/
def State.running (s : State) : Bool := s.cfl.load == .run

/-- The chip is in RUN with role `r`. -/
def State.hasRole (s : State) (r : Role) : Bool := s.running && s.cfl.published.role == some r

/-- The chip is in RUN with a role other than ORIGIN. -/
def State.nonOrigin (s : State) : Bool := s.running && s.cfl.published.role != some .origin

/-- Two effects of one moment whose order the rules leave open, in a free order (log 7). -/
def inEitherOrder (f g : State → State) (s : State) : State :=
  if Config.freeOrder s.choices then g (f { s with choices := s.choices + 1 })
  else f (g { s with choices := s.choices + 1 })

/-- An event offered to the queue (R203): it joins the tail below 64; at 64 it is discarded, the lost count rises,
EVENTS_LOST is latched and the lost notice is owed. -/
def offerEvent (e : Event) (s : State) : State :=
  if s.spc.events.length < 64 then
    { s with spc := { s.spc with events := s.spc.events ++ [⟨s.now, e⟩] } }
  else
    { s with spc := { s.spc with
        lostCount := min 65535 (s.spc.lostCount + 1)
        alarms := setAlarmBit s.spc.alarms .eventsLost
        lostOwed := true } }

/-- An alarm latched with its ALARM event (R205); `detail` is the port code or route number it names, else 0. -/
def raiseAlarm (a : Alarm) (detail : Nat) (s : State) : State :=
  offerEvent (.alarm a.bit detail none) { s with spc := { s.spc with alarms := setAlarmBit s.spc.alarms a } }

/-- The owed ALARM event of EVENTS_LOST joins the queue at the first moment the queue has room (R203). -/
def queueLostNotice (s : State) : State :=
  if s.spc.lostOwed && s.spc.events.length < 64 then
    { s with spc := { s.spc with
        events := s.spc.events ++ [⟨s.now, .alarm Alarm.eventsLost.bit 0 (some s.spc.lostCount)⟩]
        lostOwed := false } }
  else s

/-- A record with the OVERWRITE flag (R204). -/
def LogRecord.withOverwrite : LogRecord → LogRecord
  | .cut r => .cut { r with flags := { r.flags with overwrite := true } }
  | .delivery r => .delivery { r with flags := { r.flags with overwrite := true } }

/-- The cut log holds its 16 records (R204). -/
def logFull (s : State) : Bool := 16 ≤ s.spc.cutLog.length

/-- A record handed to the cut log (R204): at 16 records it takes OVERWRITE and the oldest record goes, with the mark
of a READ_CUT that was clocking it out (R201). -/
def appendToLog (r : LogRecord) (s : State) : State :=
  if s.spc.cutLog.length < 16 then
    { s with spc := { s.spc with cutLog := s.spc.cutLog ++ [r] } }
  else
    { s with spc := { s.spc with
        cutLog := s.spc.cutLog.drop 1 ++ [r.withOverwrite]
        readingRecord := false } }

/-! ### Responses of the station port (R198) -/

/-- The status of a response (R198). -/
inductive RespStatus where
  | ok | empty | refused
  deriving DecidableEq, Repr

/-- The reason byte of a REFUSED response (R198). -/
inductive Reason where
  | notRole | queueFull | badField | badCrc | notState
  deriving DecidableEq, Repr

/-- OK 00, EMPTY 01, REFUSED 02 (R198). -/
def RespStatus.code : RespStatus → Byte
  | .ok => 0
  | .empty => 1
  | .refused => 2

/-- NOT_ROLE 1, QUEUE_FULL 2, BAD_FIELD 3, BAD_CRC 4, NOT_STATE 5 (R198). -/
def Reason.code : Reason → Byte
  | .notRole => 1
  | .queueFull => 2
  | .badField => 3
  | .badCrc => 4
  | .notState => 5

/-- A response: status, payload length, payload, CRC-8 (R198). -/
def responseBytes (status : RespStatus) (payload : List Byte) : List Byte :=
  (status.code :: (natBytes 2 payload.length ++ payload))
    ++ [crc8 (status.code :: (natBytes 2 payload.length ++ payload))]

/-- The response of the present transaction; a new transaction ends what the last one was reading (log 27). -/
def respond (status : RespStatus) (payload : List Byte) (s : State) : State :=
  { s with spc := { s.spc with
      response := responseBytes status payload
      readingEvent := false
      readingRecord := false } }

/-- A refused request (R199). -/
def refuse (why : Reason) (s : State) : State := respond .refused [why.code] s

/-- The third check of R199: outside RUN every command but READ_STATUS is refused with NOT_STATE. -/
def whenRunning (body : State → State) (s : State) : State :=
  if s.running then body s else refuse .notState s

end Sys2Proof.Machine
end

