-- ==== Sys2Proof/Machine/Operands.lean ====
section
/-! DEFINITION. The fields of telegrams (R102, R103): a frame's bytes, the test for a good frame, and the payloads of
the six kinds, read and built. -/

namespace Sys2Proof.Machine

/-! ### Frames (R102, R103) -/

/-- The kinds of telegrams and their codes (R102). -/
inductive Kind where
  | beacon | launch | passage | hold | ask | item
  deriving DecidableEq, Repr

/-- BEACON 1, LAUNCH 2, PASSAGE 3, HOLD 4, ASK 5, ITEM 6 (R102). -/
def Kind.code : Kind → Byte
  | .beacon => 1
  | .launch => 2
  | .passage => 3
  | .hold => 4
  | .ask => 5
  | .item => 6

/-- The kind of a kind byte: bits 7..4; bits 3..0 are not judged (R102). -/
def kindOfByte (b : Byte) : Option Kind :=
  match b.toNat / 16 with
  | 1 => some .beacon
  | 2 => some .launch
  | 3 => some .passage
  | 4 => some .hold
  | 5 => some .ask
  | 6 => some .item
  | _ => none

/-- The kind of a frame. -/
def Frame.kindOf (f : Frame) : Option Kind := kindOfByte f.kind

/-- Hops remaining: bits 5..0 (R102). -/
def Frame.hopCount (f : Frame) : Nat := f.hops.toNat % 64

/-- Bytes 1 to 4 + length of a frame (R102). -/
def Frame.body (f : Frame) : List Byte :=
  [f.kind, f.station, f.hops, BitVec.ofNat 8 f.payload.length] ++ f.payload

/-- The whole frame with its CRC-16, high byte first (R102). -/
def Frame.bytes (f : Frame) : List Byte := f.body ++ natBytes 2 (crc16 f.body).toNat

/-- The payload length that a kind's layout asks for, reading k, n and the prior present byte from the payload; none
when the payload is too short to read them or the prior present byte is neither 0 nor 1 (R103). -/
def payloadLength (kind : Kind) (p : List Byte) : Option Nat :=
  match kind with
  | .beacon => some 14
  | .passage => some 3
  | .hold => some 2
  | .ask => some 7
  | .launch =>
    if p.length < 10 then none
    else
      match p[10 + 5 * natAt p 9 1]? with
      | some 0 => some (11 + 5 * natAt p 9 1)
      | some 1 => some (17 + 5 * natAt p 9 1)
      | _ => none
  | .item =>
    if p.length < 3 then none
    else if natAt p 2 1 = 0 then some 3
    else if p.length < 22 then none
    else some (26 + 5 * natAt p 21 1)

/-- The frame that the bytes between START and END spell, if it is a good frame (R103): at least 6 bytes, CRC-16
right, length field right, kind 1..6, payload length right for the kind. -/
def goodFrame (bytes : List Byte) : Option Frame :=
  if bytes.length < 6 then none
  else if natAt bytes (bytes.length - 2) 2 ≠ (crc16 (bytes.take (bytes.length - 2))).toNat then none
  else if natAt bytes 3 1 ≠ bytes.length - 6 then none
  else
    match kindOfByte (bytes.getD 0 0) with
    | none => none
    | some kind =>
      if payloadLength kind ((bytes.drop 4).take (bytes.length - 6)) = some (bytes.length - 6) then
        some ⟨bytes.getD 0 0, bytes.getD 1 0, bytes.getD 2 0, (bytes.drop 4).take (bytes.length - 6)⟩
      else none

/-- The copy of a frame that is forwarded: hops − 1 with bits 7..6 written as 0; its CRC-16 is computed afresh by
`Frame.bytes` (R105). -/
def Frame.forwarded (f : Frame) : Frame := { f with hops := BitVec.ofNat 8 (f.hopCount - 1) }

/-! ### Codes (R103) -/

/-- The role of a code: ORIGIN 1, RELAY 2, DELIVERY 3, TERMINUS 4 (R103, R207). -/
def roleOfCode : Nat → Option Role
  | 1 => some .origin
  | 2 => some .relay
  | 3 => some .delivery
  | 4 => some .terminus
  | _ => none

/-- The code of a role (R103). -/
def Role.code : Role → Nat
  | .origin => 1
  | .relay => 2
  | .delivery => 3
  | .terminus => 4

/-- DETECTED 1, ESTIMATED 2, MISSED 3 (R103). -/
def PassageKind.code : PassageKind → Nat
  | .detected => 1
  | .estimated => 2
  | .missed => 3

/-- The passage kind of a code (R103). -/
def passageKindOfCode : Nat → Option PassageKind
  | 1 => some .detected
  | 2 => some .estimated
  | 3 => some .missed
  | _ => none

/-- A sequence in the two bytes at `offset`. -/
def seqAt (p : List Byte) (offset : Nat) : SeqNo := BitVec.ofNat 16 (natAt p offset 2)

/-- A sequence in two bytes. -/
def seqBytes (n : SeqNo) : List Byte := natBytes 2 n.toNat

/-! ### Delivery lists (R3) -/

/-- `k` delivery records from `offset`, five bytes each (R103). -/
def deliveriesAt (p : List Byte) (offset k : Nat) : List DeliveryRec :=
  (List.range k).map fun i => ⟨natAt p (offset + 5 * i) 1, natAt p (offset + 5 * i + 1) 4⟩

/-- Delivery records as sent (R103). -/
def deliveryBytes (d : DeliveryRec) : List Byte := natBytes 1 d.station ++ natBytes 4 d.volume

/-- A delivery list that meets R3 and the checks of R11: 0 to 6 records, each a station 1..250 and a volume
1..2,000,000,000 L, no station twice. -/
def deliveriesValid (l : List DeliveryRec) : Bool :=
  l.length ≤ 6
    && l.all (fun d => 1 ≤ d.station && d.station ≤ 250 && 1 ≤ d.volume && d.volume ≤ 2000000000)
    && (l.map (·.station)).Nodup

/-! ### Payloads (R103) -/

/-- A BEACON's fields. -/
structure BeaconMsg where
  role : Nat
  mark : Nat
  period : Nat
  synced : Bool
  densityHealthy : Bool
  restarted : Bool
  newestPresent : Bool
  count : Count32
  newest : SeqNo
  entryCount : Nat
  deriving DecidableEq, Repr

/-- The fields of a BEACON payload (R103). -/
def readBeacon (p : List Byte) : BeaconMsg where
  role := natAt p 0 1
  mark := natAt p 1 4
  period := natAt p 5 1
  synced := (p.getD 6 0).getLsbD 0
  densityHealthy := (p.getD 6 0).getLsbD 1
  restarted := (p.getD 6 0).getLsbD 2
  newestPresent := (p.getD 6 0).getLsbD 3
  count := BitVec.ofNat 32 (natAt p 7 4)
  newest := seqAt p 11
  entryCount := natAt p 13 1

/-- A BEACON payload (R103). The newest sequence is sent whether or not the newest-present flag is set; what it is when the flag
is clear is its builder's, `beaconOf` (log 45). -/
def beaconPayload (b : BeaconMsg) : List Byte :=
  natBytes 1 b.role ++ natBytes 4 b.mark ++ natBytes 1 b.period
    ++ natBytes 1 (flagNat [b.synced, b.densityHealthy, b.restarted, b.newestPresent])
    ++ natBytes 4 b.count.toNat ++ seqBytes b.newest ++ natBytes 1 b.entryCount

/-- A LAUNCH's fields. -/
structure LaunchMsg where
  seq : SeqNo
  product : Nat
  density : Nat
  nominal : Nat
  deliveries : List DeliveryRec
  prior : Option (SeqNo × Nat)
  deriving DecidableEq, Repr

/-- The fields of a LAUNCH payload (R103). -/
def readLaunch (p : List Byte) : LaunchMsg where
  seq := seqAt p 0
  product := natAt p 2 1
  density := natAt p 3 2
  nominal := natAt p 5 4
  deliveries := deliveriesAt p 10 (natAt p 9 1)
  prior :=
    if natAt p (10 + 5 * natAt p 9 1) 1 = 1 then
      some (seqAt p (11 + 5 * natAt p 9 1), natAt p (13 + 5 * natAt p 9 1) 4)
    else none

/-- A LAUNCH payload (R103). -/
def launchPayload (m : LaunchMsg) : List Byte :=
  seqBytes m.seq ++ natBytes 1 m.product ++ natBytes 2 m.density ++ natBytes 4 m.nominal
    ++ listBytes deliveryBytes m.deliveries
    ++ (match m.prior with
      | some (n, v) => natBytes 1 1 ++ seqBytes n ++ natBytes 4 v
      | none => natBytes 1 0)

/-- The checks of R11. -/
def launchValid (m : LaunchMsg) : Bool :=
  1 ≤ m.product && m.product ≤ 15
    && 5000 ≤ m.density && m.density ≤ 11000
    && 100000 ≤ m.nominal && m.nominal ≤ 2000000000
    && deliveriesValid m.deliveries
    && (match m.prior with
      | some (_, v) => v ≤ 2000000000
      | none => true)

/-- A PASSAGE payload (R103). -/
def passagePayload (n : SeqNo) (k : PassageKind) : List Byte := seqBytes n ++ natBytes 1 k.code

/-- A HOLD payload: product and duration in minutes (R103). -/
def holdPayload (product minutes : Nat) : List Byte := natBytes 1 product ++ natBytes 1 minutes

/-- An ASK payload (R103). R103 gives the sequence field no value when the newest is absent; that it is sent as 0 is the
model's choice (log 45). -/
def askPayload (mark : Nat) (newest : Option SeqNo) : List Byte :=
  natBytes 4 mark ++ optBytes seqBytes (zeroBytes 2) newest

/-- An ITEM's fields; `body` is absent when the count n is 0. -/
structure ItemBody where
  seq : SeqNo
  product : Nat
  density : Nat
  nominal : Nat
  launchedPresent : Nat
  launchedField : Nat
  remaining : Nat
  deliveries : List DeliveryRec
  position : Int
  deriving DecidableEq, Repr

/-- An ITEM's fields (R103). -/
structure ItemMsg where
  addressee : Nat
  index : Nat
  count : Nat
  body : Option ItemBody
  deriving DecidableEq, Repr

/-- The fields of an ITEM payload (R103). -/
def readItem (p : List Byte) : ItemMsg where
  addressee := natAt p 0 1
  index := natAt p 1 1
  count := natAt p 2 1
  body :=
    if natAt p 2 1 = 0 then none
    else some {
      seq := seqAt p 3
      product := natAt p 5 1
      density := natAt p 6 2
      nominal := natAt p 8 4
      launchedPresent := natAt p 12 1
      launchedField := natAt p 13 4
      remaining := natAt p 17 4
      deliveries := deliveriesAt p 22 (natAt p 21 1)
      position := intAt p (22 + 5 * natAt p 21 1) 4 }

/-- The launched volume that an item carries, if any (R124). -/
def ItemBody.launched (b : ItemBody) : Option Nat := if b.launchedPresent = 1 then some b.launchedField else none

/-- The payload checks of R124. -/
def itemValid (m : ItemMsg) : Bool :=
  m.count ≤ 40
    && (if m.count = 0 then m.index == 1 else 1 ≤ m.index && m.index ≤ m.count)
    && (match m.body with
      | none => true
      | some b =>
        1 ≤ b.product && b.product ≤ 15
          && 5000 ≤ b.density && b.density ≤ 11000
          && 100000 ≤ b.nominal && b.nominal ≤ 2000000000
          && (b.launchedPresent == 0 || (b.launchedPresent == 1 && b.launchedField ≤ 2000000000))
          && b.remaining ≤ 2000000000
          && deliveriesValid b.deliveries)

/-- Position P as it is carried in an ITEM and reported: clamped into −2,147,483,648..2,147,483,647 (R6). -/
def clampPosition (p : Int) : Int := clampInt lowestRlv 2147483647 p

/-- The ITEM that carries an entry at position `position` (R23, R103). R103 and R122 give the launched-volume field no value
when its present byte is 0; that it is sent as 0 is the model's choice (log 45). -/
def itemPayload (addressee index count : Nat) (e : Entry) (position : Int) : List Byte :=
  natBytes 1 addressee ++ natBytes 1 index ++ natBytes 1 count
    ++ seqBytes e.seq ++ natBytes 1 e.product ++ natBytes 2 e.density ++ natBytes 4 e.nominal
    ++ optNat 4 e.launched ++ natBytes 4 e.remaining
    ++ listBytes deliveryBytes e.deliveries ++ intBytes 4 (clampPosition position)

/-- The empty answer: index 1, count 0 (R122). -/
def emptyAnswerPayload (addressee : Nat) : List Byte := natBytes 1 addressee ++ natBytes 1 1 ++ natBytes 1 0

end Sys2Proof.Machine
end

