-- ==== Sys2Proof/Machine/Line.lean ====
section
/-! DEFINITION. The Trackline Controller's operations (chapter 6): class queues, the arbiter, own and forwarded telegrams,
and the noise state. -/

namespace Sys2Proof.Machine

/-- One port's state changed. -/
def modifyPort (p : Port) (f : PortState → PortState) (s : State) : State :=
  { s with tlc := portSet s.tlc p (f (portGet s.tlc p)) }

/-- The port is UP (R99). -/
def portUp (s : State) (p : Port) : Bool := (portGet s.tlc p).link == .up

/-- At least one port is UP. -/
def anyPortUp (s : State) : Bool := portUp s .up || portUp s .down

/-- The three classes (R108). -/
inductive QueueClass where
  | urgent | routine | bulk
  deriving DecidableEq, Repr

/-- The class of a kind (R108). -/
def Kind.queueClass : Kind → QueueClass
  | .passage => .urgent
  | .hold => .urgent
  | .launch => .urgent
  | .beacon => .routine
  | .ask => .bulk
  | .item => .bulk

/-- The capacity of a class queue (R108). -/
def QueueClass.capacity : QueueClass → Nat
  | .urgent => 8
  | .routine => 8
  | .bulk => 24

/-- A port's queue of a class. -/
def PortState.queue (x : PortState) : QueueClass → List Frame
  | .urgent => x.urgent
  | .routine => x.routine
  | .bulk => x.bulk

/-- A port with a frame at the tail of a class queue. -/
def PortState.enqueue (x : PortState) (c : QueueClass) (f : Frame) : PortState :=
  match c with
  | .urgent => { x with urgent := x.urgent ++ [f] }
  | .routine => { x with routine := x.routine ++ [f] }
  | .bulk => { x with bulk := x.bulk ++ [f] }

/-- The symbols of a frame: START, its bytes in order as data symbols, END (R98). -/
def Frame.symbols (f : Frame) : List Symbol := .start :: (f.bytes.map .data ++ [.finish])

/-- The symbols of a frame's slot: the frame and the 16 IDLE symbols that follow it (R98, R111). -/
def Frame.slotSymbols (f : Frame) : List Symbol := f.symbols ++ List.replicate 16 .idle

/-- The time a port spends on one frame, START to the end of the IDLE symbols after it, in microseconds (R111). -/
def slotMicros (f : Frame) : Nat := (f.payload.length + 6 + 2 + 16) * 10

/-- A port begins to send a frame (R110). -/
def PortState.send (x : PortState) (f : Frame) (clock : Nat) : PortState :=
  { x with sending := some ⟨f, clock + slotMicros f⟩ }

/-- The output arbiter of a free port: the head of URGENT, else of ROUTINE, else of BULK, leaves its queue and its sending
begins (R110). A port that is not UP or is sending is not free. -/
def arbitrate (clock : Nat) (x : PortState) : PortState :=
  if x.link = .up ∧ x.sending = none then
    match x.urgent, x.routine, x.bulk with
    | f :: rest, _, _ => { x with urgent := rest }.send f clock
    | [], f :: rest, _ => { x with routine := rest }.send f clock
    | [], [], f :: rest => { x with bulk := rest }.send f clock
    | [], [], [] => x
  else x

/-- The symbol that a port's transmitter sends at the present clock (R98): none while it is dark, in LOADING and CONFIG_FAULT;
in RUN the symbol of the slot that the clock has reached, 10 µs each, while the port is UP and sends a frame, and IDLE whenever
it sends none, in every link state. -/
def transmitted (s : State) (p : Port) : Option Symbol :=
  if s.running then
    match (portGet s.tlc p).link, (portGet s.tlc p).sending with
    | .up, some x => some (x.frame.slotSymbols.getD ((s.clock + slotMicros x.frame - x.busyUntil) / 10) .idle)
    | _, _ => some .idle
  else none

/-- The class queue of `c` on port `p` holds its capacity (R108). -/
def queueFull (s : State) (p : Port) (c : QueueClass) : Bool := c.capacity ≤ ((portGet s.tlc p).queue c).length

/-- A frame placed at the tail of a class queue of a port, or dropped with `dropAlarm` at a full queue (R108). A frame
placed in an empty queue of a free port is taken at once (R110). -/
def placeFrame (dropAlarm : Alarm) (p : Port) (c : QueueClass) (f : Frame) (s : State) : State :=
  if queueFull s p c then raiseAlarm dropAlarm (portCode p) s
  else modifyPort p (fun x => arbitrate s.clock (x.enqueue c f)) s

/-- The copy of an own telegram for one port: none unless the port is UP (R109). -/
def placeOwn (c : QueueClass) (f : Frame) (p : Port) (s : State) : State :=
  if portUp s p then placeFrame .txOverflow p c f s else s

/-- The frame of an own telegram: own station number, hops 63 (R109). -/
def ownFrame (s : State) (k : Kind) (payload : List Byte) : Frame :=
  ⟨k.code <<< 4, BitVec.ofNat 8 s.cfg.station, 63, payload⟩

/-- An own telegram is placed on each port that is UP (R109). Only when both copies are dropped can the order of the two
alarms be seen; it is then free (log 7). -/
def sendOwn (k : Kind) (payload : List Byte) (s : State) : State :=
  if portUp s .up && portUp s .down && queueFull s .up k.queueClass && queueFull s .down k.queueClass then
    inEitherOrder (placeOwn k.queueClass (ownFrame s k payload) .up)
      (placeOwn k.queueClass (ownFrame s k payload) .down) s
  else
    placeOwn k.queueClass (ownFrame s k payload) .down (placeOwn k.queueClass (ownFrame s k payload) .up s)

/-- An own telegram of kind `k` would be placed on port `p`: the port is UP and the class queue has room. -/
def wouldPlace (s : State) (k : Kind) (p : Port) : Bool := portUp s p && !queueFull s p k.queueClass

/-- A good frame with hops above 1 is copied to the other port when that is UP (R105). -/
def forwardFrame (arrival : Port) (k : Kind) (f : Frame) (s : State) : State :=
  if 1 < f.hopCount && portUp s (otherPort arrival) then
    placeFrame .fwdDrop (otherPort arrival) k.queueClass f.forwarded s
  else s

/-- A good frame joins the receive queue, or latches RX_OVERRUN when the queue holds 16 (R106). -/
def placeReceived (arrival : Port) (f : Frame) (s : State) : State :=
  if s.tlc.rxQueue.length < 16 then
    { s with tlc := { s.tlc with rxQueue := s.tlc.rxQueue ++ [⟨arrival, f⟩] } }
  else raiseAlarm .rxOverrun 0 s

/-- The times of bad frames after one more at `now`: those more than 10 s old leave, and at most the 9 newest stay
(R104). -/
def noiseTimes (now : Nat) (times : List Nat) : List Nat :=
  let kept := times.filter (fun t => now ≤ t + 10000) ++ [now]
  kept.drop (kept.length - 9)

/-- A bad frame on a port (R104): its time joins the list, and a CLEAN port whose list reaches 9 becomes NOISY with
LINE_NOISY. -/
def badFrame (p : Port) (s : State) : State :=
  let times := noiseTimes s.now (portGet s.tlc p).badTimes
  if !(portGet s.tlc p).noisy && 9 ≤ times.length then
    raiseAlarm .lineNoisy (portCode p) (modifyPort p (fun x => { x with badTimes := times, noisy := true }) s)
  else modifyPort p (fun x => { x with badTimes := times }) s

/-- The frame at the head of the receive queue, when it is of kind `k` and the chip is in RUN (R107). -/
def headFrame (k : Kind) (s : State) : Option RxFrame :=
  if s.running then
    match s.tlc.rxQueue with
    | f :: _ => if f.frame.kindOf = some k then some f else none
    | [] => none
  else none

/-- The head frame has left the receive queue (R107). -/
def dropReceived (s : State) : State := { s with tlc := { s.tlc with rxQueue := s.tlc.rxQueue.drop 1 } }

end Sys2Proof.Machine
end

