-- ==== Sys2Proof/Machine/Train.lean ====
section
/-! DEFINITION. The Train Store's operations (chapter 1) and the sync state with the ASK that follows leaving SYNCED
(R8, R118). -/

namespace Sys2Proof.Machine

/-! ### Reading the train -/

/-- The entry with sequence `n` (R1: at most one). -/
def findEntry (t : List Entry) (n : SeqNo) : Option Entry := t.find? (fun e => e.seq == n)

/-- The newest entry (R1). -/
def newestEntry (t : List Entry) : Option Entry := t.getLast?

/-- The predecessor of the entry with sequence `n` (R1). -/
def predecessorOf (n : SeqNo) : List Entry → Option Entry
  | a :: b :: rest => if b.seq == n then some a else predecessorOf n (b :: rest)
  | _ => none

/-- The successor of the entry with sequence `n` (R1). -/
def successorOf (n : SeqNo) : List Entry → Option Entry
  | a :: b :: rest => if a.seq == n then some b else successorOf n (b :: rest)
  | _ => none

/-- The batch at the station: the newest PASSED entry (R7). -/
def batchAtStation (t : List Entry) : Option Entry := (t.filter (fun e => e.track == .passed)).getLast?

/-- The position of an entry's leading interface: own mark − RLV (R6). -/
def position (s : State) (e : Entry) : Int := (s.cfg.mark : Int) - e.rlv

/-- The ordered volume of the record of `station` in a delivery list (R3). -/
def orderedAt (station : Nat) (l : List DeliveryRec) : Option Nat :=
  (l.find? (fun d => d.station == station)).map (·.volume)

/-! ### Writing the train -/

/-- The train replaced. When the batch at the station becomes a different entry or none, the departure run becomes 0
(R75). -/
def putTrain (t : List Entry) (s : State) : State :=
  { s with
    trs := { s.trs with train := t }
    dsu := { s.dsu with
      departureRun :=
        if (batchAtStation t).map (·.seq) = (batchAtStation s.trs.train).map (·.seq) then s.dsu.departureRun
        else 0 } }

/-- A train with the entry of sequence `n`, the one that `findEntry` finds, changed. -/
def changeEntry (n : SeqNo) (f : Entry → Entry) : List Entry → List Entry
  | [] => []
  | e :: rest => if e.seq == n then f e :: rest else e :: changeEntry n f rest

/-- The entry with sequence `n` changed. -/
def updateEntry (n : SeqNo) (f : Entry → Entry) (s : State) : State := putTrain (changeEntry n f s.trs.train) s

/-- The launched volume set while it was absent, with the remaining volume adjusted (R13, R16, R18). -/
def Entry.fillLaunched (e : Entry) (v : Nat) : Entry :=
  match e.launched with
  | some _ => e
  | none => { e with launched := some v, remaining := (max 0 ((e.remaining : Int) + v - e.nominal)).toNat }

/-- The remaining volume decreased by `v`, clamped at 0 (R19). -/
def Entry.deliver (e : Entry) (v : Nat) : Entry := { e with remaining := e.remaining - v }

/-- The entries left when every PASSED entry before `n` whose successor is PASSED is removed, judged on the train as it
stood (R20, R21). -/
def removeBefore (n : SeqNo) : List Entry → List Entry
  | a :: b :: rest =>
    if seqAfter n a.seq && a.track == .passed && b.track == .passed then removeBefore n (b :: rest)
    else a :: removeBefore n (b :: rest)
  | l => l

/-! ### Sync state and the ASK (R8, R117, R118) -/

/-- The ASK is built and sent as an own telegram; the attempt begins (R118). -/
def sendAsk (attempt : Nat) (s : State) : State :=
  sendOwn .ask (askPayload s.cfg.mark ((newestEntry s.trs.train).map (·.seq)))
    { s with trs := { s.trs with
        sync := .asking
        attempts := attempt
        adopted := none
        held := []
        transferTimer := some (s.now + 5000)
        reAskTimer := none
        askDue := false } }

/-- An ASK is due now: ask-due set, UNSYNCED, and a port UP, at a running chip whose role is not ORIGIN (R118). -/
def askReady (s : State) : Bool := s.nonOrigin && s.trs.askDue && s.trs.sync == .unsynced && anyPortUp s

/-- The ASK that is due is sent at once (R118). -/
def sendAskIfDue (s : State) : State := if askReady s then sendAsk 1 s else s

/-- A SYNCED chip leaves SYNCED under a gap or a refused insertion; in UNSYNCED, ASKING and SEQ_LEARN the state is kept
(R8, R118). The ORIGIN stays SYNCED (R9). -/
def leaveSynced (s : State) : State :=
  if s.nonOrigin && s.trs.sync == .synced then
    sendAskIfDue { s with trs := { s.trs with sync := .unsynced, askDue := true } }
  else s

/-- A gap: TRAIN_GAP is raised and a SYNCED chip becomes UNSYNCED (R12, R22, R121). -/
def raiseGap (s : State) : State := leaveSynced (raiseAlarm .trainGap 0 s)

/-- An insertion refused for a full train: TRAIN_FULL is raised and a SYNCED chip becomes UNSYNCED (R17). -/
def refuseInsertion (s : State) : State := leaveSynced (raiseAlarm .trainFull 0 s)

/-! ### Insertion (R12 to R17) -/

/-- Room for one entry (R17): below 40 entries the train as it is; at 40 the train without its oldest entry when that
and its successor are PASSED; otherwise none. -/
def roomFor (t : List Entry) : Option (List Entry) :=
  if t.length < 40 then some t
  else
    match t with
    | a :: b :: rest => if a.track == .passed && b.track == .passed then some (b :: rest) else none
    | _ => none

/-- An entry appended from a LAUNCH (R13). -/
def entryOfLaunch (mark : Nat) (m : LaunchMsg) : Entry where
  seq := m.seq
  product := m.product
  density := m.density
  nominal := m.nominal
  launched := none
  remaining := m.nominal
  deliveries := m.deliveries
  rlv := mark
  sinceSnap := 0
  snapMark := none
  snappedByReference := false
  track := .inbound
  kind := none
  short := false
  untrackedFollows := false
  mismatch := false

/-- The entry the Launch Scheduler creates at a changeover (R14). -/
def entryOfOrder (n : SeqNo) (o : Order) : Entry where
  seq := n
  product := o.product
  density := o.density
  nominal := o.nominal
  launched := none
  remaining := o.nominal
  deliveries := o.deliveries
  rlv := 0
  sinceSnap := 0
  snapMark := none
  snappedByReference := false
  track := .passed
  kind := some .detected
  short := false
  untrackedFollows := false
  mismatch := false

/-- RLV = own mark − P, clamped (R16). -/
def rlvOfPosition (mark : Nat) (p : Int) : Int := clampInt lowestRlv highestRlv ((mark : Int) - p)

/-- A new entry inserted from an ITEM (R16). -/
def entryOfItem (mark : Nat) (b : ItemBody) : Entry where
  seq := b.seq
  product := b.product
  density := b.density
  nominal := b.nominal
  launched := b.launched
  remaining := b.remaining
  deliveries := b.deliveries
  rlv := rlvOfPosition mark b.position
  sinceSnap := 0
  snapMark := none
  snappedByReference := false
  track := if rlvOfPosition mark b.position ≤ 0 then .passed else .inbound
  kind := if rlvOfPosition mark b.position ≤ 0 then some .estimated else none
  short := false
  untrackedFollows := false
  mismatch := false

/-- An entry inserted where it is after the entry before it (or the place is the head) and before the entry after it; none
when there is no such place (R15). `prev` is the sequence before the place. Several places meet the test only in a train that
spans more than half the sequence space; R15 does not say which is taken, and the model takes the first from the oldest end
(log 44). -/
def insertBetween (e : Entry) (prev : Option SeqNo) : List Entry → Option (List Entry)
  | [] => none
  | b :: rest =>
    if prev.all (fun p => seqAfter e.seq p) && seqAfter b.seq e.seq then some (e :: b :: rest)
    else (insertBetween e (some b.seq) rest).map (b :: ·)

/-- The train with an item's new entry in its place: appended to an empty train or after the newest, else placed in serial
order (R15). -/
def placeEntry (e : Entry) (t : List Entry) : Option (List Entry) :=
  match newestEntry t with
  | none => some [e]
  | some n => if seqAfter e.seq n.seq then some (t ++ [e]) else insertBetween e none t

/-- The place of a new item would be at the head of the train (R17). -/
def placedAtHead (e : Entry) (t : List Entry) : Bool :=
  match newestEntry t, t with
  | some n, a :: _ => !seqAfter e.seq n.seq && seqAfter a.seq e.seq
  | _, _ => false

end Sys2Proof.Machine
end

