-- ==== Sys2Proof/Machine/Density.lean ====
section
/-! DEFINITION. What DSU and TKE compute on request: the mix fraction (R72), the product check (R74), uncertainty, window
half-width and volume points (R39, R59), and whether the density is usable for an entry's pair (R48). -/

namespace Sys2Proof.Machine

/-- The contrast |ρA − ρB| of two reference densities (R72). -/
def contrast (rhoA rhoB : Nat) : Nat := ((rhoB : Int) - rhoA).natAbs

/-- The distance d of the average from ρA toward ρB, in tenths of kg/m³ (R72). -/
def mixDistance (average rhoA rhoB : Nat) : Int := ((average : Int) - rhoA) * ((rhoB : Int) - rhoA).sign

/-- The mix fraction of an average that is usable (R72), in per-mille. -/
def mixValue (average rhoA rhoB : Nat) : Nat :=
  if mixDistance average rhoA rhoB ≤ 0 then 0
  else min 1000 ((1000 * (mixDistance average rhoA rhoB).toNat + contrast rhoA rhoB / 2) / contrast rhoA rhoB)

/-- DSU's answer to a request for the mix fraction of (ρA, ρB): a value in 0..1000, or none for unusable (R72). -/
def mixFraction (s : State) (rhoA rhoB : Nat) : Option Nat :=
  if contrast rhoA rhoB < s.cfg.minContrast then none
  else if !s.dsu.healthy then none
  else s.dsu.average.map (fun a => mixValue a rhoA rhoB)

/-- DSU's answer to a product check against ρB (R74). -/
def productCheck (s : State) (rhoB : Nat) : ProductCheck :=
  if s.dsu.healthy then
    match s.dsu.average with
    | some a => if contrast a rhoB ≤ s.cfg.prodTol then .confirmed else .refuted
    | none => .unjudged
  else .unjudged

/-- The mix volume M (R38). -/
def mixVolume (mixK mark : Nat) : Nat := min (mixK * isqrt mark) 250000

/-- The uncertainty U of an S (R39). -/
def uncertainty (c : Published) (sinceSnap : Nat) : Nat :=
  min (c.uncFloor + sinceSnap * c.uncPpm / 1000000) 500000

/-- The window half-width H = Mh + U (R39). -/
def halfWidth (s : State) (sinceSnap : Nat) : Nat := s.tke.halfMix + uncertainty s.cfg sinceSnap

/-- The volume point VP(f*) (R59). -/
def volumePoint (s : State) (threshold : Nat) : Int :=
  (s.tke.halfMix : Int) - ((s.tke.mix * threshold / 1000 : Nat) : Int)

/-- The mix fraction for the pair of the entry with sequence `n`, where the density is usable for it (R48). R48
calls a pair of one product with itself never usable, since it has no contrast; where the two batches of such a pair were given
different densities, its four conditions alone are followed, the model's choice (log 55). -/
def pairFraction (s : State) (n : SeqNo) : Option Nat :=
  if s.cfg.densitometer then
    match predecessorOf n s.trs.train, findEntry s.trs.train n with
    | some a, some e => mixFraction s a.density e.density
    | _, _ => none
  else none

/-- The density is usable for the pair of the entry with sequence `n` (R48). -/
def densityUsable (s : State) (n : SeqNo) : Bool := (pairFraction s n).isSome

end Sys2Proof.Machine
end

