-- ==== Sys2Proof/Machine/Valves.lean ====
section
/-! DEFINITION. The Valve Driver's operations (chapter 10): a command on one route, the make-before-break switch and the
waiting list. A request answers the outcomes that arise at once. -/

namespace Sys2Proof.Machine

/-- The confirmed state of a route (R171). -/
def RouteState.confirmed (x : RouteState) : Confirmed :=
  if x.faultMark || (x.openLimit && x.closeLimit) then .fault
  else if x.openLimit then .opened
  else if x.closeLimit then .closed
  else .travel

/-- The limits show the position and not the other one (R173, R174). -/
def RouteState.shows (x : RouteState) : Limit → Bool
  | .opened => x.openLimit && !x.closeLimit
  | .closed => x.closeLimit && !x.openLimit

/-- The latch of a position (R173). -/
def latchOf : Limit → Latch
  | .opened => .opened
  | .closed => .closed

/-- The position of a latch, if it holds one (R172). -/
def latchPosition : Latch → Option Limit
  | .none => none
  | .opened => some .opened
  | .closed => some .closed

/-- The OPEN line VOPNk is asserted (R172). -/
def RouteState.openLine (x : RouteState) : Bool := x.latch == .opened && x.travel.isSome

/-- The CLOSE line VCLSk is asserted (R172). -/
def RouteState.closeLine (x : RouteState) : Bool := x.latch == .closed && x.travel.isSome

/-- How a command on a route ends (R173). -/
inductive CommandEnd where
  | confirmed | fault
  deriving DecidableEq, Repr

/-- One route's state. -/
def routeState (s : State) (r : Route) : RouteState := routeGet s.vld.routes r

/-- One route's state replaced. -/
def putRoute (r : Route) (x : RouteState) (s : State) : State :=
  { s with vld := { s.vld with routes := routeSet s.vld.routes r x } }

/-- A route with a confirmed command: the travel has ended and the latch keeps the position (R173). -/
def RouteState.confirmedNow (x : RouteState) : RouteState := { x with travel := none, startupClose := false }

/-- A faulted route: line released, travel flag clear, latch NONE, fault mark set (R173). -/
def RouteState.faulted (x : RouteState) : RouteState :=
  { x with travel := none, latch := .none, faultMark := true, startupClose := false }

/-- A fault of the command on a route: VALVE_FAULT is latched with an event naming it (R173). -/
def faultRoute (r : Route) (s : State) : State :=
  raiseAlarm .valveFault (routeNumber r) (putRoute r (routeState s r).faulted s)

/-- A command on a route (R173). A command in travel is replaced and reports nothing. The answer is how the command ended
at once, or none while it is in travel: confirmed when its limit alone is already shown, a fault when both limits are
shown (log 17). `startup` marks a start-up close (R175). -/
def commandRoute (r : Route) (pos : Limit) (startup : Bool) (s : State) : State × Option CommandEnd :=
  let x : RouteState := { routeState s r with latch := latchOf pos, faultMark := false, travel := none, startupClose := false }
  if x.shows pos then (putRoute r x s, some .confirmed)
  else if x.openLimit && x.closeLimit then (faultRoute r (putRoute r x s), some .fault)
  else
    (putRoute r { x with travel := some (s.now + s.cfg.travelTimeout * 1000), startupClose := startup } s, none)

/-- How a route's command in travel ends when its limits stand as they do, or none while it goes on (R173). -/
def RouteState.travelEnd (x : RouteState) : Option CommandEnd :=
  match x.travel, latchPosition x.latch with
  | some _, some pos =>
    if x.shows pos then some .confirmed
    else if x.openLimit && x.closeLimit then some .fault
    else none
  | _, _ => none

/-! ### The switch (R176 to R179) -/

/-- The switch in flight replaced. -/
def putInFlight (x : Option InFlight) (s : State) : State := { s with vld := { s.vld with inFlight := x } }

/-- The current route replaced. -/
def putCurrent (x : Option Route) (s : State) : State := { s with vld := { s.vld with current := x } }

/-- One close of BREAK has ended (R176, R178). -/
def InFlight.closeEnded (x : InFlight) (r : Route) (e : CommandEnd) : InFlight :=
  { x with closing := x.closing.filter (· != r), anyFault := x.anyFault || e == .fault }

/-- The result of a switch whose closes have all ended (R176, R177, R178). -/
def InFlight.result (x : InFlight) : SwitchResult := if x.anyFault then .bothOpen else .completed

/-- The closes of BREAK commanded in turn; those that end at once leave the list (R176, R178). -/
def commandCloses : List Route → InFlight → State → State × InFlight
  | [], x, s => (s, x)
  | r :: rest, x, s =>
    match (commandRoute r .closed false s).2 with
    | none => commandCloses rest x (commandRoute r .closed false s).1
    | some e => commandCloses rest (x.closeEnded r e) (commandRoute r .closed false s).1

/-- The routes that a switch without an old route closes: every other route that is not UNUSED and whose confirmed state
is OPEN or TRAVEL (R178). -/
def routesToClose (s : State) (target : Route) : List Route :=
  allRoutes.filter fun r =>
    r != target && routeGet s.cfg.routes r != .unused
      && ((routeState s r).confirmed == .opened || (routeState s r).confirmed == .travel)

/-- MAKE has ended confirmed: the target is current, and BREAK begins with its closes; the switch ends at once when none
is left (R176, R178). -/
def makeConfirmed (x : InFlight) (s : State) : State × Option SwitchOutcome :=
  let closing := match x.oldRoute with
    | some o => [o]
    | none => routesToClose s x.request.target
  let y := commandCloses closing { x with phase := .breaking, closing := closing } (putCurrent (some x.request.target) s)
  if y.2.closing.isEmpty then (putInFlight none y.1, some ⟨x.request, y.2.result⟩)
  else (putInFlight (some y.2) y.1, none)

/-- MAKE has faulted: the switch is abandoned on the old route, or on no route (R177, R178). -/
def makeFaulted (x : InFlight) (s : State) : State × Option SwitchOutcome :=
  (putInFlight none s, some ⟨x.request, .abandoned x.oldRoute⟩)

/-- A switch starts from the current route as it stands (R176, R178). -/
def startSwitch (q : SwitchRequest) (s : State) : State × Option SwitchOutcome :=
  if s.vld.current = some q.target then (s, some ⟨q, .completed⟩)
  else
    let x : InFlight := ⟨q, s.vld.current, .making, [], false⟩
    let y := commandRoute q.target .opened false s
    match y.2 with
    | none => (putInFlight (some x) y.1, none)
    | some .confirmed => makeConfirmed x y.1
    | some .fault => makeFaulted x y.1

/-- While no switch is in flight, the oldest waiting switch starts (R179); `n` bounds the list. -/
def startWaiting : Nat → State → State × List SwitchOutcome
  | 0, s => (s, [])
  | n + 1, s =>
    match s.vld.inFlight, s.vld.waiting with
    | none, q :: rest =>
      let y := startSwitch q { s with vld := { s.vld with waiting := rest } }
      match y.2 with
      | none => (y.1, [])
      | some o => ((startWaiting n y.1).1, o :: (startWaiting n y.1).2)
    | _, _ => (s, [])

/-- A switch requested of VLD (R179, R180): it starts at once, waits behind a switch in flight or the start reading, or is
abandoned at once when 8 already wait. When the requester takes an outcome that arises here is the model's choice (log 57). -/
def requestSwitch (q : SwitchRequest) (s : State) : State × List SwitchOutcome :=
  if s.vld.inFlight.isSome || !s.vld.startRead then
    if s.vld.waiting.length < 8 then ({ s with vld := { s.vld with waiting := s.vld.waiting ++ [q] } }, [])
    else (raiseAlarm .valveFault (routeNumber q.target) s, [⟨q, .abandoned s.vld.current⟩])
  else ((startSwitch q s).1, (startSwitch q s).2.toList)

/-- A command of the switch in flight has ended on route `r` (R176, R177, R178); the waiting switches then start (R179).
They start before the requester takes the first outcome; R203 leaves the order of the two blocks' events open, and this one is the
model's choice (log 52). -/
def switchCommandEnded (x : InFlight) (r : Route) (e : CommandEnd) (s : State) : State × List SwitchOutcome :=
  let y : State × Option SwitchOutcome :=
    match x.phase, e with
    | .making, .confirmed => makeConfirmed x s
    | .making, .fault => makeFaulted x s
    | .breaking, _ =>
      if (x.closeEnded r e).closing.isEmpty then (putInFlight none s, some ⟨x.request, (x.closeEnded r e).result⟩)
      else (putInFlight (some (x.closeEnded r e)) s, none)
  match y.2 with
  | none => (y.1, [])
  | some o => ((startWaiting y.1.vld.waiting.length y.1).1, o :: (startWaiting y.1.vld.waiting.length y.1).2)

/-- The command on route `r` belongs to the switch in flight (R176). -/
def InFlight.drives (x : InFlight) (r : Route) : Bool :=
  match x.phase with
  | .making => x.request.target == r
  | .breaking => x.closing.contains r

end Sys2Proof.Machine
end

