-- ==== Sys2Proof/Machine/Cut.lean ====
section
/-! DEFINITION. The Cut Sequencer's operations (chapter 8): routes and policies, opening, thresholds, the pending switch
queue, merging, settling and closing. They are called at a TERMINUS in RUN alone. -/

namespace Sys2Proof.Machine

/-! ### Routes and policies (R131, R132) -/

/-- The transmix route of a route table (R131). -/
def transmixRoute (c : Published) : Option Route := allRoutes.find? fun r => routeGet c.routes r == .transmix

/-- The product route of a product (R131). -/
def productRoute (c : Published) (p : Nat) : Option Route := allRoutes.find? fun r => routeGet c.routes r == .product p

/-- The policy of the ordered pair (A, B) (R132, R207). -/
def policyOf (c : Published) (a b : Nat) : Policy := c.policies.getD (15 * (a - 1) + (b - 1)) .transmix

/-- A target named by product: its product route, else the transmix route with NO_ROUTE (R131). -/
def resolveProduct (p : Nat) (s : State) : State × Option Route :=
  match productRoute s.cfg p with
  | some r => (s, some r)
  | none => (raiseAlarm .noRoute 0 s, transmixRoute s.cfg)

/-- The head threshold of a policy (R132). -/
def headThreshold (c : Published) : Policy → Option Nat
  | .transmix => some c.headFraction
  | .intoA => none
  | .intoB => none
  | .midpoint => none
  | .none => none

/-- The final threshold of a policy (R132). -/
def finalThreshold (c : Published) : Policy → Option Nat
  | .transmix => some c.tailFraction
  | .intoA => some c.tailFraction
  | .intoB => some c.headFraction
  | .midpoint => some 500
  | .none => none

/-! ### Writing CSQ's state -/

/-- CSQ's state changed. -/
def putCsq (f : Csq → Csq) (s : State) : State := { s with csq := f s.csq }

/-- The open record changed. -/
def modifyRecord (f : OpenCut → OpenCut) (s : State) : State := putCsq (fun q => { q with record := q.record.map f }) s

/-- A flag of the open record set. -/
def flagRecord (f : CutFlags → CutFlags) (s : State) : State := modifyRecord (fun r => { r with flags := f r.flags }) s

/-! ### Thresholds (R138 to R141) -/

/-- The head threshold is unreached. -/
def OpenCut.headPending (r : OpenCut) : Bool := r.policy == .transmix && !r.headReached

/-- The final threshold is unreached. -/
def OpenCut.finalPending (r : OpenCut) : Bool := r.policy != .none && !r.finalReached

/-- The target of a threshold's switch, resolved (R131, R132): transmix for the head, the product route of B for the
final. -/
def thresholdTarget (k : ActionKind) (r : OpenCut) (s : State) : State × Option Route :=
  match k with
  | .head => (s, transmixRoute s.cfg)
  | .final => resolveProduct r.productB s
  | .none => (s, none)

/-- A threshold is reached (R141): the head makes the state MIXING; the final makes it SETTLING and fixes the B route. -/
def markReached (k : ActionKind) (target : Option Route) (s : State) : State :=
  match k with
  | .head => putCsq (fun q => { q with state := .mixing }) (modifyRecord (fun r => { r with headReached := true }) s)
  | .final =>
    putCsq (fun q => { q with state := .settling })
      (modifyRecord (fun r => { r with finalReached := true, routeB := target }) s)
  | .none => s

/-- A reached threshold's action, due at C + L_LEAD − L_ANTIC, joins the queue (R141, R142). -/
def reachThreshold (k : ActionKind) (source : Source) (s : State) : State :=
  match s.csq.record with
  | none => s
  | some r =>
    let y := thresholdTarget k r s
    let s1 := markReached k y.2 y.1
    match y.2 with
    | none => s1
    | some t =>
      putCsq (fun q => { q with
        queue := q.queue ++ [⟨t, s1.mtr.count + s1.cfg.lead - s1.cfg.antic, source, r.first, k⟩] }) s1

/-- The unreached thresholds judged in policy order, a later one only when every earlier one is reached (R138, R139). -/
def judgeWith (reached : Nat → Bool) (source : Source) (s : State) : State :=
  let s1 :=
    match s.csq.record with
    | none => s
    | some r =>
      if r.headPending && (headThreshold s.cfg r.policy).any reached then reachThreshold .head source s else s
  match s1.csq.record with
  | none => s1
  | some r =>
    if !r.headPending && r.finalPending && (finalThreshold s1.cfg r.policy).any reached then
      reachThreshold .final source s1
    else s1

/-- The volume point of `threshold` is reached by the cut entry, or the cut entry has left the train (R139). -/
def volumeReached (s : State) (cutEntry : SeqNo) (threshold : Nat) : Bool :=
  match findEntry s.trs.train cutEntry with
  | none => true
  | some e => e.rlv ≤ volumePoint s threshold

/-- The thresholds judged by volume (R139). -/
def judgeVolume (s : State) : State :=
  match s.csq.record with
  | none => s
  | some r => judgeWith (volumeReached s r.cutEntry) .volume s

/-- A DENSITY cut changes to volume: MIXED and DENSITY_LOST (R140). -/
def changeToVolume (s : State) : State :=
  modifyRecord (fun r => { r with method := .mixed, flags := { r.flags with densityLost := true } }) s

/-- The thresholds judged by density (R138); an unusable answer changes the cut to volume, which is judged at once
(R140). -/
def judgeDensity (s : State) : State :=
  match s.csq.record with
  | none => s
  | some r =>
    match mixFraction s r.densityA r.densityB with
    | some f => judgeWith (fun t => t ≤ f) .density s
    | none => judgeVolume (changeToVolume s)

/-- The thresholds judged under the rule of the cut's method (R135). -/
def judgeThresholds (s : State) : State :=
  match s.csq.record with
  | none => s
  | some r => if r.method = .density then judgeDensity s else judgeVolume s

/-- The cut entry's RLV has changed, or the cut entry has left the train: a cut by volume judges its thresholds (R139). The
last sentence of R139 names no method; that a DENSITY cut is left as it is when its cut entry leaves the train is the model's
choice (log 47). -/
def cutRlvChanged (s : State) : State :=
  match s.csq.record with
  | none => s
  | some r => if r.method = .density then s else judgeVolume s

/-- A density notice at CSQ (R138, R140): a cut by density judges its thresholds. -/
def cutDensityNotice (s : State) : State :=
  match s.csq.record with
  | none => s
  | some r => if r.method = .density then judgeDensity s else s

/-! ### Opening (R134, R135) -/

/-- The pair captured for an entry: its predecessor's product and density, 0 without one (R135). -/
def capturedPair (s : State) (n : SeqNo) : Nat × Nat :=
  match predecessorOf n s.trs.train with
  | some a => (a.product, a.density)
  | none => (0, 0)

/-- The method of a cut opened for an entry (R135). -/
def openingMethod (s : State) (e : Entry) : CutMethod :=
  match predecessorOf e.seq s.trs.train with
  | some a => if (mixFraction s a.density e.density).isSome then .density else .volume
  | none => .volume

/-- The policy of a cut opened for an entry (R132, R135). -/
def openingPolicy (s : State) (e : Entry) : Policy :=
  match predecessorOf e.seq s.trs.train with
  | some a => policyOf s.cfg a.product e.product
  | none => .transmix

/-- The record opened for an entry (R135, R136). Where no route is in use its A route is absent, the model's choice (log 49). -/
def openedRecord (s : State) (e : Entry) : OpenCut where
  number := s.csq.nextNumber
  first := e.seq
  last := none
  productA := (capturedPair s e.seq).1
  productB := e.product
  policy := openingPolicy s e
  method := openingMethod s e
  start := s.mtr.count
  routeA := s.csq.routeInUse
  routeB := none
  volumeA := 0
  volumeX := 0
  volumeB := 0
  rlvAtDetection := none
  check := none
  flags := .clear
  stage := .lead
  cutEntry := e.seq
  densityA := (capturedPair s e.seq).2
  densityB := e.density
  headReached := false
  finalReached := false
  finalExecuted := false

/-- A cut opens for an entry and its thresholds are judged at once (R135). -/
def openCut (e : Entry) (s : State) : State :=
  judgeThresholds (putCsq (fun q => { q with
    state := .armed
    cutThrough := some e.seq
    record := some (openedRecord s e)
    nextNumber := q.nextNumber + 1 }) s)

/-- An entry is due for a cut: in WINDOW with its sequence after the cut-through sequence (R135). -/
def dueForCut (s : State) (e : Entry) : Bool :=
  e.track == .window && s.csq.cutThrough.all (fun n => seqAfter e.seq n)

/-- In STEADY, the oldest entry due for a cut opens one (R135). -/
def openDue (s : State) : State :=
  if s.csq.state = .steady then
    match s.trs.train.find? (dueForCut s) with
    | some e => openCut e s
    | none => s
  else s

/-- CSQ enters STEADY from UNKNOWN or HELD: the cut-through sequence becomes that of the batch at the station, and entries
in WINDOW are judged for opening (R134). -/
def enterSteady (s : State) : State :=
  openDue (putCsq (fun q => { q with
    state := .steady
    cutThrough := (batchAtStation s.trs.train).map (·.seq) }) s)

/-- CSQ leaves UNKNOWN once a route is in use and the train is SYNCED (R134). -/
def leaveUnknown (s : State) : State :=
  if s.csq.state = .unknown ∧ s.csq.routeInUse.isSome ∧ s.trs.sync = .synced then enterSteady s else s

/-! ### Closing (R146) -/

/-- The closed record (R136, R146): end count C and trim T. -/
def OpenCut.closed (r : OpenCut) (count : Nat) (trim : Int) : CutRecord where
  first := r.first
  last := r.last
  productA := r.productA
  productB := r.productB
  policy := r.policy
  method := r.method
  start := r.start
  finish := count
  routeA := r.routeA
  routeB := r.routeB
  volumeA := r.volumeA
  volumeX := r.volumeX
  volumeB := r.volumeB
  rlvAtDetection := r.rlvAtDetection
  trim := trim
  check := r.check
  flags := r.flags

/-- The flags of a record as it is handed to the cut log: with OVERWRITE when the log is full (R204). CUT_CLOSED carries
these (R146, log 50). -/
def CutFlags.handedOn (f : CutFlags) (full : Bool) : CutFlags := { f with overwrite := f.overwrite || full }

/-- The open record closes (R146): it goes to the cut log with CUT_CLOSED, the entries of R21 are removed unless it is
abandoned by RESYNC, and the state becomes `next`. The queue belongs to the open record (R142) and is emptied at every close;
no rule names the close by an abandoned FINAL of a merged record with a HEAD still queued, and there the emptying is the
model's choice (log 46). -/
def closeRecord (removes : Bool) (next : CutState) (s : State) : State :=
  match s.csq.record with
  | none => s
  | some r =>
    let s1 := offerEvent (.cutClosed r.first r.last (r.flags.handedOn (logFull s)))
      (appendToLog (.cut (r.closed s.mtr.count s.mtr.trim)) s)
    let s2 := if removes then putTrain (removeBefore r.cutEntry s1.trs.train) s1 else s1
    putCsq (fun q => { q with record := none, queue := [], settleRemaining := 0, state := next }) s2

/-! ### Executing (R143, R144) -/

/-- The outcome concerns the open record: its switch belonged to it, or to no record (R144, log 20). -/
def concernsOpenRecord (t : SwitchTag) (s : State) : Bool :=
  match t.record, s.csq.record with
  | some k, some r => r.number == k
  | none, some _ => true
  | _, none => false

/-- No switch later than the abandoned one has moved the stream: the route in use is still its target, or, where the start
reading has since replaced that, the route the outcome names, with nothing in flight at VLD (R144, logs 18, 19). -/
def streamUnmoved (q : SwitchRequest) (left : Option Route) (s : State) : Bool :=
  s.csq.routeInUse == some q.target || (s.csq.routeInUse == left && s.vld.inFlight.isNone)

/-- An abandoned switch at CSQ (R144). Where a RELEASE_TO made from UNKNOWN was not the last switch, or a record has opened
since, the state stays (log 19). -/
def cutAbandoned (q : SwitchRequest) (left : Option Route) (s : State) : State :=
  let concerns := concernsOpenRecord q.tag s
  let s1 := if s.csq.routeInUse = some q.target then putCsq (fun c => { c with routeInUse := left }) s else s
  let s2 := if concerns then flagRecord (fun f => { f with valveFault := true }) s1 else s1
  let s3 :=
    if concerns && q.tag.record.isSome then
      match q.tag.kind with
      | .head => modifyRecord (fun r => if r.finalExecuted then r else { r with stage := .lead }) s2
      | .final => closeRecord true .held s2
      | .none => s2
    else s2
  if q.tag.fromUnknown && streamUnmoved q left s && s3.csq.state == .steady then
    putCsq (fun c => { c with routeInUse := none, state := .unknown }) s3
  else s3

/-- CSQ takes the outcome of a switch (R144). -/
def cutOutcome (o : SwitchOutcome) (s : State) : State :=
  match o.result with
  | .completed => s
  | .bothOpen =>
    if concernsOpenRecord o.request.tag s then flagRecord (fun f => { f with valveFault := true }) s else s
  | .abandoned left => cutAbandoned o.request left s

/-- The outcomes of one moment, in order. -/
def cutOutcomes (l : List SwitchOutcome) (s : State) : State := l.foldl (fun s o => cutOutcome o s) s

/-- Steps 3 to 5 of R143: the route in use, the source, and the stage of the open record. -/
def takeStream (target : Route) (source : Source) (k : ActionKind) (s : State) : State :=
  putCsq (fun q => { q with
    routeInUse := some target
    lastSource := some source
    record := q.record.map fun r =>
      match k with
      | .head => { r with stage := .middle }
      | .final => { r with stage := .trail, finalExecuted := true }
      | .none => r
    settleRemaining :=
      match k, q.record with
      | .final, some _ => s.cfg.settle
      | _, _ => q.settleRemaining }) s

/-- A switch action executes (R143): VLD is asked unless the target is the route in use. An outcome that arises at the request
itself (R144, R179) is taken after steps 3 to 5 and before whatever follows the action, the model's choice (log 57). -/
def executeSwitch (target : Route) (source : Source) (k : ActionKind) (fromUnknown : Bool) (s : State) : State :=
  if s.csq.routeInUse = some target then takeStream target source k s
  else
    let y := requestSwitch ⟨target, ⟨k, s.csq.record.map (·.number), fromUnknown⟩⟩ s
    cutOutcomes y.2 (takeStream target source k y.1)

/-- The queued actions whose due count C has reached execute, head first (R143); `n` bounds the queue. The outcome of one that
ends at its request is taken before the next executes (log 57). -/
def executeDue : Nat → State → State
  | 0, s => s
  | n + 1, s =>
    match s.csq.queue with
    | a :: rest =>
      if a.due ≤ s.mtr.count then
        executeDue n (executeSwitch a.target a.source a.kind false (putCsq (fun q => { q with queue := rest }) s))
      else s
    | [] => s

/-- An immediate switch to the transmix route with source FORCED (R145, R152, R154). An outcome that arises at its request is
taken before the state becomes HELD (log 57). -/
def switchToTransmix (s : State) : State :=
  match transmixRoute s.cfg with
  | some t => executeSwitch t .forced .none false s
  | none => s

/-! ### Litres, settling and the product check (R137, R145) -/

/-- A record's volumes after one litre in its stage (R137). -/
def OpenCut.countLitre (r : OpenCut) : OpenCut :=
  match r.stage with
  | .lead => { r with volumeA := r.volumeA + 1 }
  | .middle => { r with volumeX := r.volumeX + 1 }
  | .trail => { r with volumeB := r.volumeB + 1 }

/-- Litre number C is counted in the open record when it is above the start count, and lowers the settle remaining once the
final action has executed (R137, R145). -/
def countLitre (s : State) : State :=
  match s.csq.record with
  | none => s
  | some r =>
    if r.start < s.mtr.count then
      putCsq (fun q => { q with
        record := some r.countLitre
        settleRemaining := if r.finalExecuted then q.settleRemaining - 1 else q.settleRemaining }) s
    else s

/-- The product check of a settled cut, and the close it brings (R145). -/
def checkProduct (s : State) : State :=
  match s.csq.record with
  | none => s
  | some r =>
    let verdict := productCheck s r.densityB
    let s1 := modifyRecord (fun x => { x with check := some verdict }) s
    match verdict with
    | .refuted =>
      let s2 := closeRecord true .held (flagRecord (fun f => { f with mismatch := true }) s1)
      let s3 := raiseAlarm .productMismatch 0 (updateEntry r.cutEntry (fun e => { e with mismatch := true }) s2)
      switchToTransmix s3
    | .confirmed => openDue (closeRecord true .steady s1)
    | .unjudged => openDue (closeRecord true .steady s1)

/-- The cut has settled: the final action has executed and the settle remaining is 0 (R145). -/
def settled (s : State) : Bool :=
  match s.csq.record with
  | none => false
  | some r => r.finalExecuted && s.csq.settleRemaining == 0

/-- After C has risen and the litre is counted: due actions execute, then a settled cut is checked (R143, R145). -/
def executeAndSettle (s : State) : State :=
  let s1 := executeDue s.csq.queue.length s
  if settled s1 then checkProduct s1 else s1

/-! ### The short batch (R148, R149) -/

/-- SHORT on the cut entry and every entry between it and the new entry (R148). -/
def markShort (cutEntry new : SeqNo) (t : List Entry) : List Entry :=
  t.map fun e =>
    if (e.seq == cutEntry || seqAfter e.seq cutEntry) && seqAfter new e.seq then { e with short := true } else e

/-- The record merged with a newer entry (R148); the method changes when the new pair is unusable (R140). -/
def mergedRecord (s : State) (e : Entry) (r : OpenCut) : OpenCut :=
  { r with
    last := some e.seq
    productB := e.product
    policy := .transmix
    routeB := none
    cutEntry := e.seq
    densityA := (capturedPair s e.seq).2
    densityB := e.density
    method := if r.method = .density ∧ openingMethod s e ≠ .density then .mixed else r.method
    flags := { r.flags with
      shortBatch := true
      densityLost := r.flags.densityLost || (r.method == .density && openingMethod s e != .density) } }

/-- Steps 1 and 2 of R149: queued final actions are withheld, and the trail's volume moves to transmix. The merged record's
final action has then not executed; that an executed FINAL of before the merge does not count for an abandoned HEAD of R144 is
the model's choice (log 48). -/
def withholdFinal (s : State) : State :=
  putCsq (fun q => { q with
    queue := q.queue.filter (fun a => a.kind != .final)
    settleRemaining := if (q.record.map (·.stage)) = some .trail then 0 else q.settleRemaining
    record := q.record.map fun r =>
      if r.stage = .trail then
        { r with volumeX := r.volumeX + r.volumeB, volumeB := 0, stage := .middle, finalExecuted := false }
      else r }) s

/-- Steps 3 to 5 of R149; `wasMiddle` is the stage before step 2. -/
def mergeActions (wasMiddle : Bool) (s : State) : State :=
  match s.csq.record with
  | none => s
  | some r =>
    let s1 :=
      if !s.csq.queue.any (fun a => a.kind == .head) && !wasMiddle then
        reachThreshold .head (if r.method = .density then .density else .volume) s
      else s
    judgeThresholds (putCsq (fun q => { q with state := .mixing })
      (modifyRecord (fun x => { x with headReached := true, finalReached := false }) s1))

/-- A newer entry that enters WINDOW while a record is open merges the cut (R148, R149). -/
def mergeCut (e : Entry) (s : State) : State :=
  match s.csq.record with
  | none => s
  | some r =>
    let s1 := putTrain (markShort r.cutEntry e.seq s.trs.train) s
    let s2 := putCsq (fun q => { q with cutThrough := some e.seq, record := some (mergedRecord s e r) }) s1
    mergeActions (r.stage == .middle) (withholdFinal (raiseAlarm .shortBatch 0 s2))

/-- An entry has entered WINDOW at a TERMINUS (R135, R148). -/
def cutEntered (n : SeqNo) (s : State) : State :=
  match s.csq.record with
  | none => openDue s
  | some _ =>
    match findEntry s.trs.train n with
    | some e => if s.csq.cutThrough.all (fun c => seqAfter n c) then mergeCut e s else s
    | none => s

/-! ### Declarations (R147, R150, R151) -/

/-- The open record covers the interface of sequence `n` (R136, R150). -/
def OpenCut.covers (r : OpenCut) (n : SeqNo) : Bool :=
  (n == r.first || seqAfter n r.first) && (n == r.cutEntry || seqAfter r.cutEntry n)

/-- The cut entry is MISSED (R151): the queue is emptied, the stream goes to the product route of B, and the record closes
with MISSED. Where the switch ends at its request, its outcome reaches the record before the close, so the record takes
VALVE_FAULT, the model's choice (log 57). -/
def cutMissed (r : OpenCut) (s : State) : State :=
  let s1 := putCsq (fun q => { q with queue := [] }) s
  let y := resolveProduct r.productB s1
  let s2 :=
    match y.2 with
    | some t => if y.1.csq.routeInUse = some t then y.1 else executeSwitch t .missed .none false y.1
    | none => y.1
  openDue (closeRecord true .steady
    (modifyRecord (fun x => { x with stage := .trail, flags := { x.flags with missed := true } }) s2))

/-- CSQ takes a declaration of the entry with sequence `n` (R147, R150, R151); `residual` is r for DETECTED. -/
def cutDeclared (kind : PassageKind) (n : SeqNo) (residual : Int) (s : State) : State :=
  match s.csq.record with
  | none => s
  | some r =>
    let s1 :=
      if kind = .detected ∧ r.covers n then modifyRecord (fun x => { x with rlvAtDetection := some residual }) s else s
    if n = r.cutEntry then
      if kind = .missed then cutMissed r s1
      else if r.policy = .none then openDue (closeRecord true .steady s1)
      else cutRlvChanged s1
    else s1

/-! ### Departure, overrides and RESYNC (R152 to R157) -/

/-- An untracked departure at CSQ (R152). -/
def cutUntracked (s : State) : State :=
  if s.csq.state = .steady then putCsq (fun q => { q with state := .held }) (switchToTransmix s) else s

/-- FORCE_ADVANCE at a TERMINUS (R153); none when it is refused with NOT_STATE. -/
def cutForceAdvance (s : State) : Option State :=
  match s.csq.record with
  | none => none
  | some r =>
    if r.policy = .none ∨ r.finalExecuted then none
    else
      let s1 := flagRecord (fun f => { f with forced := true }) s
      match s1.csq.queue with
      | a :: rest => some (executeSwitch a.target a.source a.kind false (putCsq (fun q => { q with queue := rest }) s1))
      | [] =>
        let k : ActionKind := if r.headPending then .head else if r.finalPending then .final else .none
        if k = .none then none
        else
          let y := thresholdTarget k r s1
          let s2 := markReached k y.2 y.1
          some (match y.2 with
            | some t => executeSwitch t .forced k false s2
            | none => s2)

/-- FORCE_TRANSMIX at a TERMINUS (R154); none when it is refused with NOT_STATE. -/
def cutForceTransmix (s : State) : Option State :=
  if s.csq.state = .unknown then none
  else
    some (putCsq (fun q => { q with state := .held })
      (switchToTransmix (closeRecord true .held
        (flagRecord (fun f => { f with forced := true }) (putCsq (fun q => { q with queue := [] }) s)))))

/-- RELEASE_TO route `t` from HELD or UNKNOWN (R155). Where the switch ends at its request, its outcome is taken before an entry
in WINDOW opens a cut, the model's choice (log 57). -/
def cutReleaseTo (t : Route) (s : State) : State :=
  openDue (executeSwitch t .forced .none (s.csq.state == .unknown && s.csq.routeInUse.isNone)
    (putCsq (fun q => { q with
      state := .steady
      cutThrough := (batchAtStation s.trs.train).map (·.seq) }) s))

/-- RESYNC at CSQ (R157). -/
def cutResync (s : State) : State :=
  let s1 := closeRecord false .steady (flagRecord (fun f => { f with abandoned := true }) s)
  putCsq (fun q => { q with
    queue := []
    cutThrough := none
    state := if q.state = .unknown then .unknown else .steady }) s1

end Sys2Proof.Machine
end

