-- ==== Sys2Proof/Machine/Delivery.lean ====
section
/-! DEFINITION. The Delivery Sequencer's operations (chapter 9): the candidate and the due test, opening, counting, closing
and the valve outcomes. They are called at a DELIVERY station in RUN alone. -/

namespace Sys2Proof.Machine

/-- DSQ's state changed. -/
def putDsq (f : Dsq → Dsq) (s : State) : State := { s with dsq := f s.dsq }

/-- The active delivery changed. -/
def modifyActive (f : ActiveDelivery → ActiveDelivery) (s : State) : State :=
  putDsq (fun q => { q with active := q.active.map f }) s

/-- A flag of the active delivery set. -/
def flagActive (f : DeliveryFlags → DeliveryFlags) (s : State) : State :=
  modifyActive (fun a => { a with flags := f a.flags }) s

/-- The delivery record of an ended delivery (R165). -/
def ActiveDelivery.record (a : ActiveDelivery) (count : Nat) (delivered : Count32) : DeliveryRecord where
  seq := a.seq
  product := a.product
  route := a.route
  ordered := a.ordered
  delivered := a.delivered
  atCloseRequest := a.atCloseRequest.getD a.delivered
  start := a.start
  finish := count
  countAtOpening := a.countAtOpening
  countAtEnd := delivered
  flags := a.flags

/-- The flags of a delivery record as it is handed to the cut log: with OVERWRITE when the log is full (R204). That
DELIVERY_CLOSED carries these is a reading of R165 (log 50). -/
def DeliveryFlags.handedOn (f : DeliveryFlags) (full : Bool) : DeliveryFlags := { f with overwrite := f.overwrite || full }

/-- The delivery ends (R165): its record is logged and reported, and the state becomes IDLE. -/
def endDelivery (s : State) : State :=
  match s.dsq.active with
  | none => s
  | some a =>
    putDsq (fun q => { q with active := none, state := .idle })
      (offerEvent (.deliveryClosed a.seq a.delivered (a.flags.handedOn (logFull s)))
        (appendToLog (.delivery (a.record s.mtr.count s.mtr.deliveryCount)) s))

/-- The outcome of the close in CLOSING (R166): a fault sets VALVE_FAULT, and the delivery ends. -/
def closeEnded (e : CommandEnd) (s : State) : State :=
  endDelivery (if e = .fault then flagActive (fun f => { f with valveFault := true }) s else s)

/-- The close of the active delivery's route handed to VLD (R164, R166); an outcome that arises at once is taken. The
flag says that the delivery has ended. -/
def handClose (s : State) : State × Bool :=
  match s.dsq.active with
  | none => (s, false)
  | some a =>
    let y := commandRoute a.route .closed false (putDsq (fun q => { q with state := .closing }) s)
    match y.2 with
    | none => (y.1, false)
    | some e => (closeEnded e y.1, true)

/-- The delivered volume at the close request is recorded once (R164). -/
def noteCloseRequest (s : State) : State :=
  modifyActive (fun a => { a with atCloseRequest := some (a.atCloseRequest.getD a.delivered) }) s

/-- A close is requested (R164) with the flag of its cause: in DELIVERING the close goes to VLD, in OPENING it is pending;
when a close was requested before, only the flag is set. -/
def requestClose (f : DeliveryFlags → DeliveryFlags) (s : State) : State × Bool :=
  match s.dsq.active with
  | none => (s, false)
  | some a =>
    let s1 := flagActive f s
    if a.atCloseRequest.isSome then (s1, false)
    else
      match s.dsq.state with
      | .delivering => handClose (noteCloseRequest s1)
      | .opening => (modifyActive (fun x => { x with closePending := true }) (noteCloseRequest s1), false)
      | .closing => (s1, false)
      | .idle => (s1, false)

/-- The done test (R163): the delivered volume at or above the ordered volume requests a close with no flag. -/
def doneTest (s : State) : State × Bool :=
  match s.dsq.active with
  | none => (s, false)
  | some a =>
    if a.ordered ≤ a.delivered ∧ a.atCloseRequest = none ∧ (s.dsq.state = .opening ∨ s.dsq.state = .delivering) then
      requestClose (fun f => f) s
    else (s, false)

/-- The outcome of the open in OPENING (R166). -/
def openEnded (e : CommandEnd) (s : State) : State × Bool :=
  match s.dsq.active with
  | none => (s, false)
  | some a =>
    match e with
    | .confirmed =>
      if a.closePending then handClose s else doneTest (putDsq (fun q => { q with state := .delivering }) s)
    | .fault => handClose (noteCloseRequest (flagActive (fun f => { f with valveFault := true }) s))

/-- The route handed a product by the published route table (R162). -/
def deliveryRoute (c : Published) (p : Nat) : Option Route := productRoute c p

/-- The active delivery created for a candidate (R162). -/
def openedDelivery (s : State) (c : Candidate) (r : Route) : ActiveDelivery where
  seq := c.seq
  product := c.product
  route := r
  ordered := c.ordered
  delivered := 0
  start := s.mtr.count
  countAtOpening := s.mtr.deliveryCount
  atCloseRequest := none
  flags := .clear
  closePending := false

/-- A due candidate's delivery opens, or is skipped when no route is assigned to its product (R162). -/
def openDelivery (c : Candidate) (s : State) : State × Bool :=
  match deliveryRoute s.cfg c.product with
  | none =>
    (putDsq (fun q => { q with deliveredThrough := some c.seq, candidate := none })
      (offerEvent (.deliverySkipped c.seq c.product c.ordered .noRoute) s), false)
  | some r =>
    let s1 := putDsq (fun q => { q with
      active := some (openedDelivery s c r)
      deliveredThrough := some c.seq
      candidate := none
      state := .opening }) s
    let y := commandRoute r .opened false s1
    let s2 := offerEvent (.deliveryOpened c.seq c.product r c.ordered) y.1
    match y.2 with
    | none => (s2, false)
    | some e => openEnded e s2

/-- The candidate has left the station undelivered when the batch at the station is another or none (R161):
DELIVERY_SKIPPED with PASSED, and the delivered-through sequence becomes its sequence. -/
def skipPassed (s : State) : State :=
  match s.dsq.candidate with
  | none => s
  | some c =>
    if (batchAtStation s.trs.train).map (·.seq) = some c.seq then s
    else
      putDsq (fun q => { q with deliveredThrough := some c.seq, candidate := none })
        (offerEvent (.deliverySkipped c.seq c.product c.ordered .passed) s)

/-- Step 1 of R160: the candidate of the batch at the station. -/
def chooseCandidate (s : State) : State :=
  match batchAtStation s.trs.train with
  | none => putDsq (fun q => { q with candidate := none }) s
  | some e =>
    if s.dsq.deliveredThrough.all (fun n => seqAfter e.seq n) then
      match orderedAt s.cfg.station e.deliveries with
      | none => putDsq (fun q => { q with candidate := none, deliveredThrough := some e.seq }) s
      | some v => putDsq (fun q => { q with candidate := some ⟨e.seq, e.product, v⟩ }) s
    else putDsq (fun q => { q with candidate := none }) s

/-- Step 2 of R160: the candidate is due by the detection note or by its RLV. -/
def candidateDue (s : State) (c : Candidate) : Bool :=
  (match s.dsq.note with
    | some (n, count) => n == c.seq && count + s.tke.halfMix + s.cfg.deliveryGuard ≤ s.mtr.count
    | none => false)
    || (match findEntry s.trs.train c.seq with
      | some e => e.rlv ≤ -((halfWidth s e.sinceSnap + s.cfg.deliveryGuard : Nat) : Int)
      | none => false)

/-- One judgement of the candidate and the due test (R160, R161). The flag says that a delivery was opened and has ended. -/
def judgeCandidateOnce (s : State) : State × Bool :=
  let s1 := chooseCandidate (skipPassed s)
  match s1.dsq.state, s1.dsq.candidate with
  | .idle, some c => if candidateDue s1 c then openDelivery c s1 else (s1, false)
  | _, _ => (s1, false)

/-- The judgement of R160; when a delivery ends within it, it is made again at once (R165). A second delivery cannot open,
since the batch at the station is then delivered-through. -/
def judgeCandidate (s : State) : State :=
  if (judgeCandidateOnce s).2 then (judgeCandidateOnce (judgeCandidateOnce s).1).1 else (judgeCandidateOnce s).1

/-- What follows a step that may have ended the delivery: R160 is judged at once when it has (R165). -/
def afterDelivery (y : State × Bool) : State := if y.2 then judgeCandidate y.1 else y.1

/-- The trailing approach (R164): the successor of the delivered entry is within H + DELIVERY_GUARD. -/
def trailingNear (s : State) : Bool :=
  match s.dsq.active with
  | none => false
  | some a =>
    match successorOf a.seq s.trs.train with
    | some e => e.rlv ≤ ((halfWidth s e.sinceSnap + s.cfg.deliveryGuard : Nat) : Int)
    | none => false

/-- The trailing test after a window evaluation (R164). -/
def trailingTest (s : State) : State :=
  if trailingNear s then afterDelivery (requestClose (fun f => { f with short := true }) s) else s

/-- What DSQ does after a window evaluation: the judgement of R160 and the trailing test of R164, in a free order
(log 11). -/
def deliveryAfterEvaluation (s : State) : State := inEitherOrder judgeCandidate trailingTest s

/-- The detection note (R159). -/
def noteDetection (n : SeqNo) (s : State) : State := putDsq (fun q => { q with note := some (n, s.mtr.count) }) s

/-- A delivery litre at DSQ, once D has risen (R163). -/
def countDelivered (s : State) : State :=
  match s.dsq.active with
  | none => s
  | some a =>
    if s.dsq.state = .idle then s
    else
      afterDelivery (doneTest (updateEntry a.seq (fun e => e.deliver 1)
        (modifyActive (fun x => { x with delivered := min highestCount (x.delivered + 1) }) s)))

/-- The outcome of a plain command on route `r` at DSQ (R166); an outcome that concerns no delivery changes nothing. -/
def plainOutcome (r : Route) (e : CommandEnd) (s : State) : State :=
  match s.dsq.active with
  | none => s
  | some a =>
    if a.route = r then
      match s.dsq.state with
      | .opening => afterDelivery (openEnded e s)
      | .closing => judgeCandidate (closeEnded e s)
      | .delivering => s
      | .idle => s
    else s

/-- CLOSE_DELIVERY (R167); none when it is refused with NOT_STATE. -/
def closeCommanded (s : State) : Option State :=
  match s.dsq.active with
  | none => none
  | some a =>
    if s.dsq.state = .delivering ∨ (s.dsq.state = .opening ∧ !a.closePending) then
      some (afterDelivery (requestClose (fun f => { f with commanded := true }) s))
    else none

/-- RESYNC at DSQ (R169): a close with ABANDONED, then the note and the candidate are cleared. A close that ends at once is
judged for as any end is (R165); the empty train that follows is judged nowhere (R24). -/
def deliveryResync (s : State) : State :=
  putDsq (fun q => { q with note := none, candidate := none })
    (afterDelivery (requestClose (fun f => { f with abandoned := true }) s))

end Sys2Proof.Machine
end

