-- ==== Sys2Proof/Machine/Tracking.lean ====
section
/-! DEFINITION. The Tracking Engine's operations (chapter 3): the window evaluation with its declarations, and what a litre, a
peer delivery delta and a snap do to the train. -/

namespace Sys2Proof.Machine

/-! ### Declarations (R49 to R52, R57) -/

/-- The detection candidate: the oldest entry in WINDOW (R42). -/
def candidateOf (t : List Entry) : Option SeqNo := (t.find? (fun e => e.track == .window)).map (·.seq)

/-- The trim nudge judged at a DETECTED declaration with r the entry's RLV (R57): a request joins the ones that MTR has yet
to take (R35). -/
def judgeNudge (e : Entry) (s : State) : State :=
  if e.snappedByReference && s.cfg.deadband < e.rlv.natAbs then
    { s with mtr := { s.mtr with nudges := s.mtr.nudges ++ [⟨decide (0 < e.rlv), e.rlv⟩] } }
  else s

/-- An entry declared passed: PASSED with its kind; DETECTED also sets RLV and S to 0 (R49, R50, R51). -/
def Entry.declared (e : Entry) (k : PassageKind) : Entry :=
  match k with
  | .detected => { e with rlv := 0, sinceSnap := 0, track := .passed, kind := some k }
  | .estimated => { e with track := .passed, kind := some k }
  | .missed => { e with track := .passed, kind := some k }

/-- What the station's sequencers take from a declaration: CSQ at a TERMINUS (R49, R150, R151), DSQ's note of a DETECTED one
at a DELIVERY station (R159). -/
def handDeclaration (k : PassageKind) (e : Entry) (s : State) : State :=
  if s.hasRole .terminus then cutDeclared k e.seq e.rlv s
  else if s.hasRole .delivery && k == .detected then noteDetection e.seq s
  else s

/-- A passage declaration of entry `e` (R49, R50, R51), in the order of R49; MISSED latches MISSED_INTERFACE. Each sends one
PASSAGE (R52). That the events of TKE, TLC and CSQ at one declaration join in this order is the model's choice (log 53). -/
def declare (k : PassageKind) (e : Entry) (s : State) : State :=
  let s1 := if k = .detected then judgeNudge e s else s
  let s2 := updateEntry e.seq (fun x => x.declared k) s1
  let s3 := if k = .missed then raiseAlarm .missedInterface 0 s2 else s2
  handDeclaration k e (sendOwn .passage (passagePayload e.seq k) s3)

/-! ### The window evaluation (R40 to R42) -/

/-- What an evaluation keeps of the detection candidate (R42): the present one, and whether it became so during the
evaluation. -/
structure Tracker where
  candidate : Option SeqNo
  fresh : Bool
  deriving DecidableEq, Repr

/-- The tracker after a change of the train (R42). -/
def Tracker.update (k : Tracker) (t : List Entry) : Tracker :=
  if candidateOf t = k.candidate then k else ⟨candidateOf t, true⟩

/-- The evaluation is a detection point for the entry (R42): it is the candidate, and it became so during the evaluation, or the
evaluation was caused by a new average and it was the candidate then. -/
def Tracker.detectionPoint (k : Tracker) (average : Bool) (before : Option SeqNo) (n : SeqNo) : Bool :=
  k.candidate == some n && (k.fresh || (average && before == some n))

/-- An INBOUND entry becomes WINDOW (R41); at a TERMINUS a cut opens or merges on it (R135, R148). -/
def openWindow (n : SeqNo) (s : State) : State :=
  let s1 := updateEntry n (fun e => { e with track := .window }) s
  if s.hasRole .terminus then cutEntered n s1 else s1

/-- Tests 2 to 4 of R40 on a WINDOW entry: local detection at a detection point, ESTIMATED, MISSED. -/
def testWindow (point : Bool) (e : Entry) (s : State) : State :=
  if point && (pairFraction s e.seq).any (fun f => 500 ≤ f) then declare .detected e s
  else if !densityUsable s e.seq && e.rlv ≤ 0 then declare .estimated e s
  else if e.rlv ≤ -(halfWidth s e.sinceSnap : Int) then declare .missed e s
  else s

/-- One entry's visit in a window evaluation (R40). -/
def visitEntry (average : Bool) (before : Option SeqNo) (x : State × Tracker) (n : SeqNo) : State × Tracker :=
  match findEntry x.1.trs.train n with
  | none => x
  | some e =>
    if e.track = .passed then x
    else
      let s1 := if e.track = .inbound ∧ e.rlv ≤ (halfWidth x.1 e.sinceSnap : Int) then openWindow n x.1 else x.1
      let k1 := x.2.update s1.trs.train
      let s2 :=
        match findEntry s1.trs.train n with
        | some e1 => if e1.track = .window then testWindow (k1.detectionPoint average before n) e1 s1 else s1
        | none => s1
      (s2, k1.update s2.trs.train)

/-- One window evaluation, oldest entry first (R40), and what DSQ does once it is complete (R160, R164). `average` says that a new
average caused it; `before` is the candidate before the event. -/
def evaluateOnce (average : Bool) (before : Option SeqNo) (s : State) : State :=
  let k : Tracker := ⟨before, false⟩
  let s1 := ((s.trs.train.map (·.seq)).foldl (visitEntry average before) (s, k.update s.trs.train)).1
  if s.hasRole .delivery then deliveryAfterEvaluation s1 else s1

/-- The evaluations that removals made within an evaluation bring (R40, log 25): `length` is the train's length before the last
one, and `n` bounds them. -/
def evaluateRemovals : Nat → Nat → State → State
  | 0, _, s => s
  | n + 1, length, s =>
    if s.trs.train.length < length then
      evaluateRemovals n s.trs.train.length (evaluateOnce false (candidateOf s.trs.train) s)
    else s

/-- The window evaluation after an event (R40); at the ORIGIN none is made (R44). -/
def evaluate (average : Bool) (before : Option SeqNo) (s : State) : State :=
  if s.nonOrigin then evaluateRemovals s.trs.train.length s.trs.train.length (evaluateOnce average before s) else s

/-- The evaluation that a removal of entries since `before` brings (R40). -/
def evaluateIfRemoved (before : State) (s : State) : State :=
  if s.trs.train.length < before.trs.train.length then evaluate false (candidateOf s.trs.train) s else s

/-- After an event changed RLVs (R40, R139): the window evaluation, and at a TERMINUS the threshold tests of a cut by volume, in a
free order (log 9). `before` is the candidate before the event. -/
def afterMove (before : Option SeqNo) (s : State) : State :=
  if s.hasRole .terminus then inEitherOrder cutRlvChanged (evaluate false before) s else evaluate false before s

/-! ### Litres, deltas and snaps (R43 to R47, R54, R55) -/

/-- An entry advanced by `v` litres: RLV falls, and S rises unless it is PASSED (R43, R45). -/
def Entry.advance (e : Entry) (v : Nat) : Entry :=
  { e with
    rlv := lowerRlv e.rlv v
    sinceSnap := if e.track = .passed then e.sinceSnap else raiseS e.sinceSnap v }

/-- A corrected litre at TKE (R43, R44). -/
def trackLitre (s : State) : State :=
  afterMove (candidateOf s.trs.train) (putTrain (s.trs.train.map fun e => e.advance 1) s)

/-- The entry to which a delta of a peer at `mark` is attributed (R46), `own` being the own mark. -/
def attributedTo (own mark : Nat) : List Entry → Option SeqNo
  | [] => none
  | [e] => if (mark : Int) ≤ (own : Int) - e.rlv then some e.seq else none
  | e :: f :: rest =>
    match attributedTo own mark (f :: rest) with
    | some n => some n
    | none => if (mark : Int) ≤ (own : Int) - e.rlv ∧ (own : Int) - f.rlv < (mark : Int) then some e.seq else none

/-- One entry under a delta (R45): advanced when its position is below the peer's mark; its remaining volume lowered when it is the
chosen one. Of two entries with the chosen one's sequence both are lowered, the model's choice (log 43). -/
def deltaEntry (own mark delta : Nat) (chosen : Option SeqNo) (e : Entry) : Entry :=
  let e1 := if (own : Int) - e.rlv < (mark : Int) then e.advance delta else e
  if chosen = some e.seq then e1.deliver delta else e1

/-- A peer delivery delta at TKE (R45). -/
def trackDelta (delta mark : Nat) (s : State) : State :=
  let chosen := attributedTo s.cfg.mark mark s.trs.train
  afterMove (candidateOf s.trs.train) (putTrain (s.trs.train.map (deltaEntry s.cfg.mark mark delta chosen)) s)

/-- The peer entry of a station (R78). -/
def findPeer (l : List Peer) (station : Nat) : Option Peer := l.find? (fun p => p.station == station)

/-- An entry snapped from a peer at `mark` (R55). -/
def Entry.snapped (e : Entry) (own mark : Nat) (byReference : Bool) (halfAtZero : Nat) : Entry :=
  { e with
    rlv := (own : Int) - mark
    sinceSnap := 0
    snapMark := some mark
    snappedByReference := byReference
    track := if (halfAtZero : Int) < (own : Int) - mark then .inbound else e.track }

/-- The conditions of R54 on sender and entry, DETECTED apart. -/
def snapAllowed (own : Nat) (p : Peer) (e : Entry) : Bool :=
  p.standing == .good && p.mark < own && e.snapMark.all (fun m => m < p.mark) && e.track != .passed

/-- A PASSAGE at TKE (R54, R55). -/
def takeSnap (sender : Nat) (n : SeqNo) (k : PassageKind) (s : State) : State :=
  match k, findPeer s.prt.peers sender, findEntry s.trs.train n with
  | .detected, some p, some e =>
    if snapAllowed s.cfg.mark p e then
      afterMove (candidateOf s.trs.train)
        (updateEntry n (fun x => x.snapped s.cfg.mark p.mark (s.prt.reference == some sender) (halfWidth s 0)) s)
    else s
  | _, _, _ => s

/-- A PASSAGE at TRS (R20): removals, and the evaluation they bring. -/
def takeRemoval (sender : Nat) (n : SeqNo) (s : State) : State :=
  match findPeer s.prt.peers sender with
  | some p =>
    if !s.hasRole .terminus && s.cfg.mark < p.mark then
      evaluateIfRemoved s (putTrain (removeBefore n s.trs.train) s)
    else s
  | none => s

end Sys2Proof.Machine
end

