-- ==== Sys2Proof/Machine/Samples.lean ====
section
/-! DEFINITION. The Density Unit's operations (chapter 4): accepted samples, rejects, restarts, the density notice and untracked
departure. -/

namespace Sys2Proof.Machine

/-- DSU's state changed. -/
def putDsu (f : Dsu → Dsu) (s : State) : State := { s with dsu := f s.dsu }

/-- The receiver and the silence timer work: RUN with a densitometer present (R63, R70). -/
def densityActive (s : State) : Bool := s.running && s.cfg.densitometer

/-- The density notice (R71): one window evaluation at every role but ORIGIN, and CSQ at a TERMINUS; there the two come in a
free order (log 24). -/
def densityNotice (average : Bool) (s : State) : State :=
  if s.hasRole .terminus then inEitherOrder (evaluate average (candidateOf s.trs.train)) cutDensityNotice s
  else evaluate average (candidateOf s.trs.train) s

/-- A published average counts toward departure (R75). -/
def countsTowardDeparture (average : Nat) (s : State) : Bool :=
  s.dsu.healthy && !s.trs.train.any (fun e => e.track == .window)
    && (match batchAtStation s.trs.train with
      | some b => !b.untrackedFollows && !b.mismatch
          && decide (b.rlv ≤ (s.tke.halfMix : Int) - s.tke.mix) && decide (s.cfg.prodTol < contrast average b.density)
      | none => false)

/-- An untracked departure (R76). -/
def declareDeparture (s : State) : State :=
  let s1 := raiseAlarm .untrackedInterface 0 s
  let s2 :=
    match batchAtStation s1.trs.train with
    | some b => updateEntry b.seq (fun e => { e with untrackedFollows := true }) s1
    | none => s1
  if s2.hasRole .terminus then cutUntracked s2 else s2

/-- Untracked departure judged at a published average, at RELAY, DELIVERY and TERMINUS (R75). -/
def judgeDeparture (average : Nat) (s : State) : State :=
  if !s.nonOrigin then s
  else if countsTowardDeparture average s then
    if s.dsu.departureRun + 1 < 4 then putDsu (fun d => { d with departureRun := d.departureRun + 1 }) s
    else declareDeparture (putDsu (fun d => { d with departureRun := 0 }) s)
  else putDsu (fun d => { d with departureRun := 0 }) s

/-- The average of four samples (R65), rounded half up. -/
def averageOf (window : List Nat) : Nat := (window.sum + 2) / 4

/-- DSU after an accepted sample (R65, R66, R67, R69), before anything is handed on. -/
def Dsu.accept (d : Dsu) (value now : Nat) : Dsu :=
  let window := (if d.window.length < 4 then d.window else d.window.drop 1) ++ [value]
  let fill := min 4 (d.fill + 1)
  let good := min 255 (d.goodRun + 1)
  { d with
    window := window
    fill := fill
    average := if fill = 4 then some (averageOf window) else d.average
    lastSample := some value
    healthy := d.healthy || good == 8
    rejectRun := 0
    goodRun := good
    silenceTimer := some (now + 1000) }

/-- An accepted sample (R65): with the window full an average is published, departure is judged at the publication (log 23), and a
notice is handed on; a change of health alone is a notice too (R71). -/
def acceptSample (value : Nat) (s : State) : State :=
  let s1 := putDsu (fun d => d.accept value s.now) s
  if s1.dsu.fill = 4 then densityNotice true (judgeDeparture (averageOf s1.dsu.window) s1)
  else if s1.dsu.healthy != s.dsu.healthy then densityNotice false s1
  else s1

/-- DSU after a restart (R68). -/
def Dsu.restarted (d : Dsu) : Dsu :=
  { d with window := [], fill := 0, goodRun := 0, average := none, departureRun := 0, healthy := false }

/-- A restart (R68): DENSITY_FAULT when the unit was HEALTHY, and a notice when health or the presence of an average changed
(R71). That DENSITY_FAULT's event joins before those that the notice brings is the model's choice (log 53). -/
def restartDensity (s : State) : State :=
  let s1 := putDsu Dsu.restarted s
  let s2 := if s.dsu.healthy then raiseAlarm .densityFault 0 s1 else s1
  if s.dsu.healthy || s.dsu.average.isSome then densityNotice false s2 else s2

/-- A reject (R66): the fourth in a row makes a restart. -/
def rejectSample (s : State) : State :=
  if s.dsu.rejectRun + 1 < 4 then
    putDsu (fun d => { d with goodRun := 0, rejectRun := d.rejectRun + 1 }) s
  else restartDensity (putDsu (fun d => { d with goodRun := 0, rejectRun := 0 }) s)

/-- The check of a complete frame (R64): the byte sum modulo 256 is 255. -/
def sampleCheck (bytes : List Byte) : Bool := (bytes.map (·.toNat)).sum % 256 == 255

/-- The value of a complete frame (R64). -/
def sampleValue (bytes : List Byte) : Nat := natAt bytes 1 2

/-- A complete frame judged (R64). -/
def judgeSample (bytes : List Byte) (s : State) : State :=
  if sampleCheck bytes && 5000 ≤ sampleValue bytes && sampleValue bytes ≤ 11000 then acceptSample (sampleValue bytes) s
  else rejectSample s

/-- The receiver's state replaced (R63). -/
def putReceiver (r : Receiver) (s : State) : State := putDsu (fun d => { d with receiver := r }) s

/-- A character in HUNT (R63). -/
def huntCharacter (value : Byte) (goodStop : Bool) (s : State) : State :=
  if goodStop && value == 0x5A then putReceiver (.frame [value] s.now) s else s

/-- A character in FRAME, within 10 ms of the previous one (R63). -/
def frameCharacter (bytes : List Byte) (value : Byte) (goodStop : Bool) (s : State) : State :=
  if !goodStop then rejectSample (putReceiver .hunt s)
  else if bytes.length + 1 < 4 then putReceiver (.frame (bytes ++ [value]) s.now) s
  else judgeSample (bytes ++ [value]) (putReceiver .hunt s)

/-- A character on the density line (R63). One that comes more than 10 ms after the previous one finds the frame abandoned
(log 26). -/
def takeCharacter (value : Byte) (goodStop : Bool) (s : State) : State :=
  match s.dsu.receiver with
  | .hunt => huntCharacter value goodStop s
  | .frame bytes last =>
    if s.now ≤ last + 10 then frameCharacter bytes value goodStop s
    else huntCharacter value goodStop (rejectSample (putReceiver .hunt s))

/-- 10 ms in FRAME with no character (R63). -/
def abandonSample (s : State) : State :=
  match s.dsu.receiver with
  | .hunt => s
  | .frame _ last => rejectSample (putReceiver .hunt (s.advanceTo (last + 10)))

/-- The silence timer expires and starts again (R67). -/
def silenceExpired (s : State) : State :=
  match s.dsu.silenceTimer with
  | none => s
  | some due =>
    let s1 := s.advanceTo due
    restartDensity (putDsu (fun d => { d with silenceTimer := some (s1.now + 1000) }) s1)

end Sys2Proof.Machine
end

