-- ==== Sys2Proof/Machine/DensityLine.lean ====
section
/-! DEFINITION. The density line's family (chapter 4): DENSITY_CHARACTER, FRAME_CHAR_TIMEOUT, SILENCE_TIMER_EXPIRY. -/

namespace Sys2Proof.Machine

/-- DENSITY_CHARACTER (R63). -/
def execDensityCharacter (value : Byte) (goodStop : Bool) (s : State) : Host.Outcome State Fault Refusal :=
  .next (if densityActive s then takeCharacter value goodStop s else s)

/-- FRAME_CHAR_TIMEOUT (R63). -/
def execFrameCharTimeout (s : State) : Host.Outcome State Fault Refusal :=
  .next (if densityActive s then abandonSample s else s)

/-- SILENCE_TIMER_EXPIRY (R67). -/
def execSilenceTimerExpiry (s : State) : Host.Outcome State Fault Refusal :=
  .next (if densityActive s then silenceExpired s else s)

end Sys2Proof.Machine
end

