-- ==== Sys2Proof/Machine/Launch.lean ====
section
/-! DEFINITION. The Launch Scheduler's and the Hold Unit's operations (chapter 11): the changeover, the hold table, and the holds a
terminal generates. -/

namespace Sys2Proof.Machine

/-- LSC's state changed. -/
def putLsc (f : Lsc → Lsc) (s : State) : State := { s with lsc := f s.lsc }

/-! ### Blocks (R188) -/

/-- The station's Peer Table entry records the role TERMINUS, in any standing (R95). -/
def recordedTerminus (s : State) (station : Nat) : Bool :=
  (findPeer s.prt.peers station).any (fun p => p.role == .terminus)

/-- A holder that a delivery list would send product to: named in the list, or recorded as a TERMINUS (R188). -/
def holderConcerned (s : State) (deliveries : List DeliveryRec) (station : Nat) : Bool :=
  deliveries.any (fun d => d.station == station) || recordedTerminus s station

/-- An order is blocked by a hold (R188). -/
def orderBlocked (s : State) (o : Order) : Bool :=
  s.lsc.holds.any fun h => (h.product == o.product || h.product == 0) && holderConcerned s o.deliveries h.station

/-- Extending the running batch would send more of a held product to its holder (R188). -/
def extendsHeldBatch (s : State) : Bool :=
  match s.lsc.running.product with
  | none => false
  | some p => s.lsc.holds.any fun h => h.product == p && holderConcerned s s.lsc.running.deliveries h.station

/-- A block of the head order is applied (R188). -/
def blockApplied (s : State) (o : Order) : Bool := orderBlocked s o && !extendsHeldBatch s

/-! ### The changeover (R187, R189 to R191) -/

/-- A changeover is due (R187). -/
def changeoverDue (s : State) : Bool := s.lsc.running.nominal ≤ s.lsc.running.launched && !s.lsc.orders.isEmpty

/-- The running batch that an order becomes (R190). -/
def Order.runs (o : Order) (n : SeqNo) (source : Route) : Running where
  seq := some n
  product := some o.product
  nominal := o.nominal
  deliveries := o.deliveries
  source := some source
  launched := 0

/-- The sequence and final launched count of the batch before a changeover; none after line fill (R190). -/
def Running.prior (r : Running) : Option (SeqNo × Nat) := r.seq.map fun n => (n, r.launched)

/-- The entry of the running batch takes its launched count as its launched volume (R14, R190). -/
def closeRunningEntry (s : State) : State :=
  match s.lsc.running.seq with
  | some n => updateEntry n (fun e => e.fillLaunched s.lsc.running.launched) s
  | none => s

/-- The changeover's new entry appended, or refused for a full train (R14, R17). -/
def appendOrderEntry (n : SeqNo) (o : Order) (s : State) : State :=
  match roomFor s.trs.train with
  | some t => putTrain (t ++ [entryOfOrder n o]) s
  | none => refuseInsertion s

/-- The LAUNCH of a changeover (R190). -/
def launchOf (n : SeqNo) (o : Order) (prior : Option (SeqNo × Nat)) : LaunchMsg where
  seq := n
  product := o.product
  density := o.density
  nominal := o.nominal
  deliveries := o.deliveries
  prior := prior

/-- LSC after a completed changeover: steps 4 and 6 of R190, and the fault mark after both open. -/
def Lsc.advanced (l : Lsc) (n : SeqNo) (o : Order) (rest : List Order) (source : Route) (result : SwitchResult) : Lsc :=
  { l with
    orders := rest
    running := o.runs n source
    nextSeq := some (seqNext n)
    switching := false
    faultMark := l.faultMark || result == .bothOpen }

/-- A changeover completes (R190). The next sequence is present in every state that can reach this (log 39). -/
def completeChangeover (source : Route) (result : SwitchResult) (s : State) : State :=
  match s.lsc.orders with
  | [] => putLsc (fun l => { l with switching := false }) s
  | o :: rest =>
    let n := s.lsc.nextSeq.getD 1
    let prior := s.lsc.running.prior
    let s1 := appendOrderEntry n o (closeRunningEntry s)
    let s2 := sendOwn .launch (launchPayload (launchOf n o prior)) s1
    offerEvent (.launched n o.product prior s.mtr.count result)
      (putLsc (fun l => l.advanced n o rest source result) s2)

/-- LSC takes the outcome of its switch (R190, R191). -/
def changeoverOutcome (o : SwitchOutcome) (s : State) : State :=
  match o.result with
  | .completed => completeChangeover o.request.target .completed s
  | .bothOpen => completeChangeover o.request.target .bothOpen s
  | .abandoned _ => putLsc (fun l => { l with switching := false, faultMark := true }) s

/-- The changeover to the head order starts (R189): the source switch goes to VLD. A product without a route cannot stand in the
queue (R184, log 33). -/
def startChangeover (o : Order) (s : State) : State × List SwitchOutcome :=
  match productRoute s.cfg o.product with
  | none => (s, [])
  | some r => requestSwitch ⟨r, ⟨.none, none, false⟩⟩ (putLsc (fun l => { l with switching := true }) s)

/-- The changeover starts, with HOLD_CONFLICT when the head order's block is not applied (R188, R189). -/
def startWithConflict (o : Order) (s : State) : State × List SwitchOutcome :=
  startChangeover o (if orderBlocked s o then raiseAlarm .holdConflict 0 s else s)

/-- One judgement of the changeover at the ORIGIN (R187): it starts when it is due and not deferred. -/
def judgeChangeoverOnce (s : State) : State × List SwitchOutcome :=
  if s.hasRole .origin && !s.lsc.switching && changeoverDue s && s.trs.sync != .seqLearn && !s.lsc.faultMark then
    match s.lsc.orders with
    | o :: _ => if blockApplied s o then (s, []) else startWithConflict o s
    | [] => (s, [])
  else (s, [])

/-- The changeover judged (R187), and judged again when it ends at once (R190, log 57); `n` bounds the ends by the orders
queued. -/
def judgeChangeovers : Nat → State → State
  | 0, s => s
  | n + 1, s =>
    match judgeChangeoverOnce s with
    | (s1, []) => s1
    | (s1, outcomes) => judgeChangeovers n (outcomes.foldl (fun s o => changeoverOutcome o s) s1)

/-- The changeover judged at one of the moments of R187. -/
def judgeChangeover (s : State) : State := judgeChangeovers (s.lsc.orders.length + 1) s

/-- LSC takes outcomes and judges the next changeover (R190). One that arises at the request of the changeover's switch is taken
once LSC is switching, the model's choice (log 57). -/
def changeoverOutcomes (l : List SwitchOutcome) (s : State) : State :=
  match l with
  | [] => s
  | o :: rest => judgeChangeover ((o :: rest).foldl (fun s o => changeoverOutcome o s) s)

/-- A litre at LSC (R186): the launched count saturates at 2,000,000,000, and the changeover is judged. -/
def countLaunched (s : State) : State :=
  judgeChangeover (putLsc (fun l =>
    { l with running := { l.running with launched := min 2000000000 (l.running.launched + 1) } }) s)

/-- FORCE_ADVANCE at the ORIGIN (R191); none when it is refused with NOT_STATE. -/
def launchForceAdvance (s : State) : Option State :=
  if s.trs.sync = .synced ∧ s.lsc.switching = false then
    match s.lsc.orders with
    | [] => none
    | o :: _ =>
      let s1 := putLsc (fun l => { l with faultMark := false }) s
      if blockApplied s1 o then some s1
      else some (changeoverOutcomes (startWithConflict o s1).2 (startWithConflict o s1).1)
  else none

/-! ### The hold table (R192, R193) -/

/-- The key of a hold (R192). -/
def Hold.hasKey (h : Hold) (station product : Nat) : Bool := h.station == station && h.product == product

/-- Hold `a` expires before `b`; among equal expiries the lower station, then the lower product, comes first (R192). -/
def Hold.before (a b : Hold) : Bool :=
  a.expiry < b.expiry || (a.expiry == b.expiry && (a.station < b.station || (a.station == b.station && a.product < b.product)))

/-- The hold that a full table replaces (R192). -/
def earliestHold : List Hold → Option Hold
  | [] => none
  | h :: rest =>
    match earliestHold rest with
    | none => some h
    | some k => if k.before h then some k else some h

/-- The hold table replaced. -/
def putHolds (l : List Hold) (s : State) : State := putLsc (fun x => { x with holds := l }) s

/-- A hold created or refreshed, d being 1..60 (R192). -/
def setHold (station product expiry : Nat) (s : State) : State :=
  if s.lsc.holds.any (fun h => h.hasKey station product) then
    putHolds (s.lsc.holds.map fun h => if h.hasKey station product then { h with expiry := expiry } else h) s
  else if s.lsc.holds.length < 16 then putHolds (s.lsc.holds ++ [⟨station, product, expiry⟩]) s
  else
    match earliestHold s.lsc.holds with
    | none => s
    | some k =>
      judgeChangeover (putHolds
        (s.lsc.holds.filter (fun h => !h.hasKey k.station k.product) ++ [⟨station, product, expiry⟩]) s)

/-- A hold removed, if present, and the changeover judged (R192, R193). -/
def removeHold (station product : Nat) (s : State) : State :=
  if s.lsc.holds.any (fun h => h.hasKey station product) then
    judgeChangeover (putHolds (s.lsc.holds.filter fun h => !h.hasKey station product) s)
  else s

/-- A HOLD at the ORIGIN (R192). -/
def takeHold (station product minutes : Nat) (s : State) : State :=
  if product ≤ 15 ∧ minutes ≤ 60 ∧ 1 ≤ station ∧ station ≤ 250 then
    if minutes = 0 then removeHold station product s
    else setHold station product (s.now + minutes * 60000) s
  else s

/-! ### Hold generation (R194 to R196) -/

/-- HLU's state changed. -/
def putHlu (f : Hlu → Hlu) (s : State) : State := { s with hlu := f s.hlu }

/-- The role generates holds (R194). -/
def holdRole (s : State) : Bool := s.hasRole .delivery || s.hasRole .terminus

/-- The hold product of a route (R194). -/
def holdProduct (s : State) (r : Route) : Option Nat :=
  match routeGet s.cfg.routes r with
  | .unused => none
  | .product p => some p
  | .transmix => if s.hasRole .terminus then some 0 else none

/-- The refresh interval R in ms (R195). -/
def refreshInterval (c : Published) : Nat := max 1 (c.holdMin / 2) * 60000

/-- The slot of product `p` replaced. -/
def putSlot (p : Nat) (x : HoldSlot) (s : State) : State := putHlu (fun h => { h with slots := h.slots.set p x }) s

/-- The hold state of a product (R194). -/
def holdActive (s : State) (p : Nat) : Bool := (s.hlu.slots[p]?).any (·.active)

/-- One route judged against its watermark (R195). -/
def judgeHold (s : State) (r : Route) : State :=
  match holdProduct s r, routeGet s.hlu.headrooms r with
  | some p, some room =>
    if holdActive s p then
      if routeGet s.cfg.watermarks r + s.cfg.holdHyst ≤ room then
        putSlot p ⟨false, none⟩ (sendOwn .hold (holdPayload p 0) s)
      else s
    else if room < routeGet s.cfg.watermarks r then
      putSlot p ⟨true, some (s.now + refreshInterval s.cfg)⟩ (sendOwn .hold (holdPayload p s.cfg.holdMin) s)
    else s
  | _, _ => s

/-- The holds judged for every route in route order (R194, R195). -/
def judgeHolds (s : State) : State := allRoutes.foldl judgeHold s

/-- The stale timer restarted (R196). -/
def restartStaleTimer (s : State) : State :=
  putHlu (fun h => { h with staleTimer := some (s.now + 3 * s.cfg.beaconPeriod * 100) }) s

/-- The headroom kept of a reported value (R194). -/
def keptHeadroom (v : BitVec 32) : Option Nat := some (min 65535 v.toNat)

/-- Each value of a table changed. -/
def routeMap {α β : Type} (f : α → β) (t : PerRoute α) : PerRoute β :=
  ⟨f t.r1, f t.r2, f t.r3, f t.r4, f t.r5, f t.r6, f t.r7, f t.r8⟩

/-- The values of a table in route order. -/
def routeList {α : Type} (t : PerRoute α) : List α := [t.r1, t.r2, t.r3, t.r4, t.r5, t.r6, t.r7, t.r8]

/-- A SET_STATUS taken (R194). -/
def takeStatus (headrooms : PerRoute (BitVec 32)) (s : State) : State :=
  judgeHolds (restartStaleTimer (putHlu (fun h =>
    { h with headrooms := routeMap keptHeadroom headrooms, stale := false }) s))

/-- The refresh timer of a product expires (R195). -/
def refreshHold (p : Nat) (s : State) : State :=
  match (s.hlu.slots[p]?).bind (·.refreshTimer) with
  | none => s
  | some due =>
    let s1 := s.advanceTo due
    putSlot p ⟨true, some (s1.now + refreshInterval s1.cfg)⟩ (sendOwn .hold (holdPayload p s1.cfg.holdMin) s1)

/-- The stale timer expires (R196). -/
def statusStale (s : State) : State :=
  match s.hlu.staleTimer with
  | none => s
  | some due =>
    raiseAlarm .statusStale 0 (putHlu (fun h => { h with stale := true, staleTimer := none }) (s.advanceTo due))

end Sys2Proof.Machine
end

