-- ==== Sys2Proof/Machine/Meter.lean ====
section
/-! DEFINITION. The Meter Unit's family (chapter 2): MAINLINE_PULSE, TRIM_NUDGE, DELIVERY_PULSE. -/

namespace Sys2Proof.Machine

/-- MTR's state changed. -/
def putMtr (f : Mtr → Mtr) (s : State) : State := { s with mtr := f s.mtr }

/-- A litre in nanolitres (R26). -/
def litre : Nat := 1000000000

/-- An accumulator that holds a litre, without it (R26, R31). -/
def lessLitre (fine : Nat) : Nat := ((fine : Int) - litre).toNat

/-- The highest C at which a mainline pulse is still taken: 2^48 − 1 less 66 (R27). -/
def lastTakenCount : Nat := 281474976710589

/-- What CSQ does with a litre once it is counted: due actions, the settle, and the evaluation that a close's removals bring (R40,
R143, R145). -/
def cutAfterLitre (s : State) : State := evaluateIfRemoved s (executeAndSettle s)

/-- A corrected litre handed on (R28). At a TERMINUS the open record counts it first; its executions and the tracking come in a free
order (log 8). At the ORIGIN tracking comes before the launched count (log 22). -/
def handLitre (s : State) : State :=
  if s.hasRole .terminus then inEitherOrder cutAfterLitre trackLitre (countLitre s)
  else if s.hasRole .origin then countLaunched (trackLitre s)
  else trackLitre s

/-- One corrected litre: F falls by a litre, C rises by 1, and the litre is handed on (R26, R27). -/
def emitLitre (s : State) : State :=
  handLitre (putMtr (fun m => { m with fine := lessLitre m.fine, count := m.count + 1 }) s)

/-- `n` litres, one at a time (R29). -/
def emitLitres : Nat → State → State
  | 0, s => s
  | n + 1, s => emitLitres n (emitLitre s)

/-- F with one mainline pulse added: PW × (1,000,000 + T) nL (R26). -/
def pulsedFine (s : State) : Nat := s.mtr.fine + ((s.cfg.pulseWeight : Int) * (1000000 + s.mtr.trim)).toNat

/-- A mainline pulse taken (R26). -/
def takeMainline (s : State) : State :=
  emitLitres (pulsedFine s / litre) (putMtr (fun m => { m with fine := pulsedFine s }) s)

/-- MAINLINE_PULSE (R25, R26, R27). -/
def execMainlinePulse (s : State) : Host.Outcome State Fault Refusal :=
  .next (if s.running ∧ s.mtr.count ≤ lastTakenCount then takeMainline s else s)

/-- T after a nudge (R34). -/
def nudgedTrim (c : Published) (old : Int) (up : Bool) : Int :=
  clampInt (-(c.trimMax : Int)) c.trimMax (if up then old + c.trimStep else old - c.trimStep)

/-- A nudge request taken (R34). -/
def takeNudge (q : Nudge) (rest : List Nudge) (s : State) : State :=
  let new := nudgedTrim s.cfg s.mtr.trim q.up
  offerEvent (.trimChanged s.mtr.trim new q.residual) (putMtr (fun m => { m with trim := new, nudges := rest }) s)

/-- TRIM_NUDGE (R34, R35): the oldest request that waits. -/
def execTrimNudge (s : State) : Host.Outcome State Fault Refusal :=
  .next (
    match s.mtr.nudges with
    | [] => s
    | q :: rest => takeNudge q rest s)

/-- One delivery litre: FD falls by a litre, D rises by 1 modulo 2^32, and DSQ takes it (R31, R163). -/
def emitDelivered (s : State) : State :=
  countDelivered (putMtr (fun m =>
    { m with deliveryFine := lessLitre m.deliveryFine, deliveryCount := m.deliveryCount + 1 }) s)

/-- `n` delivery litres. -/
def emitDeliveries : Nat → State → State
  | 0, s => s
  | n + 1, s => emitDeliveries n (emitDelivered s)

/-- FD with one delivery pulse added: PWD × 1,000,000 nL (R31). -/
def pulsedDelivery (s : State) : Nat := s.mtr.deliveryFine + s.cfg.deliveryPulseWeight * 1000000

/-- A delivery pulse taken (R31). -/
def takeDelivery (s : State) : State :=
  emitDeliveries (pulsedDelivery s / litre) (putMtr (fun m => { m with deliveryFine := pulsedDelivery s }) s)

/-- DELIVERY_PULSE (R30, R31). -/
def execDeliveryPulse (s : State) : Host.Outcome State Fault Refusal :=
  .next (if s.hasRole .delivery then takeDelivery s else s)

end Sys2Proof.Machine
end

