-- ==== Sys2Proof/Machine/Joining.lean ====
section
/-! DEFINITION. Insertion into the train from LAUNCH and ITEM (chapter 1), the transfer of the train and sequence learning
(chapter 7). -/

namespace Sys2Proof.Machine

/-! ### Insertion (R11 to R17) -/

/-- TRS's state changed, the train apart. -/
def putTrs (f : Trs → Trs) (s : State) : State := { s with trs := f s.trs }

/-- Room made for one entry (R17), with what a removal brings (R40, R139); none when the insertion is refused. -/
def makeRoom (s : State) : Option State :=
  match roomFor s.trs.train with
  | none => none
  | some t =>
    if t.length < s.trs.train.length then
      let s1 := putTrain t s
      some (evaluateIfRemoved s (if s1.hasRole .terminus then cutRlvChanged s1 else s1))
    else some s

/-- The prior fields of a LAUNCH applied (R13). -/
def applyPrior (m : LaunchMsg) (s : State) : State :=
  match m.prior with
  | none => s
  | some (n, v) => updateEntry n (fun e => e.fillLaunched v) s

/-- The entry of a LAUNCH appended, with TRAIN_GAP when it is not the next, or refused for a full train (R12, R17). The evaluation
follows the insertion's own changes (R40, log 42). -/
def appendLaunch (m : LaunchMsg) (gap : Bool) (s : State) : State :=
  match makeRoom s with
  | none => refuseInsertion s
  | some s1 =>
    let s2 := putTrain (s1.trs.train ++ [entryOfLaunch s1.cfg.mark m]) s1
    evaluate false (candidateOf s1.trs.train) (if gap then raiseGap s2 else s2)

/-- A checked LAUNCH at a non-origin chip (R12). -/
def placeLaunch (m : LaunchMsg) (s : State) : State :=
  match newestEntry s.trs.train with
  | none => appendLaunch m false (applyPrior m s)
  | some e =>
    if m.seq = seqNext e.seq then appendLaunch m false (applyPrior m s)
    else if seqAfter m.seq e.seq then appendLaunch m true (applyPrior m s)
    else s

/-- An adopted item's batch inserted or filled in (R15, R16, R17); the flag says that the item counts as held. -/
def insertItem (b : ItemBody) (s : State) : State × Bool :=
  match findEntry s.trs.train b.seq with
  | some _ =>
    (match b.launched with
      | some v => updateEntry b.seq (fun e => e.fillLaunched v) s
      | none => s, true)
  | none =>
    let e := entryOfItem s.cfg.mark b
    match placeEntry e s.trs.train with
    | none => (s, false)
    | some _ =>
      if 40 ≤ s.trs.train.length ∧ placedAtHead e s.trs.train then (s, true)
      else
        match makeRoom s with
        | none => (refuseInsertion s, false)
        | some s1 =>
          match placeEntry e s1.trs.train with
          | none => (s1, false)
          | some t => (evaluate false (candidateOf s1.trs.train) (putTrain t s1), true)

/-! ### The transfer at the requester (R118, R119, R124, R125) -/

/-- The attempt's answer cleared (R118, R119, R125). -/
def Trs.clearAnswer (t : Trs) : Trs := { t with adopted := none, held := [] }

/-- The transfer ends (R125), and CSQ judges leaving UNKNOWN at a TERMINUS (R134). -/
def transferComplete (s : State) : State :=
  let s1 := offerEvent .trainSynced
    (putTrs (fun t => { t.clearAnswer with sync := .synced, transferTimer := none, attempts := 0 }) s)
  if s1.hasRole .terminus then leaveUnknown s1 else s1

/-- Every index 1..n is held (R125). -/
def allHeld (n : Nat) (held : List Nat) : Bool := (List.range n).all fun i => held.contains (i + 1)

/-- An item of the adopted answer taken (R125). -/
def takeAdopted (m : ItemMsg) (s : State) : State :=
  let s1 := putTrs (fun t => { t with transferTimer := some (s.now + 5000) }) s
  match m.body with
  | none => transferComplete s1
  | some b =>
    let y := insertItem b s1
    let s2 := if y.2 then putTrs (fun t => { t with held := t.held ++ [m.index] }) y.1 else y.1
    if allHeld m.count s2.trs.held then transferComplete s2 else s2

/-- A checked ITEM judged against the adopted answer (R124). -/
def judgeItem (sender : Nat) (m : ItemMsg) (s : State) : State :=
  match s.trs.adopted with
  | none =>
    if m.index = 1 then takeAdopted m (putTrs (fun t => { t with adopted := some (sender, m.count) }) s) else s
  | some (a, n) =>
    if a = sender ∧ n = m.count ∧ !s.trs.held.contains m.index then takeAdopted m s else s

/-- An ITEM at TRS (R124). -/
def takeItem (sender : Nat) (m : ItemMsg) (s : State) : State :=
  if m.addressee = s.cfg.station ∧ s.trs.sync = .asking ∧ itemValid m then judgeItem sender m s else s

/-- The transfer timer expires (R119). -/
def transferExpired (s : State) : State :=
  match s.trs.transferTimer with
  | none => s
  | some due =>
    let s1 := s.advanceTo due
    if s1.trs.attempts < 3 then sendAsk (s1.trs.attempts + 1) s1
    else
      offerEvent .trainUnsynced (putTrs (fun t =>
        { t.clearAnswer with
          sync := .unsynced
          attempts := 0
          transferTimer := none
          reAskTimer := some (s1.now + 30000) }) s1)

/-- The re-ask timer expires (R118). -/
def reAskExpired (s : State) : State :=
  match s.trs.reAskTimer with
  | none => s
  | some due => sendAskIfDue (putTrs (fun t => { t with reAskTimer := none, askDue := true }) (s.advanceTo due))

/-- RESYNC at TRS (R24). -/
def trainResync (s : State) : State :=
  sendAskIfDue (putTrs (fun t =>
    { t.clearAnswer with
      sync := .unsynced
      attempts := 0
      transferTimer := none
      reAskTimer := none
      askDue := true
      answer := [] }) (putTrain [] s))

/-! ### Answering (R120 to R123) -/

/-- An ASK's fields (R103). -/
structure AskMsg where
  mark : Nat
  present : Nat
  seq : SeqNo
  deriving DecidableEq, Repr

/-- The fields of an ASK payload (R103). -/
def readAsk (p : List Byte) : AskMsg := ⟨natAt p 0 4, natAt p 4 1, seqAt p 5⟩

/-- The checks of R120 on an ASK's payload. -/
def askValid (a : AskMsg) : Bool := a.mark ≤ 2000000000 && a.present ≤ 1

/-- A checked ASK is answered (R120). -/
def answersAsk (s : State) (a : AskMsg) : Bool :=
  s.trs.sync == .synced && s.cfg.mark < a.mark
    && !s.prt.peers.any (fun p => p.standing == .good && s.cfg.mark < p.mark && p.mark < a.mark)

/-- The newest entry whose position is at or above the requester's mark (R122). -/
def newestBeyond (s : State) (mark : Nat) : Option SeqNo :=
  ((s.trs.train.filter fun e => (mark : Int) ≤ position s e).getLast?).map (·.seq)

/-- The entries of an answer, in train order (R122). -/
def answerEntries (s : State) (mark : Nat) : List Entry :=
  s.trs.train.filter fun e => decide (position s e < (mark : Int)) || newestBeyond s mark == some e.seq

/-- The items of an answer (R122). -/
def buildAnswer (s : State) (requester mark : Nat) : List (List Byte) :=
  if s.trs.train.isEmpty then [emptyAnswerPayload requester]
  else
    (answerEntries s mark).zipIdx.map fun x =>
      itemPayload requester (x.2 + 1) (answerEntries s mark).length x.1 (position s x.1)

/-- An ASK shows a gap in the own train (R121). -/
def askShowsGap (s : State) (a : AskMsg) : Bool :=
  s.nonOrigin && s.trs.sync == .synced && s.cfg.mark < a.mark && a.present == 1
    && (newestEntry s.trs.train).all (fun e => seqAfter a.seq e.seq)

/-- An ASK at TRS: the answer decision, then the gap judgement (R120, R121). A new answer takes the buffer (R123). -/
def takeAsk (sender : Nat) (a : AskMsg) (s : State) : State :=
  if askValid a then
    let s1 := if answersAsk s a then putTrs (fun t => { t with answer := buildAnswer s sender a.mark }) s else s
    if askShowsGap s1 a then raiseGap s1 else s1
  else s

/-- No port that is UP has a full BULK queue (R123). -/
def bulkHasRoom (s : State) : Bool :=
  !(portUp s .up && queueFull s .up .bulk) && !(portUp s .down && queueFull s .down .bulk)

/-- The next item of the answer buffer handed on (R123). -/
def handItem (s : State) : State :=
  match s.trs.answer with
  | [] => s
  | p :: rest => if bulkHasRoom s then sendOwn .item p (putTrs (fun t => { t with answer := rest }) s) else s

/-! ### Sequence learning (R128, R129) -/

/-- The learn timer started at the moment a port first reaches UP (R128). -/
def startLearning (s : State) : State :=
  if s.hasRole .origin && s.trs.sync == .seqLearn && s.trs.learnTimer.isNone then
    putTrs (fun t => { t with learnTimer := some (s.now + 2 * s.cfg.beaconPeriod * 100) }) s
  else s

/-- The sequence that follows what was learned (R129). -/
def sequenceLearned (learned : Option SeqNo) : SeqNo :=
  match learned with
  | some n => seqNext n
  | none => 1

/-- The learn timer expires (R129). -/
def learningEnds (s : State) : State :=
  match s.trs.learnTimer with
  | none => s
  | some due =>
    let s1 := putTrs (fun t => { t with sync := .synced, learnTimer := none }) (s.advanceTo due)
    judgeChangeover (offerEvent .trainSynced
      (putLsc (fun l => { l with nextSeq := some (sequenceLearned s.trs.learned) }) s1))

end Sys2Proof.Machine
end

