-- ==== Sys2Proof/Machine/Ports.lean ====
section
/-! DEFINITION. The trackline ports' family (chapter 6): PORT_SIGNAL_DETECTED, TRAINING_SYMBOL_RECEIVED, PORT_REACHES_UP,
LOSS_OF_SIGNAL, FRAME_RECEIVED, RX_FRAME_ABORTED, NOISE_CLEAN_EXPIRY, BEACON_TIMER_EXPIRY, TX_PORT_FREE. -/

namespace Sys2Proof.Machine

/-! ### Link state (R99, R101) -/

/-- PORT_SIGNAL_DETECTED (R99): a DOWN port enters TRAINING with training count 0. -/
def execPortSignalDetected (p : Port) (s : State) : Host.Outcome State Fault Refusal :=
  .next (
    if s.running ∧ (portGet s.tlc p).link = .down then
      modifyPort p (fun x => { x with link := .training, trainingCount := 0 }) s
    else s)

/-- A port becomes UP (R99): the ORIGIN's learn timer starts at the first (R128), and an ASK that is due is sent (R118). -/
def portBecomesUp (p : Port) (s : State) : State :=
  sendAskIfDue (startLearning (modifyPort p (fun x => { x with link := .up, trainingCount := 16 }) s))

/-- PORT_REACHES_UP (R99): the sixteenth IDLE in TRAINING (log 6). -/
def execPortReachesUp (p : Port) (s : State) : Host.Outcome State Fault Refusal :=
  .next (
    if s.running ∧ (portGet s.tlc p).link = .training ∧ 15 ≤ (portGet s.tlc p).trainingCount then portBecomesUp p s
    else s)

/-- A symbol in TRAINING (R99): IDLE counts, and the sixteenth makes the port UP; any other sets the count to 0. -/
def trainingSymbol (p : Port) (symbol : Symbol) (s : State) : State :=
  match symbol with
  | .idle =>
    if (portGet s.tlc p).trainingCount + 1 < 16 then
      modifyPort p (fun x => { x with trainingCount := x.trainingCount + 1 }) s
    else portBecomesUp p s
  | .data _ => modifyPort p (fun x => { x with trainingCount := 0 }) s
  | .start => modifyPort p (fun x => { x with trainingCount := 0 }) s
  | .finish => modifyPort p (fun x => { x with trainingCount := 0 }) s
  | .invalid => modifyPort p (fun x => { x with trainingCount := 0 }) s

/-- TRAINING_SYMBOL_RECEIVED (R99). -/
def execTrainingSymbolReceived (p : Port) (symbol : Symbol) (s : State) : Host.Outcome State Fault Refusal :=
  .next (if s.running ∧ (portGet s.tlc p).link = .training then trainingSymbol p symbol s else s)

/-- A port that leaves UP (R101): its queues and the frame being sent are lost. -/
def PortState.lost (x : PortState) : PortState :=
  { x with link := .down, urgent := [], routine := [], bulk := [], sending := none }

/-- LOSS_OF_SIGNAL (R99, R101). -/
def execLossOfSignal (p : Port) (s : State) : Host.Outcome State Fault Refusal :=
  .next (
    if s.running then
      match (portGet s.tlc p).link with
      | .down => s
      | .training => modifyPort p (fun x => { x with link := .down }) s
      | .up => raiseAlarm .linkLost (portCode p) (modifyPort p PortState.lost s)
    else s)

/-! ### Receiving (R102 to R106) -/

/-- A good frame (R80, R105, R106): own number is a conflict; any other is forwarded and joins the receive queue. -/
def receiveGood (p : Port) (f : Frame) (s : State) : State :=
  if f.station.toNat = s.cfg.station then raiseAlarm .stationConflict 0 s
  else
    match f.kindOf with
    | some k => placeReceived p f (forwardFrame p k f s)
    | none => s

/-- A frame whose END has arrived (R103). -/
def receiveFrame (p : Port) (bytes : List Byte) (s : State) : State :=
  match goodFrame bytes with
  | none => badFrame p s
  | some f => receiveGood p f s

/-- FRAME_RECEIVED (R103). -/
def execFrameReceived (p : Port) (bytes : List Byte) (s : State) : Host.Outcome State Fault Refusal :=
  .next (if s.running ∧ portUp s p then receiveFrame p bytes s else s)

/-- RX_FRAME_ABORTED (R102, R104). -/
def execRxFrameAborted (p : Port) (s : State) : Host.Outcome State Fault Refusal :=
  .next (if s.running ∧ portUp s p then badFrame p s else s)

/-- 10 s after the last bad frame a NOISY port becomes CLEAN with an empty list (R104). -/
def portClean (p : Port) (s : State) : State :=
  let due := ((portGet s.tlc p).badTimes.getLast?).getD 0 + 10000
  modifyPort p (fun x => { x with noisy := false, badTimes := [] }) (s.advanceTo due)

/-- NOISE_CLEAN_EXPIRY (R104). -/
def execNoiseCleanExpiry (p : Port) (s : State) : Host.Outcome State Fault Refusal :=
  .next (if s.running ∧ (portGet s.tlc p).noisy = true then portClean p s else s)

/-! ### Sending (R110 to R114) -/

/-- A port's slot has ended (R110, R111): the clock stands at its end, and the arbiter chooses. -/
def portFree (p : Port) (x : Sending) (s : State) : State :=
  let clock := max s.clock x.busyUntil
  modifyPort p (fun y => arbitrate clock { y with sending := none }) { s with clock := clock }

/-- TX_PORT_FREE (R110). -/
def execTxPortFree (p : Port) (s : State) : Host.Outcome State Fault Refusal :=
  .next (
    match s.running, (portGet s.tlc p).sending with
    | true, some x => portFree p x s
    | _, _ => s)

/-- The beacon built from the owners' state (R113). R113 gives the newest sequence no value when the train is empty and the
newest-present flag clear; that it is sent as 0 is the model's choice (log 45). Here `restarted` is the counter-restarted flag. -/
def beaconOf (s : State) (restarted : Bool) : BeaconMsg where
  role := (s.cfg.role.map Role.code).getD 0
  mark := s.cfg.mark
  period := s.cfg.beaconPeriod
  synced := s.trs.sync == .synced
  densityHealthy := s.dsu.healthy
  restarted := restarted
  newestPresent := !s.trs.train.isEmpty
  count := if s.hasRole .delivery then s.mtr.deliveryCount else 0
  newest := ((newestEntry s.trs.train).map (·.seq)).getD 0
  entryCount := s.trs.train.length

/-- A beacon with the flag set is counted when a port's ROUTINE queue takes it (R114). -/
def restartsAfter (s : State) : Nat :=
  if s.tlc.restartCount < 3 && (wouldPlace s .beacon .up || wouldPlace s .beacon .down) then s.tlc.restartCount + 1
  else s.tlc.restartCount

/-- A beacon built and handed on as an own telegram (R113, R114). -/
def sendBeacon (s : State) : State :=
  sendOwn .beacon (beaconPayload (beaconOf s (decide (s.tlc.restartCount < 3))))
    { s with tlc := { s.tlc with restartCount := restartsAfter s } }

/-- The beacon timer expires (R112, R113): the next expiry falls one period later, and a beacon is built when a port is UP. -/
def beaconExpired (due : Nat) (s : State) : State :=
  let s1 := s.advanceTo due
  let s2 := { s1 with tlc := { s1.tlc with beaconTimer := some (due + s1.cfg.beaconPeriod * 100) } }
  if anyPortUp s2 then sendBeacon s2 else s2

/-- BEACON_TIMER_EXPIRY (R112, R113). -/
def execBeaconTimerExpiry (s : State) : Host.Outcome State Fault Refusal :=
  .next (
    match s.running, s.tlc.beaconTimer with
    | true, some due => beaconExpired due s
    | _, _ => s)

end Sys2Proof.Machine
end

