-- ==== Sys2Proof/Machine/Loader.lean ====
section
/-! DEFINITION. The Configuration Loader's operations (12.6): the record's fields, the checks of R208, the clamping of R209 and the
publication of R210. -/

namespace Sys2Proof.Machine

/-! ### The record as read (R207) -/

/-- The unsigned field of `size` bytes at `offset` of the record. -/
abbrev field (image : List Byte) (offset size : Nat) : Nat := natAt image offset size

/-- The role that the record gives, if its code is 1..4 (R207, R208). -/
def recordRole (image : List Byte) : Option Role := roleOfCode (field image 1 1)

/-- The record's CRC-32 matches (R207). -/
def recordCrcMatches (image : List Byte) : Bool := field image 300 4 == (crc32 (image.take 300)).toNat

/-! ### Clamping (R209) -/

/-- The mark of a role after clamping (R209). -/
def clampMark (role : Option Role) (raw : Nat) : Nat :=
  if role = some .origin then 0 else clampNat 1 2000000000 raw

/-- TRIM_MAX after clamping. -/
def clampTrimMax (image : List Byte) : Nat := min 5000 (field image 12 2)

/-- T0 clamped into ±TRIM_MAX, after TRIM_MAX (R33, R209). -/
def clampTrimInitial (image : List Byte) : Int := clampInt (-(clampTrimMax image : Int)) (clampTrimMax image) (intAt image 10 2)

/-- L_LEAD after clamping. -/
def clampLead (image : List Byte) : Nat := min 50000 (field image 24 2)

/-- L_ANTIC: above L_LEAD it becomes L_LEAD (R209). -/
def clampAntic (image : List Byte) : Nat := min (clampLead image) (field image 26 2)

/-- fH and fT after clamping (R209): 50 and 950 when fH is then at or above fT. -/
def clampFractions (image : List Byte) : Nat × Nat :=
  if min 1000 (field image 30 2) ≤ min 1000 (field image 28 2) then (50, 950)
  else (min 1000 (field image 28 2), min 1000 (field image 30 2))

/-- The route codes as read (R207). -/
def rawRoutes (image : List Byte) : List Nat := (List.range 8).map fun i => field image (47 + i) 1

/-- Route codes after clamping (R209): a code above 16 is UNUSED, and of two routes with one product or both TRANSMIX the
higher-numbered is UNUSED. `seen` holds the codes of the lower routes. -/
def clampRoutes (seen : List Nat) : List Nat → List Nat
  | [] => []
  | c :: rest =>
    if 16 < c ∨ seen.contains c then 0 :: clampRoutes seen rest
    else if c = 0 then 0 :: clampRoutes seen rest
    else c :: clampRoutes (c :: seen) rest

/-- The use of a route code (R207). -/
def routeUseOfCode (c : Nat) : RouteUse := if c = 0 then .unused else if c = 16 then .transmix else .product c

/-- A route table of eight values, in order. -/
def routesOf {α : Type} (default : α) (l : List α) : PerRoute α :=
  ⟨l.getD 0 default, l.getD 1 default, l.getD 2 default, l.getD 3 default,
    l.getD 4 default, l.getD 5 default, l.getD 6 default, l.getD 7 default⟩

/-- The compatibility table as read: pair (A, B) at 15 × (A − 1) + (B − 1) (R207). -/
def rawPolicies (image : List Byte) : List Nat := (List.range 225).map fun i => field image (75 + i) 1

/-- A compatibility entry after clamping, by its place (R209): NONE where A = B, else TRANSMIX for NONE or a code above 4. -/
def clampPolicy (place code : Nat) : Nat :=
  if place / 15 = place % 15 then 0 else if code = 0 ∨ 4 < code then 1 else code

/-- The compatibility table after clamping. -/
def clampPolicies (l : List Nat) : List Nat := l.zipIdx.map fun x => clampPolicy x.2 x.1

/-- The policy of a code (R207). -/
def policyOfCode : Nat → Policy
  | 0 => .none
  | 1 => .transmix
  | 2 => .intoA
  | 3 => .intoB
  | 4 => .midpoint
  | _ => .transmix

/-- The alarm mask's bits 0..21 (R209). -/
def clampMask (raw : Nat) : BitVec 32 := BitVec.ofNat 32 raw &&& 0x003FFFFF#32

/-- The fields to publish (R207, R209). -/
def clampedRecord (image : List Byte) : Published where
  station := field image 0 1
  role := recordRole image
  mark := clampMark (recordRole image) (field image 2 4)
  pulseWeight := clampNat 1 65535 (field image 6 2)
  deliveryPulseWeight := clampNat 1 65535 (field image 8 2)
  trimInitial := clampTrimInitial image
  trimMax := clampTrimMax image
  trimStep := clampNat 1 250 (field image 14 1)
  mixK := clampNat 1 63 (field image 15 1)
  deadband := clampNat 500 100000 (field image 16 4)
  uncFloor := min 50000 (field image 20 2)
  uncPpm := min 10000 (field image 22 2)
  lead := clampLead image
  antic := clampAntic image
  headFraction := (clampFractions image).1
  tailFraction := (clampFractions image).2
  minContrast := clampNat 20 500 (field image 32 2)
  prodTol := clampNat 10 200 (field image 34 1)
  densitometer := field image 35 1 != 0
  settle := clampNat 1000 50000 (field image 36 2)
  deliveryGuard := min 50000 (field image 38 2)
  beaconPeriod := clampNat 10 100 (field image 40 1)
  beaconOffset := min 99 (field image 41 1)
  travelTimeout := clampNat 5 180 (field image 42 1)
  holdMin := clampNat 1 60 (field image 43 1)
  holdHyst := field image 44 2
  eventWatermark := clampNat 1 64 (field image 46 1)
  routes := routesOf .unused ((clampRoutes [] (rawRoutes image)).map routeUseOfCode)
  watermarks := routesOf 0 ((List.range 8).map fun i => field image (55 + 2 * i) 2)
  alarmMask := clampMask (field image 71 4)
  policies := (clampPolicies (rawPolicies image)).map policyOfCode

/-- The offsets of a run of one-byte fields that clamping changed. -/
def changedFrom (offset : Nat) (raw clamped : List Nat) : List Nat :=
  (List.range raw.length).filterMap fun i => if raw.getD i 0 = clamped.getD i 0 then none else some (offset + i)

/-- The single fields that clamping can change: offset, value read, value published (R209). -/
def singleFields (image : List Byte) (p : Published) : List (Nat × Int × Int) :=
  [(2, field image 2 4, p.mark), (6, field image 6 2, p.pulseWeight), (8, field image 8 2, p.deliveryPulseWeight),
   (10, intAt image 10 2, p.trimInitial), (12, field image 12 2, p.trimMax), (14, field image 14 1, p.trimStep),
   (15, field image 15 1, p.mixK), (16, field image 16 4, p.deadband), (20, field image 20 2, p.uncFloor),
   (22, field image 22 2, p.uncPpm), (24, field image 24 2, p.lead), (26, field image 26 2, p.antic),
   (28, field image 28 2, p.headFraction), (30, field image 30 2, p.tailFraction),
   (32, field image 32 2, p.minContrast), (34, field image 34 1, p.prodTol),
   (35, field image 35 1, if p.densitometer then 1 else 0), (36, field image 36 2, p.settle),
   (38, field image 38 2, p.deliveryGuard), (40, field image 40 1, p.beaconPeriod),
   (41, field image 41 1, p.beaconOffset), (42, field image 42 1, p.travelTimeout), (43, field image 43 1, p.holdMin),
   (46, field image 46 1, p.eventWatermark)]

/-- The offsets of the adjusted fields, in order of offset (R209). -/
def adjustedFields (image : List Byte) : List Nat :=
  ((singleFields image (clampedRecord image)).filterMap fun x => if x.2.1 = x.2.2 then none else some x.1)
    ++ changedFrom 47 (rawRoutes image) (clampRoutes [] (rawRoutes image))
    ++ (if field image 71 4 = (clampMask (field image 71 4)).toNat then [] else [71])
    ++ changedFrom 75 (rawPolicies image) (clampPolicies (rawPolicies image))

/-! ### Faults and publication (R208, R210) -/

/-- The serial memory is absent (R207): FF for its status byte, with CFGIO held high through the read. -/
def memoryAbsent (m : MemoryRead) : Bool := m.status == 0xFF && m.heldHigh

/-- The first fault found before clamping (R208). -/
def recordFault (m : MemoryRead) : Option FaultCause :=
  if memoryAbsent m then some .memoryAbsent
  else if !recordCrcMatches m.image then some .badCrc
  else if field m.image 0 1 = 0 ∨ 250 < field m.image 0 1 then some .badStation
  else if (recordRole m.image).isNone then some .badRole
  else none

/-- CFL's state changed. -/
def putCfl (f : Cfl → Cfl) (s : State) : State := { s with cfl := f s.cfl }

/-- CFL enters CONFIG_FAULT (R208). -/
def enterConfigFault (why : FaultCause) (s : State) : State :=
  putCfl (fun c => { c with load := .configFault, reading := false, fault := some why }) s

/-- Each block starts at RUN (R210): T takes T0 (R33), M and Mh are computed (R38), the silence timer starts with a densitometer (R67),
the beacon timer starts (R112), the ORIGIN learns and every other role owes an ASK (R9, R117), the start reading is due 50 ms later
(R180), and the stale timer runs where holds are generated (R196, log 30). -/
def startBlocks (p : Published) (s : State) : State :=
  { s with
    mtr := { s.mtr with trim := clampInt (-(p.trimMax : Int)) p.trimMax p.trimInitial }
    tke := ⟨mixVolume p.mixK p.mark, mixVolume p.mixK p.mark / 2⟩
    dsu := { s.dsu with silenceTimer := if p.densitometer then some (s.now + 1000) else s.dsu.silenceTimer }
    tlc := { s.tlc with beaconTimer := some (s.now + p.beaconOffset * 100) }
    trs :=
      if p.role = some .origin then { s.trs with sync := .seqLearn } else { s.trs with askDue := true }
    vld := { s.vld with startTimer := some (s.now + 50) }
    hlu :=
      if p.role = some .delivery ∨ p.role = some .terminus then
        { s.hlu with staleTimer := some (s.now + 3 * p.beaconPeriod * 100) }
      else s.hlu }

/-- The publication (R210): every field at once, RUN, and CONFIG_ADJUSTED when a field was adjusted. -/
def publish (p : Published) (adjusted : List Nat) (s : State) : State :=
  let s1 := startBlocks p (putCfl (fun _ => ⟨.run, false, none, p, adjusted⟩) s)
  if adjusted.isEmpty then s1 else raiseAlarm .configAdjusted 0 s1

/-- A record without a fault is clamped; a TERMINUS without a TRANSMIX route faults, every other is published (R208, R209, R210). -/
def loadRecord (image : List Byte) (s : State) : State :=
  let p := clampedRecord image
  if p.role = some .terminus ∧ (transmixRoute p).isNone then
    enterConfigFault .noTransmix (putCfl (fun c => { c with adjusted := adjustedFields image }) s)
  else publish p (adjustedFields image) s

/-- What CFL does with what it has read (R208, R210). -/
def finishLoad (m : MemoryRead) (s : State) : State :=
  match recordFault m with
  | some why => enterConfigFault why s
  | none => loadRecord m.image s

end Sys2Proof.Machine
end

