-- ==== Sys2Proof/Machine/StartUp.lean ====
section
/-! DEFINITION. The family of reset, loading and the start reading: POWER_ON_RESET, RESET_RELEASE, CONFIG_LOAD_DONE,
START_READING. -/

namespace Sys2Proof.Machine

/-- The two limit pins of every route kept, every other field at reset (log 12). -/
def resetRoutes (t : PerRoute RouteState) : PerRoute RouteState :=
  routeMap (fun x => { RouteState.reset with openLimit := x.openLimit, closeLimit := x.closeLimit }) t

/-- POWER_ON_RESET (R37 and each chapter's reset table): every block at its reset values. The limit pins stand as they are (log 12);
the model's own queue and counter are no part of the chip. -/
def execPowerOnReset (s : State) : Host.Outcome State Fault Refusal :=
  .next { State.reset with
    pending := s.pending
    choices := s.choices
    vld := { Vld.reset with routes := resetRoutes s.vld.routes } }

/-- RESET_RELEASE (R207): in LOADING the record begins to be read. -/
def execResetRelease (s : State) : Host.Outcome State Fault Refusal :=
  .next (if s.cfl.load = .loading then putCfl (fun c => { c with reading := true }) s else s)

/-- CONFIG_LOAD_DONE (R207 to R210). -/
def execConfigLoadDone (memory : MemoryRead) (s : State) : Host.Outcome State Fault Refusal :=
  .next (if s.cfl.load = .loading ∧ s.cfl.reading = true then finishLoad memory s else s)

/-- The routes that the start reading counts: not UNUSED and confirmed OPEN (R180). -/
def openRoutes (s : State) : List Route :=
  allRoutes.filter fun r => routeGet s.cfg.routes r != .unused && (routeState s r).confirmed == .opened

/-- The start reading reported to CSQ (R134, R180): the current route becomes the route in use, and without one no route is in
use; CSQ then judges leaving UNKNOWN. Log 18 says what this does to a RELEASE_TO made before the reading. -/
def reportRouteToCut (found : Option Route) (s : State) : State :=
  leaveUnknown (putCsq (fun q => { q with routeInUse := found }) s)

/-- The start reading reported to LSC: the current route is the source route of the line fill (R180, R183); without one the
source route stays as it was. -/
def reportRouteToLaunch (found : Option Route) (s : State) : State :=
  match found with
  | some r => putLsc (fun l => { l with running := { l.running with source := some r } }) s
  | none => s

/-- The one open route at a TERMINUS or the ORIGIN becomes current and is reported; otherwise ROUTE_UNKNOWN is raised and the
block is told that no route is known (R180). -/
def readCurrentRoute (report : Option Route → State → State) (s : State) : State :=
  match openRoutes s with
  | [r] => report (some r) (putCurrent (some r) s)
  | _ => report none (raiseAlarm .routeUnknown 0 s)

/-- The start-up closes of a DELIVERY station (R168, R175). R168 presumes that no delivery is active; that the route of a
delivery opened in the 50 ms before the reading is closed like the others, the delivery keeping its state, is the model's choice
(log 51). -/
def closeOpenRoutes (s : State) : State :=
  (openRoutes s).foldl (fun s r => (commandRoute r .closed true s).1) s

/-- What follows the start reading at each role (R180); switches that waited for it then start (R179). -/
def startReading (s : State) : State :=
  if s.hasRole .terminus then
    let s1 := readCurrentRoute reportRouteToCut s
    let y := startWaiting s1.vld.waiting.length s1
    evaluateIfRemoved y.1 (cutOutcomes y.2 y.1)
  else if s.hasRole .origin then
    let s1 := readCurrentRoute reportRouteToLaunch s
    let y := startWaiting s1.vld.waiting.length s1
    changeoverOutcomes y.2 y.1
  else if s.hasRole .delivery then closeOpenRoutes s
  else s

/-- START_READING (R180). -/
def execStartReading (s : State) : Host.Outcome State Fault Refusal :=
  .next (
    match s.running, s.vld.startTimer with
    | true, some due =>
      let s1 := s.advanceTo due
      startReading { s1 with vld := { s1.vld with startTimer := none, startRead := true } }
    | _, _ => s)

end Sys2Proof.Machine
end

