-- ==== Sys2Proof/Machine/Reports.lean ====
section
/-! DEFINITION. What the station port sends (12.1, 12.2): the codes of states (R200), events (R203), records (R136, R165), train and
peer entries, the groups of READ_STATUS (R201), and the judgement of a request (R199). Layout points the rules leave to inference
are in log 15. -/

namespace Sys2Proof.Machine

/-! ### Codes (R200): a state or policy without a telegram code is its place in the list where the manual first gives it. R200 and
R201 say this of a state or policy alone: the codes of what is neither, and their one byte, are the model's choice (log 15). -/

/-- Sync state (R201). -/
def SyncState.code : SyncState → Nat
  | .unsynced => 0
  | .asking => 1
  | .synced => 2
  | .seqLearn => 3

/-- Tracking state (R200). -/
def Track.code : Track → Nat
  | .inbound => 0
  | .window => 1
  | .passed => 2

/-- Standing (R78). -/
def Standing.code : Standing → Nat
  | .heard => 0
  | .good => 1
  | .suspect => 2
  | .silent => 3

/-- Load state (0.4). -/
def LoadState.code : LoadState → Nat
  | .loading => 0
  | .run => 1
  | .configFault => 2

/-- Fault cause (R208), by its place in R208's order, the model's choice (log 15). -/
def FaultCause.code : FaultCause → Nat
  | .memoryAbsent => 0
  | .badCrc => 1
  | .badStation => 2
  | .badRole => 3
  | .noTransmix => 4

/-- Link state (R99). -/
def LinkState.code : LinkState → Nat
  | .down => 0
  | .training => 1
  | .up => 2

/-- Cut state (R133). -/
def CutState.code : CutState → Nat
  | .unknown => 0
  | .steady => 1
  | .armed => 2
  | .mixing => 3
  | .settling => 4
  | .held => 5

/-- Method (R136), by its place in R136's list, the model's choice (log 15). -/
def CutMethod.code : CutMethod → Nat
  | .density => 0
  | .volume => 1
  | .mixed => 2

/-- Policy, by its place in R132's table and R136's list (log 15). -/
def Policy.code : Policy → Nat
  | .transmix => 0
  | .intoA => 1
  | .intoB => 2
  | .midpoint => 3
  | .none => 4

/-- Source of a switch action, by its place in R142's list, the model's choice (log 15). -/
def Source.code : Source → Nat
  | .density => 0
  | .volume => 1
  | .forced => 2
  | .missed => 3

/-- Product check, by its place in R136's list, the model's choice (log 15). -/
def ProductCheck.code : ProductCheck → Nat
  | .confirmed => 0
  | .refuted => 1
  | .unjudged => 2

/-- Delivery state (R158). -/
def DeliveryState.code : DeliveryState → Nat
  | .idle => 0
  | .opening => 1
  | .delivering => 2
  | .closing => 3

/-- Command latch (R172). -/
def Latch.code : Latch → Nat
  | .none => 0
  | .opened => 1
  | .closed => 2

/-- Confirmed state (R171). -/
def Confirmed.code : Confirmed → Nat
  | .opened => 0
  | .closed => 1
  | .travel => 2
  | .fault => 3

/-- Phase of a switch (R176). -/
def Phase.code : Phase → Nat
  | .making => 0
  | .breaking => 1

/-- Outcome of a switch, by its place in R144's list, the model's choice (log 15). -/
def SwitchResult.code : SwitchResult → Nat
  | .completed => 0
  | .abandoned _ => 1
  | .bothOpen => 2

/-- NO_ROUTE 0, PASSED 1 (R203). -/
def SkipReason.code : SkipReason → Nat
  | .noRoute => 0
  | .passed => 1

/-- The assignment of a route: UNUSED 0, product 1..15, TRANSMIX 16. R207 codes the configuration record so; that READ_STATUS
sends the same codes is the model's choice (log 15). -/
def RouteUse.code : RouteUse → Nat
  | .unused => 0
  | .product p => p
  | .transmix => 16

/-! ### Fields -/

/-- An optional sequence (R200). -/
def optSeq : Option SeqNo → List Byte := optBytes seqBytes (zeroBytes 2)

/-- An optional route, one byte (R201). -/
def optRoute : Option Route → List Byte := optBytes (fun r => natBytes 1 (routeNumber r)) (zeroBytes 1)

/-- The time left of a timer, if it runs (R200). -/
def optLeft (now : Nat) (due : Option Nat) : List Byte := optNat 4 (due.map (· - now))

/-! ### Events (R203) -/

/-- The code of an event (R203). -/
def Event.code : Event → Nat
  | .alarm _ _ _ => 1
  | .trainSynced => 2
  | .trainUnsynced => 3
  | .trimChanged _ _ _ => 4
  | .referenceChanged _ _ => 5
  | .deliveryJump _ _ _ _ => 6
  | .cutClosed _ _ _ => 7
  | .deliveryOpened _ _ _ _ => 8
  | .deliveryClosed _ _ _ => 9
  | .deliverySkipped _ _ _ _ => 10
  | .launched _ _ _ _ _ => 11
  | .resync => 12

/-- The fields of an event (R203, R200). The prior sequence and launched volume of LAUNCHED are one optional group with one
present byte, the model's choice (log 15). -/
def Event.fields : Event → List Byte
  | .alarm bit detail lost =>
    natBytes 1 bit ++ natBytes 1 detail ++ (match lost with
      | some n => natBytes 2 n
      | none => [])
  | .trainSynced => []
  | .trainUnsynced => []
  | .trimChanged old new residual => intBytes 2 old ++ intBytes 2 new ++ intBytes 4 residual
  | .referenceChanged old new => optNat 1 old ++ optNat 1 new
  | .deliveryJump station old new delta =>
    natBytes 1 station ++ natBytes 4 old.toNat ++ natBytes 4 new.toNat ++ natBytes 4 delta.toNat
  | .cutClosed first last flags => seqBytes first ++ optSeq last ++ natBytes 1 (cutFlagsNat flags)
  | .deliveryOpened seq product route ordered =>
    seqBytes seq ++ natBytes 1 product ++ natBytes 1 (routeNumber route) ++ natBytes 4 ordered
  | .deliveryClosed seq delivered flags => seqBytes seq ++ natBytes 4 delivered ++ natBytes 1 (deliveryFlagsNat flags)
  | .deliverySkipped seq product ordered reason =>
    seqBytes seq ++ natBytes 1 product ++ natBytes 4 ordered ++ natBytes 1 reason.code
  | .launched seq product prior count outcome =>
    seqBytes seq ++ natBytes 1 product
      ++ optBytes (fun x => seqBytes x.1 ++ natBytes 4 x.2) (zeroBytes 6) prior
      ++ natBytes 6 count ++ natBytes 1 outcome.code
  | .resync => []

/-- An event as READ_EVENT sends it: code, time, fields (R201). -/
def QueuedEvent.bytes (e : QueuedEvent) : List Byte := natBytes 1 e.event.code ++ natBytes 4 e.time ++ e.event.fields

/-! ### Records (R136, R165) -/

/-- The fields of a cut record up to its trim, in the order of R136. An absent A route is sent as 0, the model's choice
(log 49). -/
def cutRecordHead (r : CutRecord) : List Byte :=
  seqBytes r.first ++ optSeq r.last ++ natBytes 1 r.productA ++ natBytes 1 r.productB
    ++ natBytes 1 r.policy.code ++ natBytes 1 r.method.code ++ natBytes 6 r.start ++ natBytes 6 r.finish
    ++ natBytes 1 ((r.routeA.map routeNumber).getD 0) ++ optRoute r.routeB
    ++ natBytes 4 r.volumeA ++ natBytes 4 r.volumeX ++ natBytes 4 r.volumeB
    ++ optBytes (intBytes 4) (zeroBytes 4) r.rlvAtDetection

/-- A cut record in the order of R136. -/
def cutRecordBytes (r : CutRecord) : List Byte :=
  cutRecordHead r ++ intBytes 2 r.trim ++ optNat 1 (r.check.map ProductCheck.code) ++ natBytes 1 (cutFlagsNat r.flags)

/-- A delivery record in the order of R165, its kind apart. -/
def deliveryRecordBytes (r : DeliveryRecord) : List Byte :=
  seqBytes r.seq ++ natBytes 1 r.product ++ natBytes 1 (routeNumber r.route)
    ++ natBytes 4 r.ordered ++ natBytes 4 r.delivered ++ natBytes 4 r.atCloseRequest
    ++ natBytes 6 r.start ++ natBytes 6 r.finish
    ++ natBytes 4 r.countAtOpening.toNat ++ natBytes 4 r.countAtEnd.toNat ++ natBytes 1 (deliveryFlagsNat r.flags)

/-- A record as READ_CUT sends it: CUT 1 or DELIVERY 2, then its fields (R201). -/
def LogRecord.bytes : LogRecord → List Byte
  | .cut r => natBytes 1 1 ++ cutRecordBytes r
  | .delivery r => natBytes 1 2 ++ deliveryRecordBytes r

/-! ### Train and peer entries (R201) -/

/-- A train entry in the order of R2, then P. -/
def entryBytes (e : Entry) (position : Int) : List Byte :=
  seqBytes e.seq ++ natBytes 1 e.product ++ natBytes 2 e.density ++ natBytes 4 e.nominal
    ++ optNat 4 e.launched ++ natBytes 4 e.remaining ++ listBytes deliveryBytes e.deliveries
    ++ intBytes 4 e.rlv ++ natBytes 4 e.sinceSnap ++ optNat 4 e.snapMark ++ boolBytes e.snappedByReference
    ++ natBytes 1 e.track.code ++ optNat 1 (e.kind.map PassageKind.code)
    ++ natBytes 1 (flagNat [e.short, e.untrackedFollows, e.mismatch])
    ++ intBytes 4 (clampPosition position)

/-- The answer to READ_TRAIN (R23, R201): none for EMPTY. -/
def trainReport (s : State) (index : Nat) : Option (List Byte) :=
  if index = 0 then none
  else
    (s.trs.train[index - 1]?).map fun e =>
      natBytes 1 s.trs.train.length ++ natBytes 1 s.trs.sync.code ++ entryBytes e (position s e)

/-- A peer entry in the order of R78, then R96's additions. -/
def peerBytes (s : State) (p : Peer) : List Byte :=
  natBytes 1 p.station ++ natBytes 1 p.role.code ++ natBytes 4 p.mark ++ natBytes 1 p.period
    ++ boolBytes p.synced ++ boolBytes p.densityHealthy ++ boolBytes p.restarted
    ++ natBytes 4 p.baseline.toNat ++ optSeq p.newest ++ natBytes 1 (portCode p.arrival)
    ++ natBytes 1 p.standing.code ++ natBytes 4 p.lastBeacon ++ natBytes 1 p.goodCount ++ optNat 4 p.conflictHold
    ++ boolBytes (s.prt.reference == some p.station) ++ natBytes 4 (s.now - p.lastBeacon) ++ optLeft s.now p.conflictHold

/-- The answer to READ_PEER (R96, R201): none for EMPTY. -/
def peerReport (s : State) (index : Nat) : Option (List Byte) :=
  if index = 0 then none
  else (s.prt.peers[index - 1]?).map fun p => natBytes 1 s.prt.peers.length ++ peerBytes s p

/-! ### READ_STATUS (R201) -/

/-- The CFL group. -/
def cflGroup (s : State) : List Byte :=
  natBytes 1 s.cfl.load.code ++ optNat 1 (s.cfl.fault.map FaultCause.code) ++ natBytes 1 s.cfl.adjusted.length
    ++ listBytes (natBytes 2) (s.cfl.adjusted.take 16)
    ++ natBytes 1 ((s.cfg.role.map Role.code).getD 0) ++ natBytes 1 s.cfg.station ++ natBytes 4 s.cfg.mark

/-- The SPC group. -/
def spcGroup (s : State) : List Byte :=
  natBytes 1 s.spc.events.length ++ natBytes 1 s.spc.cutLog.length ++ natBytes 2 s.spc.lostCount
    ++ natBytes 4 s.spc.alarms.toNat ++ natBytes 4 s.cfg.alarmMask.toNat ++ boolBytes (intAsserted s)

/-- Chapter 2's group (R36). -/
def meterGroup (s : State) : List Byte :=
  natBytes 6 s.mtr.count ++ natBytes 4 s.mtr.deliveryCount.toNat ++ intBytes 2 s.mtr.trim

/-- Chapter 4's group (R77). -/
def densityGroup (s : State) : List Byte :=
  natBytes 1 (if s.dsu.healthy then 0 else 1) ++ optNat 2 s.dsu.average ++ optNat 2 s.dsu.lastSample
    ++ natBytes 1 s.dsu.fill ++ natBytes 1 s.dsu.rejectRun ++ natBytes 1 s.dsu.goodRun

/-- Chapter 5's group (R96). -/
def peerGroup (s : State) : List Byte := natBytes 1 s.prt.peers.length ++ optNat 1 s.prt.reference

/-- The depths of one port's class queues (R115). -/
def queueDepths (x : PortState) : List Byte :=
  natBytes 1 x.urgent.length ++ natBytes 1 x.routine.length ++ natBytes 1 x.bulk.length

/-- Chapter 6's group (R115), the UP port before the DOWN port. -/
def trackGroup (s : State) : List Byte :=
  natBytes 1 s.tlc.upPort.link.code ++ natBytes 1 s.tlc.downPort.link.code
    ++ boolBytes s.tlc.upPort.noisy ++ boolBytes s.tlc.downPort.noisy
    ++ natBytes 1 s.tlc.rxQueue.length ++ queueDepths s.tlc.upPort ++ queueDepths s.tlc.downPort
    ++ natBytes 1 s.tlc.restartCount

/-- Chapter 7's group (R130). -/
def joinGroup (s : State) : List Byte :=
  natBytes 1 s.trs.sync.code ++ natBytes 1 s.trs.attempts ++ optNat 1 (s.trs.adopted.map (·.1))
    ++ natBytes 1 ((s.trs.adopted.map (·.2)).getD 0) ++ natBytes 1 s.trs.held.length ++ optSeq s.lsc.nextSeq

/-- A queued switch action (R156). Its due count is a station count C and is sent in 6 bytes, a reading of R200 (log 15). -/
def actionBytes (a : Action) : List Byte :=
  natBytes 1 (routeNumber a.target) ++ natBytes 6 a.due ++ natBytes 1 a.source.code ++ seqBytes a.reference

/-- The open record with an end count of the current C (R156); its trim at close is free (log 41). -/
def openRecordBytes (count : Nat) (r : OpenCut) : List Byte :=
  cutRecordBytes (r.closed count (Config.openTrim r.number))

/-- The size of a cut record as it is sent. -/
def cutRecordSize : Nat := 46

/-- Chapter 8's group (R156). The open record is one optional group with one present byte, the model's choice (log 15). -/
def cutGroup (s : State) : List Byte :=
  natBytes 1 s.csq.state.code ++ optRoute s.csq.routeInUse ++ optSeq s.csq.cutThrough
    ++ natBytes 4 s.csq.settleRemaining ++ optNat 1 (s.csq.lastSource.map Source.code)
    ++ listBytes actionBytes s.csq.queue
    ++ optBytes (openRecordBytes s.mtr.count) (zeroBytes cutRecordSize) s.csq.record

/-- The active delivery as READ_STATUS sends it (R170). -/
def activeBytes (a : ActiveDelivery) : List Byte :=
  seqBytes a.seq ++ natBytes 1 (routeNumber a.route) ++ natBytes 4 a.ordered ++ natBytes 4 a.delivered

/-- Chapter 9's group (R170), which names D; D stands in chapter 2's group too, a reading of R201 (log 15). The active delivery is
one optional group with one present byte, the model's choice (log 15). -/
def deliveryGroup (s : State) : List Byte :=
  natBytes 1 s.dsq.state.code ++ optBytes activeBytes (zeroBytes 11) s.dsq.active ++ optSeq s.dsq.deliveredThrough
    ++ natBytes 4 s.mtr.deliveryCount.toNat

/-- One route (R182). -/
def routeBytes (s : State) (r : Route) : List Byte :=
  let x := routeGet s.vld.routes r
  natBytes 1 (routeGet s.cfg.routes r).code ++ natBytes 1 x.latch.code ++ natBytes 1 x.confirmed.code
    ++ boolBytes x.openLimit ++ boolBytes x.closeLimit ++ boolBytes x.faultMark ++ optLeft s.now x.travel

/-- The switch in flight (R182). -/
def inFlightBytes (x : InFlight) : List Byte :=
  natBytes 1 (routeNumber x.request.target) ++ optRoute x.oldRoute ++ natBytes 1 x.phase.code

/-- Chapter 10's group (R182). The switch in flight is one optional group with one present byte, the model's choice (log 15). -/
def valveGroup (s : State) : List Byte :=
  listBytes (routeBytes s) allRoutes ++ optRoute s.vld.current ++ optBytes inFlightBytes (zeroBytes 4) s.vld.inFlight
    ++ natBytes 1 s.vld.waiting.length

/-- A launch order (R183). -/
def orderBytes (o : Order) : List Byte :=
  natBytes 1 o.product ++ natBytes 2 o.density ++ natBytes 4 o.nominal ++ listBytes deliveryBytes o.deliveries

/-- The running batch (R197). -/
def runningBytes (r : Running) : List Byte :=
  optSeq r.seq ++ optNat 1 r.product ++ natBytes 4 r.nominal ++ optRoute r.source ++ natBytes 4 r.launched

/-- A hold table entry (R197). -/
def holdBytes (now : Nat) (h : Hold) : List Byte :=
  natBytes 1 h.station ++ natBytes 1 h.product ++ natBytes 4 (h.expiry - now)

/-- Chapter 11's group (R197). The holds are sent in the order of their creation, the model's choice (log 15). -/
def launchGroup (s : State) : List Byte :=
  listBytes orderBytes s.lsc.orders ++ runningBytes s.lsc.running ++ optSeq s.lsc.nextSeq
    ++ boolBytes s.lsc.switching ++ boolBytes s.lsc.faultMark ++ listBytes (holdBytes s.now) s.lsc.holds
    ++ listBytes (optNat 2) (routeList s.hlu.headrooms) ++ boolBytes s.hlu.stale
    ++ listBytes (fun x => boolBytes x.active) s.hlu.slots

/-- The limit inputs alone of a route, every other field at reset (R171, R181). -/
def RouteState.limitsOnly (x : RouteState) : RouteState :=
  { RouteState.reset with openLimit := x.openLimit, closeLimit := x.closeLimit }

/-- What the groups after SPC's are read from (R201): in RUN the state, with the blocks that the role does not use at their reset
values; outside RUN the reset values, but for the routes' limits. That VLD counts as used at every role, at a RELAY too, is the
model's choice (log 15). -/
def reportedState (s : State) : State :=
  if s.running then
    { s with
      csq := if s.hasRole .terminus then s.csq else .reset
      dsq := if s.hasRole .delivery then s.dsq else .reset
      lsc := if s.hasRole .origin then s.lsc else .reset
      hlu := if holdRole s then s.hlu else .reset }
  else { State.reset with clock := s.clock, vld := { Vld.reset with routes := routeMap RouteState.limitsOnly s.vld.routes } }

/-- The payload of READ_STATUS (R201): the CFL group, the SPC group, and the blocks' groups in the order of the chapters; chapters 1
and 3 have none. -/
def statusPayload (s : State) : List Byte :=
  let r := reportedState s
  cflGroup s ++ spcGroup s ++ meterGroup r ++ densityGroup r ++ peerGroup r ++ trackGroup r ++ joinGroup r
    ++ cutGroup r ++ deliveryGroup r ++ valveGroup r ++ launchGroup r

/-! ### Requests (R198, R199) -/

/-- The payload length of a command code (12.2). -/
def requestLength : Nat → Option Nat
  | 1 => some 0
  | 2 => some 0
  | 3 => some 0
  | 4 => some 1
  | 5 => some 1
  | 6 => some 4
  | 7 => some 32
  | 8 => some 38
  | 9 => some 1
  | 10 => some 0
  | 11 => some 0
  | 12 => some 1
  | 13 => some 0
  | 14 => some 0
  | _ => none

/-- A request is complete: its CRC-8 has arrived at the place that its length field gives (R198). -/
def requestComplete (bytes : List Byte) : Bool := 4 ≤ bytes.length && natAt bytes 1 2 + 4 ≤ bytes.length

/-- The bytes of a request up to its CRC-8 (R198); what is clocked in after them belongs to no request (R199). -/
def requestPart (bytes : List Byte) : List Byte := bytes.take (natAt bytes 1 2 + 4)

/-- The first two checks of R199 on a complete request: why it is refused, if it is. -/
def requestFault (bytes : List Byte) : Option Reason :=
  if crc8 (bytes.take (bytes.length - 1)) ≠ bytes.getD (bytes.length - 1) 0 then some .badCrc
  else if requestLength (natAt bytes 0 1) ≠ some (natAt bytes 1 2) then some .badField
  else none

end Sys2Proof.Machine
end

