-- ==== Sys2Proof/Machine/StationPort.lean ====
section
/-! DEFINITION. The station port's family (chapter 12): the SPI requests, the two retirements, and LOST_NOTICE_QUEUED. -/

namespace Sys2Proof.Machine

/-- SPC's state changed. -/
def putSpc (f : Spc → Spc) (s : State) : State := { s with spc := f s.spc }

/-! ### Reads (R201) -/

/-- READ_STATUS (R201): answered OK in every load state. -/
def execReadStatus (s : State) : Host.Outcome State Fault Refusal := .next (respond .ok (statusPayload s) s)

/-- The oldest event read: it stays at the head until its response is clocked out (R201). -/
def readEvent (s : State) : State :=
  match s.spc.events with
  | [] => respond .empty [] s
  | e :: _ => putSpc (fun x => { x with readingEvent := true }) (respond .ok e.bytes s)

/-- READ_EVENT (R201). -/
def execReadEvent (s : State) : Host.Outcome State Fault Refusal := .next (whenRunning readEvent s)

/-- READ_EVENT_RETIRE (R201): the event read leaves the queue, and an owed lost notice takes the room at once (R203, log 4). -/
def execReadEventRetire (s : State) : Host.Outcome State Fault Refusal :=
  .next (
    if s.spc.readingEvent then
      queueLostNotice (putSpc (fun x => { x with events := x.events.drop 1, readingEvent := false }) s)
    else s)

/-- The oldest record read (R201). -/
def readCut (s : State) : State :=
  match s.spc.cutLog with
  | [] => respond .empty [] s
  | r :: _ => putSpc (fun x => { x with readingRecord := true }) (respond .ok r.bytes s)

/-- READ_CUT (R201). -/
def execReadCut (s : State) : Host.Outcome State Fault Refusal := .next (whenRunning readCut s)

/-- READ_CUT_RETIRE (R201): the record read leaves the log if it is still there; a log that overwrote it has cleared the mark. -/
def execReadCutRetire (s : State) : Host.Outcome State Fault Refusal :=
  .next (
    if s.spc.readingRecord then
      putSpc (fun x => { x with cutLog := x.cutLog.drop 1, readingRecord := false }) s
    else s)

/-- A read answered with a payload, or EMPTY. -/
def respondRead (payload : Option (List Byte)) (s : State) : State :=
  match payload with
  | some p => respond .ok p s
  | none => respond .empty [] s

/-- READ_TRAIN (R23, R201). -/
def execReadTrain (index : Byte) (s : State) : Host.Outcome State Fault Refusal :=
  .next (whenRunning (fun s => respondRead (trainReport s index.toNat) s) s)

/-- READ_PEER (R96, R201). -/
def execReadPeer (index : Byte) (s : State) : Host.Outcome State Fault Refusal :=
  .next (whenRunning (fun s => respondRead (peerReport s index.toNat) s) s)

/-! ### Commands (12.2) -/

/-- A command done, answered OK with an empty payload, or refused with NOT_STATE. -/
def respondDone (done : Option State) (s : State) : State :=
  match done with
  | some t => respond .ok [] t
  | none => refuse .notState s

/-- ACK_ALARMS (R205, R203). -/
def ackAlarms (bits : BitVec 32) (s : State) : State :=
  if bits &&& 0xFFC00000#32 ≠ 0#32 then refuse .badField s
  else
    respond .ok [] (putSpc (fun x =>
      { x with
        alarms := clearAlarmBits x.alarms bits
        lostCount := if bits.getLsbD 21 then 0 else x.lostCount }) s)

/-- ACK_ALARMS (R205). -/
def execAckAlarms (bits : BitVec 32) (s : State) : Host.Outcome State Fault Refusal :=
  .next (whenRunning (ackAlarms bits) s)

/-- SET_STATUS (R194): the ADJUSTED flag when a value was above 65,535. -/
def setStatus (headrooms : PerRoute (BitVec 32)) (s : State) : State :=
  if holdRole s then
    respond .ok (boolBytes ((routeList headrooms).any (fun v => 65535 < v.toNat))) (takeStatus headrooms s)
  else refuse .notRole s

/-- SET_STATUS (R194). -/
def execSetStatus (headrooms : PerRoute (BitVec 32)) (s : State) : Host.Outcome State Fault Refusal :=
  .next (whenRunning (setStatus headrooms) s)

/-- The delivery records of an ENTER_ORDER: the first k places (12.2). -/
def orderDeliveries (count : Byte) (places : List OrderPlace) : List DeliveryRec :=
  (places.take count.toNat).map fun x => ⟨x.station.toNat, x.volume.toNat⟩

/-- The order of an ENTER_ORDER's fields, its nominal volume raised to 100,000 L (R184). -/
def orderOf (product : Byte) (density : BitVec 16) (nominal : BitVec 32) (count : Byte) (places : List OrderPlace) : Order where
  product := product.toNat
  density := density.toNat
  nominal := max 100000 nominal.toNat
  deliveries := orderDeliveries count places

/-- The checks of R184 in their order: why an order is refused, if it is. -/
def orderFault (s : State) (o : Order) (count : Nat) : Option Reason :=
  if 8 ≤ s.lsc.orders.length then some .queueFull
  else if o.product < 1 ∨ 15 < o.product then some .badField
  else if (productRoute s.cfg o.product).isNone then some .badField
  else if o.density < 5000 ∨ 11000 < o.density then some .badField
  else if 2000000000 < o.nominal then some .badField
  else if 6 < count then some .badField
  else if o.deliveries.any (fun d =>
      d.station < 1 || 250 < d.station || d.station == s.cfg.station || d.volume < 1 || 2000000000 < d.volume) then
    some .badField
  else if ¬ (o.deliveries.map (·.station)).Nodup then some .badField
  else none

/-- The changeover judged when a new order is the only one (R184). -/
def judgeIfOnly (s : State) : State := if s.lsc.orders.length = 1 then judgeChangeover s else s

/-- ENTER_ORDER at the ORIGIN (R184). -/
def enterOrder (o : Order) (count : Nat) (adjusted : Bool) (s : State) : State :=
  match orderFault s o count with
  | some why => refuse why s
  | none =>
    respond .ok (boolBytes adjusted ++ natBytes 1 (s.lsc.orders.length + 1))
      (judgeIfOnly (putLsc (fun l => { l with orders := l.orders ++ [o] }) s))

/-- ENTER_ORDER (R184). -/
def execEnterOrder (product : Byte) (density : BitVec 16) (nominal : BitVec 32) (count : Byte) (places : List OrderPlace)
    (s : State) : Host.Outcome State Fault Refusal :=
  .next (whenRunning (fun s =>
    if s.hasRole .origin then
      enterOrder (orderOf product density nominal count places) count.toNat (decide (nominal.toNat < 100000)) s
    else refuse .notRole s) s)

/-- CANCEL_ORDER at the ORIGIN (R185). -/
def cancelOrder (index : Nat) (s : State) : State :=
  if index = 0 ∨ s.lsc.orders.length < index then refuse .badField s
  else if index = 1 ∧ s.lsc.switching = true then refuse .notState s
  else
    let s1 := putLsc (fun l => { l with orders := l.orders.eraseIdx (index - 1) }) s
    respond .ok [] (if index = 1 then judgeChangeover s1 else s1)

/-- CANCEL_ORDER (R185). -/
def execCancelOrder (index : Byte) (s : State) : Host.Outcome State Fault Refusal :=
  .next (whenRunning (fun s => if s.hasRole .origin then cancelOrder index.toNat s else refuse .notRole s) s)

/-- The evaluation that a command's removals bring (R40). -/
def evaluated (before : State) (done : Option State) : Option State := done.map (evaluateIfRemoved before)

/-- FORCE_ADVANCE (R153, R191). -/
def execForceAdvance (s : State) : Host.Outcome State Fault Refusal :=
  .next (whenRunning (fun s =>
    if s.hasRole .terminus then respondDone (evaluated s (cutForceAdvance s)) s
    else if s.hasRole .origin then respondDone (launchForceAdvance s) s
    else refuse .notRole s) s)

/-- FORCE_TRANSMIX (R154). -/
def execForceTransmix (s : State) : Host.Outcome State Fault Refusal :=
  .next (whenRunning (fun s =>
    if s.hasRole .terminus then respondDone (evaluated s (cutForceTransmix s)) s else refuse .notRole s) s)

/-- RELEASE_TO at a TERMINUS (R155). -/
def releaseTo (route : Nat) (s : State) : State :=
  if s.csq.state ≠ .held ∧ s.csq.state ≠ .unknown then refuse .notState s
  else
    match routeOfNumber route with
    | none => refuse .badField s
    | some r =>
      if routeGet s.cfg.routes r = .unused then refuse .badField s
      else respond .ok [] (evaluateIfRemoved s (cutReleaseTo r s))

/-- RELEASE_TO (R155). -/
def execReleaseTo (route : Byte) (s : State) : Host.Outcome State Fault Refusal :=
  .next (whenRunning (fun s => if s.hasRole .terminus then releaseTo route.toNat s else refuse .notRole s) s)

/-- CLOSE_DELIVERY (R167). -/
def execCloseDelivery (s : State) : Host.Outcome State Fault Refusal :=
  .next (whenRunning (fun s =>
    if s.hasRole .delivery then respondDone (closeCommanded s) s else refuse .notRole s) s)

/-- RESYNC taken (R202): the event, then CSQ or DSQ and DSU, then TRS. -/
def resync (s : State) : State :=
  let s1 := offerEvent .resync s
  let s2 := if s1.hasRole .terminus then cutResync s1 else if s1.hasRole .delivery then deliveryResync s1 else s1
  trainResync (putDsu (fun d => { d with departureRun := 0 }) s2)

/-- RESYNC (R24, R202). -/
def execResync (s : State) : Host.Outcome State Fault Refusal :=
  .next (whenRunning (fun s => if s.hasRole .origin then refuse .notRole s else respond .ok [] (resync s)) s)

/-! ### Requests as bytes (R198, R199, 12.2) -/

/-- SPI_REQUEST_ABORTED (R198): nothing is taken and no response is sent (log 27). -/
def execSpiRequestAborted (s : State) : Host.Outcome State Fault Refusal :=
  .next (putSpc (fun x => { x with response := [], readingEvent := false, readingRecord := false }) s)

/-- The eight headrooms of a SET_STATUS payload, 4 bytes each (12.2). -/
def headroomsAt (p : List Byte) : PerRoute (BitVec 32) :=
  let value (i : Nat) : BitVec 32 := BitVec.ofNat 32 (natAt p (4 * i) 4)
  ⟨value 0, value 1, value 2, value 3, value 4, value 5, value 6, value 7⟩

/-- The six record places of an ENTER_ORDER payload, 5 bytes each from its ninth byte (12.2). -/
def placesAt (p : List Byte) : List OrderPlace :=
  (List.range 6).map fun i => ⟨p.getD (8 + 5 * i) 0, BitVec.ofNat 32 (natAt p (9 + 5 * i) 4)⟩

/-- The command that a code and a payload of its length spell (12.2). -/
def requestCommand (code : Nat) (p : List Byte) : Option Instr :=
  match code with
  | 1 => some .readStatus
  | 2 => some .readEvent
  | 3 => some .readCut
  | 4 => some (.readTrain (p.getD 0 0))
  | 5 => some (.readPeer (p.getD 0 0))
  | 6 => some (.ackAlarms (BitVec.ofNat 32 (natAt p 0 4)))
  | 7 => some (.setStatus (headroomsAt p))
  | 8 => some (.enterOrder (p.getD 0 0) (BitVec.ofNat 16 (natAt p 1 2)) (BitVec.ofNat 32 (natAt p 3 4)) (p.getD 7 0) (placesAt p))
  | 9 => some (.cancelOrder (p.getD 0 0))
  | 10 => some .forceAdvance
  | 11 => some .forceTransmix
  | 12 => some (.releaseTo (p.getD 0 0))
  | 13 => some .closeDelivery
  | 14 => some .resync
  | _ => none

/-- The command that the bytes of a transaction spell (R198): a complete request that passes the first two checks of R199. -/
def readRequest (bytes : List Byte) : Option Instr :=
  if requestComplete bytes && (requestFault (requestPart bytes)).isNone then
    requestCommand (natAt bytes 0 1) ((requestPart bytes).drop 3)
  else none

/-- The effect of the command that a good request spells; the other commands come by no request. -/
def execRequest (c : Instr) (s : State) : Host.Outcome State Fault Refusal :=
  match c with
  | .readStatus => execReadStatus s
  | .readEvent => execReadEvent s
  | .readCut => execReadCut s
  | .readTrain index => execReadTrain index s
  | .readPeer index => execReadPeer index s
  | .ackAlarms bits => execAckAlarms bits s
  | .setStatus headrooms => execSetStatus headrooms s
  | .enterOrder product density nominal count places => execEnterOrder product density nominal count places s
  | .cancelOrder index => execCancelOrder index s
  | .forceAdvance => execForceAdvance s
  | .forceTransmix => execForceTransmix s
  | .releaseTo route => execReleaseTo route s
  | .closeDelivery => execCloseDelivery s
  | .resync => execResync s
  | _ => .next s

/-- SPI_BAD_REQUEST: the bytes of one transaction, judged (R198, R199). A complete request that fails one of the first two checks
is refused with BAD_CRC or BAD_FIELD. Bytes that are no such request have the effect they have at the port: a request that stays
incomplete is discarded, and a good one is its own command (log 28). -/
def execSpiBadRequest (bytes : List Byte) (s : State) : Host.Outcome State Fault Refusal :=
  if requestComplete bytes then
    match requestFault (requestPart bytes) with
    | some why => .next (refuse why s)
    | none =>
      match readRequest bytes with
      | some c => execRequest c s
      | none => .next s
  else execSpiRequestAborted s

/-- What SDO carries in the present transaction (R198): FF in each of `before` bytes from the first request byte to the status
byte, the response, and FF in each of `after` bytes until SSN rises. R198 does not say how many bytes these are. -/
def sdoBytes (before after : Nat) (s : State) : List Byte :=
  List.replicate before 0xFF ++ s.spc.response ++ List.replicate after 0xFF

/-- LOST_NOTICE_QUEUED (R203). -/
def execLostNoticeQueued (s : State) : Host.Outcome State Fault Refusal := .next (queueLostNotice s)

end Sys2Proof.Machine
end

