-- ==== Sys2Proof/Machine/Peers.lean ====
section
/-! DEFINITION. The Peer Table's operations (chapter 5): beacons, standing, conflicts, delivery counts, expiries and the reference
peer. -/

namespace Sys2Proof.Machine

/-! ### The table (R78, R81) -/

/-- The table's entries replaced. -/
def putPeers (l : List Peer) (s : State) : State := { s with prt := { s.prt with peers := l } }

/-- A peer entry put in its place by station number, replacing one of the same number (R78). -/
def placePeer (p : Peer) : List Peer → List Peer
  | [] => [p]
  | q :: rest =>
    if p.station < q.station then p :: q :: rest
    else if p.station = q.station then p :: rest
    else q :: placePeer p rest

/-- The SILENT entry with the earliest last beacon time, the lower station first among equals (R81); the table is in ascending order
of station. -/
def oldestSilent : List Peer → Option Peer
  | [] => none
  | p :: rest =>
    if p.standing = .silent then
      match oldestSilent rest with
      | none => some p
      | some q => if q.lastBeacon < p.lastBeacon then some q else some p
    else oldestSilent rest

/-- The table with room for one more entry (R81): below 24 as it is; at 24 without one SILENT entry; none otherwise. -/
def peerRoom (l : List Peer) : Option (List Peer) :=
  if l.length < 24 then some l
  else (oldestSilent l).map fun q => l.filter (fun p => p.station != q.station)

/-! ### The reference peer (R90, R91) -/

/-- An entry qualifies as reference (R90). -/
def Peer.qualifies (own : Nat) (p : Peer) : Bool := p.standing == .good && p.densityHealthy && p.mark < own

/-- The greatest mark of a list of entries. -/
def greatestMark (l : List Peer) : Nat := l.foldl (fun m p => max m p.mark) 0

/-- The qualifying entries with the greatest mark, in ascending order of station (R90). -/
def referenceChoices (own : Nat) (l : List Peer) : List Peer :=
  (l.filter (fun p => p.qualifies own)).filter fun p => p.mark == greatestMark (l.filter (fun p => p.qualifies own))

/-- The reference chosen, given the present one (R90). -/
def chooseReference (own : Nat) (l : List Peer) (present : Option Nat) : Option Nat :=
  if (referenceChoices own l).any (fun p => present == some p.station) then present
  else (referenceChoices own l).head?.map (·.station)

/-- The reference recomputed (R90); a change queues REFERENCE_CHANGED (R91). -/
def recomputeReference (s : State) : State :=
  let next := chooseReference s.cfg.mark s.prt.peers s.prt.reference
  if next = s.prt.reference then s
  else
    offerEvent (.referenceChanged s.prt.reference next) { s with prt := { s.prt with reference := next } }

/-! ### Beacons (R79 to R84, R87 to R89, R92, R93) -/

/-- The checks of R79 on a beacon's fields and its sender. -/
def beaconValid (station : Nat) (b : BeaconMsg) : Bool :=
  (roleOfCode b.role).isSome && b.mark ≤ 2000000000 && (b.role != 1 || b.mark == 0)
    && 10 ≤ b.period && b.period ≤ 100 && 1 ≤ station && station ≤ 250

/-- The newest sequence that a beacon advertises (R79). -/
def BeaconMsg.newestSeq (b : BeaconMsg) : Option SeqNo := if b.newestPresent then some b.newest else none

/-- A port conflict (R88). -/
def portConflict (own mark : Nat) (p : Port) : Bool :=
  (mark < own && p == .down) || (own < mark && p == .up)

/-- A beacon is timely for an entry (R83). -/
def Peer.timely (p : Peer) (now : Nat) : Bool := p.standing != .silent && now ≤ p.lastBeacon + 2 * p.period * 100

/-- Standing and count after a beacon that raises no conflict and finds no hold (R84). A beacon that finds a HEARD or GOOD entry late has
overtaken its suspect expiry and is judged as after it (log 40). -/
def standingAfter (before : Standing) (count : Nat) (timely synced : Bool) : Standing × Nat :=
  match before with
  | .silent => (.heard, if synced then 1 else 0)
  | .suspect => if timely && synced then (.good, count) else (.suspect, 0)
  | .good => if timely && synced then (.good, count) else (.suspect, 0)
  | .heard =>
    if !synced then (.heard, 0)
    else if timely then (if count + 1 < 3 then .heard else .good, count + 1)
    else (.suspect, 0)

/-- A result of HEARD or GOOD is SUSPECT while a conflict hold runs (R89). -/
def Standing.held : Standing → Standing
  | .heard => .suspect
  | .good => .suspect
  | .suspect => .suspect
  | .silent => .silent

/-- The fields that an entry takes from a beacon: step 3 of R82. -/
def Peer.takeFields (p : Peer) (b : BeaconMsg) (role : Role) (port : Port) (now : Nat) : Peer :=
  { p with
    role := role
    mark := b.mark
    period := b.period
    synced := b.synced
    densityHealthy := b.densityHealthy
    restarted := b.restarted
    newest := b.newestSeq
    arrival := port
    lastBeacon := now }

/-- Standing, count and hold after a beacon: step 5 of R82 (R84, R89). -/
def Peer.moveStanding (p : Peer) (conflict timely : Bool) (b : BeaconMsg) (now : Nat) : Peer :=
  if conflict then
    { p with standing := .suspect, goodCount := 0, conflictHold := some (now + 10 * b.period * 100) }
  else
    let r := standingAfter p.standing p.goodCount timely b.synced
    { p with standing := if p.conflictHold.isSome then r.1.held else r.1, goodCount := r.2 }

/-- What step 4 of R82 makes of a delivery count (R92, R93). -/
inductive CountJudgement where
  | rebaseline | zero | delta (v : Nat) | jump (v : Count32)
  deriving DecidableEq, Repr

/-- The delivery count judged (R92, R93). -/
def judgeCount (rebaseline : Bool) (baseline count : Count32) : CountJudgement :=
  if rebaseline then .rebaseline
  else if (count - baseline).toNat = 0 then .zero
  else if (count - baseline).toNat ≤ 2000000 then .delta (count - baseline).toNat
  else .jump (count - baseline)

/-- The baseline after a beacon (R92, R93). In every case it is the beacon's count. -/
def Peer.rebased (p : Peer) (count : Count32) : Peer := { p with baseline := count }

/-- The entry that a first beacon creates (R81, R88, R89). -/
def newPeer (station : Nat) (b : BeaconMsg) (role : Role) (port : Port) (now : Nat) (conflict : Bool) : Peer where
  station := station
  role := role
  mark := b.mark
  period := b.period
  synced := b.synced
  densityHealthy := b.densityHealthy
  restarted := b.restarted
  baseline := b.count
  newest := b.newestSeq
  arrival := port
  standing := if conflict then .suspect else .heard
  lastBeacon := now
  goodCount := if conflict then 0 else if b.synced then 1 else 0
  conflictHold := if conflict then some (now + 10 * b.period * 100) else none

/-- A beacon from a station without an entry (R81). -/
def createPeer (station : Nat) (b : BeaconMsg) (role : Role) (port : Port) (s : State) : State :=
  match peerRoom s.prt.peers with
  | none => raiseAlarm .peerTableFull 0 s
  | some l =>
    let conflict := portConflict s.cfg.mark b.mark port
    let s1 := putPeers (placePeer (newPeer station b role port s.now conflict) l) s
    recomputeReference (if conflict then raiseAlarm .stationConflict 0 s1 else s1)

/-- A beacon applied to its station's entry, steps 1 to 7 of R82; the answer is the delta that step 4 produced, if any. -/
def applyBeacon (p : Peer) (b : BeaconMsg) (role : Role) (port : Port) (s : State) : State × Option Nat :=
  let timely := p.timely s.now
  let markConflict := b.mark != p.mark
  let conflict := markConflict || portConflict s.cfg.mark b.mark port
  let judged := judgeCount (p.standing == .silent || b.restarted || markConflict) p.baseline b.count
  let q := ((p.takeFields b role port s.now).rebased b.count).moveStanding conflict timely b s.now
  let s1 := if conflict then raiseAlarm .stationConflict 0 s else s
  let s2 :=
    match judged with
    | .jump v => offerEvent (.deliveryJump p.station p.baseline b.count v) s1
    | _ => s1
  let s3 := recomputeReference (putPeers (placePeer q s2.prt.peers) s2)
  (s3, match judged with
    | .delta v => some v
    | _ => none)

/-- A beacon's newest sequence shows a gap (R22). -/
def beaconShowsGap (s : State) (station : Nat) : Bool :=
  match findPeer s.prt.peers station with
  | some p =>
    p.standing == .good && p.mark < s.cfg.mark
      && (match p.newest with
        | some n => (newestEntry s.trs.train).all (fun e => seqAfter n e.seq)
        | none => false)
  | none => false

/-- Gap detection from a beacon at a SYNCED non-origin chip (R22). -/
def judgeBeaconGap (station : Nat) (s : State) : State :=
  if s.nonOrigin && s.trs.sync == .synced && beaconShowsGap s station then raiseGap s else s

/-- Sequence learning at the ORIGIN in SEQ_LEARN (R128). -/
def learnSequence (b : BeaconMsg) (s : State) : State :=
  if s.hasRole .origin && s.trs.sync == .seqLearn then
    match b.newestSeq with
    | none => s
    | some n =>
      if s.trs.learned.all (fun m => seqAfter n m) then { s with trs := { s.trs with learned := some n } } else s
  else s

/-- A checked beacon at PRT, TKE and TRS (R81, R82): delta and gap detection come in a free order (log 10). -/
def takeBeacon (station : Nat) (b : BeaconMsg) (role : Role) (port : Port) (s : State) : State :=
  match findPeer s.prt.peers station with
  | none => judgeBeaconGap station (createPeer station b role port s)
  | some p =>
    match applyBeacon p b role port s with
    | (s1, some v) => inEitherOrder (trackDelta v b.mark) (judgeBeaconGap station) s1
    | (s1, none) => judgeBeaconGap station s1

/-- The stations and roles of the table, on which LSC's block tests rest (R187). -/
def peerRoles (s : State) : List (Nat × Role) := s.prt.peers.map fun p => (p.station, p.role)

/-! ### Expiries (R85, R89) -/

/-- The suspect expiry (R85). -/
def peerSuspect (station : Nat) (s : State) : State :=
  match findPeer s.prt.peers station with
  | none => s
  | some p =>
    let s1 := s.advanceTo (p.lastBeacon + 2 * p.period * 100)
    match p.standing with
    | .heard => recomputeReference (putPeers (placePeer { p with standing := .suspect, goodCount := 0 } s.prt.peers) s1)
    | .good => recomputeReference (putPeers (placePeer { p with standing := .suspect, goodCount := 0 } s.prt.peers) s1)
    | .suspect => s1
    | .silent => s

/-- The silence expiry (R85). -/
def peerSilence (station : Nat) (s : State) : State :=
  match findPeer s.prt.peers station with
  | none => s
  | some p =>
    if p.standing = .silent then s
    else
      recomputeReference (putPeers (placePeer { p with standing := .silent, goodCount := 0 } s.prt.peers)
        (s.advanceTo (p.lastBeacon + 5 * p.period * 100)))

/-- The free expiry (R85). -/
def peerFree (station : Nat) (s : State) : State :=
  match findPeer s.prt.peers station with
  | none => s
  | some p =>
    if p.standing = .silent then
      recomputeReference (putPeers (s.prt.peers.filter fun q => q.station != station)
        (s.advanceTo (p.lastBeacon + 5 * p.period * 100 + 60000)))
    else s

/-- The conflict hold's end (R89). -/
def holdEnds (station : Nat) (s : State) : State :=
  match findPeer s.prt.peers station with
  | none => s
  | some p =>
    match p.conflictHold with
    | none => s
    | some due => putPeers (placePeer { p with conflictHold := none } s.prt.peers) (s.advanceTo due)

end Sys2Proof.Machine
end

