-- ==== Sys2Proof/Machine/Telegrams.lean ====
section
/-! DEFINITION. The family of telegrams taken from the receive queue (R107): BEACON_TAKEN, LAUNCH_TAKEN, PASSAGE_TAKEN, HOLD_TAKEN,
ASK_TAKEN, ITEM_TAKEN. Each takes the queue's head when it is of its kind. -/

namespace Sys2Proof.Machine

/-- The sender of a received frame. -/
def RxFrame.sender (f : RxFrame) : Nat := f.frame.station.toNat

/-- LSC's judgement when the Peer Table's entries or roles changed since `before` (R187, log 38). -/
def judgePeerChange (before : State) (s : State) : State :=
  if s.hasRole .origin && peerRoles s != peerRoles before then judgeChangeover s else s

/-- A BEACON handed to PRT, TRS and TKE (R79, R82, R128). -/
def receiveBeacon (f : RxFrame) (s : State) : State :=
  let b := readBeacon f.frame.payload
  match roleOfCode b.role with
  | some role =>
    if beaconValid f.sender b then
      judgePeerChange s (takeBeacon f.sender b role f.port (learnSequence b s))
    else s
  | none => s

/-- BEACON_TAKEN (R79 to R93). -/
def execBeaconTaken (s : State) : Host.Outcome State Fault Refusal :=
  .next (
    match headFrame .beacon s with
    | some f => dropReceived (receiveBeacon f s)
    | none => s)

/-- A LAUNCH handed to TRS (R11, R12). -/
def receiveLaunch (f : RxFrame) (s : State) : State :=
  if s.nonOrigin && launchValid (readLaunch f.frame.payload) then placeLaunch (readLaunch f.frame.payload) s else s

/-- LAUNCH_TAKEN (R11). -/
def execLaunchTaken (s : State) : Host.Outcome State Fault Refusal :=
  .next (
    match headFrame .launch s with
    | some f => dropReceived (receiveLaunch f s)
    | none => s)

/-- A PASSAGE handed to TKE and TRS (R20, R54). A sender's mark lets at most one of the two act. -/
def receivePassage (f : RxFrame) (s : State) : State :=
  match passageKindOfCode (natAt f.frame.payload 2 1) with
  | some k => takeRemoval f.sender (seqAt f.frame.payload 0) (takeSnap f.sender (seqAt f.frame.payload 0) k s)
  | none => s

/-- PASSAGE_TAKEN (R54). -/
def execPassageTaken (s : State) : Host.Outcome State Fault Refusal :=
  .next (
    match headFrame .passage s with
    | some f => dropReceived (receivePassage f s)
    | none => s)

/-- A HOLD handed to LSC at the ORIGIN (R107, R192). -/
def receiveHold (f : RxFrame) (s : State) : State :=
  if s.hasRole .origin then takeHold f.sender (natAt f.frame.payload 0 1) (natAt f.frame.payload 1 1) s else s

/-- HOLD_TAKEN (R192). -/
def execHoldTaken (s : State) : Host.Outcome State Fault Refusal :=
  .next (
    match headFrame .hold s with
    | some f => dropReceived (receiveHold f s)
    | none => s)

/-- ASK_TAKEN (R120). -/
def execAskTaken (s : State) : Host.Outcome State Fault Refusal :=
  .next (
    match headFrame .ask s with
    | some f => dropReceived (takeAsk f.sender (readAsk f.frame.payload) s)
    | none => s)

/-- ITEM_TAKEN (R124). -/
def execItemTaken (s : State) : Host.Outcome State Fault Refusal :=
  .next (
    match headFrame .item s with
    | some f => dropReceived (takeItem f.sender (readItem f.frame.payload) s)
    | none => s)

end Sys2Proof.Machine
end

