-- ==== Sys2Proof/Machine/Timers.lean ====
section
/-! DEFINITION. The family of peer, transfer, hold and status timers: PEER_SUSPECT_EXPIRY, PEER_SILENCE_EXPIRY, PEER_FREE_EXPIRY,
CONFLICT_HOLD_EXPIRY (chapter 5); ASK_SEND, TRANSFER_TIMER_EXPIRY, RE_ASK_TIMER_EXPIRY, ANSWER_ITEM_HANDED, LEARN_TIMER_EXPIRY
(chapter 7); HOLD_ENTRY_EXPIRY, HOLD_REFRESH_EXPIRY, STALE_TIMER_EXPIRY (chapter 11). A timer that does not run expires nowhere
(log 3). -/

namespace Sys2Proof.Machine

/-- PEER_SUSPECT_EXPIRY (R85). -/
def execPeerSuspectExpiry (station : Nat) (s : State) : Host.Outcome State Fault Refusal :=
  .next (if s.running then peerSuspect station s else s)

/-- PEER_SILENCE_EXPIRY (R85). -/
def execPeerSilenceExpiry (station : Nat) (s : State) : Host.Outcome State Fault Refusal :=
  .next (if s.running then peerSilence station s else s)

/-- PEER_FREE_EXPIRY (R85); a freeing is judged by LSC (R187). -/
def execPeerFreeExpiry (station : Nat) (s : State) : Host.Outcome State Fault Refusal :=
  .next (if s.running then judgePeerChange s (peerFree station s) else s)

/-- CONFLICT_HOLD_EXPIRY (R89). -/
def execConflictHoldExpiry (station : Nat) (s : State) : Host.Outcome State Fault Refusal :=
  .next (if s.running then holdEnds station s else s)

/-- ASK_SEND (R118). -/
def execAskSend (s : State) : Host.Outcome State Fault Refusal := .next (sendAskIfDue s)

/-- TRANSFER_TIMER_EXPIRY (R119). -/
def execTransferTimerExpiry (s : State) : Host.Outcome State Fault Refusal :=
  .next (if s.nonOrigin then transferExpired s else s)

/-- RE_ASK_TIMER_EXPIRY (R118). -/
def execReAskTimerExpiry (s : State) : Host.Outcome State Fault Refusal :=
  .next (if s.nonOrigin then reAskExpired s else s)

/-- ANSWER_ITEM_HANDED (R123). -/
def execAnswerItemHanded (s : State) : Host.Outcome State Fault Refusal :=
  .next (if s.running then handItem s else s)

/-- LEARN_TIMER_EXPIRY (R129). -/
def execLearnTimerExpiry (s : State) : Host.Outcome State Fault Refusal :=
  .next (if s.hasRole .origin then learningEnds s else s)

/-- A hold table entry expires (R193). -/
def holdExpired (station product : Nat) (s : State) : State :=
  match s.lsc.holds.find? (fun h => h.hasKey station product) with
  | none => s
  | some h => removeHold station product (s.advanceTo h.expiry)

/-- HOLD_ENTRY_EXPIRY (R193). -/
def execHoldEntryExpiry (station product : Nat) (s : State) : Host.Outcome State Fault Refusal :=
  .next (if s.hasRole .origin then holdExpired station product s else s)

/-- HOLD_REFRESH_EXPIRY (R195). -/
def execHoldRefreshExpiry (product : Nat) (s : State) : Host.Outcome State Fault Refusal :=
  .next (if holdRole s then refreshHold product s else s)

/-- STALE_TIMER_EXPIRY (R196). -/
def execStaleTimerExpiry (s : State) : Host.Outcome State Fault Refusal :=
  .next (if holdRole s then statusStale s else s)

end Sys2Proof.Machine
end

