-- ==== Sys2Proof/Machine/ValveEvents.lean ====
section
/-! DEFINITION. The valves' family (chapter 10): LIMIT_CHANGE, TRAVEL_TIMER_EXPIRY. -/

namespace Sys2Proof.Machine

/-- A command on route `r` has ended: its outcome goes to the switch in flight and then to its requester, or to DSQ; a start-up close
is reported to no block (R166, R175, R176). -/
def commandEnded (r : Route) (startup : Bool) (e : CommandEnd) (s : State) : State :=
  if startup then s
  else
    match s.vld.inFlight with
    | some x =>
      if x.drives r then
        let y := switchCommandEnded x r e s
        if s.hasRole .terminus then evaluateIfRemoved s (cutOutcomes y.2 y.1)
        else if s.hasRole .origin then changeoverOutcomes y.2 y.1
        else y.1
      else s
    | none => if s.hasRole .delivery then plainOutcome r e s else s

/-- A limit of a route at its new level (R171). -/
def RouteState.withLimit (x : RouteState) (limit : Limit) (shown : Bool) : RouteState :=
  match limit with
  | .opened => { x with openLimit := shown }
  | .closed => { x with closeLimit := shown }

/-- A route at rest leaves its latched position between two readings of its limits (R174). That a further limit
of a route already away from it is no departure of its own is the model's choice (log 56). -/
def leavesRest (x y : RouteState) : Bool :=
  x.travel.isNone &&
    (match latchPosition x.latch with
      | some pos => x.shows pos && !y.shows pos
      | none => false)

/-- What a settled limit brings in RUN (R173, R174): `x` is the route before it. -/
def limitSettled (r : Route) (x : RouteState) (s : State) : State :=
  match (routeState s r).travelEnd with
  | some .confirmed => commandEnded r x.startupClose .confirmed (putRoute r (routeState s r).confirmedNow s)
  | some .fault => commandEnded r x.startupClose .fault (faultRoute r s)
  | none => if leavesRest x (routeState s r) then raiseAlarm .valveFault (routeNumber r) s else s

/-- LIMIT_CHANGE (R171, R173, R174). The confirmed state follows the limits in every load state. -/
def execLimitChange (r : Route) (limit : Limit) (shown : Bool) (s : State) : Host.Outcome State Fault Refusal :=
  .next (
    let x := routeState s r
    let s1 := putRoute r (x.withLimit limit shown) s
    if s.running then limitSettled r x s1 else s1)

/-- TRAVEL_TIMER_EXPIRY (R173). -/
def execTravelTimerExpiry (r : Route) (s : State) : Host.Outcome State Fault Refusal :=
  .next (
    match s.running, (routeState s r).travel with
    | true, some due => commandEnded r (routeState s r).startupClose .fault (faultRoute r (s.advanceTo due))
    | _, _ => s)

end Sys2Proof.Machine
end

