-- ==== Sys2Proof/Machine/Dispatch.lean ====
section
/-! DEFINITION. One arm for each command, each a direct call of its meaning. -/

namespace Sys2Proof.Machine

/-- The effect of a command on everything but the queue. -/
def exec (i : Instr) (s : State) : Host.Outcome State Fault Refusal :=
  match i with
  | .powerOnReset => Sys2Proof.Machine.execPowerOnReset s
  | .resetRelease => Sys2Proof.Machine.execResetRelease s
  | .configLoadDone memory => Sys2Proof.Machine.execConfigLoadDone memory s
  | .mainlinePulse => Sys2Proof.Machine.execMainlinePulse s
  | .trimNudge => Sys2Proof.Machine.execTrimNudge s
  | .deliveryPulse => Sys2Proof.Machine.execDeliveryPulse s
  | .densityCharacter value goodStop => Sys2Proof.Machine.execDensityCharacter value goodStop s
  | .frameCharTimeout => Sys2Proof.Machine.execFrameCharTimeout s
  | .silenceTimerExpiry => Sys2Proof.Machine.execSilenceTimerExpiry s
  | .portSignalDetected port => Sys2Proof.Machine.execPortSignalDetected port s
  | .portReachesUp port => Sys2Proof.Machine.execPortReachesUp port s
  | .lossOfSignal port => Sys2Proof.Machine.execLossOfSignal port s
  | .frameReceived port bytes => Sys2Proof.Machine.execFrameReceived port bytes s
  | .rxFrameAborted port => Sys2Proof.Machine.execRxFrameAborted port s
  | .noiseCleanExpiry port => Sys2Proof.Machine.execNoiseCleanExpiry port s
  | .beaconTaken => Sys2Proof.Machine.execBeaconTaken s
  | .peerSuspectExpiry station => Sys2Proof.Machine.execPeerSuspectExpiry station s
  | .peerSilenceExpiry station => Sys2Proof.Machine.execPeerSilenceExpiry station s
  | .peerFreeExpiry station => Sys2Proof.Machine.execPeerFreeExpiry station s
  | .conflictHoldExpiry station => Sys2Proof.Machine.execConflictHoldExpiry station s
  | .launchTaken => Sys2Proof.Machine.execLaunchTaken s
  | .passageTaken => Sys2Proof.Machine.execPassageTaken s
  | .holdTaken => Sys2Proof.Machine.execHoldTaken s
  | .askTaken => Sys2Proof.Machine.execAskTaken s
  | .itemTaken => Sys2Proof.Machine.execItemTaken s
  | .askSend => Sys2Proof.Machine.execAskSend s
  | .transferTimerExpiry => Sys2Proof.Machine.execTransferTimerExpiry s
  | .reAskTimerExpiry => Sys2Proof.Machine.execReAskTimerExpiry s
  | .answerItemHanded => Sys2Proof.Machine.execAnswerItemHanded s
  | .learnTimerExpiry => Sys2Proof.Machine.execLearnTimerExpiry s
  | .beaconTimerExpiry => Sys2Proof.Machine.execBeaconTimerExpiry s
  | .txPortFree port => Sys2Proof.Machine.execTxPortFree port s
  | .limitChange route limit shown => Sys2Proof.Machine.execLimitChange route limit shown s
  | .travelTimerExpiry route => Sys2Proof.Machine.execTravelTimerExpiry route s
  | .startReading => Sys2Proof.Machine.execStartReading s
  | .holdEntryExpiry station product => Sys2Proof.Machine.execHoldEntryExpiry station product s
  | .holdRefreshExpiry product => Sys2Proof.Machine.execHoldRefreshExpiry product s
  | .staleTimerExpiry => Sys2Proof.Machine.execStaleTimerExpiry s
  | .spiRequestAborted => Sys2Proof.Machine.execSpiRequestAborted s
  | .spiBadRequest bytes => Sys2Proof.Machine.execSpiBadRequest bytes s
  | .readStatus => Sys2Proof.Machine.execReadStatus s
  | .readEvent => Sys2Proof.Machine.execReadEvent s
  | .readEventRetire => Sys2Proof.Machine.execReadEventRetire s
  | .readCut => Sys2Proof.Machine.execReadCut s
  | .readCutRetire => Sys2Proof.Machine.execReadCutRetire s
  | .readTrain index => Sys2Proof.Machine.execReadTrain index s
  | .readPeer index => Sys2Proof.Machine.execReadPeer index s
  | .ackAlarms bits => Sys2Proof.Machine.execAckAlarms bits s
  | .setStatus headrooms => Sys2Proof.Machine.execSetStatus headrooms s
  | .enterOrder product density nominal count places => Sys2Proof.Machine.execEnterOrder product density nominal count places s
  | .cancelOrder index => Sys2Proof.Machine.execCancelOrder index s
  | .forceAdvance => Sys2Proof.Machine.execForceAdvance s
  | .forceTransmix => Sys2Proof.Machine.execForceTransmix s
  | .releaseTo route => Sys2Proof.Machine.execReleaseTo route s
  | .closeDelivery => Sys2Proof.Machine.execCloseDelivery s
  | .resync => Sys2Proof.Machine.execResync s
  | .lostNoticeQueued => Sys2Proof.Machine.execLostNoticeQueued s
  | .trainingSymbolReceived port symbol => Sys2Proof.Machine.execTrainingSymbolReceived port symbol s

end Sys2Proof.Machine
end

