-- ==== Sys2Proof/Safety.lean ====
section
/-! DEFINITION. What counts as a safe state: the ranges, capacities and agreements that the rules give each block at all times. Each
predicate concerns one block; every step keeps it, and the reset state meets it. -/

namespace Sys2Proof.Machine

/-- MTR (R25, R26, R27, R31, R33): the accumulators are below a litre, C is a 48-bit count, T lies within ±TRIM_MAX, and TRIM_MAX and PW
lie in their ranges. -/
structure MeterSafe (s : State) : Prop where
  fine : s.mtr.fine < 1000000000
  deliveryFine : s.mtr.deliveryFine < 1000000000
  count : s.mtr.count ≤ 281474976710655
  pulseWeight : s.cfg.pulseWeight ≤ 65535
  trimMax : s.cfg.trimMax ≤ 5000
  lowest : -(s.cfg.trimMax : Int) ≤ s.mtr.trim
  highest : s.mtr.trim ≤ (s.cfg.trimMax : Int)

/-- TKE (R38): M is at most 250,000 L and Mh is its half; in RUN it is the M of the published mark and MIX_K. -/
structure TrackingSafe (s : State) : Prop where
  mix : s.tke.mix ≤ 250000
  halfMix : s.tke.halfMix = s.tke.mix / 2
  running : s.running = true → s.tke.mix = mixVolume s.cfg.mixK s.cfg.mark

/-- DSU (R63 to R69, R75): at most 4 samples, with an average exactly while there are 4; samples and average in range; the runs below
the values that end them, that of departure 0 outside RUN and at the ORIGIN; and a frame of 1 to 3 characters while one is received. -/
structure DensitySafe (s : State) : Prop where
  window : s.dsu.window.length ≤ 4
  fill : s.dsu.fill = s.dsu.window.length
  samples : ∀ v ∈ s.dsu.window, 5000 ≤ v ∧ v ≤ 11000
  full : s.dsu.average.isSome = (s.dsu.window.length == 4)
  average : ∀ v, s.dsu.average = some v → 5000 ≤ v ∧ v ≤ 11000
  rejects : s.dsu.rejectRun ≤ 3
  goods : s.dsu.goodRun ≤ 255
  unhealthy : s.dsu.healthy = false → s.dsu.goodRun ≤ 7
  departures : s.dsu.departureRun ≤ 3
  uncounted : s.nonOrigin = false → s.dsu.departureRun = 0
  frame : ∀ bytes last, s.dsu.receiver = .frame bytes last → 1 ≤ bytes.length ∧ bytes.length ≤ 3

/-- An entry within the ranges of R2 to R4: the passage kind is present exactly while the state is PASSED. For the remaining volume
once the launched volume is known the upper bound of R2 is not claimed (log 43). -/
structure EntrySafe (e : Entry) : Prop where
  product : 1 ≤ e.product ∧ e.product ≤ 15
  density : 5000 ≤ e.density ∧ e.density ≤ 11000
  nominal : 100000 ≤ e.nominal ∧ e.nominal ≤ 2000000000
  launched : ∀ v, e.launched = some v → v ≤ 2000000000
  remaining : e.launched = none → e.remaining ≤ 2000000000
  deliveries : deliveriesValid e.deliveries = true
  snapMark : ∀ m, e.snapMark = some m → m ≤ 2000000000
  kind : e.kind.isSome = (e.track == .passed)
  lowest : lowestRlv ≤ e.rlv
  highest : e.rlv ≤ highestRlv
  since : e.sinceSnap ≤ highestCount

/-- TRS (R1 to R4): at most 40 entries, each within its ranges; the train is empty outside RUN. The own mark, from which an RLV is
taken, lies in its range (R207). -/
structure TrainSafe (s : State) : Prop where
  room : s.trs.train.length ≤ 40
  entries : ∀ e ∈ s.trs.train, EntrySafe e
  mark : s.cfg.mark ≤ 2000000000
  outside : s.running = false → s.trs.train = []

/-- A peer entry (R78, R83, R89): the count is 0..3 and below 3 while HEARD, and an entry with a conflict hold is SUSPECT or SILENT. -/
structure PeerSafe (p : Peer) : Prop where
  count : p.goodCount ≤ 3
  heard : p.standing = .heard → p.goodCount < 3
  held : p.conflictHold.isSome = true → p.standing = .suspect ∨ p.standing = .silent

/-- The reference is what R90 says: a qualifying entry of the greatest mark, or none when no entry qualifies. -/
def ReferenceRight (s : State) : Prop :=
  match s.prt.reference with
  | some n =>
    ∃ p ∈ s.prt.peers, p.station = n ∧ p.qualifies s.cfg.mark = true
      ∧ ∀ q ∈ s.prt.peers, q.qualifies s.cfg.mark = true → q.mark ≤ p.mark
  | none => ∀ q ∈ s.prt.peers, q.qualifies s.cfg.mark = false

/-- PRT (R78, R83, R89, R90): at most 24 entries in strictly ascending order of station, none with the own number, empty outside RUN, with
the reference that R90 chooses. The receive queue, from which beacons come, holds no frame with the own number (R80). -/
structure PeersSafe (s : State) : Prop where
  room : s.prt.peers.length ≤ 24
  ascending : s.prt.peers.Pairwise (fun p q => p.station < q.station)
  entries : ∀ p ∈ s.prt.peers, PeerSafe p
  others : ∀ p ∈ s.prt.peers, p.station ≠ s.cfg.station
  received : ∀ f ∈ s.tlc.rxQueue, f.frame.station.toNat ≠ s.cfg.station
  outside : s.running = false → s.prt.peers = [] ∧ s.tlc.rxQueue = []
  reference : ReferenceRight s

/-- One port (R101, R108, R109, R110): the class queues within their capacities, all three empty and nothing sent while the port is not UP,
and all three empty while an UP port is not sending, since a free port takes a frame at once. -/
structure PortSafe (x : PortState) : Prop where
  urgent : x.urgent.length ≤ 8
  routine : x.routine.length ≤ 8
  bulk : x.bulk.length ≤ 24
  times : x.badTimes.length ≤ 9
  dark : x.link ≠ .up → x.sending = none
  free : x.sending = none → x.urgent = [] ∧ x.routine = [] ∧ x.bulk = []

/-- TLC (R106, R108): both ports, and at most 16 frames in the receive queue. -/
structure LineSafe (s : State) : Prop where
  upPort : PortSafe s.tlc.upPort
  downPort : PortSafe s.tlc.downPort
  received : s.tlc.rxQueue.length ≤ 16

/-- SPC (R203, R204): at most 64 events and 16 records, a lost count that saturates, and a lost notice owed only while the queue is full. -/
structure StationSafe (s : State) : Prop where
  events : s.spc.events.length ≤ 64
  records : s.spc.cutLog.length ≤ 16
  lost : s.spc.lostCount ≤ 65535
  owed : s.spc.lostOwed = true → s.spc.events.length = 64

/-- CSQ (R133, R137, R142, R145, R146): a record is open exactly in ARMED, MIXING and SETTLING, and without one no action is queued and
nothing is left to settle. A record is open at a TERMINUS alone, and its three volumes add up to C less its start count (R137), as those
of a logged record do to its end count less its start count (R146). The queue holds actions of the open record of kind HEAD or FINAL, at
most one of each, whose thresholds are reached, with due counts that do not fall and lie at most L_LEAD − L_ANTIC above C (R141, R142). -/
structure CutSafe (s : State) : Prop where
  record : s.csq.record.isSome = (s.csq.state == .armed || s.csq.state == .mixing || s.csq.state == .settling)
  rest : s.csq.record = none → s.csq.queue = [] ∧ s.csq.settleRemaining = 0
  counted : ∀ r, s.csq.record = some r → s.hasRole .terminus = true
    ∧ r.start + r.volumeA + r.volumeX + r.volumeB = s.mtr.count
  logged : ∀ r, LogRecord.cut r ∈ s.spc.cutLog → r.start + r.volumeA + r.volumeX + r.volumeB = r.finish
  heads : (s.csq.queue.filter fun a => a.kind == .head).length ≤ 1
  finals : (s.csq.queue.filter fun a => a.kind == .final).length ≤ 1
  kinds : ∀ a ∈ s.csq.queue, a.kind = .head ∨ a.kind = .final
  reached : ∀ a ∈ s.csq.queue, ∀ r, s.csq.record = some r → a.reference = r.first
    ∧ (a.kind = .head → r.headReached = true) ∧ (a.kind = .final → r.finalReached = true)
  rising : s.csq.queue.Pairwise fun a b => a.due ≤ b.due
  bounded : ∀ a ∈ s.csq.queue, a.due ≤ s.mtr.count + s.cfg.lead - s.cfg.antic

/-- DSQ (R158): a delivery is active exactly outside IDLE. -/
def DeliverySafe (s : State) : Prop := s.dsq.active.isSome = (s.dsq.state != .idle)

/-- One route of VLD (R172, R173, R175): a command in travel has its latch, a fault mark excludes one, and only a CLOSE in travel is a
start-up close. -/
structure RouteSafe (x : RouteState) : Prop where
  travel : x.travel.isSome = true → x.latch ≠ .none
  fault : x.faultMark = true → x.latch = .none
  startup : x.startupClose = true → x.travel.isSome = true ∧ x.latch = .closed

/-- The switch in flight (R176): in MAKE nothing is closed yet and the old route is the current one; in BREAK the target is current and at
least one close has not ended. -/
def SwitchRight (s : State) (x : InFlight) : Prop :=
  match x.phase with
  | .making => x.closing = [] ∧ x.anyFault = false ∧ x.oldRoute = s.vld.current ∧ s.vld.current ≠ some x.request.target
  | .breaking => x.closing ≠ [] ∧ s.vld.current = some x.request.target

/-- VLD (R172, R176, R179 to R181): at most 8 waiting switches, none in flight before the start reading, and nothing latched, current,
in flight or waiting outside RUN. -/
structure ValveSafe (s : State) : Prop where
  waiting : s.vld.waiting.length ≤ 8
  routes : ∀ r : Route, RouteSafe (routeState s r)
  switch : ∀ x, s.vld.inFlight = some x → SwitchRight s x
  reading : s.vld.startRead = false → s.vld.inFlight = none
  timer : s.vld.startTimer.isSome = true → s.vld.startRead = false
  outside : s.running = false → (∀ r : Route, (routeState s r).latch = .none) ∧ s.vld.current = none ∧ s.vld.waiting = []
    ∧ s.vld.startRead = false

/-- A launch order within the ranges of R183 and R184. -/
structure OrderSafe (o : Order) : Prop where
  product : 1 ≤ o.product ∧ o.product ≤ 15
  density : 5000 ≤ o.density ∧ o.density ≤ 11000
  nominal : 100000 ≤ o.nominal ∧ o.nominal ≤ 2000000000
  deliveries : deliveriesValid o.deliveries = true

/-- LSC (R183, R186, R189, R192): at most 8 orders within their ranges, an order to change over to while SWITCHING, a launched count that
saturates, and at most 16 holds with one for each key. -/
structure LaunchSafe (s : State) : Prop where
  orders : s.lsc.orders.length ≤ 8
  ranges : ∀ o ∈ s.lsc.orders, OrderSafe o
  switching : s.lsc.switching = true → s.lsc.orders ≠ []
  launched : s.lsc.running.launched ≤ 2000000000
  holds : s.lsc.holds.length ≤ 16
  keys : (s.lsc.holds.map fun h => (h.station, h.product)).Nodup
  holders : ∀ h ∈ s.lsc.holds, 1 ≤ h.station ∧ h.station ≤ 250 ∧ h.product ≤ 15

/-- HLU (R194 to R196): sixteen products, each with its refresh timer running exactly while its hold is active; headrooms of at most
65,535; and no stale timer once the status is stale, which it is in RUN alone. -/
structure TerminalSafe (s : State) : Prop where
  slots : s.hlu.slots.length = 16
  timers : ∀ x ∈ s.hlu.slots, x.refreshTimer.isSome = x.active
  headrooms : ∀ (r : Route) (v : Nat), routeGet s.hlu.headrooms r = some v → v ≤ 65535
  stale : s.hlu.stale = true → s.hlu.staleTimer = none
  outside : s.running = false → s.hlu.stale = false

/-- A configuration record that passes the checks made before clamping (R208). -/
def RecordPasses (image : List Byte) : Prop :=
  natAt image 300 4 = (crc32 (image.take 300)).toNat ∧ 1 ≤ natAt image 0 1 ∧ natAt image 0 1 ≤ 250
    ∧ 1 ≤ natAt image 1 1 ∧ natAt image 1 1 ≤ 4

end Sys2Proof.Machine
end

