-- ==== Sys2Proof/Certificates/Slice0/Obligations.lean ====
section
/-! DEFINITION. The statements about the machine, one `def` each. -/

open Sys2Proof Sys2Proof.Machine

/-! ### The queue of commands -/

/-- A step with a command at the front of the queue is that command's effect on the state with the rest of the queue. With no command waiting the
block idles while 1 ms of the time base passes, the model's choice (log 1). -/
def Obligations.StepRunsFrontCommand : Prop :=
  ∀ s : State,
    (∀ (c : Instr) (rest : List Instr), s.pending = c :: rest → step s = exec c { s with pending := rest })
    ∧ (s.pending = [] → step s = .next { s with clock := s.clock + 1000 })

/-! ### Reset and loading -/

/-- POWER_ON_RESET from any state: every block at its reset state; the limit pins, the queue and the model's counter of free orders stay (log 12). Of
the reset state, the clock at 0, the unpublished configuration values, the record number 0 and the empty response with its marks are the model's
choices (logs 2, 13, 20, 27). -/
def Obligations.PowerOnResetRestoresEveryBlock : Prop :=
  ∀ s : State, exec .powerOnReset s = .next { State.reset with
    pending := s.pending
    choices := s.choices
    vld := { Vld.reset with
      routes := routeMap (fun x => { RouteState.reset with openLimit := x.openLimit, closeLimit := x.closeLimit })
        s.vld.routes } }

/-- What the reset state holds, block by block (R37, R1, R8, R62, R70, R97, R99, R104, R112, R114, R133, R158, R172, R183, R194, R203 to R207). -/
def Obligations.ResetValues : Prop :=
  let s := State.reset
  (s.cfl.load = .loading ∧ s.cfl.fault = none)
    ∧ (s.mtr.fine = 0 ∧ s.mtr.count = 0 ∧ s.mtr.deliveryFine = 0 ∧ s.mtr.deliveryCount = 0 ∧ s.mtr.trim = 0)
    ∧ (s.trs.train = [] ∧ s.trs.sync = .unsynced ∧ s.trs.transferTimer = none)
    ∧ (s.tke.mix = 0 ∧ s.tke.halfMix = 0)
    ∧ (s.dsu.receiver = .hunt ∧ s.dsu.window = [] ∧ s.dsu.fill = 0 ∧ s.dsu.average = none ∧ s.dsu.lastSample = none
      ∧ s.dsu.healthy = false ∧ s.dsu.rejectRun = 0 ∧ s.dsu.goodRun = 0 ∧ s.dsu.silenceTimer = none ∧ s.dsu.departureRun = 0)
    ∧ (s.prt.peers = [] ∧ s.prt.reference = none)
    ∧ (∀ p : Port, portGet s.tlc p = ⟨.down, 0, [], [], [], none, false, []⟩)
    ∧ (s.tlc.rxQueue = [] ∧ s.tlc.beaconTimer = none ∧ s.tlc.restartCount = 0)
    ∧ (s.csq.state = .unknown ∧ s.csq.routeInUse = none ∧ s.csq.cutThrough = none ∧ s.csq.record = none ∧ s.csq.queue = []
      ∧ s.csq.settleRemaining = 0)
    ∧ (s.dsq.state = .idle ∧ s.dsq.active = none ∧ s.dsq.deliveredThrough = none ∧ s.dsq.note = none)
    ∧ (∀ r : Route, (routeState s r).latch = .none ∧ (routeState s r).travel = none ∧ (routeState s r).faultMark = false)
    ∧ (s.vld.current = none ∧ s.vld.inFlight = none ∧ s.vld.waiting = [])
    ∧ (s.lsc.orders = [] ∧ s.lsc.running.seq = none ∧ s.lsc.running.launched = 0 ∧ s.lsc.nextSeq = none ∧ s.lsc.switching = false
      ∧ s.lsc.faultMark = false ∧ s.lsc.holds = [])
    ∧ (s.hlu.headrooms = .fill none ∧ s.hlu.stale = false ∧ s.hlu.slots = List.replicate 16 ⟨false, none⟩)
    ∧ (s.spc.events = [] ∧ s.spc.lostCount = 0 ∧ s.spc.lostOwed = false ∧ s.spc.cutLog = [] ∧ s.spc.alarms = 0)
    ∧ (intAsserted s = false ∧ linkAsserted s = false)

/-- RESET_RELEASE in LOADING: the record begins to be read (R207). CONFIG_LOAD_DONE with an absent memory, which returns FF for its status with CFGIO
held high (R207), or with a record of a present one that CFL cannot repair: CONFIG_FAULT with the first cause that R208 lists; nothing is published,
and every other block stays as it is. That the record is read from RESET_RELEASE on is kept in a flag of the model (log 3); what the memory returns
comes as the command's operand (log 54). -/
def Obligations.LoadingReadsOrFaults : Prop :=
  ∀ s : State, s.cfl.load = .loading →
    exec .resetRelease s = .next { s with cfl := { s.cfl with reading := true } }
    ∧ (s.cfl.reading = true →
    let faulted (why : FaultCause) : Host.Outcome State Fault Refusal :=
      .next { s with cfl := { s.cfl with load := .configFault, reading := false, fault := some why } }
    (∀ image : List Byte, exec (.configLoadDone ⟨0xFF, true, image⟩) s = faulted .memoryAbsent)
    ∧ ∀ (status : Byte) (heldHigh : Bool) (image : List Byte), status ≠ 0xFF ∨ heldHigh = false →
      (natAt image 300 4 ≠ (crc32 (image.take 300)).toNat →
        exec (.configLoadDone ⟨status, heldHigh, image⟩) s = faulted .badCrc)
      ∧ (natAt image 300 4 = (crc32 (image.take 300)).toNat → natAt image 0 1 = 0 ∨ 250 < natAt image 0 1 →
        exec (.configLoadDone ⟨status, heldHigh, image⟩) s = faulted .badStation)
      ∧ (natAt image 300 4 = (crc32 (image.take 300)).toNat → 1 ≤ natAt image 0 1 → natAt image 0 1 ≤ 250 →
        natAt image 1 1 = 0 ∨ 4 < natAt image 1 1 →
        exec (.configLoadDone ⟨status, heldHigh, image⟩) s = faulted .badRole))

/-- CONFIG_LOAD_DONE with a good record of a present memory: RUN with every field published and every block started (R210), M and Mh set, T at its
initial value, an ASK due, the timers started (R38, R33, R9, R117, R112, R180); CONFIG_ADJUSTED is raised when a field was adjusted; a TERMINUS whose
clamped route table holds no TRANSMIX route faults with NO_TRANSMIX instead (R208). When a field counts as adjusted is the model's reading (log 16);
R196 starts the stale timer at RUN and names no role, and that it starts at DELIVERY and TERMINUS alone is the model's reading (log 30). -/
def Obligations.GoodRecordIsPublished : Prop :=
  ∀ (status : Byte) (heldHigh : Bool) (image : List Byte) (s : State), s.cfl.load = .loading → s.cfl.reading = true →
    status ≠ 0xFF ∨ heldHigh = false → RecordPasses image →
    let p := clampedRecord image
    let adjusted := adjustedFields image
    (p.role = some .terminus → (∀ r : Route, routeGet p.routes r ≠ .transmix) →
      exec (.configLoadDone ⟨status, heldHigh, image⟩) s = .next { s with
        cfl := { s.cfl with load := .configFault, reading := false, fault := some .noTransmix, adjusted := adjusted } })
    ∧ (p.role ≠ some .terminus ∨ (∃ r : Route, routeGet p.routes r = .transmix) →
      let started : State := { s with
        cfl := ⟨.run, false, none, p, adjusted⟩
        mtr := { s.mtr with trim := p.trimInitial }
        tke := ⟨min (p.mixK * isqrt p.mark) 250000, min (p.mixK * isqrt p.mark) 250000 / 2⟩
        dsu := { s.dsu with
          silenceTimer := if p.densitometer = true then some (s.now + 1000) else s.dsu.silenceTimer }
        tlc := { s.tlc with beaconTimer := some (s.now + p.beaconOffset * 100) }
        trs := if p.role = some .origin then { s.trs with sync := .seqLearn } else { s.trs with askDue := true }
        vld := { s.vld with startTimer := some (s.now + 50) }
        hlu := if p.role = some .delivery ∨ p.role = some .terminus then
            { s.hlu with staleTimer := some (s.now + 3 * p.beaconPeriod * 100) }
          else s.hlu }
      exec (.configLoadDone ⟨status, heldHigh, image⟩) s
        = .next (if adjusted = [] then started else raiseAlarm .configAdjusted 0 started))

/-- Every published field that 12.6 ranges lies in its range (R207, R209): station and role in every record that passes the checks made before the
clamping (R208), and the others, which are clamped, whatever the record held. -/
def Obligations.PublishedFieldsInRange : Prop :=
  ∀ image : List Byte,
    let p := clampedRecord image
    (RecordPasses image → (1 ≤ p.station ∧ p.station ≤ 250) ∧ p.role.isSome = true)
    ∧ p.mark ≤ 2000000000 ∧ (p.role = some .origin → p.mark = 0) ∧ (p.role ≠ some .origin → 1 ≤ p.mark)
    ∧ (1 ≤ p.pulseWeight ∧ p.pulseWeight ≤ 65535) ∧ (1 ≤ p.deliveryPulseWeight ∧ p.deliveryPulseWeight ≤ 65535)
    ∧ p.trimMax ≤ 5000 ∧ -(p.trimMax : Int) ≤ p.trimInitial ∧ p.trimInitial ≤ p.trimMax
    ∧ (1 ≤ p.trimStep ∧ p.trimStep ≤ 250) ∧ (1 ≤ p.mixK ∧ p.mixK ≤ 63) ∧ (500 ≤ p.deadband ∧ p.deadband ≤ 100000)
    ∧ p.uncFloor ≤ 50000 ∧ p.uncPpm ≤ 10000 ∧ p.lead ≤ 50000 ∧ p.antic ≤ p.lead
    ∧ p.headFraction < p.tailFraction ∧ p.tailFraction ≤ 1000
    ∧ (20 ≤ p.minContrast ∧ p.minContrast ≤ 500) ∧ (10 ≤ p.prodTol ∧ p.prodTol ≤ 200)
    ∧ (1000 ≤ p.settle ∧ p.settle ≤ 50000) ∧ p.deliveryGuard ≤ 50000
    ∧ (10 ≤ p.beaconPeriod ∧ p.beaconPeriod ≤ 100) ∧ p.beaconOffset ≤ 99
    ∧ (5 ≤ p.travelTimeout ∧ p.travelTimeout ≤ 180) ∧ (1 ≤ p.holdMin ∧ p.holdMin ≤ 60) ∧ p.holdHyst ≤ 65535
    ∧ (1 ≤ p.eventWatermark ∧ p.eventWatermark ≤ 64)
    ∧ (∀ r : Route, ∀ c : Nat, routeGet p.routes r = .product c → 1 ≤ c ∧ c ≤ 15)
    ∧ (∀ r q : Route, routeGet p.routes r = routeGet p.routes q → routeGet p.routes r ≠ .unused → r = q)
    ∧ (∀ r : Route, routeGet p.watermarks r ≤ 65535)
    ∧ (∀ n, 22 ≤ n → p.alarmMask.getLsbD n = false)
    ∧ (∀ a b : Nat, 1 ≤ a → a ≤ 15 → 1 ≤ b → b ≤ 15 → (policyOf p a b = .none ↔ a = b))

/-- START_READING (R180) at each role, when no switch waits and the timer runs: the clock stands at its due time and the reading is made. One open
route becomes current and is reported at a TERMINUS and at the ORIGIN; none or several there raise ROUTE_UNKNOWN. CSQ takes the reported route, or
none, as the route in use, and leaves UNKNOWN for STEADY with a route in use and the train SYNCED (R134), here with no entry in WINDOW. A RELAY does
nothing more, nor does a DELIVERY station without an open route. The clock's move and the alarm's detail 0 are the model's choices (logs 2, 15); what
the report means for a RELEASE_TO made before the reading is in log 18. -/
def Obligations.StartReadingFindsTheRoute : Prop :=
  ∀ (s : State) (due : Nat), s.vld.startTimer = some due → s.vld.waiting = [] →
    let read : State := { s with
      clock := max s.clock (due * 1000), vld := { s.vld with startTimer := none, startRead := true } }
    let isOpen (r : Route) : Prop :=
      routeGet s.cfg.routes r ≠ .unused ∧ (routeState s r).confirmed = .opened
    (s.hasRole .relay = true → exec .startReading s = .next read)
    ∧ (s.hasRole .delivery = true → (∀ r : Route, ¬ isOpen r) → exec .startReading s = .next read)
    ∧ (s.hasRole .terminus = true → (∀ r : Route, ¬ isOpen r) →
      exec .startReading s = .next (raiseAlarm .routeUnknown 0 { read with csq := { s.csq with routeInUse := none } }))
    ∧ (s.hasRole .origin = true → (∀ r : Route, ¬ isOpen r) →
      exec .startReading s = .next (raiseAlarm .routeUnknown 0 read))
    ∧ (∀ r q : Route, r ≠ q → isOpen r → isOpen q →
      (s.hasRole .origin = true → exec .startReading s = .next (raiseAlarm .routeUnknown 0 read))
      ∧ (s.hasRole .terminus = true → exec .startReading s =
        .next (raiseAlarm .routeUnknown 0 { read with csq := { s.csq with routeInUse := none } })))
    ∧ (∀ r : Route, isOpen r → (∀ q : Route, isOpen q → q = r) →
      (s.hasRole .origin = true → exec .startReading s = .next { read with
        vld := { read.vld with current := some r }
        lsc := { s.lsc with running := { s.lsc.running with source := some r } } })
      ∧ (s.hasRole .terminus = true → s.csq.state ≠ .unknown ∨ s.trs.sync ≠ .synced →
        exec .startReading s = .next { read with
          vld := { read.vld with current := some r }
          csq := { s.csq with routeInUse := some r } })
      ∧ (s.hasRole .terminus = true → s.csq.state = .unknown → s.trs.sync = .synced →
        (∀ e ∈ s.trs.train, e.track ≠ .window) → exec .startReading s = .next { read with
          vld := { read.vld with current := some r }
          csq := { s.csq with
            routeInUse := some r
            state := .steady
            cutThrough := ((s.trs.train.filter fun e => e.track == .passed).getLast?).map (·.seq) } }))

/-! ### The meter (chapter 2) -/

/-- MAINLINE_PULSE at any role (R26, R27): F with PW × (1,000,000 + T) nL added gives its whole litres to C and keeps the rest; T, FD, D and
everything outside the blocks that take litres stay. A pulse outside RUN or with C above 2^48 − 1 less 66 is not taken and changes nothing (R25). -/
def Obligations.MainlinePulseCountsLitres : Prop :=
  ∀ s : State,
    (s.running = false ∨ 281474976710589 < s.mtr.count → exec .mainlinePulse s = .next s)
    ∧ (s.running = true → s.mtr.count ≤ 281474976710589 → -1000000 ≤ s.mtr.trim →
    ∃ t : State, exec .mainlinePulse s = .next t
      ∧ (t.mtr.fine : Int) = (s.mtr.fine + s.cfg.pulseWeight * (1000000 + s.mtr.trim)) % 1000000000
      ∧ (t.mtr.count : Int) = s.mtr.count + (s.mtr.fine + s.cfg.pulseWeight * (1000000 + s.mtr.trim)) / 1000000000
      ∧ t.mtr.trim = s.mtr.trim ∧ t.mtr.deliveryFine = s.mtr.deliveryFine ∧ t.mtr.deliveryCount = s.mtr.deliveryCount
      ∧ t.pending = s.pending ∧ t.clock = s.clock ∧ t.cfl = s.cfl ∧ t.tke = s.tke ∧ t.prt = s.prt ∧ t.hlu = s.hlu
      ∧ t.tlc.rxQueue = s.tlc.rxQueue ∧ t.tlc.beaconTimer = s.tlc.beaconTimer ∧ t.tlc.restartCount = s.tlc.restartCount
      ∧ { t.dsu with departureRun := s.dsu.departureRun } = s.dsu)

/-- A mainline pulse of n litres (R43, R44): every RLV falls by n, saturating; S rises by n, saturating, unless the entry is PASSED. At the ORIGIN
with no order waiting the launched count rises by n up to 2,000,000,000 (R186), no window evaluation is made, and nothing else changes. At a RELAY the
litre brings the window evaluation (R40 to R42, R48 to R52), here for the one entry not yet PASSED whose RLV may have come within H: beyond H it stays
INBOUND; within H it is in WINDOW; with a usable mix fraction it is DETECTED when it entered WINDOW at this litre and the fraction is 500 or more, and
MISSED when it has fallen to −H with no detection point at 500 or more; with no usable fraction it is ESTIMATED at or below 0. Each declaration sends
its PASSAGE; MISSED raises MISSED_INTERFACE; a DETECTED entry that the reference peer snapped and that was off by more than the deadband hands a trim
nudge on (R57). That the event of MISSED_INTERFACE joins before those of sending the PASSAGE is the model's choice (log 53), and so is that a pair of
one product with two densities is judged by them (log 55). -/
def Obligations.PulseAdvancesAndDeclares : Prop :=
  ∀ s : State,
    s.mtr.count ≤ 281474976710589 → TrainSafe s →
    let fine := s.mtr.fine + ((s.cfg.pulseWeight : Int) * (1000000 + s.mtr.trim)).toNat
    let n := fine / 1000000000
    let metered : Mtr := { s.mtr with fine := fine % 1000000000, count := s.mtr.count + n }
    let moved (e : Entry) : Entry := { e with
      rlv := max (-2147483648) (e.rlv - n)
      sinceSnap := if e.track = .passed then e.sinceSnap else min 4294967295 (e.sinceSnap + n) }
    (s.hasRole .origin = true → s.lsc.orders = [] → s.lsc.running.launched ≤ 2000000000 →
     exec .mainlinePulse s = .next { s with
       mtr := metered
       trs := { s.trs with train := s.trs.train.map moved }
       lsc := { s.lsc with running := { s.lsc.running with launched := min 2000000000 (s.lsc.running.launched + n) } } })
    ∧ (∀ (before after : List Entry) (e : Entry),
      s.hasRole .relay = true → n = 1 → s.trs.train = before ++ e :: after →
      (s.trs.train.map (·.seq)).Nodup → (∀ a ∈ before, a.track = .passed) → e.track ≠ .passed →
      (∀ a ∈ after, a.track = .inbound ∧ ((halfWidth s (moved a).sinceSnap : Nat) : Int) < (moved a).rlv) →
      let x := moved e
      let h : Int := (halfWidth s x.sinceSnap : Nat)
      let fraction : Option Nat :=
        if s.cfg.densitometer = true then before.getLast?.bind fun a => mixFraction s a.density e.density else none
      let entered : Prop := e.track = .window ∨ x.rlv ≤ h
      let moves (y : Entry) : State :=
        { s with mtr := metered, trs := { s.trs with train := before.map moved ++ y :: after.map moved } }
      let passes (y : Entry) : State := { moves y with dsu := { s.dsu with departureRun := 0 } }
      let passage (code : Byte) (t : State) : State := sendOwn .passage (natBytes 2 e.seq.toNat ++ [code]) t
      (e.track = .inbound → h < x.rlv → exec .mainlinePulse s = .next (moves x))
      ∧ (entered → -h < x.rlv → (fraction = none ∧ 0 < x.rlv) ∨ fraction.any (fun f => e.track = .window ∨ f < 500) = true →
        exec .mainlinePulse s = .next (moves { x with track := .window }))
      ∧ (entered → fraction = none → x.rlv ≤ 0 →
        exec .mainlinePulse s = .next (passage 2 (passes { x with track := .passed, kind := some .estimated })))
      ∧ (x.rlv ≤ -h → fraction.any (fun f => e.track = .window ∨ f < 500) = true →
        exec .mainlinePulse s = .next (passage 3 (raiseAlarm .missedInterface 0
          (passes { x with track := .passed, kind := some .missed }))))
      ∧ (e.track = .inbound → x.rlv ≤ h → fraction.any (500 ≤ ·) = true →
        let nudges : List Nudge :=
          if e.snappedByReference = true ∧ s.cfg.deadband < x.rlv.natAbs then [⟨decide (0 < x.rlv), x.rlv⟩] else []
        exec .mainlinePulse s = .next (passage 1
          { passes { x with rlv := 0, sinceSnap := 0, track := .passed, kind := some .detected } with
            mtr := { metered with nudges := s.mtr.nudges ++ nudges } })))

/-- A litre at a TERMINUS, number C + 1, and the cut (R28, R137 to R151). Counting: without a declaration, a threshold, a due action or the end of
settling it counts in the record's stage and in the settling (R137, R145). Opening: an entry due in STEADY that enters WINDOW opens a record, here by
volume with no threshold reached (R135, R136). Thresholds: a pending one whose volume point the RLV has reached queues its action, due at C + L_LEAD −
L_ANTIC (R139, R141). Closing: the last litre of settling closes the record UNJUDGED, with CUT_CLOSED and the removal of R21 (R145, R146). Merging: a
newer entry that enters WINDOW merges the cut, here in MIDDLE (R148, R149). Missing: a MISSED cut entry closes the record on the route in use (R151).
Executing: a due action leaves the queue once the litre is counted; its target and source are taken, a HEAD makes the stage MIDDLE, a FINAL makes it
TRAIL with SETTLE litres to settle, and a target that is not the route in use is commanded open, in MAKE (R143, R176). Density: a cut opened with a
usable mix fraction, here below 500 so that TKE detects nothing, reaches at once each threshold at or below it, a later one only behind the earlier,
its actions queued head first (R138, R141). The counter of free orders and the record's number are the model's own (logs 7, 20); the litre counts
before what it makes due (log 8); the OVERWRITE flag of CUT_CLOSED is a reading (log 50); the order of the events of a MISSED declaration, and judging
a pair of one product by its two densities, are the model's choices (logs 53, 55). -/
def Obligations.TerminusLitreRunsTheCut : Prop :=
  ∀ s : State,
    s.hasRole .terminus = true → s.mtr.count ≤ 281474976710589 → CutSafe s →
    let fine := s.mtr.fine + ((s.cfg.pulseWeight : Int) * (1000000 + s.mtr.trim)).toNat
    let count := s.mtr.count + 1
    let moved (e : Entry) : Entry := { e with
      rlv := max (-2147483648) (e.rlv - 1)
      sinceSnap := if e.track = .passed then e.sinceSnap else min 4294967295 (e.sinceSnap + 1) }
    let counted (r : OpenCut) : OpenCut := match r.stage with
      | .lead => { r with volumeA := r.volumeA + 1 }
      | .middle => { r with volumeX := r.volumeX + 1 }
      | .trail => { r with volumeB := r.volumeB + 1 }
    let point (t : Nat) : Int := (s.tke.halfMix : Int) - (s.tke.mix * t / 1000 : Nat)
    let took (q : Csq) (t : List Entry) : State := { s with
      choices := s.choices + 2
      mtr := { s.mtr with fine := fine % 1000000000, count := count }
      trs := { s.trs with train := t }
      csq := q }
    fine / 1000000000 = 1 →
    (∀ (before : List Entry) (e : Entry) (r : OpenCut),
      s.trs.train = before ++ [e] → (s.trs.train.map (·.seq)).Nodup → (∀ a ∈ before, a.track = .passed) →
      let x := moved e
      s.csq.record = some r → r.cutEntry = e.seq → s.dsu.healthy = false →
      (e.track = .inbound ∧ ((halfWidth s x.sinceSnap : Nat) : Int) < x.rlv) ∨ (e.track = .window ∧ 0 < x.rlv) ∨ e.track = .passed →
      r.method = .density ∨ ((headThreshold s.cfg r.policy).all (fun t => r.headReached = true ∨ point t < x.rlv) = true
        ∧ (finalThreshold s.cfg r.policy).all (fun t => r.finalReached = true ∨ point t < x.rlv) = true) →
      (∀ a ∈ s.csq.queue, count < a.due) → (r.finalExecuted = true → 1 < s.csq.settleRemaining) →
      exec .mainlinePulse s = .next (took { s.csq with
        record := some (counted r)
        settleRemaining := if r.finalExecuted = true then s.csq.settleRemaining - 1 else s.csq.settleRemaining }
        (before.map moved ++ [x])))
    ∧ (∀ (before : List Entry) (a e : Entry),
      s.trs.train = before ++ [a, e] → (s.trs.train.map (·.seq)).Nodup → (∀ b ∈ before ++ [a], b.track = .passed) →
      let x := moved e
      let p := policyOf s.cfg a.product e.product
      s.csq.state = .steady → s.csq.cutThrough.all (fun n => seqAfter e.seq n) = true → s.dsu.healthy = false →
      e.track = .inbound → x.rlv ≤ ((halfWidth s x.sinceSnap : Nat) : Int) → 0 < x.rlv →
      (headThreshold s.cfg p).all (fun t => point t < x.rlv) = true → (finalThreshold s.cfg p).all (fun t => point t < x.rlv) = true →
      exec .mainlinePulse s = .next (took { s.csq with
        state := .armed
        cutThrough := some e.seq
        nextNumber := s.csq.nextNumber + 1
        record := some {
          number := s.csq.nextNumber
          first := e.seq
          last := none
          productA := a.product
          productB := e.product
          policy := p
          method := .volume
          start := count
          routeA := s.csq.routeInUse
          routeB := none
          volumeA := 0
          volumeX := 0
          volumeB := 0
          rlvAtDetection := none
          check := none
          flags := .clear
          stage := .lead
          cutEntry := e.seq
          densityA := a.density
          densityB := e.density
          headReached := false
          finalReached := false
          finalExecuted := false } }
        ((before ++ [a]).map moved ++ [{ x with track := .window }])))
    ∧ (∀ (before : List Entry) (e : Entry) (r : OpenCut) (k : ActionKind) (t : Nat) (target : Route),
      s.trs.train = before ++ [e] → (s.trs.train.map (·.seq)).Nodup → (∀ a ∈ before, a.track = .passed) →
      let x := moved e
      s.csq.record = some r → r.cutEntry = e.seq → r.method ≠ .density → r.finalExecuted = false → s.dsu.healthy = false →
      e.track = .window → 0 < x.rlv → x.rlv ≤ point t → s.csq.queue = [] → s.cfg.antic < s.cfg.lead →
      (k = .head ∧ r.policy = .transmix ∧ r.headReached = false ∧ t = s.cfg.headFraction ∧ transmixRoute s.cfg = some target
          ∧ (r.finalReached = true ∨ point s.cfg.tailFraction < x.rlv))
        ∨ (k = .final ∧ (r.policy ≠ .transmix ∨ r.headReached = true) ∧ r.finalReached = false
          ∧ finalThreshold s.cfg r.policy = some t ∧ productRoute s.cfg r.productB = some target) →
      exec .mainlinePulse s = .next (took { s.csq with
        state := if k = .head then .mixing else .settling
        record := some (if k = .head then { counted r with headReached := true }
          else { counted r with finalReached := true, routeB := some target })
        queue := [⟨target, count + s.cfg.lead - s.cfg.antic, .volume, r.first, k⟩] }
        (before.map moved ++ [x])))
    ∧ (∀ (before : List Entry) (e : Entry) (r : OpenCut),
      s.trs.train = before ++ [e] → (s.trs.train.map (·.seq)).Nodup →
      (∀ a ∈ before, a.track = .passed ∧ seqAfter e.seq a.seq = true) →
      s.csq.record = some r → r.cutEntry = e.seq → e.track = .passed → s.dsu.healthy = false →
      (r.policy ≠ .transmix ∨ r.headReached = true) → (r.policy = .none ∨ r.finalReached = true) →
      r.finalExecuted = true → s.csq.settleRemaining = 1 → s.csq.queue = [] →
      let flags : CutFlags := { r.flags with overwrite := r.flags.overwrite || decide (16 ≤ s.spc.cutLog.length) }
      let log : CutRecord := {
        first := r.first
        last := r.last
        productA := r.productA
        productB := r.productB
        policy := r.policy
        method := r.method
        start := r.start
        finish := count
        routeA := r.routeA
        routeB := r.routeB
        volumeA := (counted r).volumeA
        volumeX := (counted r).volumeX
        volumeB := (counted r).volumeB
        rlvAtDetection := r.rlvAtDetection
        trim := s.mtr.trim
        check := some .unjudged
        flags := r.flags }
      exec .mainlinePulse s = .next (offerEvent (.cutClosed r.first r.last flags) (appendToLog (.cut log)
        (took { s.csq with state := .steady, record := none, settleRemaining := 0 } [moved e]))))
    ∧ (∀ (before : List Entry) (e f : Entry) (r : OpenCut),
      s.trs.train = before ++ [e, f] → (s.trs.train.map (·.seq)).Nodup →
      (∀ a ∈ before, a.track = .passed ∧ seqAfter e.seq a.seq = true) →
      let x := moved e
      let y := moved f
      s.csq.record = some r → r.cutEntry = e.seq → s.csq.cutThrough = some e.seq → seqAfter f.seq e.seq = true →
      r.method = .volume → r.policy = .transmix → r.headReached = true → r.finalExecuted = false → r.stage = .middle →
      s.csq.queue = [] → s.dsu.healthy = false → e.track = .window → 0 < x.rlv →
      f.track = .inbound → 0 < y.rlv → y.rlv ≤ ((halfWidth s y.sinceSnap : Nat) : Int) →
      (r.finalReached = true ∨ point s.cfg.tailFraction < x.rlv) → point s.cfg.tailFraction < y.rlv →
      exec .mainlinePulse s = .next (raiseAlarm .shortBatch 0 (took { s.csq with
        state := .mixing
        cutThrough := some f.seq
        record := some { counted r with
          last := some f.seq
          productB := f.product
          routeB := none
          cutEntry := f.seq
          densityA := e.density
          densityB := f.density
          headReached := true
          finalReached := false
          flags := { r.flags with shortBatch := true } } }
        (before.map moved ++ [{ x with short := true }, { y with track := .window }]))))
    ∧ (∀ (before : List Entry) (a e : Entry) (r : OpenCut) (f : Nat),
      s.trs.train = before ++ [a, e] → (s.trs.train.map (·.seq)).Nodup →
      (∀ b ∈ before ++ [a], b.track = .passed ∧ seqAfter e.seq b.seq = true) →
      let x := moved e
      s.csq.record = some r → r.cutEntry = e.seq → e.track = .window → x.rlv ≤ -((halfWidth s x.sinceSnap : Nat) : Int) →
      s.cfg.densitometer = true → mixFraction s a.density e.density = some f →
      (r.policy ≠ .transmix ∨ r.headReached = true) → (r.policy = .none ∨ r.finalReached = true) → r.finalExecuted = false →
      (∀ q ∈ s.csq.queue, count < q.due) →
      (∃ t, productRoute s.cfg r.productB = some t ∧ s.csq.routeInUse = some t) →
      let flags : CutFlags := { r.flags with missed := true, overwrite := r.flags.overwrite || decide (16 ≤ s.spc.cutLog.length) }
      let log : CutRecord := {
        first := r.first
        last := r.last
        productA := r.productA
        productB := r.productB
        policy := r.policy
        method := r.method
        start := r.start
        finish := count
        routeA := r.routeA
        routeB := r.routeB
        volumeA := (counted r).volumeA
        volumeX := (counted r).volumeX
        volumeB := (counted r).volumeB
        rlvAtDetection := r.rlvAtDetection
        trim := s.mtr.trim
        check := r.check
        flags := { r.flags with missed := true } }
      let declared : State := sendOwn .passage (natBytes 2 e.seq.toNat ++ [3]) (raiseAlarm .missedInterface 0
        { took { s.csq with state := .steady, record := none, queue := [], settleRemaining := 0 }
            [{ x with track := .passed, kind := some .missed }] with
          dsu := { s.dsu with departureRun := 0 } })
      exec .mainlinePulse s = .next (offerEvent (.cutClosed r.first r.last flags)
        (appendToLog (.cut log) declared)))
    ∧ (∀ (before : List Entry) (e : Entry) (r : OpenCut) (q : Action) (rest : List Action),
      s.trs.train = before ++ [e] → (s.trs.train.map (·.seq)).Nodup → (∀ a ∈ before, a.track = .passed) →
      let x := moved e
      s.csq.record = some r → r.cutEntry = e.seq → r.finalExecuted = false → s.dsu.healthy = false →
      (e.track = .inbound ∧ ((halfWidth s x.sinceSnap : Nat) : Int) < x.rlv) ∨ (e.track = .window ∧ 0 < x.rlv) ∨ e.track = .passed →
      r.method = .density ∨ ((headThreshold s.cfg r.policy).all (fun t => r.headReached = true ∨ point t < x.rlv) = true
        ∧ (finalThreshold s.cfg r.policy).all (fun t => r.finalReached = true ∨ point t < x.rlv) = true) →
      s.csq.queue = q :: rest → q.due ≤ count → (∀ a ∈ rest, count < a.due) → 1 ≤ s.cfg.settle →
      s.csq.routeInUse = some q.target ∨ (s.vld.inFlight = none ∧ s.vld.startRead = true ∧ s.vld.current ≠ some q.target
        ∧ (routeState s q.target).openLimit = false) →
      let csq : Csq := { s.csq with
        queue := rest
        routeInUse := some q.target
        lastSource := some q.source
        record := some (if q.kind = .head then { counted r with stage := .middle }
          else { counted r with stage := .trail, finalExecuted := true })
        settleRemaining := if q.kind = .head then s.csq.settleRemaining else s.cfg.settle }
      exec .mainlinePulse s = .next (if s.csq.routeInUse = some q.target then took csq (before.map moved ++ [x])
        else { took csq (before.map moved ++ [x]) with vld := { s.vld with
          inFlight := some ⟨⟨q.target, ⟨q.kind, some r.number, false⟩⟩, s.vld.current, .making, [], false⟩
          routes := routeSet s.vld.routes q.target { routeState s q.target with
            latch := .opened, faultMark := false, startupClose := false,
            travel := some (s.now + s.cfg.travelTimeout * 1000) } } }))
    ∧ (∀ (before : List Entry) (a e : Entry) (f : Nat) (transmix product : Route),
      s.trs.train = before ++ [a, e] → (s.trs.train.map (·.seq)).Nodup → (∀ b ∈ before ++ [a], b.track = .passed) →
      let x := moved e
      let p := policyOf s.cfg a.product e.product
      s.csq.state = .steady → s.csq.cutThrough.all (fun n => seqAfter e.seq n) = true → s.cfg.densitometer = true →
      mixFraction s a.density e.density = some f → f < 500 → s.cfg.antic < s.cfg.lead →
      e.track = .inbound → x.rlv ≤ ((halfWidth s x.sinceSnap : Nat) : Int) → -((halfWidth s x.sinceSnap : Nat) : Int) < x.rlv →
      transmixRoute s.cfg = some transmix → productRoute s.cfg e.product = some product →
      let head : Bool := (headThreshold s.cfg p).any (· ≤ f)
      let final : Bool := (p != .transmix || head) && (finalThreshold s.cfg p).any (· ≤ f)
      let action (k : ActionKind) (target : Route) : Action := ⟨target, count + s.cfg.lead - s.cfg.antic, .density, e.seq, k⟩
      exec .mainlinePulse s = .next (took { s.csq with
        state := if final = true then .settling else if head = true then .mixing else .armed
        cutThrough := some e.seq
        nextNumber := s.csq.nextNumber + 1
        queue := (if head = true then [action .head transmix] else []) ++ (if final = true then [action .final product] else [])
        record := some {
          number := s.csq.nextNumber
          first := e.seq
          last := none
          productA := a.product
          productB := e.product
          policy := p
          method := .density
          start := count
          routeA := s.csq.routeInUse
          routeB := if final = true then some product else none
          volumeA := 0
          volumeX := 0
          volumeB := 0
          rlvAtDetection := none
          check := none
          flags := .clear
          stage := .lead
          cutEntry := e.seq
          densityA := a.density
          densityB := e.density
          headReached := head
          finalReached := final
          finalExecuted := false } }
        ((before ++ [a]).map moved ++ [{ x with track := .window }])))

/-- TRIM_NUDGE (R34): T takes one TRIM_STEP up or down, clamped into ±TRIM_MAX; TRIM_CHANGED is queued with T_old, the new T and r whether or not T
moved; at a full event queue the event is lost, with the lost count, the latch and the mark of R203, and T is changed all the same; nothing else
changes. Two requests in a row each apply one step. -/
def Obligations.TrimNudgeAppliesOneStep : Prop :=
  ∀ (s : State) (q : Nudge) (rest : List Nudge), s.mtr.nudges = q :: rest →
    let candidate : Int := if q.up = true then s.mtr.trim + s.cfg.trimStep else s.mtr.trim - s.cfg.trimStep
    let new : Int := max (-(s.cfg.trimMax : Int)) (min (s.cfg.trimMax : Int) candidate)
    ∃ t : State, exec .trimNudge s = .next t
      ∧ t = { s with mtr := { s.mtr with trim := new, nudges := rest }, spc := t.spc }
      ∧ t.spc = (offerEvent (.trimChanged s.mtr.trim new q.residual) s).spc
      ∧ (s.spc.events.length < 64 →
        t.spc = { s.spc with events := s.spc.events ++ [⟨s.now, .trimChanged s.mtr.trim new q.residual⟩] })
      ∧ (64 ≤ s.spc.events.length → t.spc = { s.spc with
        lostCount := min 65535 (s.spc.lostCount + 1), alarms := s.spc.alarms ||| (1#32 <<< 21), lostOwed := true })

/-- A delivery pulse (R30, R31, R163, R19). At another role than DELIVERY or outside RUN it changes nothing. At a DELIVERY station FD with PWD ×
1,000,000 nL added gives its whole litres to D, modulo 2^32; with no delivery active nothing else changes. In OPENING, DELIVERING and CLOSING the
delivered volume rises by the n litres and the remaining volume of the entry delivered from falls by n, at least to 0. The litre that completes the
ordered volume requests the close once: the delivered volume at the close request is the ordered volume, and the litres after it count on. In OPENING
the close is then pending until the route is confirmed open; in DELIVERING the state is CLOSING and the route is commanded closed, here with its limit
not yet showing it (R163, R164, R173). -/
def Obligations.DeliveryPulseCountsLitres : Prop :=
  ∀ s : State,
    let fine := s.mtr.deliveryFine + s.cfg.deliveryPulseWeight * 1000000
    let n := fine / 1000000000
    let counted : State := { s with mtr := { s.mtr with
      deliveryFine := fine % 1000000000, deliveryCount := BitVec.ofNat 32 (s.mtr.deliveryCount.toNat + n) } }
    (s.hasRole .delivery = false → exec .deliveryPulse s = .next s)
    ∧ (s.hasRole .delivery = true → s.dsq.active = none → exec .deliveryPulse s = .next counted)
    ∧ (∀ a : ActiveDelivery, s.hasRole .delivery = true → s.dsq.active = some a → s.dsq.state ≠ .idle →
      s.dsq.state = .closing ∨ a.atCloseRequest.isSome = true ∨ a.delivered + n < a.ordered → a.delivered + n ≤ 4294967295 →
      exec .deliveryPulse s = .next { counted with
        dsq := { s.dsq with active := some { a with delivered := a.delivered + n } }
        trs := { s.trs with train := changeEntry a.seq (fun e => { e with remaining := e.remaining - n }) s.trs.train } })
    ∧ (∀ a : ActiveDelivery, s.hasRole .delivery = true → s.dsq.active = some a → a.delivered < a.ordered →
      a.ordered ≤ a.delivered + n → a.delivered + n ≤ 4294967295 → a.atCloseRequest = none →
      (s.dsq.state = .opening → exec .deliveryPulse s = .next { counted with
        dsq := { s.dsq with active := some { a with
          delivered := a.delivered + n, atCloseRequest := some a.ordered, closePending := true } }
        trs := { s.trs with train := changeEntry a.seq (fun e => { e with remaining := e.remaining - n }) s.trs.train } })
      ∧ (s.dsq.state = .delivering → (routeState s a.route).closeLimit = false → exec .deliveryPulse s = .next { counted with
        dsq := { s.dsq with
          state := .closing
          active := some { a with delivered := a.delivered + n, atCloseRequest := some a.ordered } }
        trs := { s.trs with train := changeEntry a.seq (fun e => { e with remaining := e.remaining - n }) s.trs.train }
        vld := { s.vld with routes := routeSet s.vld.routes a.route { routeState s a.route with
          latch := .closed, faultMark := false, startupClose := false, travel := some (s.now + s.cfg.travelTimeout * 1000) } } }))

/-! ### Density (chapters 3 and 4) -/

/-- The mix fraction (R72): unusable when |Δ| is below MIN_CONTRAST, the unit is UNHEALTHY or the average is absent; otherwise 0 for d ≤ 0 and
min(1000, floor((1000 × d + floor(|Δ| / 2)) / |Δ|)) for d above 0, a value in 0..1000. -/
def Obligations.MixFractionFollowsTheAverage : Prop :=
  ∀ (s : State) (rhoA rhoB : Nat),
    let delta : Int := (rhoB : Int) - rhoA
    (delta.natAbs < s.cfg.minContrast → mixFraction s rhoA rhoB = none)
    ∧ (s.dsu.healthy = false → mixFraction s rhoA rhoB = none)
    ∧ (s.dsu.average = none → mixFraction s rhoA rhoB = none)
    ∧ (∀ avg : Nat, s.cfg.minContrast ≤ delta.natAbs → s.dsu.healthy = true → s.dsu.average = some avg →
      let d : Int := ((avg : Int) - rhoA) * delta.sign
      (d ≤ 0 → mixFraction s rhoA rhoB = some 0)
      ∧ (0 < d → ∃ f : Nat, mixFraction s rhoA rhoB = some f
        ∧ (f : Int) = min 1000 ((1000 * d + (delta.natAbs / 2 : Nat)) / (delta.natAbs : Int))))
    ∧ (∀ f : Nat, mixFraction s rhoA rhoB = some f → f ≤ 1000)
    ∧ (5000 ≤ rhoA → rhoA ≤ 11000 → 5000 ≤ rhoB → rhoB ≤ 11000 → -6000 ≤ delta ∧ delta ≤ 6000)

/-- The product check (R74): CONFIRMED, REFUTED or UNJUDGED. -/
def Obligations.ProductCheckJudgesTheAverage : Prop :=
  ∀ (s : State) (rhoB : Nat),
    (s.dsu.healthy = false → productCheck s rhoB = .unjudged)
    ∧ (∀ avg : Nat, s.dsu.healthy = true → s.dsu.average = some avg →
      (((avg : Int) - rhoB).natAbs ≤ s.cfg.prodTol → productCheck s rhoB = .confirmed)
      ∧ (s.cfg.prodTol < ((avg : Int) - rhoB).natAbs → productCheck s rhoB = .refuted))

/-- isqrt(x) is the largest integer n with n × n ≤ x (0.7.1, used by R38). -/
def Obligations.IntegerSquareRootIsExact : Prop :=
  ∀ x : Nat, isqrt x * isqrt x ≤ x ∧ x < (isqrt x + 1) * (isqrt x + 1)

/-- The uncertainty U and the window half-width H of an entry (R39), with their bounds for the published ranges. -/
def Obligations.UncertaintyAndHalfWidth : Prop :=
  ∀ (s : State) (sinceSnap : Nat), s.cfg.uncFloor ≤ 50000 → s.cfg.uncPpm ≤ 10000 → s.tke.halfMix ≤ 125000 →
    sinceSnap ≤ 4294967295 →
    uncertainty s.cfg sinceSnap = min (s.cfg.uncFloor + sinceSnap * s.cfg.uncPpm / 1000000) 500000
    ∧ uncertainty s.cfg sinceSnap ≤ 500000
    ∧ halfWidth s sinceSnap = s.tke.halfMix + uncertainty s.cfg sinceSnap
    ∧ halfWidth s sinceSnap ≤ 625000
    ∧ halfWidth s 0 = s.tke.halfMix + s.cfg.uncFloor
    ∧ (s.cfg.uncPpm = 0 → uncertainty s.cfg sinceSnap = s.cfg.uncFloor)
    ∧ (sinceSnap = 4294967295 → 116 < s.cfg.uncPpm → uncertainty s.cfg sinceSnap = 500000)
    ∧ sinceSnap * s.cfg.uncPpm < 2 ^ 46

/-- DENSITY_CHARACTER (R63, R66): in HUNT only a sync character with a good stop bit starts a frame; in FRAME, within 10 ms of the previous character,
a good one that is not byte 4 is held, and a missing stop bit abandons the frame as a reject. -/
def Obligations.DensityCharactersMakeAFrame : Prop :=
  ∀ (s : State) (value : Byte) (goodStop : Bool), s.running = true → s.cfg.densitometer = true →
    (s.dsu.receiver = .hunt → exec (.densityCharacter value goodStop) s = .next
      (if value = 0x5A ∧ goodStop = true then { s with dsu := { s.dsu with receiver := .frame [0x5A] s.now } } else s))
    ∧ (∀ (bytes : List Byte) (last : Nat), s.dsu.receiver = .frame bytes last → s.now ≤ last + 10 →
      (goodStop = true → bytes.length < 3 → exec (.densityCharacter value goodStop) s =
        .next { s with dsu := { s.dsu with receiver := .frame (bytes ++ [value]) s.now } })
      ∧ (goodStop = false → s.dsu.rejectRun < 3 → exec (.densityCharacter value goodStop) s =
        .next { s with dsu := { s.dsu with receiver := .hunt, goodRun := 0, rejectRun := s.dsu.rejectRun + 1 } }))

/-- The fourth character of a good frame, here at a RELAY and a TERMINUS (R64 to R67, R69, R75): the sample joins the window, the reject run becomes
0, the good run rises, the eighth good sample makes the unit HEALTHY, the silence timer starts again, and with the window full the rounded average is
published. At a RELAY with an empty train that is all. With an entry in WINDOW behind one PASSED entry and RLV above 0, a new average is a detection
point (R42, R49): from a mix fraction of 500 on the entry is DETECTED, with its PASSAGE and its trim nudge (R52, R57); below it, nothing more happens.
At a TERMINUS with an open DENSITY record the notice also judges its thresholds for the captured pair: each unreached one at or below the mix fraction
is reached, a later one only behind the earlier, and its action is queued, due at C + L_LEAD − L_ANTIC (R138, R141); the counter of free orders is the
model's own (log 7). That a pair of one product with two densities is judged by them is the model's choice (log 55). -/
def Obligations.AcceptedSampleEntersTheWindow : Prop :=
  ∀ (s : State) (bytes : List Byte) (last : Nat) (value : Byte),
    s.cfg.densitometer = true → s.dsu.receiver = .frame bytes last → s.now ≤ last + 10 → bytes.length = 3 →
    ((bytes ++ [value]).map (·.toNat)).sum % 256 = 255 →
    let sample := 256 * (bytes.getD 1 0).toNat + (bytes.getD 2 0).toNat
    5000 ≤ sample → sample ≤ 11000 →
    let window := (if s.dsu.window.length < 4 then s.dsu.window else s.dsu.window.drop 1) ++ [sample]
    let sampled : State := { s with dsu := {
      receiver := .hunt
      window := window
      fill := min 4 (s.dsu.fill + 1)
      average := if 3 ≤ s.dsu.fill then some ((window.sum + 2) / 4) else s.dsu.average
      lastSample := some sample
      healthy := s.dsu.healthy || s.dsu.goodRun == 7
      rejectRun := 0
      goodRun := min 255 (s.dsu.goodRun + 1)
      silenceTimer := some (s.now + 1000)
      departureRun := if 3 ≤ s.dsu.fill then 0 else s.dsu.departureRun } }
    (s.hasRole .relay = true → s.trs.train = [] → exec (.densityCharacter value true) s = .next sampled)
    ∧ (∀ (before : List Entry) (a e : Entry), s.hasRole .relay = true →
      s.trs.train = before ++ [a, e] → (s.trs.train.map (·.seq)).Nodup → (∀ b ∈ before ++ [a], b.track = .passed) → e.track = .window →
      3 ≤ s.dsu.fill → 0 < e.rlv →
      let fraction := mixFraction sampled a.density e.density
      let nudges : List Nudge := if e.snappedByReference = true ∧ s.cfg.deadband < e.rlv.natAbs then [⟨true, e.rlv⟩] else []
      (fraction.all (· < 500) = true → exec (.densityCharacter value true) s = .next sampled)
      ∧ (fraction.any (500 ≤ ·) = true → exec (.densityCharacter value true) s =
        .next (sendOwn .passage (natBytes 2 e.seq.toNat ++ [1]) { sampled with
          mtr := { s.mtr with nudges := s.mtr.nudges ++ nudges }
          trs := { s.trs with train := before ++ [a, { e with rlv := 0, sinceSnap := 0, track := .passed, kind := some .detected }] } })))
    ∧ (∀ (before : List Entry) (a e : Entry) (r : OpenCut) (f : Nat) (transmix product : Route), s.hasRole .terminus = true →
      s.trs.train = before ++ [a, e] → (s.trs.train.map (·.seq)).Nodup → (∀ b ∈ before ++ [a], b.track = .passed) → e.track = .window →
      3 ≤ s.dsu.fill → 0 < e.rlv → (mixFraction sampled a.density e.density).all (· < 500) = true →
      s.csq.record = some r → r.method = .density → mixFraction sampled r.densityA r.densityB = some f →
      transmixRoute s.cfg = some transmix → productRoute s.cfg r.productB = some product →
      let head : Bool := r.policy == .transmix && !r.headReached && decide (s.cfg.headFraction ≤ f)
      let final : Bool := (r.policy != .transmix || r.headReached || head) && !r.finalReached
        && (finalThreshold s.cfg r.policy).any (· ≤ f)
      let action (k : ActionKind) (target : Route) : Action := ⟨target, s.mtr.count + s.cfg.lead - s.cfg.antic, .density, r.first, k⟩
      exec (.densityCharacter value true) s = .next { sampled with
        choices := s.choices + 1
        csq := { s.csq with
          state := if final = true then .settling else if head = true then .mixing else s.csq.state
          queue := s.csq.queue ++ (if head = true then [action .head transmix] else [])
            ++ (if final = true then [action .final product] else [])
          record := some { r with
            headReached := r.headReached || head
            finalReached := r.finalReached || final
            routeB := if final = true then some product else r.routeB } } })

/-- FRAME_CHAR_TIMEOUT and SILENCE_TIMER_EXPIRY at a RELAY with an empty train (R63, R66, R67, R68): 10 ms in FRAME with no character make a reject;
the fourth reject, and 1.0 s without a sample, make a restart, which empties the window, takes the average and the good run away and ends health with
DENSITY_FAULT when the unit was HEALTHY. That the clock moves to the due time is the model's choice (log 2). -/
def Obligations.RejectsAndSilenceRestartTheWindow : Prop :=
  ∀ s : State, s.hasRole .relay = true → s.cfg.densitometer = true → s.trs.train = [] →
    let restarted (d : Dsu) : Dsu :=
      { d with window := [], fill := 0, goodRun := 0, average := none, departureRun := 0, healthy := false }
    let lost (t : State) : State := if s.dsu.healthy = true then raiseAlarm .densityFault 0 t else t
    (∀ (bytes : List Byte) (last : Nat), s.dsu.receiver = .frame bytes last →
      let clock := max s.clock ((last + 10) * 1000)
      (s.dsu.rejectRun < 3 → exec .frameCharTimeout s = .next { s with
        clock := clock
        dsu := { s.dsu with receiver := .hunt, goodRun := 0, rejectRun := s.dsu.rejectRun + 1 } })
      ∧ (s.dsu.rejectRun = 3 → exec .frameCharTimeout s = .next (lost { s with
        clock := clock
        dsu := { restarted s.dsu with receiver := .hunt, rejectRun := 0 } })))
    ∧ (∀ due : Nat, s.dsu.silenceTimer = some due →
      let clock := max s.clock (due * 1000)
      exec .silenceTimerExpiry s = .next (lost { s with
        clock := clock
        dsu := { restarted s.dsu with silenceTimer := some (clock / 1000 + 1000) } }))

/-! ### The trackline ports (chapter 6) -/

/-- The link of a port comes up (R99): DOWN becomes TRAINING on a signal; in TRAINING each IDLE counts, any other symbol sets the count to 0, and the
sixteenth IDLE makes the port UP, whether it comes as a symbol or as PORT_REACHES_UP; no ASK is due here. It goes down on LOSS_OF_SIGNAL (R99, R101):
from TRAINING alone, from UP with its class queues and the frame being sent lost and LINK_LOST raised naming the port, its noise state kept. Which
commands bring the sixteenth IDLE is the model's choice (log 6). -/
def Obligations.LinkComesUpAndGoesDown : Prop :=
  ∀ (s : State) (p : Port), s.running = true →
    let x := portGet s.tlc p
    let put (y : PortState) : Host.Outcome State Fault Refusal := .next { s with tlc := portSet s.tlc p y }
    (x.link = .down → exec (.portSignalDetected p) s = put { x with link := .training, trainingCount := 0 })
    ∧ (x.link = .training →
      (∀ b : Byte, exec (.trainingSymbolReceived p (.data b)) s = put { x with trainingCount := 0 })
      ∧ exec (.trainingSymbolReceived p .start) s = put { x with trainingCount := 0 }
      ∧ exec (.trainingSymbolReceived p .finish) s = put { x with trainingCount := 0 }
      ∧ exec (.trainingSymbolReceived p .invalid) s = put { x with trainingCount := 0 }
      ∧ (x.trainingCount < 15 →
        exec (.trainingSymbolReceived p .idle) s = put { x with trainingCount := x.trainingCount + 1 })
      ∧ (x.trainingCount = 15 → s.cfg.role ≠ some .origin → s.trs.askDue = false →
        exec (.trainingSymbolReceived p .idle) s = put { x with link := .up, trainingCount := 16 }
        ∧ exec (.portReachesUp p) s = put { x with link := .up, trainingCount := 16 })
      ∧ exec (.lossOfSignal p) s = put { x with link := .down })
    ∧ (x.link = .up → exec (.lossOfSignal p) s = .next (raiseAlarm .linkLost (portCode p) { s with
        tlc := portSet s.tlc p { x with link := .down, urgent := [], routine := [], bulk := [], sending := none } }))

/-- FRAME_RECEIVED with a good frame (R80, R105, R106): one with the own station number raises STATION_CONFLICT and goes nowhere; any other is copied,
its hops lowered by 1 and its reserved bits 0, to the other port when that is UP and the hops are above 1. Where that port is sending, the copy joins
the tail of its class queue, or raises FWD_DROP when that is full; where it is free, with its three queues empty, it begins to send the copy at once,
in a slot of 10 µs a symbol. Then the frame joins the receive queue, or raises RX_OVERRUN when that holds 16. Where both queues are full FWD_DROP
comes before RX_OVERRUN: forwarding comes before the receive queue, the model's choice (log 7). -/
def Obligations.GoodFrameIsForwardedAndQueued : Prop :=
  ∀ (s : State) (p : Port) (bytes : List Byte) (f : Frame) (k : Kind), s.running = true → (portGet s.tlc p).link = .up →
    goodFrame bytes = some f → f.kindOf = some k →
    let other := portGet s.tlc (otherPort p)
    let queued (t : State) : State :=
      if s.tlc.rxQueue.length < 16 then { t with tlc := { t.tlc with rxQueue := s.tlc.rxQueue ++ [⟨p, f⟩] } }
      else raiseAlarm .rxOverrun 0 t
    (f.station.toNat = s.cfg.station → exec (.frameReceived p bytes) s = .next (raiseAlarm .stationConflict 0 s))
    ∧ (f.station.toNat ≠ s.cfg.station → f.hops.toNat % 64 ≤ 1 ∨ other.link ≠ .up →
      exec (.frameReceived p bytes) s = .next (queued s))
    ∧ (f.station.toNat ≠ s.cfg.station → 1 < f.hops.toNat % 64 → other.link = .up → other.sending.isSome = true →
      ((other.queue k.queueClass).length < k.queueClass.capacity → exec (.frameReceived p bytes) s = .next (queued
        { s with
          tlc := portSet s.tlc (otherPort p) (other.enqueue k.queueClass { f with hops := BitVec.ofNat 8 (f.hops.toNat % 64 - 1) }) }))
      ∧ (k.queueClass.capacity ≤ (other.queue k.queueClass).length → exec (.frameReceived p bytes) s = .next (queued
        (raiseAlarm .fwdDrop (portCode (otherPort p)) s))))
    ∧ (f.station.toNat ≠ s.cfg.station → 1 < f.hops.toNat % 64 → other.link = .up → other.sending = none →
      other.urgent = [] → other.routine = [] → other.bulk = [] →
      exec (.frameReceived p bytes) s = .next (queued { s with
        tlc := portSet s.tlc (otherPort p) { other with
          sending := some ⟨{ f with hops := BitVec.ofNat 8 (f.hops.toNat % 64 - 1) }, s.clock + (f.payload.length + 24) * 10⟩ } }))

/-- A bad frame on an UP port, whether its bytes are no good frame or its reception was aborted (R102, R103, R104): its time joins the list of the
last 10 s, of which the 9 newest stay; the ninth makes a CLEAN port NOISY with LINE_NOISY. 10 s after the newest a NOISY port is CLEAN with an empty
list. That the clock moves to the due time is the model's choice (log 2). -/
def Obligations.BadFramesMakeAPortNoisy : Prop :=
  ∀ (s : State) (p : Port), s.running = true → (portGet s.tlc p).link = .up →
    let x := portGet s.tlc p
    let recent := x.badTimes.filter (fun t => s.now ≤ t + 10000) ++ [s.now]
    let times := recent.drop (recent.length - 9)
    let after : State := { s with tlc := portSet s.tlc p { x with badTimes := times } }
    let noisy : State := raiseAlarm .lineNoisy (portCode p)
      { s with tlc := portSet s.tlc p { x with badTimes := times, noisy := true } }
    (x.noisy = true ∨ recent.length < 9 → exec (.rxFrameAborted p) s = .next after
      ∧ ∀ bytes : List Byte, goodFrame bytes = none → exec (.frameReceived p bytes) s = .next after)
    ∧ (x.noisy = false → 9 ≤ recent.length → exec (.rxFrameAborted p) s = .next noisy
      ∧ ∀ bytes : List Byte, goodFrame bytes = none → exec (.frameReceived p bytes) s = .next noisy)
    ∧ (∀ t : Nat, x.noisy = true → x.badTimes.getLast? = some t → exec (.noiseCleanExpiry p) s = .next { s with
        clock := max s.clock ((t + 10000) * 1000)
        tlc := portSet s.tlc p { x with noisy := false, badTimes := [] } })

/-- An own telegram (R108 to R111): each UP port whose class queue has room takes a copy, with the own station number and hops 63; a sending port
queues it at the tail, and a free one, whose queues are empty, begins to send it. A port that is not UP takes none. The end of the slot in State is
the model's choice (log 31). -/
def Obligations.OwnTelegramReachesEveryUpPort : Prop :=
  ∀ (s : State) (k : Kind) (payload : List Byte), LineSafe s →
    (s.tlc.upPort.link = .up → (s.tlc.upPort.queue k.queueClass).length < k.queueClass.capacity) →
    (s.tlc.downPort.link = .up → (s.tlc.downPort.queue k.queueClass).length < k.queueClass.capacity) →
    let f : Frame := ⟨k.code <<< 4, BitVec.ofNat 8 s.cfg.station, 63, payload⟩
    let place (x : PortState) : PortState :=
      if x.link = .up then
        if x.sending = none then { x with sending := some ⟨f, s.clock + (payload.length + 24) * 10⟩ }
        else x.enqueue k.queueClass f
      else x
    sendOwn k payload s = { s with tlc := { s.tlc with upPort := place s.tlc.upPort, downPort := place s.tlc.downPort } }

/-- TX_PORT_FREE (R110, R111): the clock stands at the end of the slot, and the port sends the head of URGENT, else of ROUTINE, else of BULK, or is
free. The clock's move and the end of the slot in State are the model's choices (logs 2, 31). What the transmitters send (R98): nothing outside RUN;
in RUN IDLE while no frame is sent, in every link state; on a port that is UP, from the start of a slot, START, the frame's bytes in order and END,
each 10 µs long, and then IDLE. -/
def Obligations.FreePortSendsByClass : Prop :=
  (∀ (s : State) (p : Port) (x : Sending), s.running = true → (portGet s.tlc p).link = .up →
      (portGet s.tlc p).sending = some x →
      let y := portGet s.tlc p
      let clock := max s.clock x.busyUntil
      let put (z : PortState) : Host.Outcome State Fault Refusal := .next { s with clock := clock, tlc := portSet s.tlc p z }
      let sent (f : Frame) : Option Sending := some ⟨f, clock + (f.payload.length + 24) * 10⟩
      (∀ (f : Frame) (rest : List Frame), y.urgent = f :: rest →
        exec (.txPortFree p) s = put { y with urgent := rest, sending := sent f })
      ∧ (∀ (f : Frame) (rest : List Frame), y.urgent = [] → y.routine = f :: rest →
        exec (.txPortFree p) s = put { y with routine := rest, sending := sent f })
      ∧ (∀ (f : Frame) (rest : List Frame), y.urgent = [] → y.routine = [] → y.bulk = f :: rest →
        exec (.txPortFree p) s = put { y with bulk := rest, sending := sent f })
      ∧ (y.urgent = [] → y.routine = [] → y.bulk = [] → exec (.txPortFree p) s = put { y with sending := none }))
  ∧ (∀ (s : State) (p : Port),
    (s.running = false → transmitted s p = none)
    ∧ (s.running = true → (portGet s.tlc p).link ≠ .up ∨ (portGet s.tlc p).sending = none → transmitted s p = some .idle)
    ∧ (∀ (x : Sending) (start i : Nat), s.running = true → (portGet s.tlc p).link = .up → (portGet s.tlc p).sending = some x →
      x.busyUntil = start + (x.frame.payload.length + 24) * 10 → start + 10 * i ≤ s.clock → s.clock < start + 10 * i + 10 →
      (i = 0 → transmitted s p = some .start)
      ∧ (∀ b : Byte, 1 ≤ i → x.frame.bytes[i - 1]? = some b → transmitted s p = some (.data b))
      ∧ (i = x.frame.payload.length + 7 → transmitted s p = some .finish)
      ∧ (x.frame.payload.length + 8 ≤ i → transmitted s p = some .idle)))

/-- BEACON_TIMER_EXPIRY (R112 to R114): the next expiry falls one period later. With no port UP nothing is built; otherwise a beacon of the owners'
state is sent as an own telegram, its counter-restarted flag set while fewer than three were counted, and it is counted when a ROUTINE queue of an UP
port takes it. That the clock moves to the due time, and that an absent newest sequence is sent as 0, are the model's choices (logs 2, 45). -/
def Obligations.BeaconTimerSendsABeacon : Prop :=
  ∀ (s : State) (due : Nat), s.running = true → s.tlc.beaconTimer = some due →
    let expired : State := { s with
      clock := max s.clock (due * 1000)
      tlc := { s.tlc with beaconTimer := some (due + s.cfg.beaconPeriod * 100) } }
    let taken (x : PortState) : Prop := x.link = .up ∧ x.routine.length < 8
    (s.tlc.upPort.link ≠ .up → s.tlc.downPort.link ≠ .up → exec .beaconTimerExpiry s = .next expired)
    ∧ (∀ (role : Role), s.cfg.role = some role → s.tlc.upPort.link = .up ∨ s.tlc.downPort.link = .up →
      ∀ count : Nat,
        (count = if s.tlc.restartCount < 3 ∧ (taken s.tlc.upPort ∨ taken s.tlc.downPort) then s.tlc.restartCount + 1
          else s.tlc.restartCount) →
        exec .beaconTimerExpiry s = .next (sendOwn .beacon (beaconPayload {
          role := role.code
          mark := s.cfg.mark
          period := s.cfg.beaconPeriod
          synced := s.trs.sync == .synced
          densityHealthy := s.dsu.healthy
          restarted := decide (s.tlc.restartCount < 3)
          newestPresent := !s.trs.train.isEmpty
          count := if role = .delivery then s.mtr.deliveryCount else 0
          newest := ((s.trs.train.getLast?).map (·.seq)).getD 0
          entryCount := s.trs.train.length }) { expired with tlc := { expired.tlc with restartCount := count } }))

/-! ### Telegrams (R102, R103) -/

/-- A frame of at most 255 payload bytes, of a kind 1..6 and of the length its kind asks for, is read back from its own bytes (R102, R103): no bit of
it is lost and its CRC-16 is right. -/
def Obligations.FrameBytesReadBack : Prop :=
  ∀ (f : Frame) (k : Kind), f.kindOf = some k → f.payload.length ≤ 255 → payloadLength k f.payload = some f.payload.length →
    goodFrame f.bytes = some f

/-- The payload of a LAUNCH that passes R11's checks has the length its layout asks for and reads back as it was (R103). -/
def Obligations.LaunchPayloadReadsBack : Prop :=
  ∀ m : LaunchMsg, launchValid m = true →
    payloadLength .launch (launchPayload m) = some (launchPayload m).length ∧ readLaunch (launchPayload m) = m

/-- The payload of a BEACON reads back as it was, for every field within its width; that of an ITEM built from an entry within its ranges reads back
with the entry's fields and its clamped position (R23, R103); the ITEM with count 0 is left out. That an absent
launched volume is sent as 0 is the model's choice (log 45). -/
def Obligations.BeaconAndItemPayloadsReadBack : Prop :=
  (∀ b : BeaconMsg, b.role < 256 → b.mark < 2 ^ 32 → b.period < 256 → b.entryCount < 256 →
    payloadLength .beacon (beaconPayload b) = some (beaconPayload b).length ∧ readBeacon (beaconPayload b) = b)
  ∧ (∀ (addressee index count : Nat) (e : Entry) (position : Int), addressee < 256 → index < 256 → 1 ≤ count → count < 256 →
      e.product < 256 → e.density < 65536 → e.nominal < 2 ^ 32 → (∀ v, e.launched = some v → v < 2 ^ 32) → e.remaining < 2 ^ 32 →
      e.deliveries.length ≤ 6 → (∀ d ∈ e.deliveries, d.station < 256 ∧ d.volume < 2 ^ 32) →
      let p := itemPayload addressee index count e position
      payloadLength .item p = some p.length
      ∧ readItem p = ⟨addressee, index, count, some {
          seq := e.seq
          product := e.product
          density := e.density
          nominal := e.nominal
          launchedPresent := if e.launched = none then 0 else 1
          launchedField := e.launched.getD 0
          remaining := e.remaining
          deliveries := e.deliveries
          position := max (-2147483648) (min 2147483647 position) }⟩)

/-! ### Peers (chapter 5) -/

/-- BEACON_TAKEN from a station without an entry, at a chip that is not the ORIGIN (R79, R81, R82): with room and no port conflict an entry is created
in its place by station number, HEARD, with the count 1 for a synced beacon and the beacon's delivery count as baseline, and nothing else changes but
that the frame leaves the receive queue. A beacon that fails a check changes nothing else. -/
def Obligations.FirstBeaconCreatesAnEntry : Prop :=
  ∀ (s : State) (f : RxFrame) (rest : List RxFrame), s.nonOrigin = true → PeersSafe s →
    s.tlc.rxQueue = f :: rest → f.frame.kindOf = some .beacon →
    let station := f.frame.station.toNat
    let b := readBeacon f.frame.payload
    let valid : Prop := 1 ≤ b.role ∧ b.role ≤ 4 ∧ b.mark ≤ 2000000000 ∧ (b.role = 1 → b.mark = 0) ∧ 10 ≤ b.period ∧ b.period ≤ 100
      ∧ 1 ≤ station ∧ station ≤ 250
    (¬ valid → exec .beaconTaken s = .next { s with tlc := { s.tlc with rxQueue := rest } })
    ∧ (∀ role : Role, valid → b.role = role.code → (∀ p ∈ s.prt.peers, p.station ≠ station) → s.prt.peers.length < 24 →
      ¬ (b.mark < s.cfg.mark ∧ f.port = .down) → ¬ (s.cfg.mark < b.mark ∧ f.port = .up) →
      let entry : Peer := {
        station := station
        role := role
        mark := b.mark
        period := b.period
        synced := b.synced
        densityHealthy := b.densityHealthy
        restarted := b.restarted
        baseline := b.count
        newest := if b.newestPresent = true then some b.newest else none
        arrival := f.port
        standing := .heard
        lastBeacon := s.now
        goodCount := if b.synced = true then 1 else 0
        conflictHold := none }
      exec .beaconTaken s = .next { s with
        prt := { s.prt with peers := s.prt.peers.filter (fun p => p.station < station) ++ [entry]
          ++ s.prt.peers.filter (fun p => station < p.station) }
        tlc := { s.tlc with rxQueue := rest } })

/-- BEACON_TAKEN from a station with an entry. At a chip that is not the ORIGIN, without a conflict or a hold and with no new volume delivered, the
entry takes the beacon's fields and its standing and count move by the table of R84; every other entry, the train and every block but TRS, TLC and SPC
stay. At a RELAY further: a volume of 1 to 2,000,000 L delivered since the last beacon lowers the RLV and raises the S of each entry whose position is
below the peer's mark and lowers the remaining volume of the newest entry at or above it, here where no entry comes within its window (R45, R46, R93);
a greater one is a DELIVERY_JUMP and moves nothing; a changed mark, and a beacon from the wrong side, is a STATION_CONFLICT with a hold of 10 periods
(R87 to R89); and a GOOD peer upstream whose newest sequence is after the own newest shows a gap, which ends SYNCED
(R22); where a port is UP the ASK that R118 then sends is sent in the same step, which is the model's reading (log 4). New counts of a SILENT or restarted
peer, beacons under a hold, the ORIGIN, and deltas at DELIVERY and TERMINUS are left out. -/
def Obligations.BeaconIsAppliedToItsPeer : Prop :=
  (∀ (s : State) (f : RxFrame) (rest : List RxFrame) (p : Peer), s.nonOrigin = true → PeersSafe s →
      s.tlc.rxQueue = f :: rest → f.frame.kindOf = some .beacon → p ∈ s.prt.peers → p.station = f.frame.station.toNat →
      let b := readBeacon f.frame.payload
      b.role = p.role.code → b.mark = p.mark → b.mark ≤ 2000000000 → (b.role = 1 → b.mark = 0) → 10 ≤ b.period → b.period ≤ 100 →
      1 ≤ p.station → p.station ≤ 250 →
      ¬ (b.mark < s.cfg.mark ∧ f.port = .down) → ¬ (s.cfg.mark < b.mark ∧ f.port = .up) →
      p.conflictHold = none → b.count = p.baseline →
      ∃ t : State, exec .beaconTaken s = .next t
        ∧ (∃ (standing : Standing) (count : Nat),
          t.prt.peers = s.prt.peers.map (fun q => if q.station = p.station then { p with
            period := b.period, synced := b.synced, densityHealthy := b.densityHealthy, restarted := b.restarted,
            newest := (if b.newestPresent = true then some b.newest else none), arrival := f.port, lastBeacon := s.now,
            standing := standing, goodCount := count } else q)
          ∧ (p.standing = .silent → standing = .heard ∧ count = if b.synced = true then 1 else 0)
          ∧ (p.standing ≠ .silent → s.now ≤ p.lastBeacon + 2 * p.period * 100 → b.synced = true →
            (p.standing = .heard → (count = p.goodCount + 1 ∧ standing = if p.goodCount + 1 = 3 then .good else .heard))
            ∧ (p.standing = .good → standing = .good ∧ count = p.goodCount)
            ∧ (p.standing = .suspect → standing = .good ∧ count = p.goodCount))
          ∧ (p.standing ≠ .silent → b.synced = false →
            count = 0 ∧ standing = if p.standing = .heard then .heard else .suspect)
          ∧ (p.standing = .suspect → p.lastBeacon + 2 * p.period * 100 < s.now → standing = .suspect ∧ count = 0))
        ∧ t.trs.train = s.trs.train ∧ t.pending = s.pending ∧ t.clock = s.clock ∧ t.cfl = s.cfl ∧ t.mtr = s.mtr ∧ t.tke = s.tke
        ∧ t.dsu = s.dsu ∧ t.csq = s.csq ∧ t.dsq = s.dsq ∧ t.vld = s.vld ∧ t.lsc = s.lsc ∧ t.hlu = s.hlu ∧ t.tlc.rxQueue = rest)
  ∧ (∀ (s : State) (f : RxFrame) (rest : List RxFrame) (p : Peer) (role : Role),
    s.hasRole .relay = true → PeersSafe s → s.tlc.rxQueue = f :: rest → f.frame.kindOf = some .beacon →
    p ∈ s.prt.peers → p.station = f.frame.station.toNat →
    let b := readBeacon f.frame.payload
    b.role = role.code → b.mark ≤ 2000000000 → (b.role = 1 → b.mark = 0) → 10 ≤ b.period → b.period ≤ 100 →
    1 ≤ p.station → p.station ≤ 250 →
    let volume := (b.count - p.baseline).toNat
    let misplaced : Prop := (b.mark < s.cfg.mark ∧ f.port = .down) ∨ (s.cfg.mark < b.mark ∧ f.port = .up)
    let entry (t : State) : Option Peer := t.prt.peers.find? fun q => q.station == p.station
    (∀ (before after : List Entry) (c : Entry),
      b.mark = p.mark → ¬ misplaced → p.standing ≠ .silent → b.restarted = false → 1 ≤ volume → volume ≤ 2000000 →
      s.trs.sync ≠ .synced → (s.trs.train.map (·.seq)).Nodup → s.trs.train = before ++ c :: after →
      let place (e : Entry) : Int := (s.cfg.mark : Int) - e.rlv
      let advanced (e : Entry) : Entry := { e with
        rlv := max (-2147483648) (e.rlv - volume)
        sinceSnap := if e.track = .passed then e.sinceSnap else min 4294967295 (e.sinceSnap + volume) }
      let moved (e : Entry) : Entry := if place e < (p.mark : Int) then advanced e else e
      (p.mark : Int) ≤ place c → (∀ e ∈ after, place e < (p.mark : Int)) →
      (∀ e ∈ s.trs.train, e.track = .passed ∨ (e.track = .inbound ∧ ((halfWidth s (moved e).sinceSnap : Nat) : Int) < (moved e).rlv)) →
      ∃ t : State, exec .beaconTaken s = .next t
        ∧ t.trs = { s.trs with
          train := before.map moved ++ { moved c with remaining := c.remaining - volume } :: after.map moved }
        ∧ (entry t).map (·.baseline) = some b.count
        ∧ t.tlc = { s.tlc with rxQueue := rest } ∧ t.dsu = s.dsu ∧ t.mtr = s.mtr)
    ∧ (b.mark = p.mark → ¬ misplaced → p.standing ≠ .silent → b.restarted = false → 2000000 < volume → s.trs.sync ≠ .synced →
     s.spc.events.length < 64 →
     ∃ t : State, exec .beaconTaken s = .next t
       ∧ t.trs = s.trs ∧ (entry t).map (·.baseline) = some b.count
       ∧ t.spc.events.take (s.spc.events.length + 1)
         = s.spc.events ++ [⟨s.now, .deliveryJump p.station p.baseline b.count (b.count - p.baseline)⟩])
    ∧ (b.mark ≠ p.mark →
     ∃ t : State, exec .beaconTaken s = .next t
       ∧ t.trs = s.trs ∧ alarmLatched t .stationConflict = true
       ∧ t.prt.peers = s.prt.peers.map (fun q => if q.station = p.station then {
           station := p.station
           role := role
           mark := b.mark
           period := b.period
           synced := b.synced
           densityHealthy := b.densityHealthy
           restarted := b.restarted
           baseline := b.count
           newest := if b.newestPresent = true then some b.newest else none
           arrival := f.port
           standing := .suspect
           lastBeacon := s.now
           goodCount := 0
           conflictHold := some (s.now + 10 * b.period * 100) } else q))
    ∧ (misplaced → b.mark = p.mark → b.count = p.baseline →
     ∃ t : State, exec .beaconTaken s = .next t
       ∧ t.trs = s.trs ∧ alarmLatched t .stationConflict = true
       ∧ (entry t).map (fun q => (q.standing, q.goodCount, q.conflictHold))
         = some (.suspect, 0, some (s.now + 10 * b.period * 100)))
    ∧ (b.mark = p.mark → b.mark < s.cfg.mark → f.port = .up → p.standing = .good → s.now ≤ p.lastBeacon + 2 * p.period * 100 → b.synced = true →
     p.conflictHold = none → b.count = p.baseline → s.trs.sync = .synced →
     let shows : Prop := b.newestPresent = true ∧ s.trs.train.getLast?.all (fun e => seqAfter b.newest e.seq) = true
     (shows → ∃ t : State, exec .beaconTaken s = .next t
       ∧ alarmLatched t .trainGap = true ∧ t.trs.train = s.trs.train
       ∧ t.trs.sync = (if s.tlc.upPort.link = .up ∨ s.tlc.downPort.link = .up then .asking else .unsynced))
     ∧ (¬ shows → ∃ t : State, exec .beaconTaken s = .next t
       ∧ t.trs = s.trs ∧ alarmLatched t .trainGap = alarmLatched s .trainGap)))

/-- The three expiries of a peer entry and the end of its conflict hold, at a chip that is not the ORIGIN (R85, R89): each at its own time, with the
result of its row. The reference is then the choice of R90: the present reference while it has the greatest mark of the entries that are GOOD, density
healthy and upstream, else the lowest station of that mark, else none; a change queues exactly REFERENCE_CHANGED (R91), and nothing else changes. That
the clock moves to the due time is the model's choice (log 2). -/
def Obligations.PeerExpiriesMoveTheStanding : Prop :=
  ∀ (s : State) (p : Peer), s.nonOrigin = true → PeersSafe s → p ∈ s.prt.peers →
    let qualifies (x : Peer) : Prop := x.standing = .good ∧ x.densityHealthy = true ∧ x.mark < s.cfg.mark
    let best (l : List Peer) (x : Peer) : Prop := x ∈ l ∧ qualifies x ∧ ∀ y ∈ l, qualifies y → y.mark ≤ x.mark
    let chosen (l : List Peer) (n : Option Nat) : Prop :=
      ((∃ x, best l x ∧ s.prt.reference = some x.station) → n = s.prt.reference)
      ∧ ((¬ ∃ x, best l x ∧ s.prt.reference = some x.station) →
        (∀ x, best l x → (∀ y, best l y → x.station ≤ y.station) → n = some x.station) ∧ ((∀ x ∈ l, ¬ qualifies x) → n = none))
    let late (due : Nat) : State := { s with clock := max s.clock (due * 1000) }
    let becomes (c : Instr) (due : Nat) (l : List Peer) : Prop :=
      ∃ n : Option Nat, chosen l n ∧ exec c s = .next { (if n = s.prt.reference then late due
        else offerEvent (.referenceChanged s.prt.reference n) (late due)) with prt := ⟨l, n⟩ }
    let changed (q : Peer) : List Peer := s.prt.peers.map (fun x => if x.station = p.station then q else x)
    (p.standing = .heard ∨ p.standing = .good →
      becomes (.peerSuspectExpiry p.station) (p.lastBeacon + 2 * p.period * 100)
        (changed { p with standing := .suspect, goodCount := 0 }))
    ∧ (p.standing = .suspect → exec (.peerSuspectExpiry p.station) s = .next (late (p.lastBeacon + 2 * p.period * 100)))
    ∧ (p.standing ≠ .silent →
      becomes (.peerSilenceExpiry p.station) (p.lastBeacon + 5 * p.period * 100)
        (changed { p with standing := .silent, goodCount := 0 }))
    ∧ (p.standing = .silent →
      becomes (.peerFreeExpiry p.station) (p.lastBeacon + 5 * p.period * 100 + 60000)
        (s.prt.peers.filter (fun x => x.station ≠ p.station)))
    ∧ (∀ due : Nat, p.conflictHold = some due → exec (.conflictHoldExpiry p.station) s =
      .next { late due with prt := { s.prt with peers := changed { p with conflictHold := none } } })

/-! ### The train (chapters 1 and 3) -/

/-- LAUNCH_TAKEN (R11 to R13). A LAUNCH that fails a check, that is not after the newest sequence, or that reaches the ORIGIN changes nothing but the
receive queue. At a RELAY with room, one that is after the newest is appended as the newest entry: with the LAUNCH's fields, RLV the own mark and S 0,
INBOUND beyond the window, else in WINDOW or declared passed by the evaluation that the insertion brings; the entries before it keep their order. One
that is the next keeps the sync state and raises no TRAIN_GAP; one that is not latches TRAIN_GAP and ends SYNCED; into an empty train no gap is
judged. -/
def Obligations.LaunchIsAppended : Prop :=
  ∀ (s : State) (f : RxFrame) (rest : List RxFrame), s.running = true → s.tlc.rxQueue = f :: rest →
    f.frame.kindOf = some .launch →
    let m := readLaunch f.frame.payload
    let dropped : State := { s with tlc := { s.tlc with rxQueue := rest } }
    let entry : Entry := {
      seq := m.seq
      product := m.product
      density := m.density
      nominal := m.nominal
      launched := none
      remaining := m.nominal
      deliveries := m.deliveries
      rlv := s.cfg.mark
      sinceSnap := 0
      snapMark := none
      snappedByReference := false
      track := .inbound
      kind := none
      short := false
      untrackedFollows := false
      mismatch := false }
    let declared (k : PassageKind) : Entry := { entry with track := .passed, kind := some k }
    (s.hasRole .origin = true → exec .launchTaken s = .next dropped)
    ∧ (launchValid m = false → exec .launchTaken s = .next dropped)
    ∧ (∀ e : Entry, s.trs.train.getLast? = some e → seqAfter m.seq e.seq = false → exec .launchTaken s = .next dropped)
    ∧ (s.hasRole .relay = true → launchValid m = true → s.trs.train = [] → s.tke.halfMix + s.cfg.uncFloor < s.cfg.mark →
      exec .launchTaken s = .next { dropped with trs := { s.trs with train := [entry] } })
    ∧ (∀ e : Entry, s.hasRole .relay = true → launchValid m = true → s.trs.train.getLast? = some e → seqAfter m.seq e.seq = true →
      s.trs.train.length < 40 → (s.trs.train.map (·.seq)).Nodup → (∀ x ∈ s.trs.train, x.seq ≠ m.seq) →
      ∃ (t : State) (x : Entry), exec .launchTaken s = .next t
        ∧ (∃ kept : List Entry, t.trs.train = kept ++ [x] ∧ kept.map (·.seq) = s.trs.train.map (·.seq))
        ∧ (s.tke.halfMix + s.cfg.uncFloor < s.cfg.mark → x = entry)
        ∧ (x = entry ∨ x = { entry with track := .window } ∨ x = { declared .detected with rlv := 0 } ∨ x = declared .estimated
          ∨ x = declared .missed)
        ∧ t.tlc.rxQueue = rest ∧ t.pending = s.pending ∧ t.clock = s.clock ∧ t.cfl = s.cfl
        ∧ t.prt = s.prt ∧ t.csq = s.csq ∧ t.dsq = s.dsq ∧ t.vld = s.vld ∧ t.lsc = s.lsc ∧ t.hlu = s.hlu
        ∧ (m.seq = seqNext e.seq → alarmLatched t .trainGap = alarmLatched s .trainGap ∧ t.trs.sync = s.trs.sync)
        ∧ (m.seq ≠ seqNext e.seq → alarmLatched t .trainGap = true ∧ t.trs.sync ≠ .synced))

/-- LAUNCH_TAKEN with prior fields at a RELAY (R12, R13, R18): the entry with the prior sequence takes the prior launched volume when its own is
absent, with the remaining volume raised or lowered by the difference from the nominal, at least to 0; a launched volume that is present is kept; no
other entry's volumes change, and the appended entry holds its nominal volume. -/
def Obligations.LaunchSetsThePriorVolume : Prop :=
  ∀ (s : State) (f : RxFrame) (rest : List RxFrame) (e : Entry) (n : SeqNo) (v : Nat), s.hasRole .relay = true →
    s.tlc.rxQueue = f :: rest → f.frame.kindOf = some .launch → (s.trs.train.map (·.seq)).Nodup →
    let m := readLaunch f.frame.payload
    launchValid m = true → s.trs.train.getLast? = some e → seqAfter m.seq e.seq = true → s.trs.train.length < 40 → m.prior = some (n, v) →
    ∃ t : State, exec .launchTaken s = .next t
      ∧ t.trs.train.map (fun x => (x.seq, x.nominal, x.launched, x.remaining))
        = s.trs.train.map (fun x => if x.seq = n ∧ x.launched = none
            then (x.seq, x.nominal, some v, x.remaining + v - x.nominal)
            else (x.seq, x.nominal, x.launched, x.remaining))
          ++ [(m.seq, m.nominal, none, m.nominal)]

/-- PASSAGE_TAKEN at a RELAY (R20, R54, R55), here where no other entry stands in a window that the evaluation could close. A DETECTED one from a GOOD
peer upstream snaps the entry it names: RLV becomes own mark − its mark, S becomes 0, the snap mark and the reference mark are taken, and beyond the
window the entry is INBOUND; the entries around it stay. One from a peer downstream removes the PASSED entries before its sequence whose successor is
PASSED, and the entries not PASSED stay. Nothing else changes but the receive queue. -/
def Obligations.PassageSnapsOrRemoves : Prop :=
  ∀ (s : State) (f : RxFrame) (rest : List RxFrame) (p : Peer),
    s.hasRole .relay = true → PeersSafe s → s.tlc.rxQueue = f :: rest → f.frame.kindOf = some .passage →
    p ∈ s.prt.peers → p.station = f.frame.station.toNat →
    let n : SeqNo := BitVec.ofNat 16 (natAt f.frame.payload 0 2)
    let code := natAt f.frame.payload 2 1
    let beyond (e : Entry) : Prop := e.track = .inbound ∧ ((halfWidth s e.sinceSnap : Nat) : Int) < e.rlv
    (∀ (before after : List Entry) (e : Entry),
      code = 1 → s.trs.train = before ++ e :: after → (s.trs.train.map (·.seq)).Nodup →
      e.seq = n → e.track ≠ .passed → (∀ x ∈ before, x.track = .passed ∨ beyond x) → (∀ x ∈ after, beyond x) →
      p.standing = .good → p.mark < s.cfg.mark → e.snapMark.all (· < p.mark) = true →
      s.tke.halfMix + s.cfg.uncFloor < s.cfg.mark - p.mark →
      exec .passageTaken s = .next { s with
        trs := { s.trs with train := before ++ { e with
          rlv := (s.cfg.mark : Int) - p.mark
          sinceSnap := 0
          snapMark := some p.mark
          snappedByReference := (s.prt.reference == some p.station)
          track := .inbound } :: after }
        tlc := { s.tlc with rxQueue := rest } })
    ∧ (∀ (passed coming : List Entry),
      1 ≤ code → code ≤ 3 → s.cfg.mark < p.mark → s.trs.train = passed ++ coming → (∀ e ∈ passed, e.track = .passed) →
      (s.trs.train.map (·.seq)).Nodup →
      (∀ e ∈ coming, beyond e ∨ (e.track = .window ∧ 0 < e.rlv ∧ (s.cfg.densitometer = false ∨ s.dsu.healthy = false))) →
      exec .passageTaken s = .next { s with
        trs := { s.trs with train :=
          passed.dropLast.filter (fun e => !seqAfter n e.seq) ++ passed.getLast?.toList ++ coming }
        tlc := { s.tlc with rxQueue := rest } })

/-- HOLD_TAKEN at the ORIGIN with no order waiting (R192): a product 0..15 and a duration of 1..60 minutes from a station 1..250 create or refresh the
hold of that key, expiring then; a duration of 0 removes it; any other HOLD, and any at another role, changes nothing but the receive queue.
HOLD_ENTRY_EXPIRY removes the entry at its expiry time (R193). That the clock moves to the due time is the model's choice (log 2). -/
def Obligations.HoldsAreKeptUntilTheyExpire : Prop :=
  ∀ (s : State),
    (∀ (f : RxFrame) (rest : List RxFrame), s.running = true → s.tlc.rxQueue = f :: rest → f.frame.kindOf = some .hold →
      let station := f.frame.station.toNat
      let product := natAt f.frame.payload 0 1
      let minutes := natAt f.frame.payload 1 1
      let expiry := s.now + minutes * 60000
      let mine (h : Hold) : Bool := h.station == station && h.product == product
      let put (l : List Hold) : Host.Outcome State Fault Refusal :=
        .next { s with lsc := { s.lsc with holds := l }, tlc := { s.tlc with rxQueue := rest } }
      (s.hasRole .origin = false ∨ 15 < product ∨ 60 < minutes ∨ station = 0 ∨ 250 < station →
        exec .holdTaken s = put s.lsc.holds)
      ∧ (s.hasRole .origin = true → product ≤ 15 → 1 ≤ minutes → minutes ≤ 60 → 1 ≤ station → station ≤ 250 →
        (s.lsc.holds.any mine = true →
          exec .holdTaken s = put (s.lsc.holds.map fun h => if mine h = true then { h with expiry := expiry } else h))
        ∧ (s.lsc.holds.any mine = false → s.lsc.holds.length < 16 →
          exec .holdTaken s = put (s.lsc.holds ++ [⟨station, product, expiry⟩])))
      ∧ (s.hasRole .origin = true → s.lsc.orders = [] → product ≤ 15 → minutes = 0 → 1 ≤ station → station ≤ 250 →
        exec .holdTaken s = put (s.lsc.holds.filter fun h => !mine h)))
    ∧ (∀ h : Hold, s.hasRole .origin = true → s.lsc.orders = [] →
      s.lsc.holds.find? (fun x => x.station == h.station && x.product == h.product) = some h →
      exec (.holdEntryExpiry h.station h.product) s = .next { s with
        clock := max s.clock (h.expiry * 1000)
        lsc := { s.lsc with holds := s.lsc.holds.filter fun x => !(x.station == h.station && x.product == h.product) } })

/-! ### Joining the line (chapter 7) -/

/-- ASK_TAKEN (R120, R122): a SYNCED chip upstream of the requester, with no GOOD peer between them, makes the answer: of an empty train one ITEM with
count 0; otherwise, in train order, every entry whose position is below the requester's mark and the newest of the others, each with its index, the
count and its position. Otherwise, and where the ASK shows no gap, only the receive queue changes. At a SYNCED RELAY an ASK from downstream whose
newest sequence is after the own newest shows a gap: TRAIN_GAP is raised, the chip is UNSYNCED and an ASK is due (R121), here where a peer between
answers in its place and no port is UP. -/
def Obligations.AskIsAnswered : Prop :=
  (∀ (s : State) (f : RxFrame) (rest : List RxFrame), s.running = true → s.tlc.rxQueue = f :: rest → f.frame.kindOf = some .ask →
      natAt f.frame.payload 4 1 = 0 →
      let mark := natAt f.frame.payload 0 4
      let between (p : Peer) : Prop := p.standing = .good ∧ s.cfg.mark < p.mark ∧ p.mark < mark
      let dropped : State := { s with tlc := { s.tlc with rxQueue := rest } }
      (s.trs.sync ≠ .synced ∨ mark ≤ s.cfg.mark ∨ 2000000000 < mark ∨ (∃ p ∈ s.prt.peers, between p) →
        exec .askTaken s = .next dropped)
      ∧ (s.trs.sync = .synced → s.cfg.mark < mark → mark ≤ 2000000000 → (∀ p ∈ s.prt.peers, ¬ between p) →
        (s.trs.train = [] → exec .askTaken s = .next { dropped with trs := { s.trs with answer := [[f.frame.station, 1, 0]] } })
        ∧ (s.trs.train ≠ [] → (s.trs.train.map (·.seq)).Nodup →
          let place (e : Entry) : Int := (s.cfg.mark : Int) - e.rlv
          let beyond := (s.trs.train.filter fun e => (mark : Int) ≤ place e).getLast?
          let chosen := s.trs.train.filter fun e => place e < (mark : Int) || beyond == some e
          exec .askTaken s = .next { dropped with trs := { s.trs with
            answer := chosen.zipIdx.map fun x =>
              itemPayload f.frame.station.toNat (x.2 + 1) chosen.length x.1 (place x.1) } })))
  ∧ (∀ (s : State) (f : RxFrame) (rest : List RxFrame),
    s.hasRole .relay = true → s.tlc.rxQueue = f :: rest → f.frame.kindOf = some .ask →
    let mark := natAt f.frame.payload 0 4
    let newest : SeqNo := BitVec.ofNat 16 (natAt f.frame.payload 5 2)
    natAt f.frame.payload 4 1 = 1 → s.trs.sync = .synced → s.cfg.mark < mark → mark ≤ 2000000000 →
    (∃ p ∈ s.prt.peers, p.standing = .good ∧ s.cfg.mark < p.mark ∧ p.mark < mark) →
    s.tlc.upPort.link ≠ .up → s.tlc.downPort.link ≠ .up →
    let dropped : State := { s with tlc := { s.tlc with rxQueue := rest } }
    let shows : Prop := s.trs.train.getLast?.all (fun e => seqAfter newest e.seq) = true
    (shows → exec .askTaken s = .next (raiseAlarm .trainGap 0 { dropped with trs := { s.trs with sync := .unsynced, askDue := true } }))
    ∧ (¬ shows → exec .askTaken s = .next dropped))

/-- ITEM_TAKEN at a RELAY in ASKING with no answer adopted (R16, R124, R125): an ITEM for another station, or none with index 1, changes nothing but
the receive queue; an empty answer makes the chip SYNCED with TRAIN_SYNCED; the first of several items, into an empty train, adopts its sender and
count and inserts its batch, PASSED and ESTIMATED at or below RLV 0 and INBOUND beyond the window, and restarts the 5 s of the attempt. -/
def Obligations.ItemsFillTheTrain : Prop :=
  ∀ (s : State) (f : RxFrame) (rest : List RxFrame), s.hasRole .relay = true → s.tlc.rxQueue = f :: rest →
    f.frame.kindOf = some .item → s.trs.sync = .asking → s.trs.adopted = none →
    let m := readItem f.frame.payload
    let dropped : State := { s with tlc := { s.tlc with rxQueue := rest } }
    (m.addressee ≠ s.cfg.station ∨ m.index ≠ 1 → exec .itemTaken s = .next dropped)
    ∧ (m.addressee = s.cfg.station → m.index = 1 → m.count = 0 →
      exec .itemTaken s = .next (offerEvent .trainSynced { dropped with trs := { s.trs with
        sync := .synced, adopted := none, held := [], transferTimer := none, attempts := 0 } }))
    ∧ (∀ b : ItemBody, m.addressee = s.cfg.station → m.index = 1 → 2 ≤ m.count → itemValid m = true → m.body = some b →
      s.trs.train = [] → s.trs.held = [] →
      let rlv : Int := max (-2147483648) (min 2000000000 ((s.cfg.mark : Int) - b.position))
      rlv ≤ 0 ∨ ((s.tke.halfMix + s.cfg.uncFloor : Nat) : Int) < rlv →
      exec .itemTaken s = .next { dropped with
        dsu := { s.dsu with departureRun := if rlv ≤ 0 then 0 else s.dsu.departureRun }
        trs := { s.trs with
          adopted := some (f.frame.station.toNat, m.count)
          held := [1]
          transferTimer := some (s.now + 5000)
          train := [{
            seq := b.seq
            product := b.product
            density := b.density
            nominal := b.nominal
            launched := if b.launchedPresent = 1 then some b.launchedField else none
            remaining := b.remaining
            deliveries := b.deliveries
            rlv := rlv
            sinceSnap := 0
            snapMark := none
            snappedByReference := false
            track := if rlv ≤ 0 then .passed else .inbound
            kind := if rlv ≤ 0 then some .estimated else none
            short := false
            untrackedFollows := false
            mismatch := false }] } })

/-- The attempts of a transfer at a chip that is not the ORIGIN (R118, R119): ASK_SEND sends an ASK when one is due in UNSYNCED with a port UP; the
timer of the first or second failed attempt sends the next, that of the third gives up to UNSYNCED with TRAIN_UNSYNCED and a re-ask after 30 s, and
the re-ask timer makes an ASK due, sent at once when a port is UP. The clock's move, that an ASK is sent inside the step that makes it due, and
that an absent newest sequence is sent as 0 are the model's choices (logs 2, 4, 45). -/
def Obligations.AsksAreTriedThreeTimes : Prop :=
  ∀ s : State, s.nonOrigin = true →
    let up : Prop := s.tlc.upPort.link = .up ∨ s.tlc.downPort.link = .up
    let newest := (s.trs.train.getLast?).map (·.seq)
    let asking (attempt : Nat) (t : State) : State :=
      sendOwn .ask (natBytes 4 s.cfg.mark ++ (match newest with
          | some n => 1 :: natBytes 2 n.toNat
          | none => [0, 0, 0]))
        { t with trs := { t.trs with
          sync := .asking, attempts := attempt, adopted := none, held := [], transferTimer := some (t.now + 5000),
          reAskTimer := none, askDue := false } }
    (s.trs.askDue = true → s.trs.sync = .unsynced → up → exec .askSend s = .next (asking 1 s))
    ∧ (s.trs.askDue = false ∨ s.trs.sync ≠ .unsynced ∨ ¬ up → exec .askSend s = .next s)
    ∧ (∀ due : Nat, s.trs.transferTimer = some due →
      let late : State := { s with clock := max s.clock (due * 1000) }
      (s.trs.attempts < 3 → exec .transferTimerExpiry s = .next (asking (s.trs.attempts + 1) late))
      ∧ (s.trs.attempts = 3 → exec .transferTimerExpiry s = .next (offerEvent .trainUnsynced { late with trs := { s.trs with
        sync := .unsynced, attempts := 0, adopted := none, held := [], transferTimer := none,
        reAskTimer := some (late.now + 30000) } })))
    ∧ (∀ due : Nat, s.trs.reAskTimer = some due →
      let late : State := { s with
        clock := max s.clock (due * 1000), trs := { s.trs with reAskTimer := none, askDue := true } }
      (s.trs.sync = .unsynced → up → exec .reAskTimerExpiry s = .next (asking 1 late))
      ∧ (s.trs.sync ≠ .unsynced ∨ ¬ up → exec .reAskTimerExpiry s = .next late))

/-- ANSWER_ITEM_HANDED (R123): the next item of the answer is sent as an own telegram unless an UP port's BULK queue is full, when it waits.
LEARN_TIMER_EXPIRY at the ORIGIN with no order waiting (R129): SYNCED with TRAIN_SYNCED, and the next sequence is the one after the newest learned, or
1. That the clock moves to the due time is the model's choice (log 2). -/
def Obligations.AnswersAreHandedAndLearningEnds : Prop :=
  ∀ s : State,
    (∀ (p : List Byte) (rest : List (List Byte)), s.running = true → s.trs.answer = p :: rest →
      let full (x : PortState) : Prop := x.link = .up ∧ 24 ≤ x.bulk.length
      (¬ full s.tlc.upPort → ¬ full s.tlc.downPort →
        exec .answerItemHanded s = .next (sendOwn .item p { s with trs := { s.trs with answer := rest } }))
      ∧ (full s.tlc.upPort ∨ full s.tlc.downPort → exec .answerItemHanded s = .next s))
    ∧ (∀ due : Nat, s.hasRole .origin = true → s.lsc.orders = [] → s.trs.learnTimer = some due →
      exec .learnTimerExpiry s = .next (offerEvent .trainSynced { s with
        clock := max s.clock (due * 1000)
        trs := { s.trs with sync := .synced, learnTimer := none }
        lsc := { s.lsc with nextSeq := some (match s.trs.learned with
          | some n => n + 1
          | none => 1) } }))

/-! ### Holds a terminal generates (chapter 11) -/

/-- SET_STATUS (R194 to R196): refused with NOT_ROLE where no hold is generated; at a DELIVERY station or a TERMINUS the eight headrooms are kept, at
most 65,535, the status is not stale, the stale timer runs three beacon periods, the response tells whether a value was cut, and the routes are judged
in order. STALE_TIMER_EXPIRY makes the status stale with STATUS_STALE. HOLD_REFRESH_EXPIRY of an active hold sends it again and starts its timer
again. The clock's move and the response's layout are the model's choices (logs 2, 15). -/
def Obligations.StatusAndHoldsOfATerminal : Prop :=
  ∀ (s : State), s.running = true →
    (∀ headrooms : PerRoute (BitVec 32),
      (s.cfg.role = some .origin ∨ s.cfg.role = some .relay →
        exec (.setStatus headrooms) s = .next (respond .refused [1] s))
      ∧ (s.cfg.role = some .delivery ∨ s.cfg.role = some .terminus →
        exec (.setStatus headrooms) s = .next (respond .ok
          (if allRoutes.any (fun r => 65535 < (routeGet headrooms r).toNat) = true then [1] else [0])
          (allRoutes.foldl judgeHold { s with hlu := { s.hlu with
            headrooms := routeMap (fun v => some (min 65535 v.toNat)) headrooms
            stale := false
            staleTimer := some (s.now + 3 * s.cfg.beaconPeriod * 100) } }))))
    ∧ (∀ due : Nat, s.cfg.role = some .delivery ∨ s.cfg.role = some .terminus → s.hlu.staleTimer = some due →
      exec .staleTimerExpiry s = .next (raiseAlarm .statusStale 0 { s with
        clock := max s.clock (due * 1000), hlu := { s.hlu with stale := true, staleTimer := none } }))
    ∧ (∀ (p due : Nat), s.cfg.role = some .delivery ∨ s.cfg.role = some .terminus → s.hlu.slots[p]? = some ⟨true, some due⟩ →
      let late : State := { s with clock := max s.clock (due * 1000) }
      let sent := sendOwn .hold (natBytes 1 p ++ natBytes 1 s.cfg.holdMin) late
      exec (.holdRefreshExpiry p) s = .next { sent with hlu := { s.hlu with
        slots := s.hlu.slots.set p ⟨true, some (late.now + max 1 (s.cfg.holdMin / 2) * 60000)⟩ } })

/-- One route judged against its watermark (R194, R195): below it an inactive hold of the route's product becomes active, with a HOLD of HOLD_MIN
minutes and its refresh timer; at or above it by HOLD_HYST an active hold becomes inactive, with a HOLD of 0 minutes; between the two nothing changes.
The hold product of a TRANSMIX route is 0 at a TERMINUS; a route without a hold product or a reported headroom changes nothing. -/
def Obligations.WatermarkRaisesAndClearsAHold : Prop :=
  ∀ (s : State) (r : Route),
    s.hlu.slots.length = 16 →
    let product : Option Nat := match routeGet s.cfg.routes r with
      | .unused => none
      | .product p => some p
      | .transmix => if s.hasRole .terminus = true then some 0 else none
    let mark := routeGet s.cfg.watermarks r
    (product = none ∨ routeGet s.hlu.headrooms r = none → judgeHold s r = s)
    ∧ (∀ (p room due : Nat),
      product = some p → p ≤ 15 → routeGet s.hlu.headrooms r = some room →
      let told (minutes : Nat) (slot : HoldSlot) : State :=
        let sent := sendOwn .hold (natBytes 1 p ++ natBytes 1 minutes) s
        { sent with hlu := { s.hlu with slots := s.hlu.slots.set p slot } }
      (s.hlu.slots[p]? = some ⟨false, none⟩ →
        (room < mark → judgeHold s r = told s.cfg.holdMin ⟨true, some (s.now + max 1 (s.cfg.holdMin / 2) * 60000)⟩)
        ∧ (mark ≤ room → judgeHold s r = s))
      ∧ (s.hlu.slots[p]? = some ⟨true, some due⟩ →
        (mark + s.cfg.holdHyst ≤ room → judgeHold s r = told 0 ⟨false, none⟩)
        ∧ (room < mark + s.cfg.holdHyst → judgeHold s r = s)))

/-! ### Valves (chapter 10) -/

/-- LIMIT_CHANGE and TRAVEL_TIMER_EXPIRY on a route that no switch and no delivery drives (R171, R173, R174). Outside RUN only the limit changes. In
RUN a command in travel is confirmed when its limit alone is shown, faults when both are shown or its time is up, and otherwise goes on; a route at
rest that leaves its latched position raises VALVE_FAULT and keeps its latch. A fault releases the lines, sets the fault mark and raises VALVE_FAULT
naming the route. The clock's move and the fault at once when both limits are shown are the model's choices (logs 2, 17), and so is that a route
already away from its position raises nothing more (log 56). -/
def Obligations.LimitsConfirmOrFaultARoute : Prop :=
  ∀ (s : State) (r : Route) (limit : Limit) (shown : Bool),
    let old := routeState s r
    let x : RouteState := match limit with
      | .opened => { old with openLimit := shown }
      | .closed => { old with closeLimit := shown }
    let put (y : RouteState) : State := { s with vld := { s.vld with routes := routeSet s.vld.routes r y } }
    let faulted (y : RouteState) : RouteState :=
      { y with travel := none, latch := .none, faultMark := true, startupClose := false }
    let alone (y : RouteState) : Prop :=
      (y.latch = .opened ∧ y.openLimit = true ∧ y.closeLimit = false) ∨ (y.latch = .closed ∧ y.closeLimit = true ∧ y.openLimit = false)
    (s.running = false → exec (.limitChange r limit shown) s = .next (put x))
    ∧ (s.running = true → s.hasRole .delivery = false → s.vld.inFlight = none →
      (old.latch = .none → old.travel = none → exec (.limitChange r limit shown) s = .next (put x))
      ∧ (old.latch ≠ .none → old.travel ≠ none →
        (alone x → exec (.limitChange r limit shown) s = .next (put { x with travel := none, startupClose := false }))
        ∧ (x.openLimit = true → x.closeLimit = true → exec (.limitChange r limit shown) s =
          .next (raiseAlarm .valveFault (routeNumber r) (put (faulted x))))
        ∧ (¬ alone x → ¬ (x.openLimit = true ∧ x.closeLimit = true) →
          exec (.limitChange r limit shown) s = .next (put x)))
      ∧ (old.latch ≠ .none → old.travel = none →
        (alone old → ¬ alone x → exec (.limitChange r limit shown) s =
          .next (raiseAlarm .valveFault (routeNumber r) (put x)))
        ∧ (¬ alone old ∨ alone x → exec (.limitChange r limit shown) s = .next (put x)))
      ∧ (∀ due : Nat, old.travel = some due → exec (.travelTimerExpiry r) s =
        .next (raiseAlarm .valveFault (routeNumber r)
          { s with clock := max s.clock (due * 1000), vld := { s.vld with routes := routeSet s.vld.routes r (faulted old) } })))

/-- A switch makes before it breaks (R173, R176): once the OPEN of the target is confirmed by its limit the target is current, and only then is the
old route commanded closed, here at the ORIGIN, its limits not yet showing it closed. When that close ends the switch ends, and with it the changeover
(R14, R190): the running batch's entry takes its launched volume, the head order's entry joins the train, PASSED and DETECTED at RLV 0, its LAUNCH is
sent with the prior sequence and volume, the head order leaves the queue and runs from the target with a launched count of 0, the next sequence
advances, and LAUNCHED is queued, after the events of sending the LAUNCH, the model's choice (log 53). A close that faults, both limits showing,
raises VALVE_FAULT and leaves both open: LAUNCHED says so and the fault mark is set at the ORIGIN (R190), and the open record takes VALVE_FAULT, the
cut going on, at a TERMINUS (R144). A target whose travel timer expires in MAKE abandons the switch on its old route, or on none (R177, R178): LSC
leaves SWITCHING with its fault mark set and the order kept (R191); CSQ's route in use returns to the old one unless a later switch has moved the
stream, and the record takes VALVE_FAULT: with the action of kind HEAD its stage returns to LEAD unless the final has executed, with that of kind
FINAL it closes and the state is HELD (R144). What an abandoned FINAL or HEAD of a merged record does, the emptied queue and the OVERWRITE flag of
CUT_CLOSED are the model's (logs 34, 46, 48, 50). -/
def Obligations.SwitchMakesBreaksAndLaunches : Prop :=
  (∀ (s : State) (q : SwitchRequest) (o : Route) (due : Nat), s.hasRole .origin = true → q.target ≠ o →
      s.vld.inFlight = some ⟨q, some o, .making, [], false⟩ →
      (routeState s q.target).latch = .opened → (routeState s q.target).travel = some due →
      (routeState s q.target).closeLimit = false → (routeState s q.target).startupClose = false →
      (routeState s o).closeLimit = false →
      exec (.limitChange q.target .opened true) s = .next { s with vld := { s.vld with
        current := some q.target
        inFlight := some ⟨q, some o, .breaking, [o], false⟩
        routes := routeSet (routeSet s.vld.routes q.target { routeState s q.target with openLimit := true, travel := none }) o
          { routeState s o with
            latch := .closed, faultMark := false, startupClose := false,
            travel := some (s.now + s.cfg.travelTimeout * 1000) } } })
  ∧ (∀ (s : State) (q : SwitchRequest) (o : Route) (n : SeqNo) (order : Order) (rest : List Order),
    s.hasRole .origin = true → s.vld.inFlight = some ⟨q, some o, .breaking, [o], false⟩ → s.vld.waiting = [] →
    let x := routeState s o
    x.latch = .closed → x.travel.isSome = true → x.startupClose = false →
    s.lsc.orders = order :: rest → s.lsc.nextSeq = some n → s.trs.train.length < 40 → DensitySafe s → 1 ≤ order.nominal →
    let prior : Option (SeqNo × Nat) := s.lsc.running.seq.map fun m => (m, s.lsc.running.launched)
    let closed : List Entry := match s.lsc.running.seq with
      | some m => changeEntry m (fun e => if e.launched = none then { e with
          launched := some s.lsc.running.launched
          remaining := e.remaining + s.lsc.running.launched - e.nominal } else e) s.trs.train
      | none => s.trs.train
    let ended : State :=
      if x.openLimit = true then raiseAlarm .valveFault (routeNumber o) { s with vld := { s.vld with
        inFlight := none
        routes := routeSet s.vld.routes o { x with closeLimit := true, travel := none, latch := .none, faultMark := true } } }
      else { s with vld := { s.vld with
        inFlight := none
        routes := routeSet s.vld.routes o { x with closeLimit := true, travel := none } } }
    let entered : State := { ended with
      trs := { s.trs with train := closed ++ [{
        seq := n
        product := order.product
        density := order.density
        nominal := order.nominal
        launched := none
        remaining := order.nominal
        deliveries := order.deliveries
        rlv := 0
        sinceSnap := 0
        snapMark := none
        snappedByReference := false
        track := .passed
        kind := some .detected
        short := false
        untrackedFollows := false
        mismatch := false }] } }
    let told : State := sendOwn .launch
      (launchPayload ⟨n, order.product, order.density, order.nominal, order.deliveries, prior⟩) entered
    exec (.limitChange o .closed true) s = .next (offerEvent (.launched n order.product prior s.mtr.count
        (if x.openLimit = true then .bothOpen else .completed))
      { told with lsc := { s.lsc with
        orders := rest
        nextSeq := some (n + 1)
        switching := false
        faultMark := s.lsc.faultMark || x.openLimit
        running := ⟨some n, some order.product, order.nominal, order.deliveries, some q.target, 0⟩ } }))
  ∧ (∀ (s : State) (q : SwitchRequest) (old : Option Route) (due : Nat), s.running = true →
    s.vld.inFlight = some ⟨q, old, .making, [], false⟩ → s.vld.waiting = [] →
    (routeState s q.target).travel = some due → (routeState s q.target).startupClose = false →
    let left : State := raiseAlarm .valveFault (routeNumber q.target) { s.advanceTo due with vld := { s.vld with
      inFlight := none
      routes := routeSet s.vld.routes q.target { routeState s q.target with travel := none, latch := .none, faultMark := true } } }
    let route : Option Route := if s.csq.routeInUse = some q.target then old else s.csq.routeInUse
    (s.hasRole .origin = true → exec (.travelTimerExpiry q.target) s = .next { left with
      lsc := { s.lsc with switching := false, faultMark := true } })
    ∧ (∀ r : OpenCut, s.hasRole .terminus = true → s.csq.record = some r → q.tag.record = some r.number → q.tag.fromUnknown = false →
      (q.tag.kind = .head → exec (.travelTimerExpiry q.target) s = .next { left with csq := { s.csq with
        routeInUse := route
        record := some { r with
          flags := { r.flags with valveFault := true }
          stage := if r.finalExecuted = true then r.stage else .lead } } })
      ∧ (q.tag.kind = .final → (∀ e ∈ s.trs.train, seqAfter r.cutEntry e.seq = false) →
        let log : CutRecord := {
          first := r.first
          last := r.last
          productA := r.productA
          productB := r.productB
          policy := r.policy
          method := r.method
          start := r.start
          finish := s.mtr.count
          routeA := r.routeA
          routeB := r.routeB
          volumeA := r.volumeA
          volumeX := r.volumeX
          volumeB := r.volumeB
          rlvAtDetection := r.rlvAtDetection
          trim := s.mtr.trim
          check := r.check
          flags := { r.flags with valveFault := true } }
        exec (.travelTimerExpiry q.target) s = .next (offerEvent
          (.cutClosed r.first r.last { r.flags with
            valveFault := true, overwrite := r.flags.overwrite || decide (16 ≤ s.spc.cutLog.length) })
          (appendToLog (.cut log) { left with csq := { s.csq with
            state := .held, routeInUse := route, record := none, queue := [], settleRemaining := 0 } })))))
  ∧ (∀ (s : State) (q : SwitchRequest) (o : Route) (r : OpenCut), s.hasRole .terminus = true →
    s.vld.inFlight = some ⟨q, some o, .breaking, [o], false⟩ → s.vld.waiting = [] →
    let x := routeState s o
    x.latch = .closed → x.travel.isSome = true → x.openLimit = true → x.startupClose = false →
    s.csq.record = some r → q.tag.record = some r.number →
    exec (.limitChange o .closed true) s = .next (raiseAlarm .valveFault (routeNumber o) { s with
      csq := { s.csq with record := some { r with flags := { r.flags with valveFault := true } } }
      vld := { s.vld with
        inFlight := none
        routes := routeSet s.vld.routes o { x with closeLimit := true, travel := none, latch := .none, faultMark := true } } }))

/-! ### The station port (chapter 12) -/

/-- Requests that are refused change nothing in any block (R198, R199): SPI_BAD_REQUEST is answered BAD_CRC, or BAD_FIELD for a code or length that
12.2 does not give; outside RUN every command but READ_STATUS is answered NOT_STATE; and the commands of another role are answered NOT_ROLE. An
aborted request has no response, and no more has one that stays incomplete. That a new transaction ends the marks of the last is the model's choice
(log 27). The bytes of a good request, payload most significant byte first, have the effect of the command they spell (R198, 12.2), the model's
reading of such bytes in SPI_BAD_REQUEST (log 28). -/
def Obligations.RequestsAreRefusedOrTaken : Prop :=
  ∀ s : State,
    let refused (why : Byte) : Host.Outcome State Fault Refusal := .next { s with spc := { s.spc with
      response := [2, 0, 1, why, crc8 [2, 0, 1, why]], readingEvent := false, readingRecord := false } }
    (exec .spiRequestAborted s = .next { s with spc := { s.spc with
      response := [], readingEvent := false, readingRecord := false } })
    ∧ (∀ (body : List Byte) (crc : Byte), 3 ≤ body.length → body.length = natAt body 1 2 + 3 →
      (crc ≠ crc8 body → exec (.spiBadRequest (body ++ [crc])) s = refused 4)
      ∧ (crc = crc8 body → requestLength (body.getD 0 0).toNat ≠ some (natAt body 1 2) →
        exec (.spiBadRequest (body ++ [crc])) s = refused 3))
    ∧ (s.running = false → ∀ c ∈ [Instr.readEvent, .readCut, .forceAdvance, .forceTransmix, .closeDelivery, .resync], exec c s = refused 5)
    ∧ (s.running = false → ∀ index : Byte, exec (.readTrain index) s = refused 5 ∧ exec (.readPeer index) s = refused 5
      ∧ exec (.cancelOrder index) s = refused 5 ∧ exec (.releaseTo index) s = refused 5)
    ∧ (s.running = false → (∀ bits : BitVec 32, exec (.ackAlarms bits) s = refused 5)
      ∧ (∀ headrooms : PerRoute (BitVec 32), exec (.setStatus headrooms) s = refused 5)
      ∧ ∀ (product count : Byte) (density : BitVec 16) (nominal : BitVec 32) (places : List OrderPlace),
        exec (.enterOrder product density nominal count places) s = refused 5)
    ∧ (s.running = true → s.cfg.role ≠ some .terminus → exec .forceTransmix s = refused 1
      ∧ ∀ route : Byte, exec (.releaseTo route) s = refused 1)
    ∧ (s.running = true → s.cfg.role ≠ some .origin → (∀ index : Byte, exec (.cancelOrder index) s = refused 1)
      ∧ ∀ (product count : Byte) (density : BitVec 16) (nominal : BitVec 32) (places : List OrderPlace),
        exec (.enterOrder product density nominal count places) s = refused 1)
    ∧ (s.running = true → s.cfg.role ≠ some .delivery → exec .closeDelivery s = refused 1)
    ∧ (s.hasRole .origin = true → exec .resync s = refused 1)
    ∧ (∀ bytes : List Byte, bytes.length < 4 ∨ bytes.length < natAt bytes 1 2 + 4 →
      exec (.spiBadRequest bytes) s = exec .spiRequestAborted s)
    ∧ (let request (code : Byte) (payload : List Byte) : Instr :=
        .spiBadRequest ((code :: natBytes 2 payload.length ++ payload) ++ [crc8 (code :: natBytes 2 payload.length ++ payload)])
      (∀ x ∈ [((1 : Byte), Instr.readStatus), (2, .readEvent), (3, .readCut), (10, .forceAdvance), (11, .forceTransmix), (13, .closeDelivery),
        (14, .resync)], exec (request x.1 []) s = exec x.2 s)
      ∧ (∀ index : Byte, exec (request 4 [index]) s = exec (.readTrain index) s ∧ exec (request 5 [index]) s = exec (.readPeer index) s
        ∧ exec (request 9 [index]) s = exec (.cancelOrder index) s ∧ exec (request 12 [index]) s = exec (.releaseTo index) s)
      ∧ (∀ bits : BitVec 32, exec (request 6 (natBytes 4 bits.toNat)) s = exec (.ackAlarms bits) s)
      ∧ (∀ headrooms : PerRoute (BitVec 32), exec (request 7 (allRoutes.flatMap fun r => natBytes 4 (routeGet headrooms r).toNat)) s
        = exec (.setStatus headrooms) s)
      ∧ (∀ (product count : Byte) (density : BitVec 16) (nominal : BitVec 32) (places : List OrderPlace), places.length = 6 →
        exec (request 8 ([product] ++ natBytes 2 density.toNat ++ natBytes 4 nominal.toNat ++ [count]
          ++ places.flatMap fun x => x.station :: natBytes 4 x.volume.toNat)) s
        = exec (.enterOrder product density nominal count places) s))

/-- READ_STATUS, READ_TRAIN and READ_PEER change nothing but the response, whose layout is R198's: READ_STATUS is OK in every load state; the others
are OK with the entry at an index 1..n and EMPTY at 0 and beyond n (R23, R96, R201). The layout of the payloads where R201 leaves it open is the
model's choice (log 15). -/
def Obligations.ReadsChangeOnlyTheResponse : Prop :=
  ∀ s : State,
    let answered (status : Byte) (payload : List Byte) : Host.Outcome State Fault Refusal := .next { s with spc := { s.spc with
      response := (status :: (natBytes 2 payload.length ++ payload)) ++ [crc8 (status :: (natBytes 2 payload.length ++ payload))]
      readingEvent := false
      readingRecord := false } }
    exec .readStatus s = answered 0 (statusPayload s)
    ∧ (s.running = true → ∀ index : Byte,
      (∀ e : Entry, index ≠ 0 → s.trs.train[index.toNat - 1]? = some e → exec (.readTrain index) s = answered 0
        (natBytes 1 s.trs.train.length ++ natBytes 1 s.trs.sync.code ++ entryBytes e ((s.cfg.mark : Int) - e.rlv)))
      ∧ (index = 0 ∨ s.trs.train.length < index.toNat → exec (.readTrain index) s = answered 1 [])
      ∧ (∀ p : Peer, index ≠ 0 → s.prt.peers[index.toNat - 1]? = some p → exec (.readPeer index) s = answered 0
        (natBytes 1 s.prt.peers.length ++ peerBytes s p))
      ∧ (index = 0 ∨ s.prt.peers.length < index.toNat → exec (.readPeer index) s = answered 1 []))

/-- READ_EVENT and READ_CUT answer EMPTY, or OK with the oldest item, which stays until its response is clocked out (R201): the retirement removes it,
and an owed lost notice then takes the event's place with the lost count (R203). A retirement without such a read changes nothing. The marks of the
item being read and the event's layout are the model's choices (logs 15, 27), and that the owed notice is queued inside the retirement is the model's
reading (log 4). -/
def Obligations.ReadItemsLeaveWhenClockedOut : Prop :=
  ∀ s : State,
    let answered (status : Byte) (payload : List Byte) (event record : Bool) : Host.Outcome State Fault Refusal :=
      .next { s with spc := { s.spc with
        response := (status :: (natBytes 2 payload.length ++ payload)) ++ [crc8 (status :: (natBytes 2 payload.length ++ payload))]
        readingEvent := event
        readingRecord := record } }
    (s.running = true → s.spc.events = [] → exec .readEvent s = answered 1 [] false false)
    ∧ (∀ (e : QueuedEvent) (rest : List QueuedEvent), s.running = true → s.spc.events = e :: rest →
      exec .readEvent s = answered 0 (natBytes 1 e.event.code ++ natBytes 4 e.time ++ e.event.fields) true false)
    ∧ (s.running = true → s.spc.cutLog = [] → exec .readCut s = answered 1 [] false false)
    ∧ (∀ (r : LogRecord) (rest : List LogRecord), s.running = true → s.spc.cutLog = r :: rest →
      exec .readCut s = answered 0 r.bytes false true)
    ∧ (∀ (e : QueuedEvent) (rest : List QueuedEvent), s.spc.readingEvent = true → s.spc.events = e :: rest → rest.length < 64 →
      (s.spc.lostOwed = false → exec .readEventRetire s = .next { s with spc := { s.spc with
        events := rest, readingEvent := false } })
      ∧ (s.spc.lostOwed = true → exec .readEventRetire s = .next { s with spc := { s.spc with
        events := rest ++ [⟨s.now, .alarm 21 0 (some s.spc.lostCount)⟩], readingEvent := false, lostOwed := false } }))
    ∧ (s.spc.readingEvent = false → exec .readEventRetire s = .next s)
    ∧ (∀ (r : LogRecord) (rest : List LogRecord), s.spc.readingRecord = true → s.spc.cutLog = r :: rest →
      exec .readCutRetire s = .next { s with spc := { s.spc with cutLog := rest, readingRecord := false } })
    ∧ (s.spc.readingRecord = false → exec .readCutRetire s = .next s)

/-- Events, alarms and the lost notice (R203, R205): an event joins the tail below 64 with its time, and is lost at 64 with the lost count raised,
EVENTS_LOST latched and a notice owed; an alarm is latched with its ALARM event; LOST_NOTICE_QUEUED queues the owed notice as soon as there is room;
ACK_ALARMS with a bit 22..31 is refused with BAD_FIELD, and otherwise clears exactly the named latches, and the lost count with EVENTS_LOST. INT is
asserted in RUN exactly while the event count is at the watermark or above or a latched alarm is not masked, throughout CONFIG_FAULT, and not in
LOADING (R206). LINK is asserted exactly in RUN (R100). The fields of the ALARM event are the model's choice (log 15). -/
def Obligations.EventsAndAlarmsAreKept : Prop :=
  ∀ (s : State) (e : Event),
    (s.spc.events.length < 64 →
      offerEvent e s = { s with spc := { s.spc with events := s.spc.events ++ [⟨s.now, e⟩] } })
    ∧ (64 ≤ s.spc.events.length → offerEvent e s = { s with spc := { s.spc with
      lostCount := min 65535 (s.spc.lostCount + 1), alarms := s.spc.alarms ||| (1#32 <<< 21), lostOwed := true } })
    ∧ (∀ (a : Alarm) (detail : Nat), s.spc.events.length < 64 → raiseAlarm a detail s = { s with spc := { s.spc with
      alarms := s.spc.alarms ||| (1#32 <<< a.bit), events := s.spc.events ++ [⟨s.now, .alarm a.bit detail none⟩] } })
    ∧ (s.spc.lostOwed = true → s.spc.events.length < 64 → exec .lostNoticeQueued s = .next { s with spc := { s.spc with
      events := s.spc.events ++ [⟨s.now, .alarm 21 0 (some s.spc.lostCount)⟩], lostOwed := false } })
    ∧ (s.spc.lostOwed = false ∨ 64 ≤ s.spc.events.length → exec .lostNoticeQueued s = .next s)
    ∧ (∀ bits : BitVec 32, s.running = true →
      ((∃ n, 22 ≤ n ∧ bits.getLsbD n = true) → exec (.ackAlarms bits) s = .next (respond .refused [3] s))
      ∧ ((∀ n, 22 ≤ n → bits.getLsbD n = false) → ∃ t : State, exec (.ackAlarms bits) s = .next t
        ∧ (∀ n, t.spc.alarms.getLsbD n = (s.spc.alarms.getLsbD n && !bits.getLsbD n))
        ∧ t = respond .ok [] { s with spc := { s.spc with
          alarms := t.spc.alarms, lostCount := if bits.getLsbD 21 = true then 0 else s.spc.lostCount } }))
    ∧ (linkAsserted s = true ↔ s.cfl.load = .run)
    ∧ (s.cfl.load = .loading → intAsserted s = false)
    ∧ (s.cfl.load = .configFault → intAsserted s = true)
    ∧ (s.cfl.load = .run → (intAsserted s = true ↔ s.cfg.eventWatermark ≤ s.spc.events.length
      ∨ ∃ n < 32, s.spc.alarms.getLsbD n = true ∧ s.cfg.alarmMask.getLsbD n = false))

/-! ### Orders and overrides (chapters 8, 9 and 11) -/

/-- ENTER_ORDER and CANCEL_ORDER at the ORIGIN (R184, R185). An order that passes every check joins the tail, its nominal volume raised to 100,000 L,
and the response tells the adjustment and its index; where orders wait already no changeover is judged. With 8 waiting it is refused with QUEUE_FULL,
and with a product without a route with BAD_FIELD. A cancelled order other than the head leaves the queue; an index of 0 or beyond the queue is
refused with BAD_FIELD, and the head during SWITCHING with NOT_STATE. The only order, entered when the running batch has reached its nominal volume,
is judged at once (R187 to R189), here with the order's route closed and VLD free: with no hold against it the changeover starts, SWITCHING with the
OPEN of the route commanded; a hold of its product, or of product 0, at a station it delivers to or at a TERMINUS blocks it, so that it waits, unless
extending the running batch would send more of a held product to its holder, when it starts with HOLD_CONFLICT. The order of the two response bytes is
the model's choice (log 15). -/
def Obligations.OrdersJoinLeaveAndStart : Prop :=
  (∀ s : State, s.hasRole .origin = true →
      (∀ (product count : Byte) (density : BitVec 16) (nominal : BitVec 32) (places : List OrderPlace), places.length = 6 →
        let deliveries := (places.take count.toNat).map fun x => (⟨x.station.toNat, x.volume.toNat⟩ : DeliveryRec)
        let order : Order := ⟨product.toNat, density.toNat, max 100000 nominal.toNat, deliveries⟩
        let routed : Prop := ∃ r : Route, routeGet s.cfg.routes r = .product product.toNat
        (8 ≤ s.lsc.orders.length →
          exec (.enterOrder product density nominal count places) s = .next (respond .refused [2] s))
        ∧ (s.lsc.orders.length < 8 → ¬ routed →
          exec (.enterOrder product density nominal count places) s = .next (respond .refused [3] s))
        ∧ (1 ≤ s.lsc.orders.length → s.lsc.orders.length < 8 → routed → 1 ≤ product.toNat → product.toNat ≤ 15 →
          5000 ≤ density.toNat → density.toNat ≤ 11000 → nominal.toNat ≤ 2000000000 → count.toNat ≤ 6 →
          (∀ d ∈ deliveries, 1 ≤ d.station ∧ d.station ≤ 250 ∧ d.station ≠ s.cfg.station ∧ 1 ≤ d.volume ∧ d.volume ≤ 2000000000) →
          (deliveries.map (·.station)).Nodup →
          exec (.enterOrder product density nominal count places) s = .next (respond .ok
            [if nominal.toNat < 100000 then 1 else 0, BitVec.ofNat 8 (s.lsc.orders.length + 1)]
            { s with lsc := { s.lsc with orders := s.lsc.orders ++ [order] } })))
      ∧ (∀ index : Byte,
        (index = 0 ∨ s.lsc.orders.length < index.toNat → exec (.cancelOrder index) s = .next (respond .refused [3] s))
        ∧ (index = 1 → 1 ≤ s.lsc.orders.length → s.lsc.switching = true →
          exec (.cancelOrder index) s = .next (respond .refused [5] s))
        ∧ (2 ≤ index.toNat → index.toNat ≤ s.lsc.orders.length → exec (.cancelOrder index) s = .next (respond .ok []
          { s with lsc := { s.lsc with orders := s.lsc.orders.eraseIdx (index.toNat - 1) } }))))
  ∧ (∀ (s : State) (product count : Byte) (density : BitVec 16) (nominal : BitVec 32) (places : List OrderPlace) (r : Route),
    s.hasRole .origin = true → places.length = 6 → s.lsc.orders = [] →
    let deliveries := (places.take count.toNat).map fun x => (⟨x.station.toNat, x.volume.toNat⟩ : DeliveryRec)
    let order : Order := ⟨product.toNat, density.toNat, max 100000 nominal.toNat, deliveries⟩
    productRoute s.cfg product.toNat = some r → 1 ≤ product.toNat → product.toNat ≤ 15 →
    5000 ≤ density.toNat → density.toNat ≤ 11000 → nominal.toNat ≤ 2000000000 → count.toNat ≤ 6 →
    (∀ d ∈ deliveries, 1 ≤ d.station ∧ d.station ≤ 250 ∧ d.station ≠ s.cfg.station ∧ 1 ≤ d.volume ∧ d.volume ≤ 2000000000) →
    (deliveries.map (·.station)).Nodup →
    s.lsc.running.nominal ≤ s.lsc.running.launched → s.trs.sync ≠ .seqLearn → s.lsc.switching = false → s.lsc.faultMark = false →
    s.vld.startRead = true → s.vld.inFlight = none → s.vld.current ≠ some r → (routeState s r).openLimit = false →
    let terminus (n : Nat) : Prop := ∃ p ∈ s.prt.peers, p.station = n ∧ p.role = .terminus
    let concerns (l : List DeliveryRec) (h : Hold) : Prop := (∃ d ∈ l, d.station = h.station) ∨ terminus h.station
    let blocks (h : Hold) : Prop := (h.product = order.product ∨ h.product = 0) ∧ concerns deliveries h
    let extending (h : Hold) : Prop := s.lsc.running.product = some h.product ∧ concerns s.lsc.running.deliveries h
    let answered (t : State) : Host.Outcome State Fault Refusal :=
      .next (respond .ok [if nominal.toNat < 100000 then 1 else 0, 1] t)
    let queued (switching : Bool) : State := { s with lsc := { s.lsc with orders := [order], switching := switching } }
    let started : State := { queued true with vld := { s.vld with
      inFlight := some ⟨⟨r, ⟨.none, none, false⟩⟩, s.vld.current, .making, [], false⟩
      routes := routeSet s.vld.routes r { routeState s r with
        latch := .opened, faultMark := false, startupClose := false,
        travel := some (s.now + s.cfg.travelTimeout * 1000) } } }
    (s.prt.peers.map (·.station)).Nodup →
    ((∀ h ∈ s.lsc.holds, ¬ blocks h) →
     exec (.enterOrder product density nominal count places) s = answered started)
    ∧ ((∃ h ∈ s.lsc.holds, blocks h) → (∀ h ∈ s.lsc.holds, ¬ extending h) →
     exec (.enterOrder product density nominal count places) s = answered (queued false))
    ∧ ((∃ h ∈ s.lsc.holds, blocks h) → (∃ h ∈ s.lsc.holds, extending h) →
     exec (.enterOrder product density nominal count places) s = answered (raiseAlarm .holdConflict 0 started)))

/-- FORCE_ADVANCE (R153, R191). At the ORIGIN it is refused with NOT_STATE unless SYNCED, not SWITCHING, with an order waiting; a block that is
applied lets it clear the fault mark and no more. At a TERMINUS it is refused with NOT_STATE without an open record; with one whose final action has
not executed it sets FORCED and executes the head of the queue at once: to the route already in use without a switch, to another by the OPEN of that
route (R143, R176), here with VLD free and the route closed. With an empty queue the first unreached threshold is reached and executed at once with
source FORCED: the head to transmix, the final to the product route of B. At any other role it is refused with NOT_ROLE. -/
def Obligations.ForceAdvanceActsAtOnce : Prop :=
  (∀ s : State, s.running = true →
      (s.cfg.role = some .relay ∨ s.cfg.role = some .delivery → exec .forceAdvance s = .next (respond .refused [1] s))
      ∧ (s.cfg.role = some .origin →
        (s.trs.sync ≠ .synced ∨ s.lsc.switching = true ∨ s.lsc.orders = [] → exec .forceAdvance s = .next (respond .refused [5] s))
        ∧ (∀ (o : Order) (rest : List Order), s.trs.sync = .synced → s.lsc.switching = false → s.lsc.orders = o :: rest →
          blockApplied s o = true →
          exec .forceAdvance s = .next (respond .ok [] { s with lsc := { s.lsc with faultMark := false } })))
      ∧ (s.cfg.role = some .terminus →
        (s.csq.record = none → exec .forceAdvance s = .next (respond .refused [5] s))
        ∧ (∀ (r : OpenCut) (a : Action) (rest : List Action), s.csq.record = some r → r.policy ≠ .none → r.finalExecuted = false →
          s.csq.queue = a :: rest → s.csq.routeInUse = some a.target →
          let forced : OpenCut := { r with flags := { r.flags with forced := true } }
          exec .forceAdvance s = .next (respond .ok [] { s with csq := { s.csq with
            queue := rest
            lastSource := some a.source
            settleRemaining := if a.kind = .final then s.cfg.settle else s.csq.settleRemaining
            record := some (match a.kind with
              | .head => { forced with stage := .middle }
              | .final => { forced with stage := .trail, finalExecuted := true }
              | .none => forced) } }))))
  ∧ (∀ (s : State) (r : OpenCut),
    s.hasRole .terminus = true → s.csq.record = some r → r.policy ≠ .none → r.finalExecuted = false →
    s.vld.startRead = true → s.vld.inFlight = none →
    let free (t : Route) : Prop :=
      s.csq.routeInUse ≠ some t ∧ s.vld.current ≠ some t ∧ (routeState s t).openLimit = false
    let forced : OpenCut := { r with flags := { r.flags with forced := true } }
    let ran (k : ActionKind) (x : OpenCut) : OpenCut := match k with
      | .head => { x with stage := .middle }
      | .final => { x with stage := .trail, finalExecuted := true }
      | .none => x
    let making (t : Route) (k : ActionKind) : Vld := { s.vld with
      inFlight := some ⟨⟨t, ⟨k, some r.number, false⟩⟩, s.vld.current, .making, [], false⟩
      routes := routeSet s.vld.routes t { routeState s t with
        latch := .opened, faultMark := false, startupClose := false,
        travel := some (s.now + s.cfg.travelTimeout * 1000) } }
    (∀ (a : Action) (rest : List Action),
      s.csq.queue = a :: rest → free a.target →
      exec .forceAdvance s = .next (respond .ok [] { s with
        vld := making a.target a.kind
        csq := { s.csq with
          routeInUse := some a.target
          lastSource := some a.source
          queue := rest
          settleRemaining := if a.kind = .final then s.cfg.settle else s.csq.settleRemaining
          record := some (ran a.kind forced) } }))
    ∧ (∀ (t : Route),
      s.csq.queue = [] → r.policy = .transmix → r.headReached = false → transmixRoute s.cfg = some t → free t →
      exec .forceAdvance s = .next (respond .ok [] { s with
        vld := making t .head
        csq := { s.csq with
          state := .mixing
          routeInUse := some t
          lastSource := some .forced
          record := some { forced with headReached := true, stage := .middle } } }))
    ∧ (∀ (t : Route),
      s.csq.queue = [] → r.policy ≠ .transmix ∨ r.headReached = true → r.finalReached = false →
      productRoute s.cfg r.productB = some t → free t →
      exec .forceAdvance s = .next (respond .ok [] { s with
        vld := making t .final
        csq := { s.csq with
          state := .settling
          routeInUse := some t
          lastSource := some .forced
          settleRemaining := s.cfg.settle
          record := some { forced with finalReached := true, routeB := some t, stage := .trail, finalExecuted := true } } })))

/-- FORCE_TRANSMIX and RELEASE_TO at a TERMINUS (R154, R155), to the route already in use: FORCE_TRANSMIX makes the state HELD with the last source
FORCED; an open record closes with FORCED, goes to the cut log and is reported (R146), here with no PASSED entry to remove; in UNKNOWN it is refused
with NOT_STATE; RELEASE_TO from HELD makes the state STEADY with the batch at the station cut through, and is refused with NOT_STATE in any other
state but UNKNOWN, and with BAD_FIELD for no route or an UNUSED one. The OVERWRITE flag of CUT_CLOSED is a reading (log 50). -/
def Obligations.OverridesHoldAndRelease : Prop :=
  ∀ s : State, s.hasRole .terminus = true → CutSafe s →
    (s.csq.state = .unknown → exec .forceTransmix s = .next (respond .refused [5] s))
    ∧ (∀ t : Route, s.csq.state = .steady ∨ s.csq.state = .held → transmixRoute s.cfg = some t → s.csq.routeInUse = some t →
      exec .forceTransmix s = .next (respond .ok [] { s with csq := { s.csq with state := .held, lastSource := some .forced } }))
    ∧ (∀ (r : OpenCut) (t : Route),
      s.csq.record = some r →
      transmixRoute s.cfg = some t → s.csq.routeInUse = some t → (∀ e ∈ s.trs.train, e.track ≠ .passed) →
      let flags : CutFlags := { r.flags with forced := true }
      let logged : CutFlags := { flags with overwrite := flags.overwrite || decide (16 ≤ s.spc.cutLog.length) }
      exec .forceTransmix s = .next (respond .ok [] (offerEvent (.cutClosed r.first r.last logged) (appendToLog
        (.cut {
          first := r.first
          last := r.last
          productA := r.productA
          productB := r.productB
          policy := r.policy
          method := r.method
          start := r.start
          finish := s.mtr.count
          routeA := r.routeA
          routeB := r.routeB
          volumeA := r.volumeA
          volumeX := r.volumeX
          volumeB := r.volumeB
          rlvAtDetection := r.rlvAtDetection
          trim := s.mtr.trim
          check := r.check
          flags := flags })
        { s with csq := { s.csq with
          state := .held, record := none, queue := [], settleRemaining := 0, lastSource := some .forced } }))))
    ∧ (∀ route : Byte,
      (s.csq.state ≠ .held → s.csq.state ≠ .unknown → exec (.releaseTo route) s = .next (respond .refused [5] s))
      ∧ (s.csq.state = .held → (∀ r : Route, routeNumber r = route.toNat → routeGet s.cfg.routes r = .unused) →
        exec (.releaseTo route) s = .next (respond .refused [3] s))
      ∧ (∀ r : Route, s.csq.state = .held → routeNumber r = route.toNat → routeGet s.cfg.routes r ≠ .unused →
        s.csq.routeInUse = some r → (∀ e ∈ s.trs.train, e.track ≠ .window) →
        exec (.releaseTo route) s = .next (respond .ok [] { s with csq := { s.csq with
          state := .steady
          lastSource := some .forced
          cutThrough := ((s.trs.train.filter fun e => e.track == .passed).getLast?).map (·.seq) } })))

/-- Deliveries open and close. CLOSE_DELIVERY at a DELIVERY station (R164, R167, R173): refused with NOT_STATE without a delivery in OPENING or
DELIVERING; in DELIVERING it sets COMMANDED, fixes the delivered volume at the close request, makes the state CLOSING and commands the route closed;
in OPENING the close is pending. After a litre (R160 to R162) the one PASSED entry with an order for the station is the candidate; within H +
DELIVERY_GUARD past the station it is due, and opens: OPENING, its product's route commanded open, DELIVERY_OPENED; without a route it is skipped. The
confirmed open makes the state DELIVERING, the confirmed close ends the delivery: IDLE, its record in the cut log, DELIVERY_CLOSED (R165, R166). The
counter of free orders is the model's own (log 7); the OVERWRITE flag of DELIVERY_CLOSED is a reading (log 50). -/
def Obligations.DeliveriesOpenAndClose : Prop :=
  (∀ s : State, s.hasRole .delivery = true →
      (s.dsq.active = none ∨ s.dsq.state = .closing → exec .closeDelivery s = .next (respond .refused [5] s))
      ∧ (∀ a : ActiveDelivery, s.dsq.active = some a → a.atCloseRequest = none → a.closePending = false →
        let flagged : ActiveDelivery :=
          { a with atCloseRequest := some a.delivered, flags := { a.flags with commanded := true } }
        (s.dsq.state = .opening → exec .closeDelivery s = .next (respond .ok [] { s with dsq := { s.dsq with
          active := some { flagged with closePending := true } } }))
        ∧ (s.dsq.state = .delivering → (routeState s a.route).closeLimit = false →
          exec .closeDelivery s = .next (respond .ok [] { s with
            dsq := { s.dsq with active := some flagged, state := .closing }
            vld := { s.vld with routes := routeSet s.vld.routes a.route { routeState s a.route with
              latch := .closed, faultMark := false, startupClose := false,
              travel := some (s.now + s.cfg.travelTimeout * 1000) } } }))))
  ∧ (∀ (s : State) (e : Entry) (ordered : Nat) (r : Route),
    let fine := s.mtr.fine + ((s.cfg.pulseWeight : Int) * (1000000 + s.mtr.trim)).toNat
    s.hasRole .delivery = true → s.mtr.count ≤ 281474976710589 → fine / 1000000000 = 1 →
    s.trs.train = [e] → e.track = .passed → ⟨s.cfg.station, ordered⟩ ∈ e.deliveries → (e.deliveries.map (·.station)).Nodup →
    s.dsq.state = .idle → s.dsq.active = none → s.dsq.note = none → s.dsq.candidate = none →
    s.dsq.deliveredThrough.all (fun n => seqAfter e.seq n) = true →
    let x : Entry := { e with rlv := max (-2147483648) (e.rlv - 1) }
    let near : Int := (halfWidth s e.sinceSnap + s.cfg.deliveryGuard : Nat)
    let counted : State := { s with
      choices := s.choices + 1
      mtr := { s.mtr with fine := fine % 1000000000, count := s.mtr.count + 1 }
      trs := { s.trs with train := [x] } }
    (0 < x.rlv + near →
     exec .mainlinePulse s = .next { counted with dsq := { s.dsq with candidate := some ⟨e.seq, e.product, ordered⟩ } })
    ∧ (x.rlv ≤ -near → productRoute s.cfg e.product = some r → (routeState s r).openLimit = false →
     exec .mainlinePulse s = .next (offerEvent (.deliveryOpened e.seq e.product r ordered) { counted with
       dsq := { s.dsq with
         state := .opening
         deliveredThrough := some e.seq
         active := some {
           seq := e.seq
           product := e.product
           route := r
           ordered := ordered
           delivered := 0
           start := s.mtr.count + 1
           countAtOpening := s.mtr.deliveryCount
           atCloseRequest := none
           flags := .clear
           closePending := false } }
       vld := { s.vld with routes := routeSet s.vld.routes r { routeState s r with
         latch := .opened, faultMark := false, startupClose := false,
         travel := some (s.now + s.cfg.travelTimeout * 1000) } } }))
    ∧ (x.rlv ≤ -near → productRoute s.cfg e.product = none →
     exec .mainlinePulse s = .next (offerEvent (.deliverySkipped e.seq e.product ordered .noRoute)
       { counted with dsq := { s.dsq with deliveredThrough := some e.seq } })))
  ∧ (∀ (s : State) (a : ActiveDelivery),
    s.hasRole .delivery = true → s.vld.inFlight = none → s.dsq.active = some a →
    let x := routeState s a.route
    x.travel.isSome = true → x.startupClose = false →
    let put (y : RouteState) : State := { s with vld := { s.vld with routes := routeSet s.vld.routes a.route y } }
    (s.dsq.state = .opening → x.latch = .opened → x.closeLimit = false → a.closePending = false → a.delivered < a.ordered →
     exec (.limitChange a.route .opened true) s = .next { put { x with openLimit := true, travel := none } with
       dsq := { s.dsq with state := .delivering } })
    ∧ (s.dsq.state = .closing → x.latch = .closed → x.openLimit = false → s.trs.train = [] → s.dsq.candidate = none →
     let flags : DeliveryFlags := { a.flags with overwrite := a.flags.overwrite || decide (16 ≤ s.spc.cutLog.length) }
     exec (.limitChange a.route .closed true) s = .next (offerEvent (.deliveryClosed a.seq a.delivered flags) (appendToLog
       (.delivery {
         seq := a.seq
         product := a.product
         route := a.route
         ordered := a.ordered
         delivered := a.delivered
         atCloseRequest := a.atCloseRequest.getD a.delivered
         start := a.start
         finish := s.mtr.count
         countAtOpening := a.countAtOpening
         countAtEnd := s.mtr.deliveryCount
         flags := a.flags })
       { put { x with closeLimit := true, travel := none } with dsq := { s.dsq with state := .idle, active := none } }))))

/-- RESYNC at a RELAY with no port UP (R24, R202): the event is queued, the train is emptied, the transfer is abandoned and an ASK is due; the
departure run becomes 0; every other block stays. With a port UP the ASK is sent at once. At a TERMINUS with no port UP the open record closes with
ABANDONED, is logged and reported, the cut-through sequence is absent, and the state is STEADY unless UNKNOWN (R157); at a DELIVERY station the note
and the candidate are cleared, and a delivery in DELIVERING is closed with ABANDONED (R169), here with its route's limit not yet showing it. The
OVERWRITE flag of CUT_CLOSED is a reading (log 50). That the ASK is sent inside the same step, with 0 for its absent newest
sequence, is the model's choice (logs 4, 45). -/
def Obligations.ResyncEmptiesTheTrain : Prop :=
  (∀ s : State, s.hasRole .relay = true →
      let emptied : State := { offerEvent .resync s with
        dsu := { s.dsu with departureRun := 0 }
        trs := { s.trs with
          train := [], sync := .unsynced, attempts := 0, adopted := none, held := [], transferTimer := none,
          reAskTimer := none, askDue := true, answer := [] } }
      (s.tlc.upPort.link ≠ .up → s.tlc.downPort.link ≠ .up → exec .resync s = .next (respond .ok [] emptied))
      ∧ (s.tlc.upPort.link = .up ∨ s.tlc.downPort.link = .up → exec .resync s = .next (respond .ok []
        (sendOwn .ask (natBytes 4 s.cfg.mark ++ [0, 0, 0]) { emptied with trs := { emptied.trs with
          sync := .asking, attempts := 1, transferTimer := some (s.now + 5000), askDue := false } }))))
  ∧ (∀ (s : State),
    s.tlc.upPort.link ≠ .up → s.tlc.downPort.link ≠ .up →
    let emptied (t : State) : State := { t with
      dsu := { s.dsu with departureRun := 0 }
      trs := { s.trs with
        train := [], sync := .unsynced, attempts := 0, adopted := none, held := [], transferTimer := none,
        reAskTimer := none, askDue := true, answer := [] } }
    let steady : Csq := { s.csq with
      state := if s.csq.state = .unknown then .unknown else .steady
      cutThrough := none
      record := none
      queue := []
      settleRemaining := 0 }
    (s.hasRole .terminus = true → CutSafe s → s.csq.record = none →
     exec .resync s = .next (respond .ok [] (emptied { offerEvent .resync s with csq := steady })))
    ∧ (∀ (r : OpenCut),
      s.hasRole .terminus = true → CutSafe s → s.csq.record = some r →
      let flags : CutFlags := { r.flags with abandoned := true }
      let logged : CutFlags := { flags with overwrite := flags.overwrite || decide (16 ≤ s.spc.cutLog.length) }
      exec .resync s = .next (respond .ok [] (emptied { offerEvent (.cutClosed r.first r.last logged) (appendToLog (.cut {
          first := r.first
          last := r.last
          productA := r.productA
          productB := r.productB
          policy := r.policy
          method := r.method
          start := r.start
          finish := s.mtr.count
          routeA := r.routeA
          routeB := r.routeB
          volumeA := r.volumeA
          volumeX := r.volumeX
          volumeB := r.volumeB
          rlvAtDetection := r.rlvAtDetection
          trim := s.mtr.trim
          check := r.check
          flags := flags }) (offerEvent .resync s)) with csq := steady })))
    ∧ (s.hasRole .delivery = true → s.dsq.active = none →
     exec .resync s = .next (respond .ok [] (emptied { offerEvent .resync s with
       dsq := { s.dsq with note := none, candidate := none } })))
    ∧ (∀ (a : ActiveDelivery),
      s.hasRole .delivery = true → s.dsq.active = some a → s.dsq.state = .delivering → a.atCloseRequest = none →
      (routeState s a.route).closeLimit = false →
      exec .resync s = .next (respond .ok [] (emptied { offerEvent .resync s with
        dsq := { s.dsq with
          note := none
          candidate := none
          state := .closing
          active := some { a with atCloseRequest := some a.delivered, flags := { a.flags with abandoned := true } } }
        vld := { s.vld with routes := routeSet s.vld.routes a.route { routeState s a.route with
          latch := .closed, faultMark := false, startupClose := false,
          travel := some (s.now + s.cfg.travelTimeout * 1000) } } }))))

/-! ### Whole-machine statements -/

/-- No command but POWER_ON_RESET changes the load state or a published field in RUN (R210), and none but it lowers the station count C (R27). -/
def Obligations.RunKeepsConfigurationAndCount : Prop :=
  ∀ (c : Instr) (s t : State), c ≠ .powerOnReset → exec c s = .next t →
    (s.cfl.load = .run → t.cfl = s.cfl) ∧ s.mtr.count ≤ t.mtr.count

/-- The reset state meets every predicate of Safety.lean: MTR, TKE, DSU, TRS, LSC, PRT, TLC, SPC, VLD, CSQ, DSQ and HLU; CFL has none. -/
def Obligations.ResetIsSafe : Prop :=
  let s := State.reset
  MeterSafe s ∧ TrackingSafe s ∧ DensitySafe s ∧ TrainSafe s ∧ LaunchSafe s ∧ PeersSafe s ∧ LineSafe s ∧ StationSafe s ∧ ValveSafe s ∧ CutSafe s
    ∧ DeliverySafe s ∧ TerminalSafe s

/-- Every step keeps MTR safe (R26, R27, R31, R33), TKE (R38) and DSU (R63 to R69, R75): no more than 4 samples with an average exactly at 4, and
every run below the value that ends it. -/
def Obligations.MeterTrackingAndDensityStaySafe : Prop :=
  ∀ s t : State, step s = .next t →
    (MeterSafe s → MeterSafe t) ∧ (TrackingSafe s → TrackingSafe t) ∧ (DensitySafe s → DensitySafe t)

/-- Every step keeps PRT safe (R78, R80, R83, R89, R90). -/
def Obligations.PeersStaySafe : Prop :=
  ∀ s t : State, PeersSafe s → step s = .next t → PeersSafe t

/-- Every step keeps TRS and LSC safe: at most 40 entries, each within the ranges of R2 to R4 but for the remaining volume after a launched one (log
43), the passage kind present exactly while PASSED; at most 8 orders within their ranges; at most 16 holds, one for each key (R183, R184, R192). The
serial order of R1 is not claimed (log 43). -/
def Obligations.TrainAndLaunchStaySafe : Prop :=
  ∀ s t : State, TrainSafe s → LaunchSafe s → step s = .next t → TrainSafe t ∧ LaunchSafe t

/-- Every step keeps TLC, SPC and VLD safe: the class queues of both ports within their capacities, dark ports empty and free ports with nothing to
send, the receive queue, the event queue and the cut log, with a lost notice owed only at a full event queue, which rests on log 4 (R101, R106, R108,
R110, R203, R204); at most 8 switches waiting, the routes' latches, timers and marks in agreement, and the switch in flight right in its phase (R172,
R176, R179). -/
def Obligations.LineStationAndValvesStaySafe : Prop :=
  ∀ s t : State, step s = .next t →
    (LineSafe s → StationSafe s → LineSafe t ∧ StationSafe t) ∧ (ValveSafe s → ValveSafe t)

/-- Every step keeps CSQ safe: its state agrees with its open record; the record's three volumes add up to C less its start count and those of every
logged record to its end count less its start count (R137, R146); and the queue holds at most one HEAD and one FINAL action of the open record, in the
order of their due counts (R142). -/
def Obligations.CutStaysSafe : Prop :=
  ∀ s t : State, CutSafe s → step s = .next t → CutSafe t

/-- Every step keeps DSQ's state and its active delivery in agreement (R158), and HLU safe: a refresh timer runs exactly while a hold is active, and a
stale status has no stale timer (R194 to R196). -/
def Obligations.DeliveryAndTerminalStaySafe : Prop :=
  ∀ s t : State, step s = .next t → (DeliverySafe s → DeliverySafe t) ∧ (TerminalSafe s → TerminalSafe t)
end

