-- ==== Sys2Proof/Laws/State.lean ====
section
/-! SUPPORT. One lemma per field per update of the state, and the small lemmas of the tables by route and by port. -/

namespace Sys2Proof.Machine

/-! ### Tables by route and by port -/

@[simp] theorem routeGet_routeSet_same {α : Type} (t : PerRoute α) (r : Route) (a : α) : routeGet (routeSet t r a) r = a := by
  cases r <;> rfl

theorem routeGet_routeSet_other {α : Type} (t : PerRoute α) {r q : Route} (a : α) (h : q ≠ r) :
    routeGet (routeSet t r a) q = routeGet t q := by
  cases r <;> cases q <;> first | rfl | exact absurd rfl h

@[simp] theorem routeGet_fill {α : Type} (a : α) (r : Route) : routeGet (PerRoute.fill a) r = a := by cases r <;> rfl

@[simp] theorem routeGet_routeMap {α β : Type} (f : α → β) (t : PerRoute α) (r : Route) :
    routeGet (routeMap f t) r = f (routeGet t r) := by cases r <;> rfl

@[simp] theorem routeNumber_inj (a b : Route) : routeNumber a = routeNumber b ↔ a = b := by
  cases a <;> cases b <;> simp [routeNumber]

theorem routeOfNumber_routeNumber (r : Route) : routeOfNumber (routeNumber r) = some r := by cases r <;> rfl

@[simp] theorem portGet_portSet_same (t : Tlc) (p : Port) (x : PortState) : portGet (portSet t p x) p = x := by cases p <;> rfl

@[simp] theorem portGet_portSet_other (t : Tlc) (p : Port) (x : PortState) :
    portGet (portSet t p x) (otherPort p) = portGet t (otherPort p) := by cases p <;> rfl

@[simp] theorem portSet_rxQueue (t : Tlc) (p : Port) (x : PortState) : (portSet t p x).rxQueue = t.rxQueue := by cases p <;> rfl

@[simp] theorem portSet_beaconTimer (t : Tlc) (p : Port) (x : PortState) : (portSet t p x).beaconTimer = t.beaconTimer := by
  cases p <;> rfl

@[simp] theorem portSet_restartCount (t : Tlc) (p : Port) (x : PortState) : (portSet t p x).restartCount = t.restartCount := by
  cases p <;> rfl

/-! ### The record updates of each block -/

section Puts
variable (s : State)

@[simp] theorem putCfl_pending (f : Cfl → Cfl) : (putCfl f s).pending = s.pending := rfl
@[simp] theorem putCfl_clock (f : Cfl → Cfl) : (putCfl f s).clock = s.clock := rfl
@[simp] theorem putCfl_choices (f : Cfl → Cfl) : (putCfl f s).choices = s.choices := rfl
@[simp] theorem putCfl_cfl (f : Cfl → Cfl) : (putCfl f s).cfl = f s.cfl := rfl
@[simp] theorem putCfl_mtr (f : Cfl → Cfl) : (putCfl f s).mtr = s.mtr := rfl
@[simp] theorem putCfl_trs (f : Cfl → Cfl) : (putCfl f s).trs = s.trs := rfl
@[simp] theorem putCfl_tke (f : Cfl → Cfl) : (putCfl f s).tke = s.tke := rfl
@[simp] theorem putCfl_dsu (f : Cfl → Cfl) : (putCfl f s).dsu = s.dsu := rfl
@[simp] theorem putCfl_prt (f : Cfl → Cfl) : (putCfl f s).prt = s.prt := rfl
@[simp] theorem putCfl_tlc (f : Cfl → Cfl) : (putCfl f s).tlc = s.tlc := rfl
@[simp] theorem putCfl_csq (f : Cfl → Cfl) : (putCfl f s).csq = s.csq := rfl
@[simp] theorem putCfl_dsq (f : Cfl → Cfl) : (putCfl f s).dsq = s.dsq := rfl
@[simp] theorem putCfl_vld (f : Cfl → Cfl) : (putCfl f s).vld = s.vld := rfl
@[simp] theorem putCfl_lsc (f : Cfl → Cfl) : (putCfl f s).lsc = s.lsc := rfl
@[simp] theorem putCfl_hlu (f : Cfl → Cfl) : (putCfl f s).hlu = s.hlu := rfl
@[simp] theorem putCfl_spc (f : Cfl → Cfl) : (putCfl f s).spc = s.spc := rfl

@[simp] theorem putMtr_pending (f : Mtr → Mtr) : (putMtr f s).pending = s.pending := rfl
@[simp] theorem putMtr_clock (f : Mtr → Mtr) : (putMtr f s).clock = s.clock := rfl
@[simp] theorem putMtr_choices (f : Mtr → Mtr) : (putMtr f s).choices = s.choices := rfl
@[simp] theorem putMtr_cfl (f : Mtr → Mtr) : (putMtr f s).cfl = s.cfl := rfl
@[simp] theorem putMtr_mtr (f : Mtr → Mtr) : (putMtr f s).mtr = f s.mtr := rfl
@[simp] theorem putMtr_trs (f : Mtr → Mtr) : (putMtr f s).trs = s.trs := rfl
@[simp] theorem putMtr_tke (f : Mtr → Mtr) : (putMtr f s).tke = s.tke := rfl
@[simp] theorem putMtr_dsu (f : Mtr → Mtr) : (putMtr f s).dsu = s.dsu := rfl
@[simp] theorem putMtr_prt (f : Mtr → Mtr) : (putMtr f s).prt = s.prt := rfl
@[simp] theorem putMtr_tlc (f : Mtr → Mtr) : (putMtr f s).tlc = s.tlc := rfl
@[simp] theorem putMtr_csq (f : Mtr → Mtr) : (putMtr f s).csq = s.csq := rfl
@[simp] theorem putMtr_dsq (f : Mtr → Mtr) : (putMtr f s).dsq = s.dsq := rfl
@[simp] theorem putMtr_vld (f : Mtr → Mtr) : (putMtr f s).vld = s.vld := rfl
@[simp] theorem putMtr_lsc (f : Mtr → Mtr) : (putMtr f s).lsc = s.lsc := rfl
@[simp] theorem putMtr_hlu (f : Mtr → Mtr) : (putMtr f s).hlu = s.hlu := rfl
@[simp] theorem putMtr_spc (f : Mtr → Mtr) : (putMtr f s).spc = s.spc := rfl

@[simp] theorem putTrs_pending (f : Trs → Trs) : (putTrs f s).pending = s.pending := rfl
@[simp] theorem putTrs_clock (f : Trs → Trs) : (putTrs f s).clock = s.clock := rfl
@[simp] theorem putTrs_choices (f : Trs → Trs) : (putTrs f s).choices = s.choices := rfl
@[simp] theorem putTrs_cfl (f : Trs → Trs) : (putTrs f s).cfl = s.cfl := rfl
@[simp] theorem putTrs_mtr (f : Trs → Trs) : (putTrs f s).mtr = s.mtr := rfl
@[simp] theorem putTrs_trs (f : Trs → Trs) : (putTrs f s).trs = f s.trs := rfl
@[simp] theorem putTrs_tke (f : Trs → Trs) : (putTrs f s).tke = s.tke := rfl
@[simp] theorem putTrs_dsu (f : Trs → Trs) : (putTrs f s).dsu = s.dsu := rfl
@[simp] theorem putTrs_prt (f : Trs → Trs) : (putTrs f s).prt = s.prt := rfl
@[simp] theorem putTrs_tlc (f : Trs → Trs) : (putTrs f s).tlc = s.tlc := rfl
@[simp] theorem putTrs_csq (f : Trs → Trs) : (putTrs f s).csq = s.csq := rfl
@[simp] theorem putTrs_dsq (f : Trs → Trs) : (putTrs f s).dsq = s.dsq := rfl
@[simp] theorem putTrs_vld (f : Trs → Trs) : (putTrs f s).vld = s.vld := rfl
@[simp] theorem putTrs_lsc (f : Trs → Trs) : (putTrs f s).lsc = s.lsc := rfl
@[simp] theorem putTrs_hlu (f : Trs → Trs) : (putTrs f s).hlu = s.hlu := rfl
@[simp] theorem putTrs_spc (f : Trs → Trs) : (putTrs f s).spc = s.spc := rfl

@[simp] theorem putDsu_pending (f : Dsu → Dsu) : (putDsu f s).pending = s.pending := rfl
@[simp] theorem putDsu_clock (f : Dsu → Dsu) : (putDsu f s).clock = s.clock := rfl
@[simp] theorem putDsu_choices (f : Dsu → Dsu) : (putDsu f s).choices = s.choices := rfl
@[simp] theorem putDsu_cfl (f : Dsu → Dsu) : (putDsu f s).cfl = s.cfl := rfl
@[simp] theorem putDsu_mtr (f : Dsu → Dsu) : (putDsu f s).mtr = s.mtr := rfl
@[simp] theorem putDsu_trs (f : Dsu → Dsu) : (putDsu f s).trs = s.trs := rfl
@[simp] theorem putDsu_tke (f : Dsu → Dsu) : (putDsu f s).tke = s.tke := rfl
@[simp] theorem putDsu_dsu (f : Dsu → Dsu) : (putDsu f s).dsu = f s.dsu := rfl
@[simp] theorem putDsu_prt (f : Dsu → Dsu) : (putDsu f s).prt = s.prt := rfl
@[simp] theorem putDsu_tlc (f : Dsu → Dsu) : (putDsu f s).tlc = s.tlc := rfl
@[simp] theorem putDsu_csq (f : Dsu → Dsu) : (putDsu f s).csq = s.csq := rfl
@[simp] theorem putDsu_dsq (f : Dsu → Dsu) : (putDsu f s).dsq = s.dsq := rfl
@[simp] theorem putDsu_vld (f : Dsu → Dsu) : (putDsu f s).vld = s.vld := rfl
@[simp] theorem putDsu_lsc (f : Dsu → Dsu) : (putDsu f s).lsc = s.lsc := rfl
@[simp] theorem putDsu_hlu (f : Dsu → Dsu) : (putDsu f s).hlu = s.hlu := rfl
@[simp] theorem putDsu_spc (f : Dsu → Dsu) : (putDsu f s).spc = s.spc := rfl

@[simp] theorem putCsq_pending (f : Csq → Csq) : (putCsq f s).pending = s.pending := rfl
@[simp] theorem putCsq_clock (f : Csq → Csq) : (putCsq f s).clock = s.clock := rfl
@[simp] theorem putCsq_choices (f : Csq → Csq) : (putCsq f s).choices = s.choices := rfl
@[simp] theorem putCsq_cfl (f : Csq → Csq) : (putCsq f s).cfl = s.cfl := rfl
@[simp] theorem putCsq_mtr (f : Csq → Csq) : (putCsq f s).mtr = s.mtr := rfl
@[simp] theorem putCsq_trs (f : Csq → Csq) : (putCsq f s).trs = s.trs := rfl
@[simp] theorem putCsq_tke (f : Csq → Csq) : (putCsq f s).tke = s.tke := rfl
@[simp] theorem putCsq_dsu (f : Csq → Csq) : (putCsq f s).dsu = s.dsu := rfl
@[simp] theorem putCsq_prt (f : Csq → Csq) : (putCsq f s).prt = s.prt := rfl
@[simp] theorem putCsq_tlc (f : Csq → Csq) : (putCsq f s).tlc = s.tlc := rfl
@[simp] theorem putCsq_csq (f : Csq → Csq) : (putCsq f s).csq = f s.csq := rfl
@[simp] theorem putCsq_dsq (f : Csq → Csq) : (putCsq f s).dsq = s.dsq := rfl
@[simp] theorem putCsq_vld (f : Csq → Csq) : (putCsq f s).vld = s.vld := rfl
@[simp] theorem putCsq_lsc (f : Csq → Csq) : (putCsq f s).lsc = s.lsc := rfl
@[simp] theorem putCsq_hlu (f : Csq → Csq) : (putCsq f s).hlu = s.hlu := rfl
@[simp] theorem putCsq_spc (f : Csq → Csq) : (putCsq f s).spc = s.spc := rfl

@[simp] theorem putDsq_pending (f : Dsq → Dsq) : (putDsq f s).pending = s.pending := rfl
@[simp] theorem putDsq_clock (f : Dsq → Dsq) : (putDsq f s).clock = s.clock := rfl
@[simp] theorem putDsq_choices (f : Dsq → Dsq) : (putDsq f s).choices = s.choices := rfl
@[simp] theorem putDsq_cfl (f : Dsq → Dsq) : (putDsq f s).cfl = s.cfl := rfl
@[simp] theorem putDsq_mtr (f : Dsq → Dsq) : (putDsq f s).mtr = s.mtr := rfl
@[simp] theorem putDsq_trs (f : Dsq → Dsq) : (putDsq f s).trs = s.trs := rfl
@[simp] theorem putDsq_tke (f : Dsq → Dsq) : (putDsq f s).tke = s.tke := rfl
@[simp] theorem putDsq_dsu (f : Dsq → Dsq) : (putDsq f s).dsu = s.dsu := rfl
@[simp] theorem putDsq_prt (f : Dsq → Dsq) : (putDsq f s).prt = s.prt := rfl
@[simp] theorem putDsq_tlc (f : Dsq → Dsq) : (putDsq f s).tlc = s.tlc := rfl
@[simp] theorem putDsq_csq (f : Dsq → Dsq) : (putDsq f s).csq = s.csq := rfl
@[simp] theorem putDsq_dsq (f : Dsq → Dsq) : (putDsq f s).dsq = f s.dsq := rfl
@[simp] theorem putDsq_vld (f : Dsq → Dsq) : (putDsq f s).vld = s.vld := rfl
@[simp] theorem putDsq_lsc (f : Dsq → Dsq) : (putDsq f s).lsc = s.lsc := rfl
@[simp] theorem putDsq_hlu (f : Dsq → Dsq) : (putDsq f s).hlu = s.hlu := rfl
@[simp] theorem putDsq_spc (f : Dsq → Dsq) : (putDsq f s).spc = s.spc := rfl

@[simp] theorem putLsc_pending (f : Lsc → Lsc) : (putLsc f s).pending = s.pending := rfl
@[simp] theorem putLsc_clock (f : Lsc → Lsc) : (putLsc f s).clock = s.clock := rfl
@[simp] theorem putLsc_choices (f : Lsc → Lsc) : (putLsc f s).choices = s.choices := rfl
@[simp] theorem putLsc_cfl (f : Lsc → Lsc) : (putLsc f s).cfl = s.cfl := rfl
@[simp] theorem putLsc_mtr (f : Lsc → Lsc) : (putLsc f s).mtr = s.mtr := rfl
@[simp] theorem putLsc_trs (f : Lsc → Lsc) : (putLsc f s).trs = s.trs := rfl
@[simp] theorem putLsc_tke (f : Lsc → Lsc) : (putLsc f s).tke = s.tke := rfl
@[simp] theorem putLsc_dsu (f : Lsc → Lsc) : (putLsc f s).dsu = s.dsu := rfl
@[simp] theorem putLsc_prt (f : Lsc → Lsc) : (putLsc f s).prt = s.prt := rfl
@[simp] theorem putLsc_tlc (f : Lsc → Lsc) : (putLsc f s).tlc = s.tlc := rfl
@[simp] theorem putLsc_csq (f : Lsc → Lsc) : (putLsc f s).csq = s.csq := rfl
@[simp] theorem putLsc_dsq (f : Lsc → Lsc) : (putLsc f s).dsq = s.dsq := rfl
@[simp] theorem putLsc_vld (f : Lsc → Lsc) : (putLsc f s).vld = s.vld := rfl
@[simp] theorem putLsc_lsc (f : Lsc → Lsc) : (putLsc f s).lsc = f s.lsc := rfl
@[simp] theorem putLsc_hlu (f : Lsc → Lsc) : (putLsc f s).hlu = s.hlu := rfl
@[simp] theorem putLsc_spc (f : Lsc → Lsc) : (putLsc f s).spc = s.spc := rfl

@[simp] theorem putHlu_pending (f : Hlu → Hlu) : (putHlu f s).pending = s.pending := rfl
@[simp] theorem putHlu_clock (f : Hlu → Hlu) : (putHlu f s).clock = s.clock := rfl
@[simp] theorem putHlu_choices (f : Hlu → Hlu) : (putHlu f s).choices = s.choices := rfl
@[simp] theorem putHlu_cfl (f : Hlu → Hlu) : (putHlu f s).cfl = s.cfl := rfl
@[simp] theorem putHlu_mtr (f : Hlu → Hlu) : (putHlu f s).mtr = s.mtr := rfl
@[simp] theorem putHlu_trs (f : Hlu → Hlu) : (putHlu f s).trs = s.trs := rfl
@[simp] theorem putHlu_tke (f : Hlu → Hlu) : (putHlu f s).tke = s.tke := rfl
@[simp] theorem putHlu_dsu (f : Hlu → Hlu) : (putHlu f s).dsu = s.dsu := rfl
@[simp] theorem putHlu_prt (f : Hlu → Hlu) : (putHlu f s).prt = s.prt := rfl
@[simp] theorem putHlu_tlc (f : Hlu → Hlu) : (putHlu f s).tlc = s.tlc := rfl
@[simp] theorem putHlu_csq (f : Hlu → Hlu) : (putHlu f s).csq = s.csq := rfl
@[simp] theorem putHlu_dsq (f : Hlu → Hlu) : (putHlu f s).dsq = s.dsq := rfl
@[simp] theorem putHlu_vld (f : Hlu → Hlu) : (putHlu f s).vld = s.vld := rfl
@[simp] theorem putHlu_lsc (f : Hlu → Hlu) : (putHlu f s).lsc = s.lsc := rfl
@[simp] theorem putHlu_hlu (f : Hlu → Hlu) : (putHlu f s).hlu = f s.hlu := rfl
@[simp] theorem putHlu_spc (f : Hlu → Hlu) : (putHlu f s).spc = s.spc := rfl

@[simp] theorem putSpc_pending (f : Spc → Spc) : (putSpc f s).pending = s.pending := rfl
@[simp] theorem putSpc_clock (f : Spc → Spc) : (putSpc f s).clock = s.clock := rfl
@[simp] theorem putSpc_choices (f : Spc → Spc) : (putSpc f s).choices = s.choices := rfl
@[simp] theorem putSpc_cfl (f : Spc → Spc) : (putSpc f s).cfl = s.cfl := rfl
@[simp] theorem putSpc_mtr (f : Spc → Spc) : (putSpc f s).mtr = s.mtr := rfl
@[simp] theorem putSpc_trs (f : Spc → Spc) : (putSpc f s).trs = s.trs := rfl
@[simp] theorem putSpc_tke (f : Spc → Spc) : (putSpc f s).tke = s.tke := rfl
@[simp] theorem putSpc_dsu (f : Spc → Spc) : (putSpc f s).dsu = s.dsu := rfl
@[simp] theorem putSpc_prt (f : Spc → Spc) : (putSpc f s).prt = s.prt := rfl
@[simp] theorem putSpc_tlc (f : Spc → Spc) : (putSpc f s).tlc = s.tlc := rfl
@[simp] theorem putSpc_csq (f : Spc → Spc) : (putSpc f s).csq = s.csq := rfl
@[simp] theorem putSpc_dsq (f : Spc → Spc) : (putSpc f s).dsq = s.dsq := rfl
@[simp] theorem putSpc_vld (f : Spc → Spc) : (putSpc f s).vld = s.vld := rfl
@[simp] theorem putSpc_lsc (f : Spc → Spc) : (putSpc f s).lsc = s.lsc := rfl
@[simp] theorem putSpc_hlu (f : Spc → Spc) : (putSpc f s).hlu = s.hlu := rfl
@[simp] theorem putSpc_spc (f : Spc → Spc) : (putSpc f s).spc = f s.spc := rfl

@[simp] theorem putTrain_pending (t : List Entry) : (putTrain t s).pending = s.pending := rfl
@[simp] theorem putTrain_clock (t : List Entry) : (putTrain t s).clock = s.clock := rfl
@[simp] theorem putTrain_choices (t : List Entry) : (putTrain t s).choices = s.choices := rfl
@[simp] theorem putTrain_cfl (t : List Entry) : (putTrain t s).cfl = s.cfl := rfl
@[simp] theorem putTrain_mtr (t : List Entry) : (putTrain t s).mtr = s.mtr := rfl
@[simp] theorem putTrain_tke (t : List Entry) : (putTrain t s).tke = s.tke := rfl
@[simp] theorem putTrain_prt (t : List Entry) : (putTrain t s).prt = s.prt := rfl
@[simp] theorem putTrain_tlc (t : List Entry) : (putTrain t s).tlc = s.tlc := rfl
@[simp] theorem putTrain_csq (t : List Entry) : (putTrain t s).csq = s.csq := rfl
@[simp] theorem putTrain_dsq (t : List Entry) : (putTrain t s).dsq = s.dsq := rfl
@[simp] theorem putTrain_vld (t : List Entry) : (putTrain t s).vld = s.vld := rfl
@[simp] theorem putTrain_lsc (t : List Entry) : (putTrain t s).lsc = s.lsc := rfl
@[simp] theorem putTrain_hlu (t : List Entry) : (putTrain t s).hlu = s.hlu := rfl
@[simp] theorem putTrain_spc (t : List Entry) : (putTrain t s).spc = s.spc := rfl
@[simp] theorem putTrain_train (t : List Entry) : (putTrain t s).trs.train = t := rfl
@[simp] theorem putTrain_sync (t : List Entry) : (putTrain t s).trs.sync = s.trs.sync := rfl

@[simp] theorem modifyPort_pending (p : Port) (f : PortState → PortState) : (modifyPort p f s).pending = s.pending := rfl
@[simp] theorem modifyPort_clock (p : Port) (f : PortState → PortState) : (modifyPort p f s).clock = s.clock := rfl
@[simp] theorem modifyPort_choices (p : Port) (f : PortState → PortState) : (modifyPort p f s).choices = s.choices := rfl
@[simp] theorem modifyPort_cfl (p : Port) (f : PortState → PortState) : (modifyPort p f s).cfl = s.cfl := rfl
@[simp] theorem modifyPort_mtr (p : Port) (f : PortState → PortState) : (modifyPort p f s).mtr = s.mtr := rfl
@[simp] theorem modifyPort_trs (p : Port) (f : PortState → PortState) : (modifyPort p f s).trs = s.trs := rfl
@[simp] theorem modifyPort_tke (p : Port) (f : PortState → PortState) : (modifyPort p f s).tke = s.tke := rfl
@[simp] theorem modifyPort_dsu (p : Port) (f : PortState → PortState) : (modifyPort p f s).dsu = s.dsu := rfl
@[simp] theorem modifyPort_prt (p : Port) (f : PortState → PortState) : (modifyPort p f s).prt = s.prt := rfl
@[simp] theorem modifyPort_csq (p : Port) (f : PortState → PortState) : (modifyPort p f s).csq = s.csq := rfl
@[simp] theorem modifyPort_dsq (p : Port) (f : PortState → PortState) : (modifyPort p f s).dsq = s.dsq := rfl
@[simp] theorem modifyPort_vld (p : Port) (f : PortState → PortState) : (modifyPort p f s).vld = s.vld := rfl
@[simp] theorem modifyPort_lsc (p : Port) (f : PortState → PortState) : (modifyPort p f s).lsc = s.lsc := rfl
@[simp] theorem modifyPort_hlu (p : Port) (f : PortState → PortState) : (modifyPort p f s).hlu = s.hlu := rfl
@[simp] theorem modifyPort_spc (p : Port) (f : PortState → PortState) : (modifyPort p f s).spc = s.spc := rfl

@[simp] theorem putRoute_pending (r : Route) (y : RouteState) : (putRoute r y s).pending = s.pending := rfl
@[simp] theorem putRoute_clock (r : Route) (y : RouteState) : (putRoute r y s).clock = s.clock := rfl
@[simp] theorem putRoute_choices (r : Route) (y : RouteState) : (putRoute r y s).choices = s.choices := rfl
@[simp] theorem putRoute_cfl (r : Route) (y : RouteState) : (putRoute r y s).cfl = s.cfl := rfl
@[simp] theorem putRoute_mtr (r : Route) (y : RouteState) : (putRoute r y s).mtr = s.mtr := rfl
@[simp] theorem putRoute_trs (r : Route) (y : RouteState) : (putRoute r y s).trs = s.trs := rfl
@[simp] theorem putRoute_tke (r : Route) (y : RouteState) : (putRoute r y s).tke = s.tke := rfl
@[simp] theorem putRoute_dsu (r : Route) (y : RouteState) : (putRoute r y s).dsu = s.dsu := rfl
@[simp] theorem putRoute_prt (r : Route) (y : RouteState) : (putRoute r y s).prt = s.prt := rfl
@[simp] theorem putRoute_tlc (r : Route) (y : RouteState) : (putRoute r y s).tlc = s.tlc := rfl
@[simp] theorem putRoute_csq (r : Route) (y : RouteState) : (putRoute r y s).csq = s.csq := rfl
@[simp] theorem putRoute_dsq (r : Route) (y : RouteState) : (putRoute r y s).dsq = s.dsq := rfl
@[simp] theorem putRoute_lsc (r : Route) (y : RouteState) : (putRoute r y s).lsc = s.lsc := rfl
@[simp] theorem putRoute_hlu (r : Route) (y : RouteState) : (putRoute r y s).hlu = s.hlu := rfl
@[simp] theorem putRoute_spc (r : Route) (y : RouteState) : (putRoute r y s).spc = s.spc := rfl

@[simp] theorem putPeers_pending (l : List Peer) : (putPeers l s).pending = s.pending := rfl
@[simp] theorem putPeers_clock (l : List Peer) : (putPeers l s).clock = s.clock := rfl
@[simp] theorem putPeers_choices (l : List Peer) : (putPeers l s).choices = s.choices := rfl
@[simp] theorem putPeers_cfl (l : List Peer) : (putPeers l s).cfl = s.cfl := rfl
@[simp] theorem putPeers_mtr (l : List Peer) : (putPeers l s).mtr = s.mtr := rfl
@[simp] theorem putPeers_trs (l : List Peer) : (putPeers l s).trs = s.trs := rfl
@[simp] theorem putPeers_tke (l : List Peer) : (putPeers l s).tke = s.tke := rfl
@[simp] theorem putPeers_dsu (l : List Peer) : (putPeers l s).dsu = s.dsu := rfl
@[simp] theorem putPeers_tlc (l : List Peer) : (putPeers l s).tlc = s.tlc := rfl
@[simp] theorem putPeers_csq (l : List Peer) : (putPeers l s).csq = s.csq := rfl
@[simp] theorem putPeers_dsq (l : List Peer) : (putPeers l s).dsq = s.dsq := rfl
@[simp] theorem putPeers_vld (l : List Peer) : (putPeers l s).vld = s.vld := rfl
@[simp] theorem putPeers_lsc (l : List Peer) : (putPeers l s).lsc = s.lsc := rfl
@[simp] theorem putPeers_hlu (l : List Peer) : (putPeers l s).hlu = s.hlu := rfl
@[simp] theorem putPeers_spc (l : List Peer) : (putPeers l s).spc = s.spc := rfl

@[simp] theorem advanceTo_pending (due : Nat) : (s.advanceTo due).pending = s.pending := rfl
@[simp] theorem advanceTo_choices (due : Nat) : (s.advanceTo due).choices = s.choices := rfl
@[simp] theorem advanceTo_cfl (due : Nat) : (s.advanceTo due).cfl = s.cfl := rfl
@[simp] theorem advanceTo_mtr (due : Nat) : (s.advanceTo due).mtr = s.mtr := rfl
@[simp] theorem advanceTo_trs (due : Nat) : (s.advanceTo due).trs = s.trs := rfl
@[simp] theorem advanceTo_tke (due : Nat) : (s.advanceTo due).tke = s.tke := rfl
@[simp] theorem advanceTo_dsu (due : Nat) : (s.advanceTo due).dsu = s.dsu := rfl
@[simp] theorem advanceTo_prt (due : Nat) : (s.advanceTo due).prt = s.prt := rfl
@[simp] theorem advanceTo_tlc (due : Nat) : (s.advanceTo due).tlc = s.tlc := rfl
@[simp] theorem advanceTo_csq (due : Nat) : (s.advanceTo due).csq = s.csq := rfl
@[simp] theorem advanceTo_dsq (due : Nat) : (s.advanceTo due).dsq = s.dsq := rfl
@[simp] theorem advanceTo_vld (due : Nat) : (s.advanceTo due).vld = s.vld := rfl
@[simp] theorem advanceTo_lsc (due : Nat) : (s.advanceTo due).lsc = s.lsc := rfl
@[simp] theorem advanceTo_hlu (due : Nat) : (s.advanceTo due).hlu = s.hlu := rfl
@[simp] theorem advanceTo_spc (due : Nat) : (s.advanceTo due).spc = s.spc := rfl

end Puts

/-! ### Events and alarms (R203, R205) -/

section Events
variable (s : State)

@[simp] theorem offerEvent_pending (e : Event) : (offerEvent e s).pending = s.pending := by unfold offerEvent; split <;> rfl

@[simp] theorem raiseAlarm_pending (a : Alarm) (d : Nat) : (raiseAlarm a d s).pending = s.pending := by simp [raiseAlarm]

@[simp] theorem appendToLog_pending (r : LogRecord) : (appendToLog r s).pending = s.pending := by unfold appendToLog; split <;> rfl

@[simp] theorem respond_pending (k : RespStatus) (p : List Byte) : (respond k p s).pending = s.pending := rfl

@[simp] theorem offerEvent_clock (e : Event) : (offerEvent e s).clock = s.clock := by unfold offerEvent; split <;> rfl

@[simp] theorem raiseAlarm_clock (a : Alarm) (d : Nat) : (raiseAlarm a d s).clock = s.clock := by simp [raiseAlarm]

@[simp] theorem appendToLog_clock (r : LogRecord) : (appendToLog r s).clock = s.clock := by unfold appendToLog; split <;> rfl

@[simp] theorem respond_clock (k : RespStatus) (p : List Byte) : (respond k p s).clock = s.clock := rfl

@[simp] theorem offerEvent_choices (e : Event) : (offerEvent e s).choices = s.choices := by unfold offerEvent; split <;> rfl

@[simp] theorem raiseAlarm_choices (a : Alarm) (d : Nat) : (raiseAlarm a d s).choices = s.choices := by simp [raiseAlarm]

@[simp] theorem appendToLog_choices (r : LogRecord) : (appendToLog r s).choices = s.choices := by unfold appendToLog; split <;> rfl

@[simp] theorem respond_choices (k : RespStatus) (p : List Byte) : (respond k p s).choices = s.choices := rfl

@[simp] theorem offerEvent_cfl (e : Event) : (offerEvent e s).cfl = s.cfl := by unfold offerEvent; split <;> rfl

@[simp] theorem raiseAlarm_cfl (a : Alarm) (d : Nat) : (raiseAlarm a d s).cfl = s.cfl := by simp [raiseAlarm]

@[simp] theorem appendToLog_cfl (r : LogRecord) : (appendToLog r s).cfl = s.cfl := by unfold appendToLog; split <;> rfl

@[simp] theorem respond_cfl (k : RespStatus) (p : List Byte) : (respond k p s).cfl = s.cfl := rfl

@[simp] theorem offerEvent_mtr (e : Event) : (offerEvent e s).mtr = s.mtr := by unfold offerEvent; split <;> rfl

@[simp] theorem raiseAlarm_mtr (a : Alarm) (d : Nat) : (raiseAlarm a d s).mtr = s.mtr := by simp [raiseAlarm]

@[simp] theorem appendToLog_mtr (r : LogRecord) : (appendToLog r s).mtr = s.mtr := by unfold appendToLog; split <;> rfl

@[simp] theorem respond_mtr (k : RespStatus) (p : List Byte) : (respond k p s).mtr = s.mtr := rfl

@[simp] theorem offerEvent_trs (e : Event) : (offerEvent e s).trs = s.trs := by unfold offerEvent; split <;> rfl

@[simp] theorem raiseAlarm_trs (a : Alarm) (d : Nat) : (raiseAlarm a d s).trs = s.trs := by simp [raiseAlarm]

@[simp] theorem appendToLog_trs (r : LogRecord) : (appendToLog r s).trs = s.trs := by unfold appendToLog; split <;> rfl

@[simp] theorem respond_trs (k : RespStatus) (p : List Byte) : (respond k p s).trs = s.trs := rfl

@[simp] theorem offerEvent_tke (e : Event) : (offerEvent e s).tke = s.tke := by unfold offerEvent; split <;> rfl

@[simp] theorem raiseAlarm_tke (a : Alarm) (d : Nat) : (raiseAlarm a d s).tke = s.tke := by simp [raiseAlarm]

@[simp] theorem appendToLog_tke (r : LogRecord) : (appendToLog r s).tke = s.tke := by unfold appendToLog; split <;> rfl

@[simp] theorem respond_tke (k : RespStatus) (p : List Byte) : (respond k p s).tke = s.tke := rfl

@[simp] theorem offerEvent_dsu (e : Event) : (offerEvent e s).dsu = s.dsu := by unfold offerEvent; split <;> rfl

@[simp] theorem raiseAlarm_dsu (a : Alarm) (d : Nat) : (raiseAlarm a d s).dsu = s.dsu := by simp [raiseAlarm]

@[simp] theorem appendToLog_dsu (r : LogRecord) : (appendToLog r s).dsu = s.dsu := by unfold appendToLog; split <;> rfl

@[simp] theorem respond_dsu (k : RespStatus) (p : List Byte) : (respond k p s).dsu = s.dsu := rfl

@[simp] theorem offerEvent_prt (e : Event) : (offerEvent e s).prt = s.prt := by unfold offerEvent; split <;> rfl

@[simp] theorem raiseAlarm_prt (a : Alarm) (d : Nat) : (raiseAlarm a d s).prt = s.prt := by simp [raiseAlarm]

@[simp] theorem appendToLog_prt (r : LogRecord) : (appendToLog r s).prt = s.prt := by unfold appendToLog; split <;> rfl

@[simp] theorem respond_prt (k : RespStatus) (p : List Byte) : (respond k p s).prt = s.prt := rfl

@[simp] theorem offerEvent_tlc (e : Event) : (offerEvent e s).tlc = s.tlc := by unfold offerEvent; split <;> rfl

@[simp] theorem raiseAlarm_tlc (a : Alarm) (d : Nat) : (raiseAlarm a d s).tlc = s.tlc := by simp [raiseAlarm]

@[simp] theorem appendToLog_tlc (r : LogRecord) : (appendToLog r s).tlc = s.tlc := by unfold appendToLog; split <;> rfl

@[simp] theorem respond_tlc (k : RespStatus) (p : List Byte) : (respond k p s).tlc = s.tlc := rfl

@[simp] theorem offerEvent_csq (e : Event) : (offerEvent e s).csq = s.csq := by unfold offerEvent; split <;> rfl

@[simp] theorem raiseAlarm_csq (a : Alarm) (d : Nat) : (raiseAlarm a d s).csq = s.csq := by simp [raiseAlarm]

@[simp] theorem appendToLog_csq (r : LogRecord) : (appendToLog r s).csq = s.csq := by unfold appendToLog; split <;> rfl

@[simp] theorem respond_csq (k : RespStatus) (p : List Byte) : (respond k p s).csq = s.csq := rfl

@[simp] theorem offerEvent_dsq (e : Event) : (offerEvent e s).dsq = s.dsq := by unfold offerEvent; split <;> rfl

@[simp] theorem raiseAlarm_dsq (a : Alarm) (d : Nat) : (raiseAlarm a d s).dsq = s.dsq := by simp [raiseAlarm]

@[simp] theorem appendToLog_dsq (r : LogRecord) : (appendToLog r s).dsq = s.dsq := by unfold appendToLog; split <;> rfl

@[simp] theorem respond_dsq (k : RespStatus) (p : List Byte) : (respond k p s).dsq = s.dsq := rfl

@[simp] theorem offerEvent_vld (e : Event) : (offerEvent e s).vld = s.vld := by unfold offerEvent; split <;> rfl

@[simp] theorem raiseAlarm_vld (a : Alarm) (d : Nat) : (raiseAlarm a d s).vld = s.vld := by simp [raiseAlarm]

@[simp] theorem appendToLog_vld (r : LogRecord) : (appendToLog r s).vld = s.vld := by unfold appendToLog; split <;> rfl

@[simp] theorem respond_vld (k : RespStatus) (p : List Byte) : (respond k p s).vld = s.vld := rfl

@[simp] theorem offerEvent_lsc (e : Event) : (offerEvent e s).lsc = s.lsc := by unfold offerEvent; split <;> rfl

@[simp] theorem raiseAlarm_lsc (a : Alarm) (d : Nat) : (raiseAlarm a d s).lsc = s.lsc := by simp [raiseAlarm]

@[simp] theorem appendToLog_lsc (r : LogRecord) : (appendToLog r s).lsc = s.lsc := by unfold appendToLog; split <;> rfl

@[simp] theorem respond_lsc (k : RespStatus) (p : List Byte) : (respond k p s).lsc = s.lsc := rfl

@[simp] theorem offerEvent_hlu (e : Event) : (offerEvent e s).hlu = s.hlu := by unfold offerEvent; split <;> rfl

@[simp] theorem raiseAlarm_hlu (a : Alarm) (d : Nat) : (raiseAlarm a d s).hlu = s.hlu := by simp [raiseAlarm]

@[simp] theorem appendToLog_hlu (r : LogRecord) : (appendToLog r s).hlu = s.hlu := by unfold appendToLog; split <;> rfl

@[simp] theorem respond_hlu (k : RespStatus) (p : List Byte) : (respond k p s).hlu = s.hlu := rfl

/-- What an offered event can do (R203): it joins the tail, or it is lost. -/
theorem offerEvent_cases (e : Event) :
    (s.spc.events.length < 64 ∧ (offerEvent e s).spc = { s.spc with events := s.spc.events ++ [⟨s.now, e⟩] }) ∨
    (64 ≤ s.spc.events.length ∧ (offerEvent e s).spc = { s.spc with
      lostCount := min 65535 (s.spc.lostCount + 1)
      alarms := setAlarmBit s.spc.alarms .eventsLost
      lostOwed := true }) := by
  unfold offerEvent
  by_cases h : s.spc.events.length < 64
  · exact .inl ⟨h, by simp [h]⟩
  · exact .inr ⟨by omega, by simp [h]⟩

/-- What a record handed to the cut log can do (R204). -/
theorem appendToLog_cases (r : LogRecord) :
    (s.spc.cutLog.length < 16 ∧ (appendToLog r s).spc = { s.spc with cutLog := s.spc.cutLog ++ [r] }) ∨
    (16 ≤ s.spc.cutLog.length ∧ (appendToLog r s).spc = { s.spc with
      cutLog := s.spc.cutLog.drop 1 ++ [r.withOverwrite]
      readingRecord := false }) := by
  unfold appendToLog
  by_cases h : s.spc.cutLog.length < 16
  · exact .inl ⟨h, by simp [h]⟩
  · exact .inr ⟨by omega, by simp [h]⟩

end Events

end Sys2Proof.Machine
end

