-- ==== Sys2Proof/Laws/Base.lean ====
section
/-! SUPPORT. What the tracking, cutting, delivering, valve and joining operations leave as it is: the base of the state. One lemma for
each operation, so that no later proof unfolds it for this. -/

namespace Sys2Proof.Machine

/-- The part of the state that only a few commands write: the queue, the time base, the configuration, the counts and the trim, M and
Mh, DSU but for the departure run, PRT, HLU, and the receive queue and beacon timer of TLC. -/
structure Base where
  pending : List Instr
  clock : Nat
  cfl : Cfl
  fine : Nat
  count : Nat
  deliveryFine : Nat
  deliveryCount : Count32
  trim : Int
  tke : Tke
  dsu : Dsu
  prt : Prt
  hlu : Hlu
  rxQueue : List RxFrame
  beaconTimer : Option Nat
  restartCount : Nat

/-- The base of a state. -/
def base (s : State) : Base where
  pending := s.pending
  clock := s.clock
  cfl := s.cfl
  fine := s.mtr.fine
  count := s.mtr.count
  deliveryFine := s.mtr.deliveryFine
  deliveryCount := s.mtr.deliveryCount
  trim := s.mtr.trim
  tke := s.tke
  dsu := { s.dsu with departureRun := 0 }
  prt := s.prt
  hlu := s.hlu
  rxQueue := s.tlc.rxQueue
  beaconTimer := s.tlc.beaconTimer
  restartCount := s.tlc.restartCount

section Reads
variable {s t : State} (h : base s = base t)
include h

theorem base_pending_eq : s.pending = t.pending := congrArg Base.pending h
theorem base_clock_eq : s.clock = t.clock := congrArg Base.clock h
theorem base_cfl_eq : s.cfl = t.cfl := congrArg Base.cfl h
theorem base_fine_eq : s.mtr.fine = t.mtr.fine := congrArg Base.fine h
theorem base_count_eq : s.mtr.count = t.mtr.count := congrArg Base.count h
theorem base_deliveryFine_eq : s.mtr.deliveryFine = t.mtr.deliveryFine := congrArg Base.deliveryFine h
theorem base_deliveryCount_eq : s.mtr.deliveryCount = t.mtr.deliveryCount := congrArg Base.deliveryCount h
theorem base_trim_eq : s.mtr.trim = t.mtr.trim := congrArg Base.trim h
theorem base_tke_eq : s.tke = t.tke := congrArg Base.tke h
theorem base_prt_eq : s.prt = t.prt := congrArg Base.prt h
theorem base_hlu_eq : s.hlu = t.hlu := congrArg Base.hlu h
theorem base_rxQueue_eq : s.tlc.rxQueue = t.tlc.rxQueue := congrArg Base.rxQueue h
theorem base_beaconTimer_eq : s.tlc.beaconTimer = t.tlc.beaconTimer := congrArg Base.beaconTimer h
theorem base_restartCount_eq : s.tlc.restartCount = t.tlc.restartCount := congrArg Base.restartCount h
theorem base_dsu_eq : { s.dsu with departureRun := 0 } = { t.dsu with departureRun := 0 } := congrArg Base.dsu h

end Reads

/-! ### Single updates -/

section Updates
variable (s : State)

@[simp] theorem base_choices (n : Nat) : base { s with choices := n } = base s := rfl
@[simp] theorem base_trs (x : Trs) : base { s with trs := x } = base s := rfl
@[simp] theorem base_csq (x : Csq) : base { s with csq := x } = base s := rfl
@[simp] theorem base_dsq (x : Dsq) : base { s with dsq := x } = base s := rfl
@[simp] theorem base_vld (x : Vld) : base { s with vld := x } = base s := rfl
@[simp] theorem base_lsc (x : Lsc) : base { s with lsc := x } = base s := rfl
@[simp] theorem base_spc (x : Spc) : base { s with spc := x } = base s := rfl
@[simp] theorem base_putTrs (f : Trs → Trs) : base (putTrs f s) = base s := rfl
@[simp] theorem base_putCsq (f : Csq → Csq) : base (putCsq f s) = base s := rfl
@[simp] theorem base_putDsq (f : Dsq → Dsq) : base (putDsq f s) = base s := rfl
@[simp] theorem base_putLsc (f : Lsc → Lsc) : base (putLsc f s) = base s := rfl
@[simp] theorem base_putSpc (f : Spc → Spc) : base (putSpc f s) = base s := rfl
@[simp] theorem base_putTrain (t : List Entry) : base (putTrain t s) = base s := rfl
@[simp] theorem base_putRoute (r : Route) (x : RouteState) : base (putRoute r x s) = base s := rfl
@[simp] theorem base_putInFlight (x : Option InFlight) : base (putInFlight x s) = base s := rfl
@[simp] theorem base_putCurrent (x : Option Route) : base (putCurrent x s) = base s := rfl
@[simp] theorem base_modifyPort (p : Port) (f : PortState → PortState) : base (modifyPort p f s) = base s := by
  cases p <;> rfl
@[simp] theorem base_updateEntry (n : SeqNo) (f : Entry → Entry) : base (updateEntry n f s) = base s := rfl
@[simp] theorem base_respond (k : RespStatus) (p : List Byte) : base (respond k p s) = base s := rfl
@[simp] theorem base_refuse (w : Reason) : base (refuse w s) = base s := rfl

end Updates

@[simp] theorem base_offerEvent (e : Event) (s : State) : base (offerEvent e s) = base s := by
  unfold offerEvent
  split <;> simp

@[simp] theorem base_raiseAlarm (a : Alarm) (d : Nat) (s : State) : base (raiseAlarm a d s) = base s := by
  simp [raiseAlarm]

@[simp] theorem base_queueLostNotice (s : State) : base (queueLostNotice s) = base s := by
  unfold queueLostNotice
  split <;> simp

@[simp] theorem base_appendToLog (r : LogRecord) (s : State) : base (appendToLog r s) = base s := by
  unfold appendToLog
  split <;> simp

/-! ### The trackline and the train -/

@[simp] theorem base_placeFrame (a : Alarm) (p : Port) (c : QueueClass) (f : Frame) (s : State) : base (placeFrame a p c f s) = base s := by
  unfold placeFrame
  split <;> simp

@[simp] theorem base_placeOwn (c : QueueClass) (f : Frame) (p : Port) (s : State) : base (placeOwn c f p s) = base s := by
  unfold placeOwn
  split <;> simp

theorem base_inEitherOrder {f g : State → State} (hf : ∀ s, base (f s) = base s) (hg : ∀ s, base (g s) = base s)
    (s : State) : base (inEitherOrder f g s) = base s := by
  unfold inEitherOrder; split <;> simp [hf, hg]

@[simp] theorem base_sendOwn (k : Kind) (p : List Byte) (s : State) : base (sendOwn k p s) = base s := by
  unfold sendOwn
  split
  · exact base_inEitherOrder (by simp) (by simp) s
  · simp

@[simp] theorem base_forwardFrame (p : Port) (k : Kind) (f : Frame) (s : State) : base (forwardFrame p k f s) = base s := by
  unfold forwardFrame
  split <;> simp

@[simp] theorem base_badFrame (p : Port) (s : State) : base (badFrame p s) = base s := by
  simp only [badFrame]
  split <;> simp

@[simp] theorem base_sendAsk (n : Nat) (s : State) : base (sendAsk n s) = base s := by
  simp [sendAsk]

@[simp] theorem base_sendAskIfDue (s : State) : base (sendAskIfDue s) = base s := by
  unfold sendAskIfDue
  split <;> simp

@[simp] theorem base_leaveSynced (s : State) : base (leaveSynced s) = base s := by
  unfold leaveSynced
  split <;> simp

@[simp] theorem base_raiseGap (s : State) : base (raiseGap s) = base s := by
  simp [raiseGap]

@[simp] theorem base_refuseInsertion (s : State) : base (refuseInsertion s) = base s := by
  simp [refuseInsertion]

/-! ### Valves -/

@[simp] theorem base_faultRoute (r : Route) (s : State) : base (faultRoute r s) = base s := by
  simp [faultRoute]

@[simp] theorem base_commandRoute (r : Route) (p : Limit) (b : Bool) (s : State) : base (commandRoute r p b s).1 = base s := by
  simp only [commandRoute]
  (repeat' split) <;> simp

@[simp] theorem base_commandCloses (l : List Route) (x : InFlight) (s : State) : base (commandCloses l x s).1 = base s := by
  induction l generalizing x s with
  | nil => rfl
  | cons r rest ih => simp only [commandCloses]; split <;> simp [ih]

@[simp] theorem base_makeConfirmed (x : InFlight) (s : State) : base (makeConfirmed x s).1 = base s := by
  simp only [makeConfirmed]
  (repeat' split) <;> simp

@[simp] theorem base_makeFaulted (x : InFlight) (s : State) : base (makeFaulted x s).1 = base s := by
  simp [makeFaulted]

@[simp] theorem base_startSwitch (q : SwitchRequest) (s : State) : base (startSwitch q s).1 = base s := by
  simp only [startSwitch]
  (repeat' split) <;> simp

@[simp] theorem base_startWaiting (n : Nat) (s : State) : base (startWaiting n s).1 = base s := by
  induction n generalizing s with
  | zero => rfl
  | succ n ih =>
    simp only [startWaiting]
    split
    · split <;> simp [ih]
    · rfl

@[simp] theorem base_requestSwitch (q : SwitchRequest) (s : State) : base (requestSwitch q s).1 = base s := by
  unfold requestSwitch
  (repeat' split) <;> simp

@[simp] theorem base_switchCommandEnded (x : InFlight) (r : Route) (e : CommandEnd) (s : State) : base (switchCommandEnded x r e s).1 = base s := by
  simp only [switchCommandEnded]
  (repeat' split) <;> simp

/-! ### Cutting -/

@[simp] theorem base_resolveProduct (p : Nat) (s : State) : base (resolveProduct p s).1 = base s := by
  unfold resolveProduct
  split <;> simp

@[simp] theorem base_modifyRecord (f : OpenCut → OpenCut) (s : State) : base (modifyRecord f s) = base s := by
  simp [modifyRecord]

@[simp] theorem base_flagRecord (f : CutFlags → CutFlags) (s : State) : base (flagRecord f s) = base s := by
  simp [flagRecord]

@[simp] theorem base_thresholdTarget (k : ActionKind) (r : OpenCut) (s : State) : base (thresholdTarget k r s).1 = base s := by
  unfold thresholdTarget
  split <;> simp

@[simp] theorem base_markReached (k : ActionKind) (t : Option Route) (s : State) : base (markReached k t s) = base s := by
  unfold markReached
  split <;> simp

@[simp] theorem base_reachThreshold (k : ActionKind) (x : Source) (s : State) : base (reachThreshold k x s) = base s := by
  simp only [reachThreshold]
  (repeat' split) <;> simp

@[simp] theorem base_judgeWith (f : Nat → Bool) (x : Source) (s : State) : base (judgeWith f x s) = base s := by
  simp only [judgeWith]
  (repeat' split) <;> simp

@[simp] theorem base_judgeVolume (s : State) : base (judgeVolume s) = base s := by
  unfold judgeVolume
  split <;> simp

@[simp] theorem base_changeToVolume (s : State) : base (changeToVolume s) = base s := by
  simp [changeToVolume]

@[simp] theorem base_judgeDensity (s : State) : base (judgeDensity s) = base s := by
  unfold judgeDensity
  (repeat' split) <;> simp

@[simp] theorem base_judgeThresholds (s : State) : base (judgeThresholds s) = base s := by
  unfold judgeThresholds
  (repeat' split) <;> simp

@[simp] theorem base_cutRlvChanged (s : State) : base (cutRlvChanged s) = base s := by
  unfold cutRlvChanged
  (repeat' split) <;> simp

@[simp] theorem base_cutDensityNotice (s : State) : base (cutDensityNotice s) = base s := by
  unfold cutDensityNotice
  (repeat' split) <;> simp

@[simp] theorem base_openCut (e : Entry) (s : State) : base (openCut e s) = base s := by
  simp [openCut]

@[simp] theorem base_openDue (s : State) : base (openDue s) = base s := by
  unfold openDue
  (repeat' split) <;> simp

@[simp] theorem base_enterSteady (s : State) : base (enterSteady s) = base s := by
  simp [enterSteady]

@[simp] theorem base_leaveUnknown (s : State) : base (leaveUnknown s) = base s := by
  unfold leaveUnknown
  split <;> simp

@[simp] theorem base_closeRecord (b : Bool) (x : CutState) (s : State) : base (closeRecord b x s) = base s := by
  unfold closeRecord
  (repeat' split) <;> simp

@[simp] theorem base_cutAbandoned (q : SwitchRequest) (r : Option Route) (s : State) : base (cutAbandoned q r s) = base s := by
  simp only [cutAbandoned]
  (repeat' split) <;> simp

@[simp] theorem base_cutOutcome (o : SwitchOutcome) (s : State) : base (cutOutcome o s) = base s := by
  unfold cutOutcome
  (repeat' split) <;> simp

@[simp] theorem base_cutOutcomes (l : List SwitchOutcome) (s : State) : base (cutOutcomes l s) = base s := by
  unfold cutOutcomes
  induction l generalizing s with
  | nil => rfl
  | cons o rest ih => simp [ih]

@[simp] theorem base_takeStream (t : Route) (x : Source) (k : ActionKind) (s : State) : base (takeStream t x k s) = base s := by
  simp [takeStream]

@[simp] theorem base_executeSwitch (t : Route) (x : Source) (k : ActionKind) (b : Bool) (s : State) : base (executeSwitch t x k b s) = base s := by
  unfold executeSwitch
  split <;> simp

@[simp] theorem base_executeDue (n : Nat) (s : State) : base (executeDue n s) = base s := by
  induction n generalizing s with
  | zero => rfl
  | succ n ih =>
    simp only [executeDue]
    split
    · split <;> simp [ih]
    · rfl

@[simp] theorem base_switchToTransmix (s : State) : base (switchToTransmix s) = base s := by
  unfold switchToTransmix
  split <;> simp

@[simp] theorem base_countLitre (s : State) : base (countLitre s) = base s := by
  unfold countLitre
  (repeat' split) <;> simp

@[simp] theorem base_checkProduct (s : State) : base (checkProduct s) = base s := by
  simp only [checkProduct]
  (repeat' split) <;> simp

@[simp] theorem base_executeAndSettle (s : State) : base (executeAndSettle s) = base s := by
  simp only [executeAndSettle]
  split <;> simp

@[simp] theorem base_withholdFinal (s : State) : base (withholdFinal s) = base s := by
  simp [withholdFinal]

@[simp] theorem base_mergeActions (b : Bool) (s : State) : base (mergeActions b s) = base s := by
  unfold mergeActions
  (repeat' split) <;> simp

@[simp] theorem base_mergeCut (e : Entry) (s : State) : base (mergeCut e s) = base s := by
  unfold mergeCut
  split <;> simp

@[simp] theorem base_cutEntered (n : SeqNo) (s : State) : base (cutEntered n s) = base s := by
  unfold cutEntered
  (repeat' split) <;> simp

@[simp] theorem base_cutMissed (r : OpenCut) (s : State) : base (cutMissed r s) = base s := by
  simp only [cutMissed]
  (repeat' split) <;> simp

@[simp] theorem base_cutDeclared (k : PassageKind) (n : SeqNo) (x : Int) (s : State) : base (cutDeclared k n x s) = base s := by
  unfold cutDeclared
  (repeat' split) <;> simp

@[simp] theorem base_cutUntracked (s : State) : base (cutUntracked s) = base s := by
  unfold cutUntracked
  split <;> simp

@[simp] theorem base_cutReleaseTo (r : Route) (s : State) : base (cutReleaseTo r s) = base s := by
  simp [cutReleaseTo]

@[simp] theorem base_cutResync (s : State) : base (cutResync s) = base s := by
  simp [cutResync]

/-! ### Delivering -/

@[simp] theorem base_modifyActive (f : ActiveDelivery → ActiveDelivery) (s : State) : base (modifyActive f s) = base s := by
  simp [modifyActive]

@[simp] theorem base_flagActive (f : DeliveryFlags → DeliveryFlags) (s : State) : base (flagActive f s) = base s := by
  simp [flagActive]

@[simp] theorem base_endDelivery (s : State) : base (endDelivery s) = base s := by
  unfold endDelivery
  split <;> simp

@[simp] theorem base_closeEnded (e : CommandEnd) (s : State) : base (closeEnded e s) = base s := by
  unfold closeEnded
  split <;> simp

@[simp] theorem base_handClose (s : State) : base (handClose s).1 = base s := by
  simp only [handClose]
  (repeat' split) <;> simp

@[simp] theorem base_noteCloseRequest (s : State) : base (noteCloseRequest s) = base s := by
  simp [noteCloseRequest]

@[simp] theorem base_requestClose (f : DeliveryFlags → DeliveryFlags) (s : State) : base (requestClose f s).1 = base s := by
  unfold requestClose
  (repeat' split) <;> simp

@[simp] theorem base_doneTest (s : State) : base (doneTest s).1 = base s := by
  unfold doneTest
  (repeat' split) <;> simp

@[simp] theorem base_openEnded (e : CommandEnd) (s : State) : base (openEnded e s).1 = base s := by
  unfold openEnded
  (repeat' split) <;> simp

@[simp] theorem base_openDelivery (c : Candidate) (s : State) : base (openDelivery c s).1 = base s := by
  simp only [openDelivery]
  (repeat' split) <;> simp

@[simp] theorem base_skipPassed (s : State) : base (skipPassed s) = base s := by
  unfold skipPassed
  (repeat' split) <;> simp

@[simp] theorem base_chooseCandidate (s : State) : base (chooseCandidate s) = base s := by
  unfold chooseCandidate
  (repeat' split) <;> simp

@[simp] theorem base_judgeCandidateOnce (s : State) : base (judgeCandidateOnce s).1 = base s := by
  simp only [judgeCandidateOnce]
  (repeat' split) <;> simp

@[simp] theorem base_judgeCandidate (s : State) : base (judgeCandidate s) = base s := by
  unfold judgeCandidate
  split <;> simp

@[simp] theorem base_afterDelivery (y : State × Bool) : base (afterDelivery y) = base y.1 := by
  unfold afterDelivery; split <;> simp

@[simp] theorem base_trailingTest (s : State) : base (trailingTest s) = base s := by
  unfold trailingTest
  split <;> simp

@[simp] theorem base_deliveryAfterEvaluation (s : State) : base (deliveryAfterEvaluation s) = base s := by
  unfold deliveryAfterEvaluation
  exact base_inEitherOrder (by simp) (by simp) s

@[simp] theorem base_noteDetection (n : SeqNo) (s : State) : base (noteDetection n s) = base s := by
  simp [noteDetection]

@[simp] theorem base_countDelivered (s : State) : base (countDelivered s) = base s := by
  unfold countDelivered
  (repeat' split) <;> simp

@[simp] theorem base_plainOutcome (r : Route) (e : CommandEnd) (s : State) : base (plainOutcome r e s) = base s := by
  unfold plainOutcome
  (repeat' split) <;> simp

@[simp] theorem base_deliveryResync (s : State) : base (deliveryResync s) = base s := by
  simp [deliveryResync]

/-! ### Tracking -/

@[simp] theorem base_judgeNudge (e : Entry) (s : State) : base (judgeNudge e s) = base s := by
  unfold judgeNudge
  split <;> rfl

@[simp] theorem base_handDeclaration (k : PassageKind) (e : Entry) (s : State) : base (handDeclaration k e s) = base s := by
  unfold handDeclaration
  (repeat' split) <;> simp

@[simp] theorem base_declare (k : PassageKind) (e : Entry) (s : State) : base (declare k e s) = base s := by
  unfold declare
  (repeat' split) <;> simp

@[simp] theorem base_openWindow (n : SeqNo) (s : State) : base (openWindow n s) = base s := by
  unfold openWindow
  split <;> simp

@[simp] theorem base_testWindow (b : Bool) (e : Entry) (s : State) : base (testWindow b e s) = base s := by
  unfold testWindow
  (repeat' split) <;> simp

@[simp] theorem base_visitEntry (a : Bool) (b : Option SeqNo) (x : State × Tracker) (n : SeqNo) :
    base (visitEntry a b x n).1 = base x.1 := by
  simp only [visitEntry]
  split
  · rfl
  · split
    · rfl
    · simp only
      split <;> split <;> (try split) <;> simp

@[simp] theorem base_visits (a : Bool) (b : Option SeqNo) (l : List SeqNo) (x : State × Tracker) :
    base (l.foldl (visitEntry a b) x).1 = base x.1 := by
  induction l generalizing x with
  | nil => rfl
  | cons n rest ih => simp [ih]

@[simp] theorem base_evaluateOnce (a : Bool) (b : Option SeqNo) (s : State) : base (evaluateOnce a b s) = base s := by
  unfold evaluateOnce
  simp only
  split <;> simp

@[simp] theorem base_evaluateRemovals (n k : Nat) (s : State) : base (evaluateRemovals n k s) = base s := by
  induction n generalizing k s with
  | zero => rfl
  | succ n ih => simp only [evaluateRemovals]; split <;> simp [ih]

@[simp] theorem base_evaluate (a : Bool) (b : Option SeqNo) (s : State) : base (evaluate a b s) = base s := by
  unfold evaluate
  split <;> simp

@[simp] theorem base_evaluateIfRemoved (t s : State) : base (evaluateIfRemoved t s) = base s := by
  unfold evaluateIfRemoved; split <;> simp

@[simp] theorem base_afterMove (b : Option SeqNo) (s : State) : base (afterMove b s) = base s := by
  unfold afterMove
  split
  · exact base_inEitherOrder (by simp) (by simp) s
  · simp

@[simp] theorem base_trackLitre (s : State) : base (trackLitre s) = base s := by
  simp [trackLitre]

@[simp] theorem base_trackDelta (d m : Nat) (s : State) : base (trackDelta d m s) = base s := by
  simp [trackDelta]

@[simp] theorem base_takeSnap (x : Nat) (n : SeqNo) (k : PassageKind) (s : State) : base (takeSnap x n k s) = base s := by
  unfold takeSnap
  (repeat' split) <;> simp

@[simp] theorem base_takeRemoval (x : Nat) (n : SeqNo) (s : State) : base (takeRemoval x n s) = base s := by
  unfold takeRemoval
  (repeat' split) <;> simp

/-! ### Launching and joining -/

@[simp] theorem base_closeRunningEntry (s : State) : base (closeRunningEntry s) = base s := by
  unfold closeRunningEntry
  split <;> simp

@[simp] theorem base_appendOrderEntry (n : SeqNo) (o : Order) (s : State) : base (appendOrderEntry n o s) = base s := by
  unfold appendOrderEntry
  split <;> simp

@[simp] theorem base_completeChangeover (r : Route) (x : SwitchResult) (s : State) : base (completeChangeover r x s) = base s := by
  unfold completeChangeover
  split <;> simp

@[simp] theorem base_changeoverOutcome (o : SwitchOutcome) (s : State) : base (changeoverOutcome o s) = base s := by
  unfold changeoverOutcome
  split <;> simp

@[simp] theorem base_startChangeover (o : Order) (s : State) : base (startChangeover o s).1 = base s := by
  unfold startChangeover
  split <;> simp

@[simp] theorem base_startWithConflict (o : Order) (s : State) : base (startWithConflict o s).1 = base s := by
  unfold startWithConflict
  split <;> simp

@[simp] theorem base_judgeChangeoverOnce (s : State) : base (judgeChangeoverOnce s).1 = base s := by
  unfold judgeChangeoverOnce
  (repeat' split) <;> simp

@[simp] theorem base_outcomes (l : List SwitchOutcome) (s : State) :
    base (l.foldl (fun s o => changeoverOutcome o s) s) = base s := by
  induction l generalizing s with
  | nil => rfl
  | cons o rest ih => simp [ih]

@[simp] theorem base_judgeChangeovers (n : Nat) (s : State) : base (judgeChangeovers n s) = base s := by
  induction n generalizing s with
  | zero => rfl
  | succ n ih =>
    have h := base_judgeChangeoverOnce s
    simp only [judgeChangeovers]
    split
    · simp_all
    · simp_all

@[simp] theorem base_judgeChangeover (s : State) : base (judgeChangeover s) = base s := by
  simp [judgeChangeover]

@[simp] theorem base_changeoverOutcomes (l : List SwitchOutcome) (s : State) : base (changeoverOutcomes l s) = base s := by
  cases l with
  | nil => rfl
  | cons o rest => simp [changeoverOutcomes]

@[simp] theorem base_countLaunched (s : State) : base (countLaunched s) = base s := by
  simp [countLaunched]

@[simp] theorem base_putHolds (l : List Hold) (s : State) : base (putHolds l s) = base s := by
  simp [putHolds]

@[simp] theorem base_setHold (a b c : Nat) (s : State) : base (setHold a b c s) = base s := by
  unfold setHold
  (repeat' split) <;> simp

@[simp] theorem base_removeHold (a b : Nat) (s : State) : base (removeHold a b s) = base s := by
  unfold removeHold
  split <;> simp

@[simp] theorem base_takeHold (a b c : Nat) (s : State) : base (takeHold a b c s) = base s := by
  unfold takeHold
  (repeat' split) <;> simp

theorem base_makeRoom {s t : State} (h : makeRoom s = some t) : base t = base s := by
  unfold makeRoom at h
  split at h
  · cases h
  · split at h
    · obtain rfl := Option.some.inj h
      simp only [base_evaluateIfRemoved]
      split <;> simp
    · obtain rfl := Option.some.inj h
      rfl

@[simp] theorem base_applyPrior (m : LaunchMsg) (s : State) : base (applyPrior m s) = base s := by
  unfold applyPrior
  split <;> simp

@[simp] theorem base_appendLaunch (m : LaunchMsg) (b : Bool) (s : State) : base (appendLaunch m b s) = base s := by
  simp only [appendLaunch]
  split
  · simp
  · rename_i s1 h
    rw [base_evaluate]
    split <;> simp [base_makeRoom h]

@[simp] theorem base_placeLaunch (m : LaunchMsg) (s : State) : base (placeLaunch m s) = base s := by
  unfold placeLaunch
  (repeat' split) <;> simp

@[simp] theorem base_insertItem (b : ItemBody) (s : State) : base (insertItem b s).1 = base s := by
  simp only [insertItem]
  split
  · split <;> simp
  · split
    · rfl
    · split
      · rfl
      · split
        · simp
        · rename_i s1 h
          split <;> simp [base_makeRoom h]

@[simp] theorem base_transferComplete (s : State) : base (transferComplete s) = base s := by
  simp only [transferComplete]
  split <;> simp

@[simp] theorem base_takeAdopted (m : ItemMsg) (s : State) : base (takeAdopted m s) = base s := by
  simp only [takeAdopted]
  (repeat' split) <;> simp

@[simp] theorem base_judgeItem (x : Nat) (m : ItemMsg) (s : State) : base (judgeItem x m s) = base s := by
  unfold judgeItem
  (repeat' split) <;> simp

@[simp] theorem base_takeItem (x : Nat) (m : ItemMsg) (s : State) : base (takeItem x m s) = base s := by
  unfold takeItem
  split <;> simp

@[simp] theorem base_trainResync (s : State) : base (trainResync s) = base s := by
  simp [trainResync]

@[simp] theorem base_takeAsk (x : Nat) (a : AskMsg) (s : State) : base (takeAsk x a s) = base s := by
  simp only [takeAsk]
  (repeat' split) <;> simp

@[simp] theorem base_handItem (s : State) : base (handItem s) = base s := by
  unfold handItem
  (repeat' split) <;> simp

@[simp] theorem base_startLearning (s : State) : base (startLearning s) = base s := by
  unfold startLearning
  split <;> simp

/-! ### Density, beacons and commands -/

@[simp] theorem base_densityNotice (b : Bool) (s : State) : base (densityNotice b s) = base s := by
  unfold densityNotice
  split
  · exact base_inEitherOrder (by simp) (by simp) s
  · simp

theorem base_departureRun (n : Nat) (s : State) : base (putDsu (fun d => { d with departureRun := n }) s) = base s := rfl

theorem base_departureStep (s : State) :
    base (putDsu (fun d => { d with departureRun := d.departureRun + 1 }) s) = base s := rfl

@[simp] theorem base_declareDeparture (s : State) : base (declareDeparture s) = base s := by
  simp only [declareDeparture]
  (repeat' split) <;> simp

@[simp] theorem base_judgeDeparture (n : Nat) (s : State) : base (judgeDeparture n s) = base s := by
  unfold judgeDeparture
  (repeat' split) <;> simp [base_departureRun, base_departureStep]

@[simp] theorem base_judgeBeaconGap (n : Nat) (s : State) : base (judgeBeaconGap n s) = base s := by
  unfold judgeBeaconGap
  split <;> simp

@[simp] theorem base_learnSequence (b : BeaconMsg) (s : State) : base (learnSequence b s) = base s := by
  unfold learnSequence
  (repeat' split) <;> simp

@[simp] theorem base_judgePeerChange (t s : State) : base (judgePeerChange t s) = base s := by
  unfold judgePeerChange
  split <;> simp

@[simp] theorem base_receiveLaunch (f : RxFrame) (s : State) : base (receiveLaunch f s) = base s := by
  unfold receiveLaunch
  split <;> simp

@[simp] theorem base_receivePassage (f : RxFrame) (s : State) : base (receivePassage f s) = base s := by
  unfold receivePassage
  split <;> simp

@[simp] theorem base_receiveHold (f : RxFrame) (s : State) : base (receiveHold f s) = base s := by
  unfold receiveHold
  split <;> simp

@[simp] theorem base_commandEnded (r : Route) (b : Bool) (e : CommandEnd) (s : State) : base (commandEnded r b e s) = base s := by
  unfold commandEnded
  (repeat' split) <;> simp

@[simp] theorem base_limitSettled (r : Route) (x : RouteState) (s : State) : base (limitSettled r x s) = base s := by
  unfold limitSettled
  (repeat' split) <;> simp

@[simp] theorem base_reportRouteToCut (r : Option Route) (s : State) : base (reportRouteToCut r s) = base s := by
  simp [reportRouteToCut]

@[simp] theorem base_reportRouteToLaunch (r : Option Route) (s : State) : base (reportRouteToLaunch r s) = base s := by
  unfold reportRouteToLaunch
  split <;> simp

theorem base_readCurrentRoute {f : Option Route → State → State} (hf : ∀ r s, base (f r s) = base s) (s : State) :
    base (readCurrentRoute f s) = base s := by
  unfold readCurrentRoute
  split <;> simp [hf]

theorem base_startCloses (l : List Route) (s : State) :
    base (l.foldl (fun s r => (commandRoute r .closed true s).1) s) = base s := by
  induction l generalizing s with
  | nil => rfl
  | cons r rest ih => simp [ih]

@[simp] theorem base_closeOpenRoutes (s : State) : base (closeOpenRoutes s) = base s := base_startCloses _ _

@[simp] theorem base_startReading (s : State) : base (startReading s) = base s := by
  unfold startReading
  simp only
  split
  · simp only [base_evaluateIfRemoved, base_cutOutcomes, base_startWaiting]
    exact base_readCurrentRoute (by simp) s
  · split
    · simp only [base_changeoverOutcomes, base_startWaiting]
      exact base_readCurrentRoute (by simp) s
    · split <;> simp

@[simp] theorem base_portBecomesUp (p : Port) (s : State) : base (portBecomesUp p s) = base s := by
  simp [portBecomesUp]

@[simp] theorem base_trainingSymbol (p : Port) (x : Symbol) (s : State) : base (trainingSymbol p x s) = base s := by
  unfold trainingSymbol
  (repeat' split) <;> simp

@[simp] theorem base_cutAfterLitre (s : State) : base (cutAfterLitre s) = base s := by
  simp [cutAfterLitre]

@[simp] theorem base_handLitre (s : State) : base (handLitre s) = base s := by
  unfold handLitre
  split
  · rw [base_inEitherOrder (by simp) (by simp)]; simp
  · split <;> simp

@[simp] theorem base_readEvent (s : State) : base (readEvent s) = base s := by
  unfold readEvent
  split <;> simp

@[simp] theorem base_readCut (s : State) : base (readCut s) = base s := by
  unfold readCut
  split <;> simp

@[simp] theorem base_respondRead (x : Option (List Byte)) (s : State) : base (respondRead x s) = base s := by
  unfold respondRead
  split <;> simp

@[simp] theorem base_ackAlarms (x : BitVec 32) (s : State) : base (ackAlarms x s) = base s := by
  unfold ackAlarms
  split <;> simp

@[simp] theorem base_judgeIfOnly (s : State) : base (judgeIfOnly s) = base s := by
  unfold judgeIfOnly
  split <;> simp

@[simp] theorem base_enterOrder (o : Order) (n : Nat) (b : Bool) (s : State) : base (enterOrder o n b s) = base s := by
  unfold enterOrder
  split <;> simp

@[simp] theorem base_cancelOrder (n : Nat) (s : State) : base (cancelOrder n s) = base s := by
  unfold cancelOrder
  (repeat' split) <;> simp

theorem base_launchForceAdvance {s t : State} (h : launchForceAdvance s = some t) : base t = base s := by
  unfold launchForceAdvance at h
  split at h
  · split at h
    · cases h
    · simp only at h
      split at h <;> (obtain rfl := Option.some.inj h; simp)
  · cases h

theorem base_cutForceAdvance {s t : State} (h : cutForceAdvance s = some t) : base t = base s := by
  unfold cutForceAdvance at h
  split at h
  · cases h
  · rename_i r _
    split at h
    · cases h
    · simp only at h
      split at h
      · obtain rfl := Option.some.inj h; simp
      · by_cases h1 : r.headPending = true
        · simp only [h1, if_true, reduceCtorEq, if_false] at h
          obtain rfl := Option.some.inj h
          split <;> simp
        · by_cases h2 : r.finalPending = true
          · simp only [h1, h2, if_true, reduceCtorEq, if_false] at h
            obtain rfl := Option.some.inj h
            split <;> simp
          · simp [h1, h2] at h

theorem base_cutForceTransmix {s t : State} (h : cutForceTransmix s = some t) : base t = base s := by
  unfold cutForceTransmix at h
  split at h
  · cases h
  · obtain rfl := Option.some.inj h; simp

theorem base_closeCommanded {s t : State} (h : closeCommanded s = some t) : base t = base s := by
  unfold closeCommanded at h
  split at h
  · cases h
  · split at h
    · obtain rfl := Option.some.inj h; simp
    · cases h

@[simp] theorem base_releaseTo (n : Nat) (s : State) : base (releaseTo n s) = base s := by
  unfold releaseTo
  (repeat' split) <;> simp

end Sys2Proof.Machine
end

