-- ==== Sys2Proof/Laws/Meter.lean ====
section
/-! SUPPORT. What the litres of a pulse do to the base of the state (R26, R31): the whole pulse at once, so that no later proof goes litre by
litre for it. The litre stays a name here: a literal of its size makes the kernel count. -/

namespace Sys2Proof.Machine

theorem emitLitre_base (s : State) :
    base (emitLitre s) = { base s with fine := lessLitre s.mtr.fine, count := s.mtr.count + 1 } := by
  rw [emitLitre, base_handLitre]
  rfl

theorem lessLitre_eq (f : Nat) : lessLitre f = f - litre := by
  unfold lessLitre
  exact Int.toNat_sub f litre

theorem litre_left (n f : Nat) : lessLitre f - n * litre = f - (n + 1) * litre := by
  rw [lessLitre_eq, Nat.succ_mul, Nat.sub_sub, Nat.add_comm]

/-- `n` litres take n litres from F and add n to C (R26, R27); the base is otherwise unchanged. -/
theorem emitLitres_base (n : Nat) (s : State) :
    base (emitLitres n s) = { base s with fine := s.mtr.fine - n * litre, count := s.mtr.count + n } := by
  induction n generalizing s with
  | zero => rw [emitLitres, Nat.zero_mul]; rfl
  | succ n ih =>
    have hf : (emitLitre s).mtr.fine = lessLitre s.mtr.fine := congrArg Base.fine (emitLitre_base s)
    have hc : (emitLitre s).mtr.count = s.mtr.count + 1 := congrArg Base.count (emitLitre_base s)
    rw [emitLitres, ih, hf, hc, emitLitre_base, litre_left, Nat.add_assoc, Nat.add_comm 1 n]

/-- A mainline pulse (R26): F keeps what is below a litre, and C rises by the whole litres. -/
theorem takeMainline_base (s : State) :
    base (takeMainline s) =
      { base s with fine := pulsedFine s % litre, count := s.mtr.count + pulsedFine s / litre } := by
  rw [takeMainline, emitLitres_base]
  generalize pulsedFine s = x
  have h : x - x / litre * litre = x % litre := by rw [Nat.mod_eq_sub_mul_div, Nat.mul_comm]
  rw [← h]
  rfl

theorem emitDelivered_base (s : State) : base (emitDelivered s) =
    { base s with deliveryFine := lessLitre s.mtr.deliveryFine, deliveryCount := s.mtr.deliveryCount + 1 } := by
  rw [emitDelivered, base_countDelivered]
  rfl

/-- `n` delivery litres take n litres from FD and add n to D (R31); the base is otherwise unchanged. -/
theorem emitDeliveries_base (n : Nat) (s : State) :
    base (emitDeliveries n s) =
      { base s with
        deliveryFine := s.mtr.deliveryFine - n * litre, deliveryCount := s.mtr.deliveryCount + BitVec.ofNat 32 n } := by
  induction n generalizing s with
  | zero => simp [emitDeliveries, base]
  | succ n ih =>
    have hf : (emitDelivered s).mtr.deliveryFine = lessLitre s.mtr.deliveryFine :=
      congrArg Base.deliveryFine (emitDelivered_base s)
    have hc : (emitDelivered s).mtr.deliveryCount = s.mtr.deliveryCount + 1 :=
      congrArg Base.deliveryCount (emitDelivered_base s)
    have hs : s.mtr.deliveryCount + 1 + BitVec.ofNat 32 n = s.mtr.deliveryCount + BitVec.ofNat 32 (n + 1) := by
      rw [Nat.add_comm n 1, BitVec.ofNat_add, ← BitVec.add_assoc]; rfl
    rw [emitDeliveries, ih, hf, hc, emitDelivered_base, litre_left, hs]

theorem emitDeliveries_from (x : Nat) (s : State) :
    base (emitDeliveries (x / litre) (putMtr (fun m => { m with deliveryFine := x }) s)) =
      { base s with
        deliveryFine := x % litre, deliveryCount := s.mtr.deliveryCount + BitVec.ofNat 32 (x / litre) } := by
  rw [emitDeliveries_base]
  have h : x - x / litre * litre = x % litre := by rw [Nat.mod_eq_sub_mul_div, Nat.mul_comm]
  rw [← h]
  rfl

/-- A delivery pulse (R31): FD keeps what is below a litre, and D rises by the whole litres modulo 2^32. -/
theorem takeDelivery_base (s : State) :
    base (takeDelivery s) =
      { base s with
        deliveryFine := pulsedDelivery s % litre
        deliveryCount := s.mtr.deliveryCount + BitVec.ofNat 32 (pulsedDelivery s / litre) } :=
  emitDeliveries_from _ _

end Sys2Proof.Machine
end

