-- ==== Sys2Proof/Laws/Ops.lean ====
section
/-! SUPPORT. What each shared operation can do, said once: the lemmas that later proofs cite instead of unfolding the operation. -/

namespace Sys2Proof.Machine

/-! ### Free orders, events, alarms (Ops.lean) -/

/-- Two effects in a free order are one of the two orders, with the counter raised. -/
theorem inEitherOrder_cases (f g : State → State) (s : State) :
    inEitherOrder f g s = g (f { s with choices := s.choices + 1 }) ∨ inEitherOrder f g s = f (g { s with choices := s.choices + 1 }) := by
  unfold inEitherOrder
  split
  · exact .inl rfl
  · exact .inr rfl

/-- What two effects both keep, a free order of them keeps. -/
theorem inEitherOrder_keeps (P : State → Prop) {f g : State → State} (hf : ∀ s, P s → P (f s)) (hg : ∀ s, P s → P (g s))
    (hc : ∀ s, P s → P { s with choices := s.choices + 1 }) {s : State} (h : P s) : P (inEitherOrder f g s) := by
  rcases inEitherOrder_cases f g s with e | e <;> rw [e]
  · exact hg _ (hf _ (hc _ h))
  · exact hf _ (hg _ (hc _ h))

/-- A raised alarm changes only SPC: its latch is set and its event is offered (R205). -/
theorem raiseAlarm_eq (a : Alarm) (d : Nat) (s : State) : raiseAlarm a d s = { s with spc := (raiseAlarm a d s).spc } := by
  unfold raiseAlarm offerEvent
  split <;> rfl

/-- An offered event changes only SPC (R203). -/
theorem offerEvent_eq (e : Event) (s : State) : offerEvent e s = { s with spc := (offerEvent e s).spc } := by
  unfold offerEvent
  split <;> rfl

/-- The lost notice joins the queue when it is owed and there is room; otherwise nothing changes (R203). -/
theorem queueLostNotice_cases (s : State) :
    ((s.spc.lostOwed = true ∧ s.spc.events.length < 64) ∧ queueLostNotice s = { s with spc := { s.spc with
      events := s.spc.events ++ [⟨s.now, .alarm Alarm.eventsLost.bit 0 (some s.spc.lostCount)⟩], lostOwed := false } }) ∨
    (¬ (s.spc.lostOwed = true ∧ s.spc.events.length < 64) ∧ queueLostNotice s = s) := by
  unfold queueLostNotice
  by_cases h : s.spc.lostOwed = true ∧ s.spc.events.length < 64
  · exact .inl ⟨h, by rw [if_pos (by simp [h.1, h.2])]⟩
  · exact .inr ⟨h, by rw [if_neg (by simpa using h)]⟩

/-! ### The trackline (Line.lean) -/

/-- The length of a class queue after a frame joined the class `c`. -/
theorem queue_enqueue_length (x : PortState) (c d : QueueClass) (f : Frame) :
    ((x.enqueue c f).queue d).length = (x.queue d).length + if d = c then 1 else 0 := by
  cases c <;> cases d <;> simp [PortState.enqueue, PortState.queue]

/-- The arbiter leaves a port that is not UP, or is sending, or has nothing to send; else the port sends a frame that left one of its
queues (R110). -/
theorem arbitrate_cases (clock : Nat) (x : PortState) :
    (arbitrate clock x = x ∧ (x.link ≠ .up ∨ x.sending ≠ none ∨ (x.urgent = [] ∧ x.routine = [] ∧ x.bulk = []))) ∨
    (x.link = .up ∧ x.sending = none ∧ ∃ f,
      ((∃ rest, x.urgent = f :: rest ∧ arbitrate clock x = { x with urgent := rest, sending := some ⟨f, clock + slotMicros f⟩ }) ∨
       (x.urgent = [] ∧ ∃ rest, x.routine = f :: rest ∧ arbitrate clock x = { x with routine := rest, sending := some ⟨f, clock + slotMicros f⟩ }) ∨
       (x.urgent = [] ∧ x.routine = [] ∧ ∃ rest, x.bulk = f :: rest
        ∧ arbitrate clock x = { x with bulk := rest, sending := some ⟨f, clock + slotMicros f⟩ }))) := by
  unfold arbitrate
  by_cases h : x.link = .up ∧ x.sending = none
  · rw [if_pos h]
    cases hu : x.urgent with
    | cons f rest => exact .inr ⟨h.1, h.2, f, .inl ⟨rest, rfl, by simp [PortState.send]⟩⟩
    | nil =>
      cases hr : x.routine with
      | cons f rest => exact .inr ⟨h.1, h.2, f, .inr (.inl ⟨rfl, rest, rfl, by simp [PortState.send]⟩)⟩
      | nil =>
        cases hb : x.bulk with
        | cons f rest => exact .inr ⟨h.1, h.2, f, .inr (.inr ⟨rfl, rfl, rest, rfl, by simp [PortState.send]⟩)⟩
        | nil => exact .inl ⟨rfl, .inr (.inr ⟨rfl, rfl, rfl⟩)⟩
  · rw [if_neg h]
    refine .inl ⟨rfl, ?_⟩
    by_cases hl : x.link = .up
    · exact .inr (.inl fun hs => h ⟨hl, hs⟩)
    · exact .inl hl

/-- A frame placed on a port: dropped with its alarm at a full queue, else queued and the port's arbiter run (R108, R110). -/
theorem placeFrame_cases (a : Alarm) (p : Port) (c : QueueClass) (f : Frame) (s : State) :
    (c.capacity ≤ ((portGet s.tlc p).queue c).length ∧ placeFrame a p c f s = raiseAlarm a (portCode p) s) ∨
    (((portGet s.tlc p).queue c).length < c.capacity ∧
      placeFrame a p c f s = { s with tlc := portSet s.tlc p (arbitrate s.clock ((portGet s.tlc p).enqueue c f)) }) := by
  unfold placeFrame queueFull
  by_cases h : c.capacity ≤ ((portGet s.tlc p).queue c).length
  · exact .inl ⟨h, by rw [if_pos (by simpa using h)]⟩
  · exact .inr ⟨by omega, by rw [if_neg (by simpa using h)]; rfl⟩

/-- An own telegram's copy for one port: none unless the port is UP (R109). -/
theorem placeOwn_cases (c : QueueClass) (f : Frame) (p : Port) (s : State) :
    ((portGet s.tlc p).link ≠ .up ∧ placeOwn c f p s = s) ∨
    ((portGet s.tlc p).link = .up ∧ placeOwn c f p s = placeFrame .txOverflow p c f s) := by
  unfold placeOwn portUp
  by_cases h : (portGet s.tlc p).link = .up
  · exact .inr ⟨h, by rw [if_pos (by simp [h])]⟩
  · exact .inl ⟨h, by rw [if_neg (by simp [h])]⟩

/-- What placing a frame on either port keeps, an own telegram keeps (R109). -/
theorem sendOwn_keeps (P : State → Prop) (k : Kind) (payload : List Byte)
    (hp : ∀ (p : Port) (f : Frame) (s : State), P s → P (placeOwn k.queueClass f p s))
    (hc : ∀ s, P s → P { s with choices := s.choices + 1 }) {s : State} (h : P s) : P (sendOwn k payload s) := by
  unfold sendOwn
  split
  · exact inEitherOrder_keeps P (hp _ _) (hp _ _) hc h
  · exact hp _ _ _ (hp _ _ _ h)

/-- With no port UP an own telegram goes nowhere (R109). -/
theorem sendOwn_dark (k : Kind) (payload : List Byte) (s : State) (hu : s.tlc.upPort.link ≠ .up) (hd : s.tlc.downPort.link ≠ .up) :
    sendOwn k payload s = s := by
  have h1 : portUp s .up = false := by simp [portUp, portGet, hu]
  have h2 : portUp s .down = false := by simp [portUp, portGet, hd]
  simp [sendOwn, placeOwn, h1, h2]

/-- A good frame joins the receive queue, or raises RX_OVERRUN at 16 (R106). -/
theorem placeReceived_cases (p : Port) (f : Frame) (s : State) :
    (s.tlc.rxQueue.length < 16 ∧ placeReceived p f s = { s with tlc := { s.tlc with rxQueue := s.tlc.rxQueue ++ [⟨p, f⟩] } }) ∨
    (16 ≤ s.tlc.rxQueue.length ∧ placeReceived p f s = raiseAlarm .rxOverrun 0 s) := by
  unfold placeReceived
  by_cases h : s.tlc.rxQueue.length < 16
  · exact .inl ⟨h, by rw [if_pos h]⟩
  · exact .inr ⟨by omega, by rw [if_neg h]⟩

/-- At most nine times are kept (R104). -/
theorem noiseTimes_length (now : Nat) (times : List Nat) : (noiseTimes now times).length ≤ 9 := by
  unfold noiseTimes
  rw [List.length_drop]
  omega

/-- The frame taken is the head of the receive queue, in RUN and of the kind asked for (R107). -/
theorem headFrame_some {k : Kind} {s : State} {f : RxFrame} (h : headFrame k s = some f) :
    s.running = true ∧ f.frame.kindOf = some k ∧ ∃ rest, s.tlc.rxQueue = f :: rest := by
  unfold headFrame at h
  split at h
  · next hr =>
    split at h
    · next g rest hq =>
      split at h
      · next hk => cases h; exact ⟨hr, hk, rest, hq⟩
      · cases h
    · cases h
  · cases h

/-! ### The train (Train.lean) -/

/-- A changed entry keeps the train's length. -/
@[simp] theorem changeEntry_length (n : SeqNo) (f : Entry → Entry) (t : List Entry) : (changeEntry n f t).length = t.length := by
  induction t with
  | nil => rfl
  | cons e rest ih => simp only [changeEntry]; split <;> simp [*]

/-- A change that keeps sequences keeps the list of sequences. -/
theorem changeEntry_seqs (n : SeqNo) (f : Entry → Entry) (hf : ∀ e, (f e).seq = e.seq) (t : List Entry) :
    (changeEntry n f t).map (·.seq) = t.map (·.seq) := by
  induction t with
  | nil => rfl
  | cons e rest ih => simp only [changeEntry]; split <;> simp [hf, ih]

/-- Every entry after a change is an old one, or the change of an old one with that sequence. -/
theorem mem_changeEntry {n : SeqNo} {f : Entry → Entry} {t : List Entry} {x : Entry} (h : x ∈ changeEntry n f t) :
    x ∈ t ∨ ∃ e ∈ t, e.seq = n ∧ x = f e := by
  induction t with
  | nil => cases h
  | cons e rest ih =>
    simp only [changeEntry] at h
    split at h
    · next hn =>
      rcases List.mem_cons.mp h with rfl | h
      · exact .inr ⟨e, List.mem_cons_self, by simpa using hn, rfl⟩
      · exact .inl (List.mem_cons_of_mem _ h)
    · rcases List.mem_cons.mp h with rfl | h
      · exact .inl List.mem_cons_self
      · rcases ih h with h | ⟨a, ha, h⟩
        · exact .inl (List.mem_cons_of_mem _ h)
        · exact .inr ⟨a, List.mem_cons_of_mem _ ha, h⟩

/-- The found entry is of the train and has the sequence asked for. -/
theorem findEntry_some {t : List Entry} {n : SeqNo} {e : Entry} (h : findEntry t n = some e) : e ∈ t ∧ e.seq = n :=
  ⟨List.mem_of_find?_eq_some h, by simpa [findEntry] using List.find?_some h⟩

/-- Removals leave a part of the train in its order (R20, R21). -/
theorem removeBefore_sublist (n : SeqNo) (t : List Entry) : List.Sublist (removeBefore n t) t := by
  induction t with
  | nil => exact List.Sublist.refl _
  | cons a rest ih =>
    cases rest with
    | nil => exact List.Sublist.refl _
    | cons b rest =>
      simp only [removeBefore]
      split
      · exact ih.trans (List.sublist_cons_self _ _)
      · exact ih.cons_cons _

/-- Room for one entry leaves at most 39, all of them the train's own (R17). -/
theorem roomFor_some {t u : List Entry} (h : roomFor t = some u) (ht : t.length ≤ 40) : u.length < 40 ∧ List.Sublist u t := by
  unfold roomFor at h
  split at h
  · next hl => cases h; exact ⟨hl, List.Sublist.refl _⟩
  · split at h
    · split at h
      · cases h
        exact ⟨by simp only [List.length_cons] at ht ⊢; omega, List.sublist_cons_self _ _⟩
      · cases h
    · cases h

/-- An entry placed between others is one more, and all are the train's or the new one (R15). -/
theorem insertBetween_perm {e : Entry} {t u : List Entry} {prev : Option SeqNo} (h : insertBetween e prev t = some u) : List.Perm u (e :: t) := by
  induction t generalizing prev u with
  | nil => cases h
  | cons b rest ih =>
    simp only [insertBetween] at h
    split at h
    · cases h; exact List.Perm.refl _
    · cases hr : insertBetween e (some b.seq) rest with
      | none => rw [hr] at h; cases h
      | some v =>
        rw [hr] at h
        cases h
        exact ((ih hr).cons b).trans (List.Perm.swap e b rest)

/-- A placed entry makes the train one longer, and all its entries are the train's or the new one (R15). -/
theorem placeEntry_perm {e : Entry} {t u : List Entry} (h : placeEntry e t = some u) : List.Perm u (e :: t) := by
  unfold placeEntry at h
  split at h
  · next hn =>
    cases h
    rw [show t = [] from List.getLast?_eq_none_iff.mp hn]
  · split at h
    · cases h
      exact List.perm_append_singleton _ _
    · exact insertBetween_perm h

/-! ### Valves (Valves.lean) -/

/-- A command on a route ends at once confirmed, ends at once in a fault, or is in travel (R173). -/
theorem commandRoute_cases (r : Route) (pos : Limit) (startup : Bool) (s : State) :
    ((commandRoute r pos startup s).2 = some .confirmed ∧ ∃ x, (commandRoute r pos startup s).1 = putRoute r x s) ∨
    ((commandRoute r pos startup s).2 = some .fault ∧ ∃ x, (commandRoute r pos startup s).1 = faultRoute r (putRoute r x s)) ∨
    ((commandRoute r pos startup s).2 = none ∧ ∃ x, (commandRoute r pos startup s).1 = putRoute r x s) := by
  simp only [commandRoute]
  split
  · exact .inl ⟨rfl, _, rfl⟩
  · split
    · exact .inr (.inl ⟨rfl, _, rfl⟩)
    · exact .inr (.inr ⟨rfl, _, rfl⟩)

/-- A requested switch waits, is abandoned at once with VALVE_FAULT when 8 already wait, or starts (R179, R180). -/
theorem requestSwitch_cases (q : SwitchRequest) (s : State) :
    (s.vld.waiting.length < 8 ∧ requestSwitch q s = ({ s with vld := { s.vld with waiting := s.vld.waiting ++ [q] } }, [])) ∨
    (8 ≤ s.vld.waiting.length ∧ requestSwitch q s
      = (raiseAlarm .valveFault (routeNumber q.target) s, [⟨q, .abandoned s.vld.current⟩])) ∨
    (s.vld.inFlight = none ∧ s.vld.startRead = true ∧ requestSwitch q s = ((startSwitch q s).1, (startSwitch q s).2.toList)) := by
  unfold requestSwitch
  split
  · by_cases h : s.vld.waiting.length < 8
    · exact .inl ⟨h, by rw [if_pos h]⟩
    · exact .inr (.inl ⟨by omega, by rw [if_neg h]⟩)
  · next h =>
    exact .inr (.inr ⟨by cases hf : s.vld.inFlight <;> simp_all, by simp_all, rfl⟩)

/-! ### Bytes and numbers (Bytes.lean, Arith.lean) -/

@[simp] theorem natBytes_length (size value : Nat) : (natBytes size value).length = size := by
  unfold natBytes
  split <;> simp

theorem clampNat_bounds {lo hi : Nat} (x : Nat) (h : lo ≤ hi) : lo ≤ clampNat lo hi x ∧ clampNat lo hi x ≤ hi := by
  unfold clampNat
  omega

theorem clampInt_bounds {lo hi : Int} (x : Int) (h : lo ≤ hi) : lo ≤ clampInt lo hi x ∧ clampInt lo hi x ≤ hi := by
  unfold clampInt
  omega

/-! ### Commands (Dispatch.lean) -/

/-- A good request is carried out as its own command (R198). -/
theorem execRequest_eq {code : Nat} {p : List Byte} {c : Instr} (h : requestCommand code p = some c) (s : State) :
    execRequest c s = exec c s := by
  unfold requestCommand at h
  split at h <;> cases h <;> rfl

/-- A request's effect is a next state. -/
theorem execRequest_next (c : Instr) (s : State) : ∃ t, execRequest c s = .next t := by
  cases c <;> exact ⟨_, rfl⟩

/-- The bytes of a request whose code takes a payload of this length are read as the command they spell (R198). -/
theorem readRequest_good (code : Byte) (payload : List Byte) (h : payload.length < 65536)
    (hl : requestLength code.toNat = some payload.length) :
    readRequest ((code :: natBytes 2 payload.length ++ payload) ++ [crc8 (code :: natBytes 2 payload.length ++ payload)])
      = requestCommand code.toNat (payload ++ [crc8 (code :: natBytes 2 payload.length ++ payload)]) := by
  obtain ⟨hi, lo, hb, hn⟩ :
      ∃ hi lo : Byte, natBytes 2 payload.length = [hi, lo] ∧ hi.toNat * 256 + lo.toNat = payload.length := by
    refine ⟨BitVec.ofNat 8 (payload.length / 256), BitVec.ofNat 8 payload.length, ?_, ?_⟩
    · simp [natBytes, h, List.range, List.range.loop]
    · simp only [BitVec.toNat_ofNat]
      omega
  rw [hb]
  generalize hk : crc8 (code :: [hi, lo] ++ payload) = k
  have h1 : natAt (code :: hi :: lo :: (payload ++ [k])) 1 2 = payload.length := by
    simp [natAt, natOfBytes]
    omega
  have h0 : natAt (code :: hi :: lo :: (payload ++ [k])) 0 1 = code.toNat := by
    simp [natAt, natOfBytes]
  have hp : requestPart (code :: hi :: lo :: (payload ++ [k])) = code :: hi :: lo :: (payload ++ [k]) := by
    unfold requestPart
    rw [h1]
    exact List.take_of_length_le (by simp)
  have hf : requestFault (code :: hi :: lo :: (payload ++ [k])) = none := by
    simp at hk
    simp [requestFault, h0, h1, hl, hk]
  simp [readRequest, requestComplete, hp, h1, h0, hf]

/-- What the bytes of a transaction can do (R198, R199): refused with a reason, taken as the command they spell, discarded, or,
for a code without a command, nothing. -/
theorem execSpiBadRequest_cases (bytes : List Byte) (s : State) :
    (requestComplete bytes = false ∧ execSpiBadRequest bytes s = execSpiRequestAborted s) ∨
    (requestComplete bytes = true ∧ ∃ why, requestFault (requestPart bytes) = some why ∧ execSpiBadRequest bytes s = .next (refuse why s)) ∨
    (∃ c, readRequest bytes = some c ∧ execSpiBadRequest bytes s = execRequest c s) ∨
    (readRequest bytes = none ∧ execSpiBadRequest bytes s = .next s) := by
  unfold execSpiBadRequest
  cases hc : requestComplete bytes with
  | false => exact .inl ⟨rfl, by simp⟩
  | true =>
    cases hf : requestFault (requestPart bytes) with
    | some why => exact .inr (.inl ⟨rfl, why, rfl, by simp⟩)
    | none =>
      cases hr : readRequest bytes with
      | some c => exact .inr (.inr (.inl ⟨c, rfl, by simp⟩))
      | none => exact .inr (.inr (.inr ⟨rfl, by simp⟩))

/-- Every command answers a next state. -/
theorem exec_next (c : Instr) (s : State) : ∃ t, exec c s = .next t := by
  cases c
  case spiBadRequest bytes =>
    rcases execSpiBadRequest_cases bytes s with ⟨-, h⟩ | ⟨-, why, -, h⟩ | ⟨c, -, h⟩ | ⟨-, h⟩ <;> simp only [exec, h]
    · exact ⟨_, rfl⟩
    · exact ⟨_, rfl⟩
    · exact execRequest_next c s
    · exact ⟨_, rfl⟩
  all_goals exact ⟨_, rfl⟩

/-! ### What the lines carry (Line.lean) -/

/-- A frame's slot lasts 10 µs for each of its symbols (R98, R111). -/
theorem slotMicros_eq (f : Frame) : slotMicros f = 10 * f.slotSymbols.length := by
  simp [slotMicros, Frame.slotSymbols, Frame.symbols, Frame.bytes, Frame.body]
  omega

/-- Outside RUN both transmitters are dark (R98). -/
theorem transmitted_dark {s : State} (h : s.running = false) (p : Port) : transmitted s p = none := by
  simp [transmitted, h]

/-- In RUN a port that sends no frame sends IDLE, in every link state (R98). -/
theorem transmitted_idle {s : State} (h : s.running = true) (p : Port) (hs : (portGet s.tlc p).sending = none) :
    transmitted s p = some .idle := by
  unfold transmitted
  rw [if_pos h, hs]
  cases (portGet s.tlc p).link <;> rfl

end Sys2Proof.Machine
end

