-- ==== Sys2Proof/WellFormed.lean ====
section
/-! DEFINITION. Which commands are well formed: the operands lie in the ranges the rules give them. A command
that is not well formed cannot arrive at the part. -/

namespace Sys2Proof

/-- A station number (00_scope.md 0.7.2): 1..250. -/
def stationInRange (n : Nat) : Bool := 1 ≤ n && n ≤ 250

/-- The operands' ranges, command by command: a configuration record is 304 bytes where the memory is present (R207); a frame whose END
arrives holds at most 261 bytes (R102); ENTER_ORDER carries six record places (12.2); a complete SPI request
holds at least a code, a length and a CRC-8 (R198); stations are 1..250, products of holds 0..15 (R192, R194).
Every other operand is in range by its type. -/
def Instr.wellFormed : Instr → Bool
  | .configLoadDone memory => (memory.status == 0xFF && memory.heldHigh) || memory.image.length == 304
  | .frameReceived _ bytes => bytes.length ≤ 261
  | .peerSuspectExpiry station => stationInRange station
  | .peerSilenceExpiry station => stationInRange station
  | .peerFreeExpiry station => stationInRange station
  | .conflictHoldExpiry station => stationInRange station
  | .holdEntryExpiry station product => stationInRange station && product ≤ 15
  | .holdRefreshExpiry product => product ≤ 15
  | .spiBadRequest bytes => 4 ≤ bytes.length
  | .enterOrder _ _ _ _ places => places.length == 6
  | .powerOnReset => true
  | .resetRelease => true
  | .mainlinePulse => true
  | .trimNudge => true
  | .deliveryPulse => true
  | .densityCharacter _ _ => true
  | .frameCharTimeout => true
  | .silenceTimerExpiry => true
  | .portSignalDetected _ => true
  | .portReachesUp _ => true
  | .lossOfSignal _ => true
  | .rxFrameAborted _ => true
  | .noiseCleanExpiry _ => true
  | .beaconTaken => true
  | .launchTaken => true
  | .passageTaken => true
  | .holdTaken => true
  | .askTaken => true
  | .itemTaken => true
  | .askSend => true
  | .transferTimerExpiry => true
  | .reAskTimerExpiry => true
  | .answerItemHanded => true
  | .learnTimerExpiry => true
  | .beaconTimerExpiry => true
  | .txPortFree _ => true
  | .limitChange _ _ _ => true
  | .travelTimerExpiry _ => true
  | .startReading => true
  | .staleTimerExpiry => true
  | .spiRequestAborted => true
  | .readStatus => true
  | .readEvent => true
  | .readEventRetire => true
  | .readCut => true
  | .readCutRetire => true
  | .readTrain _ => true
  | .readPeer _ => true
  | .ackAlarms _ => true
  | .setStatus _ => true
  | .cancelOrder _ => true
  | .forceAdvance => true
  | .forceTransmix => true
  | .releaseTo _ => true
  | .closeDelivery => true
  | .resync => true
  | .lostNoticeQueued => true
  | .trainingSymbolReceived _ _ => true

end Sys2Proof
end

