-- ==== Sys2Proof/Tests/Slice0.lean ====
section
/-! SUPPORT. The author's own tests: the ill-formed commands that the check refuses, the manual's worked values, single steps of commands, and for
every statement with hypotheses concrete states that meet them. -/

open Sys2Proof Sys2Proof.Machine

namespace Sys2Proof.Tests

-- One theorem at a time: many at once take more memory than the check allows.
set_option Elab.async false

/-! ### Small states -/

/-- A published configuration for tests: station 5 at 5,000 L, one litre a pulse, route 1 for product 1, route 2 for product 2, route 3 for
transmix. -/
def config (role : Role) : Published := { Published.unpublished with
  station := 5, role := some role, mark := 5000, pulseWeight := 1000, deliveryPulseWeight := 1000, trimMax := 100, trimStep := 10, mixK := 9,
  uncFloor := 100, minContrast := 200, prodTol := 50, densitometer := true, settle := 3, beaconPeriod := 10, travelTimeout := 30, holdMin := 4,
  holdHyst := 10, eventWatermark := 1, watermarks := .fill 20,
  routes := { PerRoute.fill RouteUse.unused with r1 := .product 1, r2 := .product 2, r3 := .transmix } }

/-- A station of a role in RUN. -/
def station (role : Role) : State := { State.reset with cfl := ⟨.run, false, none, config role, []⟩ }

/-- A frame of a kind from a station, received on UP. -/
def rx (kind : Kind) (from' : Nat) (payload : List Byte) : RxFrame := ⟨.up, ⟨kind.code <<< 4, BitVec.ofNat 8 from', 3, payload⟩⟩

/-- A state with one frame in the receive queue. -/
def holding (f : RxFrame) (s : State) : State := { s with tlc := { s.tlc with rxQueue := [f] } }

/-- A port that is UP and idle. -/
def upPort : PortState := { PortState.reset with link := .up, trainingCount := 16 }

/-- A port that is UP and sending. -/
def busyPort : PortState := { upPort with sending := some ⟨⟨0x30, 5, 63, [0, 1, 1]⟩, 270⟩ }

/-- A state with the two ports given. -/
def ports (up down : PortState) (s : State) : State := { s with tlc := { s.tlc with upPort := up, downPort := down } }

/-- A train entry for tests. -/
def entry (seq : SeqNo) (track : Track) (rlv : Int) : Entry where
  seq := seq
  product := 1
  density := 8000
  nominal := 100000
  launched := none
  remaining := 100000
  deliveries := []
  rlv := rlv
  sinceSnap := 0
  snapMark := none
  snappedByReference := false
  track := track
  kind := if track = .passed then some .detected else none
  short := false
  untrackedFollows := false
  mismatch := false

/-- A state with a train. -/
def train (t : List Entry) (s : State) : State := { s with trs := { s.trs with train := t } }

/-- A peer for tests, upstream of station 5 when its mark is below 5,000. -/
def peer (n mark : Nat) (standing : Standing) : Peer where
  station := n
  role := .relay
  mark := mark
  period := 10
  synced := true
  densityHealthy := true
  restarted := false
  baseline := 0
  newest := none
  arrival := .up
  standing := standing
  lastBeacon := 0
  goodCount := if standing = .heard then 2 else 3
  conflictHold := none

/-- A state with peers and no reference. -/
def peers (l : List Peer) (s : State) : State := { s with prt := ⟨l, none⟩ }

/-- The state after a command, and what a test looks at in it. -/
def after {α : Type} (c : Instr) (s : State) (look : State → α) : Option α :=
  match exec c s with
  | .next t => some (look t)
  | _ => none

/-! ### Ill-formed commands -/

theorem smoke_configRecordLength : (Instr.configLoadDone ⟨0xFF, false, [1, 2]⟩).wellFormed = false := by decide
theorem smoke_frameLength : (Instr.frameReceived .up (List.replicate 262 0)).wellFormed = false := by decide +kernel
theorem smoke_suspectStation : (Instr.peerSuspectExpiry 0).wellFormed = false := by decide
theorem smoke_silenceStation : (Instr.peerSilenceExpiry 251).wellFormed = false := by decide
theorem smoke_freeStation : (Instr.peerFreeExpiry 0).wellFormed = false := by decide
theorem smoke_conflictStation : (Instr.conflictHoldExpiry 251).wellFormed = false := by decide
theorem smoke_holdStation : (Instr.holdEntryExpiry 0 1).wellFormed = false := by decide
theorem smoke_holdProduct : (Instr.holdEntryExpiry 1 16).wellFormed = false := by decide
theorem smoke_refreshProduct : (Instr.holdRefreshExpiry 16).wellFormed = false := by decide
theorem smoke_requestLength : (Instr.spiBadRequest [1, 0, 0]).wellFormed = false := by decide
theorem smoke_orderPlaces : (Instr.enterOrder 1 8000 0 0 []).wellFormed = false := by decide
theorem smoke_wellFormed : (Instr.frameReceived .up (List.replicate 261 0)).wellFormed = true ∧ (Instr.holdEntryExpiry 250 15).wellFormed = true := by
  decide +kernel

/-- No row of the table has bits, so no word spells a command and the queue stays as it is. -/
theorem test_noWordSpellsACommand : decodeTableWord 16 5 = none ∧ (State.reset.withFetchWord 16 5).pending = [] := by decide

/-! ### Worked values -/

/-- The check values of the three polynomials for "123456789" (x^8 + x^2 + x + 1 from 00; CRC-16 from FFFF; 04C11DB7 from FFFFFFFF, inverted),
computed outside the model. -/
theorem test_crc8 : crc8 [0x31, 0x32, 0x33, 0x34, 0x35, 0x36, 0x37, 0x38, 0x39] = 0xF4 := by decide +kernel
theorem test_crc16 : crc16 [0x31, 0x32, 0x33, 0x34, 0x35, 0x36, 0x37, 0x38, 0x39] = 0x29B1 := by decide +kernel
theorem test_crc32 : crc32 [0x31, 0x32, 0x33, 0x34, 0x35, 0x36, 0x37, 0x38, 0x39] = 0xFC891918 := by decide +kernel

/-- The table of R38. -/
theorem test_isqrtTable : isqrt 48000000 = 6928 ∧ isqrt 15752961 = 3969 ∧ isqrt 771617284 = 27778 ∧ isqrt 2000000000 = 44721 ∧ isqrt 0 = 0 := by
  decide +kernel

/-- The table of R73: ρA 8,350, ρB 7,420, MIN_CONTRAST 200. -/
def reading (avg : Nat) : State := { station .terminus with dsu := { Dsu.reset with healthy := true, average := some avg } }
theorem test_mixFractionTable :
    [8380, 8350, 7885, 7886, 7420, 7300].map (fun a => mixFraction (reading a) 8350 7420)
      = [some 0, some 0, some 500, some 499, some 1000, some 1000] := by
  decide +kernel

/-- A sequence wraps, and the two that differ by 32768 are not after one another (R12). -/
theorem test_sequences : seqNext 0xFFFF = 0 ∧ seqAfter 0 0xFFFF = true ∧ seqAfter 0x8000 0 = false ∧ seqAfter 0 0x8000 = false
    ∧ seqAfter 5 5 = false := by
  decide

/-! ### Single steps -/

/-- R26: PW 65,535 at T = +5,000 adds 65,862,675,000 nL, which is 66 litres from a remainder of 137,325,000 nL and 65 from one less. -/
def heaviest (fine : Nat) : State := { station .relay with
  cfl := { (station .relay).cfl with published := { config .relay with pulseWeight := 65535, trimMax := 5000 } }
  mtr := { Mtr.reset with fine := fine, trim := 5000 } }
theorem test_pulseOf66 : after .mainlinePulse (heaviest 137325000) (fun t => (t.mtr.count, t.mtr.fine)) = some (66, 0) := by decide +kernel
theorem test_pulseOf65 : after .mainlinePulse (heaviest 137324999) (fun t => (t.mtr.count, t.mtr.fine)) = some (65, 999999999) := by decide +kernel

/-- R27: above 2^48 − 1 less 66 no pulse is taken. -/
theorem test_pulseAtTheTop : after .mainlinePulse { station .relay with mtr := { Mtr.reset with count := 281474976710590 } }
    (fun t => (t.mtr.count, t.mtr.fine)) = some (281474976710590, 0) := by decide +kernel

/-- R31: D wraps from 4,294,967,295 to 0. -/
theorem test_deliveryWraps : after .deliveryPulse { station .delivery with mtr := { Mtr.reset with deliveryCount := 0xFFFFFFFF } }
    (fun t => t.mtr.deliveryCount) = some 0 := by decide +kernel

/-- R34: a step down at the lower limit leaves T where it is and still queues its event. -/
theorem test_nudgeAtTheLimit : after .trimNudge { station .relay with mtr := { Mtr.reset with trim := -100, nudges := [⟨false, -7⟩] } }
    (fun t => (t.mtr.trim, t.spc.events)) = some (-100, [⟨0, .trimChanged (-100) (-100) (-7)⟩]) := by decide +kernel

/-- R65: a sum of 33,402 gives 8,351; the last of the four samples 8,352 is 20A0H, and 5AH, 20H, A0H and E5H sum to FFH modulo 256. -/
theorem test_averageRounds : after (.densityCharacter 0xE5 true) { station .relay with dsu := { Dsu.reset with
      receiver := .frame [0x5A, 0x20, 0xA0] 0, window := [8350, 8350, 8350], fill := 3 } }
    (fun t => (t.dsu.average, t.dsu.goodRun)) = some (some 8351, 1) := by decide +kernel

/-- R64: a check sum off by one is a reject. -/
theorem test_badCheckSum : after (.densityCharacter 0xE6 true) { station .relay with dsu := { Dsu.reset with
    receiver := .frame [0x5A, 0x20, 0xA0] 0 } }
    (fun t => (t.dsu.rejectRun, t.dsu.window)) = some (1, []) := by decide +kernel

/-- R99: the sixteenth IDLE makes the port UP. -/
theorem test_sixteenthIdle : after (.trainingSymbolReceived .down .idle)
    (ports .reset { PortState.reset with link := .training, trainingCount := 15 } (station .terminus)) (fun t => t.tlc.downPort.link) = some .up := by
  decide +kernel

/-- R102, R105: a PASSAGE of sequence 0102H, DETECTED, from station 9 with reserved hops bits set is forwarded with hops lowered and those bits 0. -/
def passageFrame : Frame := ⟨0x30, 9, 0xC3, [0x01, 0x02, 0x01]⟩
theorem test_forwarding : after (.frameReceived .up passageFrame.bytes) (ports upPort busyPort (station .relay))
    (fun t => (t.tlc.downPort.urgent.map (·.hops), t.tlc.rxQueue.length)) = some ([2], 1) := by decide +kernel

/-- R111: a PASSAGE of 9 bytes takes 270 µs. -/
theorem test_passageTime : (sendOwn .passage (passagePayload 1 .detected) (ports .reset upPort (station .relay))).tlc.downPort.sending.map (·.busyUntil)
    = some 270 := by decide +kernel

/-- R93: a delivery count that wraps from FFFFFFFEH to 3 is a delta of 5; one that jumps by 2,000,001 L is not. -/
theorem test_deltaWraps : judgeCount false 0xFFFFFFFE 3 = .delta 5 ∧ judgeCount false 0 2000001 = .jump 2000001 := by decide +kernel

/-- R192: a HOLD of 0 minutes removes the entry of its key alone. -/
theorem test_holdReleased : after .holdTaken (holding (rx .hold 9 [2, 0]) { station .origin with lsc := { Lsc.reset with
    holds := [⟨9, 2, 60⟩, ⟨8, 2, 60⟩] } })
    (fun t => t.lsc.holds) = some [⟨8, 2, 60⟩] := by decide +kernel

/-- R118: the third failed attempt gives up and asks again in 30 s. -/
theorem test_thirdAttempt : after .transferTimerExpiry { station .relay with trs := { Trs.reset with
    sync := .asking, attempts := 3, transferTimer := some 5000 } }
    (fun t => (t.trs.sync, t.trs.reAskTimer)) = some (.unsynced, some 35000) := by decide +kernel

/-- R198, R201: READ_TRAIN at index 0 of an empty train is answered EMPTY. -/
theorem test_readTrainEmpty : after (.readTrain 0) (station .relay) (fun t => t.spc.response.take 3) = some [1, 0, 0] := by decide +kernel

/-- R207, R208: an absent memory faults. -/
theorem test_memoryAbsent : after (.configLoadDone ⟨0xFF, true, []⟩) { State.reset with cfl := { Cfl.reset with reading := true } }
    (fun t => (t.cfl.load, t.cfl.fault)) = some (.configFault, some .memoryAbsent) := by decide +kernel

/-- R207: FF from a CFGIO that did not stay high, and another byte, are the status of a memory that is present. -/
theorem test_memoryPresent : memoryAbsent ⟨0xFF, false, []⟩ = false ∧ memoryAbsent ⟨0xFE, true, []⟩ = false := by decide

/-- R174: a command still in travel after its time faults, naming the route. -/
theorem test_travelFault : after (.travelTimerExpiry .r2)
    { station .terminus with vld := { Vld.reset with routes := { PerRoute.fill RouteState.reset with
      r2 := ⟨.opened, some 9, false, false, false, false⟩ } } }
    (fun t => ((routeState t .r2).faultMark, t.spc.events.map (·.event))) = some (true, [.alarm 9 2 none]) := by decide +kernel

/-- R205: acknowledging one alarm leaves the other latched. -/
theorem test_acknowledge : after (.ackAlarms 2) { station .relay with spc := { Spc.reset with alarms := 3 } } (fun t => t.spc.alarms) = some 1 := by
  decide +kernel

/-! ### The statements' hypotheses are met

Each theorem gives concrete states and operands that meet the hypotheses of the statement it names, clause by clause, at the ends of their
ranges. -/

theorem witness_stepRunsFrontCommand :
    { State.reset with pending := [.mainlinePulse] }.pending = [.mainlinePulse] ∧ State.reset.pending = [] := by decide

/-- The first 300 bytes of a record: station and role given, a route code for route 3, zeros else. -/
def recordBody (number role route : Byte) : List Byte := [number, role] ++ List.replicate 47 0 ++ [route] ++ List.replicate 250 0

/-- A record with a CRC-32 field. -/
def recordWith (number role route : Byte) (crc : Nat) : List Byte := recordBody number role route ++ natBytes 4 crc

/-- A record with a right CRC-32. -/
def record (number role route : Byte) : List Byte := recordWith number role route (crc32 (recordBody number role route)).toNat

theorem recordBody_length (number role route : Byte) : (recordBody number role route).length = 300 := by
  simp only [recordBody, List.length_append, List.length_replicate, List.length_cons, List.length_nil]

theorem natBytes_four (n : Nat) (h : n < 2 ^ 32) :
    natBytes 4 n = [BitVec.ofNat 8 (n / 16777216), BitVec.ofNat 8 (n / 65536), BitVec.ofNat 8 (n / 256), BitVec.ofNat 8 n] := by
  rw [natBytes, if_pos h]
  simp [List.range, List.range.loop]

theorem recordWith_crc (number role route : Byte) (n : Nat) (h : n < 2 ^ 32) : natAt (recordWith number role route n) 300 4 = n := by
  have hd : (recordWith number role route n).drop 300 = natBytes 4 n := List.drop_left' (recordBody_length _ _ _)
  unfold natAt
  rw [hd, natBytes_four n h]
  simp [natOfBytes]
  omega

theorem recordWith_take (number role route : Byte) (n : Nat) : (recordWith number role route n).take 300 = recordBody number role route :=
  List.take_left' (recordBody_length _ _ _)

theorem record_crc (number role route : Byte) :
    natAt (record number role route) 300 4 = (crc32 ((record number role route).take 300)).toNat := by
  rw [record, recordWith_take, recordWith_crc _ _ _ _ (BitVec.isLt _)]

theorem record_head (number role route : Byte) (n : Nat) :
    natAt (recordWith number role route n) 0 1 = number.toNat ∧ natAt (recordWith number role route n) 1 1 = role.toNat :=
  ⟨show 0 * 256 + number.toNat = _ by omega, show 0 * 256 + role.toNat = _ by omega⟩

/-- The loader reading. -/
def loading : State := { State.reset with cfl := { Cfl.reset with reading := true } }

/-- A CRC-32 field that is never right. -/
def wrongCrc : Nat := if (crc32 (recordBody 1 2 0)).toNat = 0 then 1 else 0

theorem wrongCrc_wrong : natAt (recordWith 1 2 0 wrongCrc) 300 4 ≠ (crc32 ((recordWith 1 2 0 wrongCrc).take 300)).toNat := by
  rw [recordWith_take, recordWith_crc _ _ _ _ (by unfold wrongCrc; split <;> decide)]
  unfold wrongCrc
  split <;> omega

theorem witness_loadingReadsOrFaults :
    loading.cfl.load = .loading ∧ loading.cfl.reading = true ∧ (0xFE : Byte) ≠ 0xFF
    ∧ natAt (recordWith 1 2 0 wrongCrc) 300 4 ≠ (crc32 ((recordWith 1 2 0 wrongCrc).take 300)).toNat
    ∧ (natAt (record 0 2 0) 300 4 = (crc32 ((record 0 2 0).take 300)).toNat ∧ natAt (record 0 2 0) 0 1 = 0)
    ∧ (natAt (record 251 2 0) 300 4 = (crc32 ((record 251 2 0).take 300)).toNat ∧ natAt (record 251 2 0) 0 1 = 251)
    ∧ (natAt (record 1 0 0) 300 4 = (crc32 ((record 1 0 0).take 300)).toNat ∧ natAt (record 1 0 0) 0 1 = 1 ∧ natAt (record 1 0 0) 1 1 = 0)
    ∧ (natAt (record 250 5 0) 300 4 = (crc32 ((record 250 5 0).take 300)).toNat ∧ natAt (record 250 5 0) 0 1 = 250
      ∧ natAt (record 250 5 0) 1 1 = 5) :=
  ⟨rfl, rfl, by decide, wrongCrc_wrong, ⟨record_crc _ _ _, (record_head _ _ _ _).1⟩, ⟨record_crc _ _ _, (record_head _ _ _ _).1⟩,
    ⟨record_crc _ _ _, (record_head _ _ _ _).1, (record_head _ _ _ _).2⟩, ⟨record_crc _ _ _, (record_head _ _ _ _).1, (record_head _ _ _ _).2⟩⟩

theorem record_passes (number role route : Byte) (h : 1 ≤ number.toNat ∧ number.toNat ≤ 250 ∧ 1 ≤ role.toNat ∧ role.toNat ≤ 4) :
    RecordPasses (record number role route) :=
  ⟨record_crc _ _ _, by rw [record, (record_head _ _ _ _).1]; exact h.1, by rw [record, (record_head _ _ _ _).1]; exact h.2.1,
    by rw [record, (record_head _ _ _ _).2]; exact h.2.2.1, by rw [record, (record_head _ _ _ _).2]; exact h.2.2.2⟩

theorem record_role (number role route : Byte) : (clampedRecord (record number role route)).role = roleOfCode role.toNat :=
  congrArg roleOfCode (record_head _ _ _ _).2

theorem record_routes (number role route : Byte) :
    (clampedRecord (record number role route)).routes
      = routesOf .unused ((clampRoutes [] [0, 0, route.toNat, 0, 0, 0, 0, 0]).map routeUseOfCode) := by
  have h : rawRoutes (record number role route) = [0, 0, 0 * 256 + route.toNat, 0, 0, 0, 0, 0] := rfl
  rw [Nat.zero_mul, Nat.zero_add] at h
  rw [← h]
  rfl

theorem witness_goodRecordIsPublished :
    loading.cfl.load = .loading ∧ loading.cfl.reading = true ∧ (0xFE : Byte) ≠ 0xFF
    ∧ (RecordPasses (record 250 4 0) ∧ (clampedRecord (record 250 4 0)).role = some .terminus
      ∧ ∀ r : Route, routeGet (clampedRecord (record 250 4 0)).routes r ≠ .transmix)
    ∧ (RecordPasses (record 1 4 16) ∧ routeGet (clampedRecord (record 1 4 16)).routes .r3 = .transmix)
    ∧ (RecordPasses (record 1 1 0) ∧ (clampedRecord (record 1 1 0)).role ≠ some .terminus) :=
  ⟨rfl, rfl, by decide, ⟨record_passes _ _ _ (by decide), record_role _ _ _, fun r => by rw [record_routes]; cases r <;> decide⟩,
    ⟨record_passes _ _ _ (by decide), by rw [record_routes]; decide⟩, ⟨record_passes _ _ _ (by decide), by rw [record_role]; decide⟩⟩

theorem witness_publishedFieldsInRange :
    (clampedRecord (record 1 4 15)).role ≠ some .origin ∧ routeGet (clampedRecord (record 1 4 15)).routes .r3 = .product 15
    ∧ (clampedRecord (record 1 1 0)).role = some .origin ∧ RecordPasses (record 1 1 0) ∧ RecordPasses (record 250 4 16) :=
  ⟨by rw [record_role]; decide, by rw [record_routes]; decide, record_role _ _ _, record_passes _ _ _ (by decide), record_passes _ _ _ (by decide)⟩

/-- A station whose start-up timer runs, with the open limits of routes 1 and 2 as given. -/
def starting (role : Role) (first second : Bool) : State := { station role with vld := { Vld.reset with
  startTimer := some 50
  routes := { PerRoute.fill RouteState.reset with
    r1 := { RouteState.reset with openLimit := first }, r2 := { RouteState.reset with openLimit := second } } } }

/-- The routes of a state that are used and open. -/
def openRoutes (s : State) : List Route :=
  allRoutes.filter fun r => routeGet s.cfg.routes r != .unused && (routeState s r).confirmed == .opened

theorem witness_startReadingFindsTheRoute :
    ([Role.relay, .delivery, .terminus, .origin].all fun role =>
      (starting role false false).vld.startTimer == some 50 && (starting role false false).vld.waiting == []
        && (starting role false false).hasRole role && openRoutes (starting role false false) == []
        && openRoutes (starting role true false) == [.r1] && openRoutes (starting role true true) == [.r1, .r2]) = true
    ∧ (starting .terminus true false).csq.state = .unknown ∧ (starting .terminus true false).trs.sync ≠ .synced
    ∧ ({ starting .terminus true false with trs := { Trs.reset with sync := .synced, train := [entry 1 .passed 0, entry 2 .inbound 101] } }.trs.train.all
      fun e => e.track != Track.window) = true := by
  decide +kernel

/-! Safe states, from a test that evaluates. -/

/-- The ranges of an entry, as a test. -/
def entryRight (e : Entry) : Bool :=
  decide ((1 ≤ e.product ∧ e.product ≤ 15) ∧ (5000 ≤ e.density ∧ e.density ≤ 11000) ∧ (100000 ≤ e.nominal ∧ e.nominal ≤ 2000000000)
    ∧ (e.launched = none → e.remaining ≤ 2000000000) ∧ deliveriesValid e.deliveries = true ∧ e.kind.isSome = (e.track == Track.passed)
    ∧ lowestRlv ≤ e.rlv ∧ e.rlv ≤ highestRlv ∧ e.sinceSnap ≤ highestCount)
  && e.launched.all (· ≤ 2000000000) && e.snapMark.all (· ≤ 2000000000)

theorem entrySafe_of (e : Entry) (h : entryRight e = true) : EntrySafe e := by
  simp only [entryRight, Bool.and_eq_true, decide_eq_true_eq] at h
  obtain ⟨⟨⟨h1, h2, h3, h4, h5, h6, h7, h8, h9⟩, h10⟩, h11⟩ := h
  exact ⟨h1, h2, h3, fun v hv => by simpa [hv] using h10, h4, h5, fun m hm => by simpa [hm] using h11, h6, h7, h8, h9⟩

theorem trainSafe_of (s : State)
    (h : (decide (s.trs.train.length ≤ 40) && s.trs.train.all entryRight && decide (s.cfg.mark ≤ 2000000000) && s.running) = true) : TrainSafe s := by
  simp only [Bool.and_eq_true, decide_eq_true_eq, List.all_eq_true] at h
  obtain ⟨⟨⟨h1, h2⟩, h3⟩, h4⟩ := h
  exact ⟨h1, fun e m => entrySafe_of e (h2 e m), h3, fun hr => absurd (h4.symm.trans hr) (by decide)⟩

/-- What CutSafe asks of the open record and the queue, as a test. -/
def cutRight (s : State) (r : OpenCut) : Bool :=
  s.csq.record == some r && (s.csq.state == .armed || s.csq.state == .mixing || s.csq.state == .settling) && s.hasRole .terminus
    && decide (r.start + r.volumeA + r.volumeX + r.volumeB = s.mtr.count) && s.spc.cutLog == []
    && decide ((s.csq.queue.filter fun a => a.kind == .head).length ≤ 1 ∧ (s.csq.queue.filter fun a => a.kind == .final).length ≤ 1
      ∧ s.csq.queue.Pairwise (fun a b => a.due ≤ b.due))
    && s.csq.queue.all fun a => decide ((a.kind = .head ∨ a.kind = .final) ∧ a.reference = r.first ∧ (a.kind = .head → r.headReached = true)
      ∧ (a.kind = .final → r.finalReached = true) ∧ a.due ≤ s.mtr.count + s.cfg.lead - s.cfg.antic)

theorem cutSafe_open (s : State) (r : OpenCut) (h : cutRight s r = true) : CutSafe s := by
  simp only [cutRight, Bool.and_eq_true, decide_eq_true_eq, beq_iff_eq, List.all_eq_true] at h
  obtain ⟨⟨⟨⟨⟨⟨h1, h2⟩, h3⟩, h4⟩, h5⟩, h6, h7, h8⟩, h9⟩ := h
  refine ⟨by rw [h1]; exact h2.symm, fun hn => absurd (h1.symm.trans hn) (by simp), fun q hq => ?_, fun q hq => by simp [h5] at hq, h6, h7,
    fun a m => (h9 a m).1, fun a m q hq => ?_, h8, fun a m => (h9 a m).2.2.2.2⟩
  · cases h1.symm.trans hq
    exact ⟨h3, h4⟩
  · cases h1.symm.trans hq
    exact ⟨(h9 a m).2.1, (h9 a m).2.2.1, (h9 a m).2.2.2.1⟩

theorem cutSafe_shut (s : State) (h : (s.csq.record == none && !(s.csq.state == .armed || s.csq.state == .mixing || s.csq.state == .settling)
    && s.csq.queue == [] && s.csq.settleRemaining == 0 && s.spc.cutLog == []) = true) : CutSafe s := by
  simp only [Bool.and_eq_true, beq_iff_eq, Bool.not_eq_true'] at h
  obtain ⟨⟨⟨⟨h1, h2⟩, h3⟩, h4⟩, h5⟩ := h
  refine ⟨by rw [h1, h2]; rfl, fun _ => ⟨h3, h4⟩, fun q hq => absurd (h1.symm.trans hq) (by simp), fun q hq => by simp [h5] at hq, ?_, ?_, ?_, ?_, ?_, ?_⟩
    <;> simp [h3]

theorem densitySafe_reset (s : State) (h : s.dsu = Dsu.reset) : DensitySafe s := by
  constructor <;> simp [h, Dsu.reset]

/-- A station with a count C and a trim. -/
def counting (role : Role) (count : Nat) (trim : Int) : State :=
  { station role with mtr := { Mtr.reset with fine := 999999999, count := count, trim := trim } }

theorem witness_mainlinePulseCountsLitres :
    State.reset.running = false ∧ 281474976710589 < (counting .relay 281474976710590 0).mtr.count
    ∧ ((counting .relay 281474976710589 (-1000000)).running = true ∧ (counting .relay 281474976710589 (-1000000)).mtr.count ≤ 281474976710589
      ∧ -1000000 ≤ (counting .relay 281474976710589 (-1000000)).mtr.trim) := by
  decide +kernel

/-- An origin whose train holds one entry, at the lower end of its RLV. -/
def flowingOrigin : State := train [entry 1 .passed (-2147483648)] (counting .origin 281474976710589 0)

/-- A relay whose next pulse is one litre, with two batches of different density behind one another, and the density unit as given. -/
def flowing (d : Dsu) (track : Track) (rlv : Int) : State :=
  { train [{ entry 1 .passed 0 with density := 8350 }, { entry 2 track rlv with density := 7420 }, entry 3 .inbound 102] (counting .relay 0 0) with dsu := d }

/-- A healthy unit with an average. -/
def unit (avg : Nat) : Dsu := { Dsu.reset with healthy := true, average := some avg }

/-- The litres of the next pulse, and the half-width of the second entry. -/
def nextLitres (s : State) : Nat := (s.mtr.fine + ((s.cfg.pulseWeight : Int) * (1000000 + s.mtr.trim)).toNat) / 1000000000

theorem witness_pulseAdvancesAndDeclares_origin :
    TrainSafe flowingOrigin ∧ flowingOrigin.mtr.count ≤ 281474976710589
    ∧ (flowingOrigin.hasRole .origin = true ∧ flowingOrigin.lsc.orders = [] ∧ flowingOrigin.lsc.running.launched ≤ 2000000000) :=
  ⟨trainSafe_of _ (by decide +kernel), by decide +kernel, by decide +kernel⟩

/-- The window is 100 L wide to each side: RLV 102 stays beyond it, 101 enters it, 2 stays above 0, 1 comes to 0 and −99 leaves it; the average 7,885
gives the mix fraction 500 and 7,886 gives 499. -/
theorem witness_pulseAdvancesAndDeclares_relay :
    (([(Dsu.reset, .inbound, 102), (Dsu.reset, .inbound, 101), (Dsu.reset, .window, 2), (Dsu.reset, .window, 1), (unit 7886, .window, -99),
      (unit 7885, .window, -99), (unit 7886, .inbound, 101), (unit 7885, .inbound, 101)] : List (Dsu × Track × Int)).all fun x =>
      (flowing x.1 x.2.1 x.2.2).hasRole .relay && nextLitres (flowing x.1 x.2.1 x.2.2) == 1
        && decide ((flowing x.1 x.2.1 x.2.2).mtr.count ≤ 281474976710589 ∧ ((flowing x.1 x.2.1 x.2.2).trs.train.map (·.seq)).Nodup)
        && (flowing x.1 x.2.1 x.2.2).cfg.densitometer && halfWidth (flowing x.1 x.2.1 x.2.2) 1 == 100) = true
    ∧ TrainSafe (flowing Dsu.reset .inbound 102) ∧ TrainSafe (flowing (unit 7885) .inbound 101) ∧ TrainSafe (flowing (unit 7886) .window (-99))
    ∧ (mixFraction (flowing Dsu.reset .window 1) 8350 7420 = none ∧ mixFraction (flowing (unit 7886) .window (-99)) 8350 7420 = some 499
      ∧ mixFraction (flowing (unit 7885) .inbound 101) 8350 7420 = some 500)
    ∧ ((100 : Int) < 102 - 1 ∧ (101 - 1 : Int) ≤ 100 ∧ -100 < (2 - 1 : Int) ∧ 0 < (2 - 1 : Int) ∧ (1 - 1 : Int) ≤ 0 ∧ (-99 - 1 : Int) ≤ -100) :=
  ⟨by decide +kernel, trainSafe_of _ (by decide +kernel), trainSafe_of _ (by decide +kernel), trainSafe_of _ (by decide +kernel), by decide +kernel,
    by decide⟩

/-- An open record at the start of a cut. -/
def openCut : OpenCut where
  number := 0
  first := 1
  last := none
  productA := 1
  productB := 2
  policy := .transmix
  method := .density
  start := 0
  routeA := some .r1
  routeB := some .r2
  volumeA := 0
  volumeX := 0
  volumeB := 0
  rlvAtDetection := none
  check := none
  flags := .clear
  stage := .lead
  cutEntry := 2
  densityA := 8350
  densityB := 7420
  headReached := false
  finalReached := false
  finalExecuted := false

/-- A terminus with an open record and the actions given. -/
def cutting (queue : List Action) : State :=
  { station .terminus with csq := { Csq.reset with state := .armed, routeInUse := some .r3, record := some openCut, queue := queue } }

/-- A terminus at C = 900 whose next pulse is one litre: L_LEAD 50, L_ANTIC 48, the head threshold at 100 and the tail threshold at 900 of a mix
volume of 1,000 L, so that their points lie at RLV 400 and −400 and the window is 600 L wide to each side. -/
def cutter (t : List Entry) (q : Csq) : State := { station .terminus with
  cfl := { (station .terminus).cfl with published := { config .terminus with lead := 50, antic := 48, headFraction := 100, tailFraction := 900 } }
  tke := ⟨1000, 500⟩
  mtr := { Mtr.reset with fine := 999999999, count := 900 }
  trs := { Trs.reset with train := t }
  csq := q }

/-- A record by volume, open for 50 litres in the lead stage. -/
def volumeCut : OpenCut := { openCut with method := .volume, routeB := none, start := 850, volumeA := 50 }

/-- The cut sequencer with a record. -/
def sequencer (state : CutState) (r : OpenCut) (queue : List Action) (settle : Nat) : Csq := { Csq.reset with
  state := state, routeInUse := some .r2, cutThrough := some 2, record := some r, queue := queue, settleRemaining := settle }

/-- A PASSED batch before the cut's entry of the RLV given. -/
def beforeCut (track : Track) (rlv : Int) : List Entry := [entry 1 .passed (-700), { entry 2 track rlv with product := 2 }]

theorem cutter_counts (t : List Entry) (q : Csq) :
    (cutter t q).hasRole .terminus = true ∧ (cutter t q).mtr.count ≤ 281474976710589 ∧ nextLitres (cutter t q) = 1
    ∧ halfWidth (cutter t q) 1 = 600 ∧ (cutter t q).dsu.healthy = false :=
  ⟨rfl, Nat.le_of_ble_eq_true rfl, show (999999999 + (((1000 : Nat) : Int) * (1000000 + 0)).toNat) / 1000000000 = 1 by decide +kernel,
    show 500 + min (100 + 1 * 0 / 1000000) 500000 = 600 by decide, rfl⟩

/-- Counting: RLV 402 falls to 401, above the head point; the last litre but one of settling counts too. -/
def countingCut : State := cutter (beforeCut .window 402) (sequencer .armed volumeCut [] 0)
def trailRecord : OpenCut := { volumeCut with headReached := true, finalReached := true, finalExecuted := true, stage := .trail }
def trailCut (settle : Nat) : State := cutter (beforeCut .passed (-5)) (sequencer .settling trailRecord [] settle)
theorem witness_terminusLitreRunsTheCut_counts :
    (CutSafe countingCut ∧ countingCut.csq.record = some volumeCut ∧ volumeCut.cutEntry = 2 ∧ volumeCut.headReached = false
      ∧ headThreshold countingCut.cfg volumeCut.policy = some 100 ∧ (500 - (1000 * 100 / 1000 : Nat) : Int) < 402 - 1
      ∧ finalThreshold countingCut.cfg volumeCut.policy = some 900 ∧ volumeCut.finalExecuted = false ∧ countingCut.csq.queue = [])
    ∧ (CutSafe (trailCut 2) ∧ 1 < (trailCut 2).csq.settleRemaining) :=
  ⟨⟨cutSafe_open _ volumeCut (by decide +kernel), rfl, rfl, rfl, by decide, by decide, by decide, rfl, rfl⟩,
    ⟨cutSafe_open _ trailRecord (by decide +kernel), by decide⟩⟩

/-- Opening: the entry behind the batch at the station comes to RLV 600. -/
def opening : State := cutter (beforeCut .inbound 601) { Csq.reset with state := .steady, routeInUse := some .r1, cutThrough := some 1 }
theorem witness_terminusLitreRunsTheCut_opens :
    CutSafe opening ∧ opening.csq.state = .steady ∧ opening.csq.cutThrough = some 1 ∧ seqAfter 2 1 = true ∧ (opening.trs.train.map (·.seq)).Nodup
    ∧ (601 - 1 : Int) ≤ (halfWidth opening 1 : Nat) ∧ policyOf opening.cfg 1 2 = .transmix ∧ (500 - (1000 * 100 / 1000 : Nat) : Int) < 601 - 1 :=
  ⟨cutSafe_shut _ (by decide +kernel), rfl, rfl, by decide, by decide, by decide, by decide, by decide⟩

/-- Thresholds: RLV 401 comes to the point 400 of the head of TRANSMIX and of the final of INTO_B. -/
def reaching (p : Policy) : State := cutter (beforeCut .window 401) (sequencer .armed { volumeCut with policy := p } [] 0)
theorem witness_terminusLitreRunsTheCut_reaches :
    (CutSafe (reaching .transmix) ∧ (401 - 1 : Int) ≤ 500 - (1000 * 100 / 1000 : Nat) ∧ transmixRoute (reaching .transmix).cfg = some .r3
      ∧ (reaching .transmix).cfg.headFraction = 100 ∧ (500 - (1000 * 900 / 1000 : Nat) : Int) < 401 - 1
      ∧ (reaching .transmix).cfg.antic < (reaching .transmix).cfg.lead)
    ∧ (CutSafe (reaching .intoB) ∧ finalThreshold (reaching .intoB).cfg .intoB = some 100 ∧ productRoute (reaching .intoB).cfg 2 = some .r2) :=
  ⟨⟨cutSafe_open _ { volumeCut with policy := .transmix } (by decide +kernel), by decide, by decide, by decide, by decide, by decide⟩,
    ⟨cutSafe_open _ { volumeCut with policy := .intoB } (by decide +kernel), by decide, by decide⟩⟩

/-- Closing: the last litre of settling, also with a full log. -/
theorem witness_terminusLitreRunsTheCut_closes :
    CutSafe (trailCut 1) ∧ (trailCut 1).csq.settleRemaining = 1 ∧ (trailCut 1).csq.queue = [] ∧ (trailCut 1).trs.train = beforeCut .passed (-5)
    ∧ seqAfter 2 1 = true ∧ ((trailCut 1).csq.record.map fun r => (r.headReached, r.finalReached, r.finalExecuted)) = some (true, true, true) :=
  ⟨cutSafe_open _ trailRecord (by decide +kernel), rfl, rfl, rfl, by decide, rfl⟩

/-- Merging: the entry behind the cut entry comes to RLV 600 while the cut is in MIDDLE. -/
def merging : State := cutter (beforeCut .window 2 ++ [entry 3 .inbound 601]) (sequencer .mixing { volumeCut with headReached := true, stage := .middle } [] 0)
theorem witness_terminusLitreRunsTheCut_merges :
    CutSafe merging ∧ merging.csq.cutThrough = some 2 ∧ seqAfter 3 2 = true ∧ seqAfter 2 1 = true ∧ (merging.trs.train.map (·.seq)).Nodup
    ∧ (601 - 1 : Int) ≤ (halfWidth merging 1 : Nat) ∧ (0 : Int) < 2 - 1 ∧ (500 - (1000 * 900 / 1000 : Nat) : Int) < 2 - 1 :=
  ⟨cutSafe_open _ { volumeCut with headReached := true, stage := .middle } (by decide +kernel), rfl, by decide, by decide, by decide, by decide, by decide,
    by decide⟩

/-- Missing: the cut entry comes to RLV −600 undetected, with a final action due two litres on. -/
def missing : State := { cutter [{ entry 1 .passed (-700) with density := 8350 }, { entry 2 .window (-599) with density := 7420 }]
  (sequencer .settling { volumeCut with headReached := true, finalReached := true } [⟨.r2, 902, .volume, 1, .final⟩] 0) with dsu := unit 8350 }
theorem witness_terminusLitreRunsTheCut_misses :
    CutSafe missing ∧ (-599 - 1 : Int) ≤ -(halfWidth missing 1 : Nat) ∧ missing.cfg.densitometer = true ∧ mixFraction missing 8350 7420 = some 0
    ∧ 900 + 1 < 902 ∧ productRoute missing.cfg 2 = some .r2 ∧ missing.csq.routeInUse = some .r2 :=
  ⟨cutSafe_open _ { volumeCut with headReached := true, finalReached := true } (by decide +kernel), by decide, by decide, by decide +kernel, by decide,
    by decide, by decide⟩

/-- Executing: an action due on the litre goes, the one due a litre later stays; the target is closed behind a free VLD, or in use already. -/
def executing (r : OpenCut) (queue : List Action) : State :=
  { cutter (beforeCut .window 402) (sequencer .settling r queue 0) with vld := { Vld.reset with startRead := true, current := some .r2 } }
theorem witness_terminusLitreRunsTheCut_executes :
    (let r : OpenCut := { volumeCut with headReached := true, finalReached := true }
      let s := executing r [⟨.r3, 901, .volume, 1, .head⟩, ⟨.r2, 902, .volume, 1, .final⟩]
      CutSafe s ∧ r.finalExecuted = false ∧ 901 ≤ 900 + 1 ∧ 900 + 1 < 902 ∧ 1 ≤ s.cfg.settle ∧ s.csq.routeInUse ≠ some .r3
        ∧ s.vld.inFlight = none ∧ s.vld.startRead = true ∧ s.vld.current ≠ some .r3 ∧ (routeState s .r3).openLimit = false)
    ∧ (let r : OpenCut := { volumeCut with policy := .intoB, finalReached := true }
      let s := executing r [⟨.r2, 901, .volume, 1, .final⟩]
      CutSafe s ∧ s.csq.routeInUse = some .r2) :=
  ⟨⟨cutSafe_open _ { volumeCut with headReached := true, finalReached := true } (by decide +kernel), by decide +kernel⟩,
    ⟨cutSafe_open _ { volumeCut with policy := .intoB, finalReached := true } (by decide +kernel), rfl⟩⟩

/-- Opening by density at RLV 600, with thresholds at 100 and 499: no one, the first and both are reached at the mix fractions 99, 100 and 499. -/
def openingByDensity (avg : Nat) : State := { cutter [{ entry 1 .passed (-700) with density := 8350 }, { entry 2 .inbound 601 with product := 2, density := 7420 }]
    { Csq.reset with state := .steady, routeInUse := some .r1, cutThrough := some 1 } with
  cfl := { (station .terminus).cfl with published := { config .terminus with lead := 50, antic := 48, headFraction := 100, tailFraction := 499 } }
  dsu := unit avg }
theorem witness_terminusLitreRunsTheCut_density :
    ([(8258, 99), (8257, 100), (7886, 499)] : List (Nat × Nat)).all (fun x => mixFraction (openingByDensity x.1) 8350 7420 == some x.2) = true
    ∧ (∀ avg, CutSafe (openingByDensity avg)) ∧ policyOf (config .terminus) 1 2 = .transmix ∧ (config .terminus).densitometer = true
    ∧ (601 - 1 : Int) ≤ (halfWidth (openingByDensity 8258) 1 : Nat) ∧ -((halfWidth (openingByDensity 8258) 1 : Nat) : Int) < 601 - 1
    ∧ transmixRoute (config .terminus) = some .r3 ∧ productRoute (config .terminus) 2 = some .r2 :=
  ⟨by decide +kernel, fun avg => cutSafe_shut _ rfl, by decide, rfl, by decide, by decide, by decide, by decide⟩

/-- R204, R146: with 16 records in the log, the event of a closed cut carries OVERWRITE. -/
theorem test_cutClosedOverwrite : after .forceTransmix { trailCut 1 with spc := { Spc.reset with
      cutLog := List.replicate 16 (.delivery ⟨1, 1, .r1, 5, 5, 5, 0, 5, 0, 5, .clear⟩) } }
    (fun t => (t.spc.events.map (·.event), t.spc.cutLog.length)) = some ([.cutClosed 1 none { CutFlags.clear with forced := true, overwrite := true }], 16) := by
  decide +kernel

/-- A station with one nudge request waiting and `n` events queued. -/
def nudged (n : Nat) : State := { station .relay with
  mtr := { Mtr.reset with trim := 95, nudges := [⟨true, 7⟩] }, spc := { Spc.reset with events := List.replicate n ⟨0, .trainSynced⟩ } }

theorem witness_trimNudgeAppliesOneStep :
    (nudged 63).mtr.nudges = [⟨true, 7⟩] ∧ (nudged 63).spc.events.length < 64 ∧ 64 ≤ (nudged 64).spc.events.length := by
  decide +kernel

/-- An active delivery of `ordered` litres. -/
def delivery (ordered : Nat) : ActiveDelivery := ⟨1, 1, .r1, ordered, 0, 0, 0, none, .clear, false⟩

/-- A delivery station with a delivery in the state given. -/
def deliveringAt (d : DeliveryState) (ordered : Nat) : State :=
  train [entry 1 .passed 0] { station .delivery with dsq := { Dsq.reset with state := d, active := some (delivery ordered) } }

/-- The same after the delivered volume given. -/
def deliveringFrom (d : DeliveryState) (ordered before : Nat) (request : Option Nat) : State :=
  { deliveringAt d ordered with dsq := { Dsq.reset with
    state := d, active := some { delivery ordered with delivered := before, atCloseRequest := request, closePending := request.isSome } } }

/-- One litre a pulse: an order of 1 is completed and one of 2 is not; counting goes on to the end of the range while closing and while a close is
pending. -/
theorem witness_deliveryPulseCountsLitres :
    (station .relay).hasRole .delivery = false
    ∧ ((station .delivery).hasRole .delivery = true ∧ (station .delivery).dsq.active = none)
    ∧ ((deliveringAt .delivering 2).hasRole .delivery = true
      ∧ ((deliveringAt .delivering 2).mtr.deliveryFine + (deliveringAt .delivering 2).cfg.deliveryPulseWeight * 1000000) / 1000000000 = 1)
    ∧ ([.opening, .delivering].all fun d => (deliveringAt d 2).dsq.active == some (delivery 2) && (deliveringAt d 2).dsq.state != .idle
      && decide ((delivery 2).delivered + 1 < (delivery 2).ordered)) = true
    ∧ ((deliveringFrom .closing 1 4294967294 (some 1)).dsq.state = .closing ∧ (deliveringFrom .opening 1 4294967294 (some 1)).dsq.state = .opening
      ∧ 4294967294 + 1 ≤ 4294967295)
    ∧ ((delivery 1).delivered < (delivery 1).ordered ∧ (delivery 1).ordered ≤ (delivery 1).delivered + 1 ∧ (delivery 1).atCloseRequest = none
      ∧ (deliveringAt .opening 1).dsq.state = .opening ∧ (routeState (deliveringAt .delivering 1) (delivery 1).route).closeLimit = false) := by
  decide +kernel

/-! Density. -/

theorem witness_mixFractionFollowsTheAverage :
    (((7420 : Int) - 7619).natAbs < (reading 8350).cfg.minContrast ∧ ((7420 : Int) - 7620).natAbs = (reading 8350).cfg.minContrast)
    ∧ (station .terminus).dsu.healthy = false ∧ (station .terminus).dsu.average = none
    ∧ ((reading 8350).dsu.healthy = true ∧ (reading 8350).dsu.average = some 8350
      ∧ ((8350 : Int) - 8350) * ((7420 : Int) - 8350).sign ≤ 0 ∧ 0 < ((8349 : Int) - 8350) * ((7420 : Int) - 8350).sign)
    ∧ mixFraction (reading 7420) 8350 7420 = some 1000 := by
  decide +kernel

theorem witness_productCheckJudgesTheAverage :
    (station .terminus).dsu.healthy = false
    ∧ ((reading 7470).dsu.healthy = true ∧ (reading 7470).dsu.average = some 7470
      ∧ ((7470 : Int) - 7420).natAbs ≤ (reading 7470).cfg.prodTol ∧ (reading 7471).cfg.prodTol < ((7471 : Int) - 7420).natAbs) := by
  decide +kernel

/-- The widest window: UNC_FLOOR 50,000, UNC_PPM 117 and Mh 125,000. -/
def widest : State := { station .relay with
  cfl := { (station .relay).cfl with published := { config .relay with uncFloor := 50000, uncPpm := 117 } }, tke := ⟨250000, 125000⟩ }

theorem witness_uncertaintyAndHalfWidth :
    (widest.cfg.uncFloor ≤ 50000 ∧ widest.cfg.uncPpm ≤ 10000 ∧ widest.tke.halfMix ≤ 125000 ∧ 116 < widest.cfg.uncPpm)
    ∧ (station .relay).cfg.uncPpm = 0 := by
  decide +kernel

/-- A unit within a frame, the last character taken at 0 ms, the clock at `ms`. -/
def inFrame (bytes : List Byte) (ms rejects : Nat) : State :=
  { station .relay with clock := ms * 1000, dsu := { Dsu.reset with receiver := .frame bytes 0, rejectRun := rejects, healthy := true } }

theorem witness_densityCharactersMakeAFrame :
    ((station .relay).running = true ∧ (station .relay).cfg.densitometer = true ∧ (station .relay).dsu.receiver = .hunt)
    ∧ ((inFrame [0x5A, 0x20] 10 2).dsu.receiver = .frame [0x5A, 0x20] 0 ∧ (inFrame [0x5A, 0x20] 10 2).now ≤ 0 + 10
      ∧ (inFrame [0x5A, 0x20] 10 2).dsu.rejectRun < 3) := by
  decide +kernel

/-- 5A1388H is the sample 5,000 and 5A2AF8H the sample 11,000; the fourth byte completes the sum to FFH. -/
theorem witness_acceptedSampleEntersTheWindow :
    ((inFrame [0x5A, 0x13, 0x88] 10 0).hasRole .relay = true ∧ (inFrame [0x5A, 0x13, 0x88] 10 0).cfg.densitometer = true
      ∧ (inFrame [0x5A, 0x13, 0x88] 10 0).trs.train = [] ∧ (inFrame [0x5A, 0x13, 0x88] 10 0).now ≤ 0 + 10)
    ∧ ([(0x13, 0x88, 0x0A, 5000), (0x2A, 0xF8, 0x83, 11000)] : List (Byte × Byte × Byte × Nat)).all (fun x =>
      decide ((([0x5A, x.1, x.2.1] ++ [x.2.2.1] : List Byte).map (·.toNat)).sum % 256 = 255)
        && decide (256 * x.1.toNat + x.2.1.toNat = x.2.2.2)) = true := by
  decide +kernel

/-- A relay with an entry in WINDOW at RLV 1, the window three samples full, taking the last character of a sample that makes the average `avg`. -/
def sampling (fill : List Nat) : State := { train [{ entry 1 .passed 0 with density := 8350 }, { entry 2 .window 1 with density := 7420 }]
  (inFrame [0x5A, 0x20, 0xA0] 10 0) with dsu := { Dsu.reset with receiver := .frame [0x5A, 0x20, 0xA0] 0, window := fill, fill := 3, goodRun := 7 } }

/-- The sample is 8,352; three of 7,729 make the average 7,885 and the mix fraction 500, three of 7,731 make 7,886 and 499. -/
theorem witness_acceptedSampleEntersTheWindow_window :
    (sampling [7729, 7729, 7729]).hasRole .relay = true ∧ (([0x5A, 0x20, 0xA0, 0xE5] : List Byte).map (·.toNat)).sum % 256 = 255
    ∧ 3 ≤ (sampling [7729, 7729, 7729]).dsu.fill ∧ ((sampling [7729, 7729, 7729]).trs.train.map (·.seq)).Nodup
    ∧ ([([7729, 7729, 7729], 500), ([7731, 7731, 7731], 499)] : List (List Nat × Nat)).all (fun x =>
      mixFraction { sampling x.1 with dsu := unit (((x.1 ++ [8352]).sum + 2) / 4) } 8350 7420 == some x.2) = true := by
  decide +kernel

/-- A terminus with an open record by density, its thresholds at 100 and 499, taking the same sample at the mix fraction 499; the entry in WINDOW is not
yet detected then. -/
def judging (r : OpenCut) : State := { sampling [7731, 7731, 7731] with
  cfl := { (station .terminus).cfl with published := { config .terminus with lead := 50, antic := 48, headFraction := 100, tailFraction := 499 } }
  csq := sequencer .armed r [] 0 }
theorem witness_acceptedSampleEntersTheWindow_terminus :
    ([openCut, { openCut with headReached := true }, { openCut with policy := .intoA }] : List OpenCut).all (fun r =>
      (judging r).hasRole .terminus && r.method == .density && (judging r).csq.record == some r
        && transmixRoute (judging r).cfg == some .r3 && productRoute (judging r).cfg r.productB == some .r2
        && mixFraction { judging r with dsu := unit (((([7731, 7731, 7731] : List Nat) ++ [8352]).sum + 2) / 4) } r.densityA r.densityB == some 499) = true
    ∧ 3 ≤ (judging openCut).dsu.fill ∧ ((judging openCut).trs.train.map (·.seq)).Nodup := by
  decide +kernel

/-- R49: that sample declares the entry DETECTED at the mix fraction 500 and not at 499. -/
theorem test_detection : [[7729, 7729, 7729], [7731, 7731, 7731]].map (fun w => after (.densityCharacter 0xE5 true) (sampling w)
    (fun t => t.trs.train.map (·.kind))) = [some [some .detected, some .detected], some [some .detected, none]] := by
  decide +kernel

/-- A unit whose silence timer runs. -/
def silent : State := { station .relay with dsu := { Dsu.reset with silenceTimer := some 1000, healthy := true } }

theorem witness_rejectsAndSilenceRestartTheWindow :
    ((inFrame [0x5A] 9 2).hasRole .relay = true ∧ (inFrame [0x5A] 9 2).cfg.densitometer = true ∧ (inFrame [0x5A] 9 2).trs.train = []
      ∧ (inFrame [0x5A] 9 2).dsu.receiver = .frame [0x5A] 0 ∧ (inFrame [0x5A] 9 2).dsu.rejectRun < 3)
    ∧ (inFrame [0x5A] 9 3).dsu.rejectRun = 3
    ∧ (silent.hasRole .relay = true ∧ silent.cfg.densitometer = true ∧ silent.trs.train = [] ∧ silent.dsu.silenceTimer = some 1000) := by
  decide +kernel

/-! The trackline. -/

/-- A port in TRAINING with a count. -/
def trainingPort (n : Nat) : PortState := { PortState.reset with link := .training, trainingCount := n }

theorem witness_linkComesUpAndGoesDown :
    (station .relay).running = true ∧ (portGet (station .relay).tlc .up).link = .down
    ∧ ([.up, .down].all fun p => (portGet (ports (trainingPort 15) (trainingPort 15) (station .relay)).tlc p).trainingCount == 15
      && (portGet (ports (trainingPort 14) (trainingPort 14) (station .relay)).tlc p).trainingCount == 14
      && (portGet (ports (trainingPort 15) (trainingPort 15) (station .relay)).tlc p).link == .training
      && (portGet (ports upPort busyPort (station .relay)).tlc p).link == .up) = true
    ∧ (station .relay).cfg.role ≠ some .origin ∧ (station .relay).trs.askDue = false := by
  decide +kernel

/-- A port that is sending with a full URGENT queue. -/
def fullPort : PortState := { busyPort with urgent := List.replicate 8 passageFrame }

theorem witness_goodFrameIsForwardedAndQueued :
    (ports upPort busyPort (station .relay)).running = true ∧ (portGet (ports upPort busyPort (station .relay)).tlc .up).link = .up
    ∧ goodFrame passageFrame.bytes = some passageFrame ∧ passageFrame.kindOf = some .passage
    ∧ ({ passageFrame with station := 5 } : Frame).station.toNat = (station .relay).cfg.station
    ∧ goodFrame ({ passageFrame with station := 5 } : Frame).bytes = some { passageFrame with station := 5 }
    ∧ (passageFrame.station.toNat ≠ (station .relay).cfg.station ∧ 1 < passageFrame.hops.toNat % 64)
    ∧ (goodFrame ({ passageFrame with hops := 0xC1 } : Frame).bytes).isSome = true ∧ (0xC1 : Byte).toNat % 64 ≤ 1
    ∧ (busyPort.link = .up ∧ busyPort.sending.isSome = true ∧ (busyPort.queue Kind.passage.queueClass).length < Kind.passage.queueClass.capacity)
    ∧ (fullPort.link = .up ∧ fullPort.sending.isSome = true
      ∧ Kind.passage.queueClass.capacity ≤ (fullPort.queue Kind.passage.queueClass).length)
    ∧ (upPort.link = .up ∧ upPort.sending = none ∧ upPort.urgent = [] ∧ upPort.routine = [] ∧ upPort.bulk = []) := by
  decide +kernel

/-- A port with `n` bad frames at 0 ms. -/
def badPort (n : Nat) (noisy : Bool) : PortState := { upPort with badTimes := List.replicate n 0, noisy := noisy }

/-- The number of bad frames that count when one more arrives at `ms`. -/
def recentAt (n ms : Nat) : Nat := ((badPort n false).badTimes.filter (fun t => ms ≤ t + 10000) ++ [ms]).length

theorem witness_badFramesMakeAPortNoisy :
    (ports (badPort 8 false) upPort (station .relay)).running = true ∧ (badPort 8 false).link = .up ∧ goodFrame [1, 2, 3] = none
    ∧ (badPort 8 true).noisy = true ∧ recentAt 7 10000 < 9 ∧ (badPort 8 false).noisy = false ∧ 9 ≤ recentAt 8 10000 ∧ recentAt 8 10001 < 9
    ∧ (badPort 9 true).badTimes.getLast? = some 0 := by
  decide +kernel

theorem portSafe_up : PortSafe upPort := ⟨by decide, by decide, by decide, by decide, by decide, by decide⟩

theorem portSafe_busy : PortSafe { busyPort with routine := List.replicate 7 passageFrame } :=
  ⟨by decide, by decide, by decide, by decide, by decide, by decide⟩

/-- Both ports UP, the one free, the other sending with one place left in its ROUTINE queue. -/
def sendingLine : State := ports upPort { busyPort with routine := List.replicate 7 passageFrame } (station .relay)

theorem witness_ownTelegramReachesEveryUpPort :
    LineSafe sendingLine
    ∧ (sendingLine.tlc.upPort.link = .up ∧ (sendingLine.tlc.upPort.queue Kind.beacon.queueClass).length < Kind.beacon.queueClass.capacity)
    ∧ (sendingLine.tlc.downPort.link = .up ∧ (sendingLine.tlc.downPort.queue Kind.beacon.queueClass).length < Kind.beacon.queueClass.capacity) :=
  ⟨⟨portSafe_up, portSafe_busy, by decide⟩, by decide, by decide⟩

theorem witness_freePortSendsByClass :
    (sendingLine.running = true ∧ (portGet sendingLine.tlc .down).link = .up ∧ (portGet sendingLine.tlc .down).sending = busyPort.sending)
    ∧ busyPort.sending.isSome = true ∧ fullPort.urgent = passageFrame :: List.replicate 7 passageFrame
    ∧ ((portGet sendingLine.tlc .down).urgent = [] ∧ (portGet sendingLine.tlc .down).routine = passageFrame :: List.replicate 6 passageFrame)
    ∧ (({ busyPort with bulk := [passageFrame] } : PortState).urgent = [] ∧ ({ busyPort with bulk := [passageFrame] } : PortState).routine = []
      ∧ ({ busyPort with bulk := [passageFrame] } : PortState).bulk = [passageFrame])
    ∧ (busyPort.urgent = [] ∧ busyPort.routine = [] ∧ busyPort.bulk = [])
    ∧ State.reset.running = false ∧ (portGet (station .relay).tlc .down).link ≠ .up
    ∧ (busyPort.sending.map fun x => (x.busyUntil, x.frame.payload.length)) = some (0 + (3 + 24) * 10, 3) := by
  decide +kernel

/-- R98, R111: the symbols of a PASSAGE slot of 270 µs, at its first and last moments, and IDLE from END to the end of the slot. -/
theorem test_transmitter : [0, 9, 10, 99, 100, 109, 110, 269].map (fun c => transmitted { sendingLine with clock := c } .down)
    = [some .start, some .start, some (.data 0x30), (busyPort.sending.bind fun x => x.frame.bytes[8]?).map .data, some .finish, some .finish,
      some .idle, some .idle] := by
  decide +kernel

/-- A station whose beacon timer runs, with a restart count. -/
def beaconing (n : Nat) : State := { sendingLine with tlc := { sendingLine.tlc with beaconTimer := some 1000, restartCount := n } }

theorem witness_beaconTimerSendsABeacon :
    ((beaconing 2).running = true ∧ (beaconing 2).tlc.beaconTimer = some 1000 ∧ (beaconing 2).cfg.role = some .relay
      ∧ (beaconing 2).tlc.upPort.link = .up)
    ∧ ((beaconing 2).tlc.restartCount < 3 ∧ ¬ (beaconing 3).tlc.restartCount < 3)
    ∧ ((station .relay).tlc.upPort.link ≠ .up ∧ (station .relay).tlc.downPort.link ≠ .up) := by
  decide +kernel

/-! Telegrams. -/

/-- A LAUNCH at the ends of the ranges of R11. -/
def widestLaunch : LaunchMsg := ⟨0xFFFF, 15, 11000, 2000000000, [⟨1, 1⟩, ⟨250, 2000000000⟩], some (0xFFFE, 2000000000)⟩

theorem witness_frameBytesReadBack :
    passageFrame.kindOf = some .passage ∧ passageFrame.payload.length ≤ 255
    ∧ payloadLength .passage passageFrame.payload = some passageFrame.payload.length := by
  decide +kernel

theorem witness_launchPayloadReadsBack : launchValid widestLaunch = true ∧ launchValid ⟨0, 1, 5000, 100000, [], none⟩ = true := by decide +kernel

/-- A beacon with every field at the top of its width. -/
def widestBeacon : BeaconMsg := ⟨255, 4294967295, 255, true, true, true, true, 0xFFFFFFFF, 0xFFFF, 255⟩

/-- An entry with the fields of an ITEM at the top of their widths. -/
def widestEntry : Entry := { entry 0xFFFF .inbound 0 with
  product := 255, density := 65535, nominal := 4294967295, launched := some 4294967295, remaining := 4294967295,
  deliveries := List.replicate 6 ⟨255, 4294967295⟩ }

theorem witness_beaconAndItemPayloadsReadBack :
    (widestBeacon.role < 256 ∧ widestBeacon.mark < 2 ^ 32 ∧ widestBeacon.period < 256 ∧ widestBeacon.entryCount < 256)
    ∧ (widestEntry.product < 256 ∧ widestEntry.density < 65536 ∧ widestEntry.nominal < 2 ^ 32 ∧ widestEntry.launched.all (· < 2 ^ 32) = true
      ∧ widestEntry.remaining < 2 ^ 32 ∧ widestEntry.deliveries.length ≤ 6
      ∧ widestEntry.deliveries.all (fun d => d.station < 256 && d.volume < 2 ^ 32) = true) := by
  decide +kernel

/-! Peers. -/

/-- A beacon with the fields the peer tests vary. -/
def beacon (role mark period : Nat) (synced : Bool) : BeaconMsg := ⟨role, mark, period, synced, true, false, false, 0, 0, 0⟩

theorem peersSafe_empty (f : RxFrame) (h : f.frame.station.toNat ≠ 5) : PeersSafe (holding f (station .relay)) :=
  ⟨Nat.zero_le 24, List.Pairwise.nil, fun _ h => absurd h List.not_mem_nil, fun _ h => absurd h List.not_mem_nil,
    fun g hg => by rw [List.mem_singleton.mp (show g ∈ [f] from hg)]; exact h,
    fun h => absurd h (by show ¬ (true = false); decide), fun _ h => absurd h List.not_mem_nil⟩

theorem witness_firstBeaconCreatesAnEntry :
    (holding (rx .beacon 250 (beaconPayload (beacon 2 1000 100 true))) (station .relay)).nonOrigin = true
    ∧ PeersSafe (holding (rx .beacon 250 (beaconPayload (beacon 2 1000 100 true))) (station .relay))
    ∧ (rx .beacon 250 (beaconPayload (beacon 2 1000 100 true))).frame.kindOf = some .beacon
    ∧ readBeacon (beaconPayload (beacon 2 1000 100 true)) = beacon 2 1000 100 true
    ∧ (1 ≤ 2 ∧ 1000 ≤ 2000000000 ∧ 10 ≤ 100 ∧ (rx .beacon 250 []).frame.station.toNat = 250)
    ∧ (station .relay).prt.peers.length < 24 ∧ ¬ ((station .relay).cfg.mark < 1000)
    ∧ (readBeacon (beaconPayload (beacon 2 1000 9 true))).period = 9 :=
  ⟨by decide +kernel, peersSafe_empty _ (by decide +kernel), by decide +kernel, by decide +kernel, by decide +kernel, by decide +kernel,
    by decide +kernel, by decide +kernel⟩

/-- A relay that knows one peer upstream, which is not its reference as long as it is not GOOD. -/
def knowing (p : Peer) : State := peers [p] (station .relay)

theorem referenceRight_none (s : State) (p : Peer) (hs : s.prt = ⟨[p], none⟩) (hq : p.qualifies s.cfg.mark = false) : ReferenceRight s := by
  unfold ReferenceRight
  rw [hs]
  exact fun q m => List.mem_singleton.mp m ▸ hq

theorem referenceRight_some (s : State) (p : Peer) (hs : s.prt = ⟨[p], some p.station⟩) (hq : p.qualifies s.cfg.mark = true) :
    ReferenceRight s := by
  unfold ReferenceRight
  rw [hs]
  exact ⟨p, List.mem_singleton.mpr rfl, rfl, hq, fun q m _ => List.mem_singleton.mp m ▸ Nat.le_refl _⟩

theorem peersSafe_one (s : State) (p : Peer) (hs : s.prt.peers = [p]) (hr : s.running = true) (hp : PeerSafe p) (ho : p.station ≠ s.cfg.station)
    (hl : (s.tlc.rxQueue.all fun f => f.frame.station.toNat != s.cfg.station) = true) (href : ReferenceRight s) : PeersSafe s where
  room := by rw [hs]; exact Nat.le_of_ble_eq_true rfl
  ascending := by rw [hs]; exact List.pairwise_singleton _ _
  entries := by rw [hs]; exact fun q m => List.mem_singleton.mp m ▸ hp
  others := by rw [hs]; exact fun q m => List.mem_singleton.mp m ▸ ho
  received f m := bne_iff_ne.mp (List.all_eq_true.mp hl f m)
  outside h := absurd (hr.symm.trans h) (by decide)
  reference := href

theorem peersSafe_knowing (p : Peer) (hp : PeerSafe p) (ho : p.station ≠ 5) (hq : p.qualifies 5000 = false) : PeersSafe (knowing p) :=
  peersSafe_one _ p rfl rfl hp ho rfl (referenceRight_none _ p rfl hq)

theorem peersSafe_told (p : Peer) (f : RxFrame) (hp : PeerSafe p) (ho : p.station ≠ 5) (hq : p.qualifies 5000 = false)
    (hf : ([f].all fun f => f.frame.station.toNat != 5) = true) : PeersSafe (holding f (knowing p)) :=
  peersSafe_one _ p rfl rfl hp ho hf (referenceRight_none _ p rfl hq)

theorem peerSafe_heard : PeerSafe (peer 3 1000 .heard) := ⟨by decide, by decide, by decide⟩
theorem peerSafe_suspect : PeerSafe (peer 3 1000 .suspect) := ⟨by decide, by decide, by decide⟩
theorem peerSafe_silent : PeerSafe (peer 3 1000 .silent) := ⟨by decide, by decide, by decide⟩

/-- A GOOD peer downstream, which does not qualify as reference. -/
def downstream : Peer := { peer 9 9000 .good with arrival := .down }
theorem peerSafe_good : PeerSafe downstream := ⟨by decide, by decide, by decide⟩

/-- A beacon from station 3 that agrees with its entry. -/
def ownBeacon (synced : Bool) : RxFrame := rx .beacon 3 (beaconPayload (beacon 2 1000 10 synced))

/-- The peer expected back within two periods of 10 × 100 ms: at 2,000 ms it is timely, later it is not. -/
theorem witness_beaconIsAppliedToItsPeer_standing :
    PeersSafe (holding (ownBeacon true) (knowing (peer 3 1000 .heard))) ∧ PeersSafe (holding (ownBeacon true) (knowing (peer 3 1000 .suspect)))
    ∧ PeersSafe (holding (ownBeacon false) (knowing (peer 3 1000 .silent)))
    ∧ PeersSafe (holding ⟨.down, (rx .beacon 9 (beaconPayload (beacon 2 9000 10 true))).frame⟩ (knowing downstream))
    ∧ (knowing (peer 3 1000 .heard)).nonOrigin = true ∧ (ownBeacon true).frame.kindOf = some .beacon
    ∧ (peer 3 1000 .heard).station = (ownBeacon true).frame.station.toNat
    ∧ readBeacon (ownBeacon true).frame.payload = beacon 2 1000 10 true ∧ readBeacon (ownBeacon false).frame.payload = beacon 2 1000 10 false
    ∧ (peer 3 1000 .heard).role.code = 2 ∧ (peer 3 1000 .heard).conflictHold = none ∧ (peer 3 1000 .heard).baseline = 0
    ∧ (peer 3 1000 .heard).goodCount + 1 = 3 ∧ ¬ ((station .relay).cfg.mark < 1000) ∧ ¬ (9000 < (station .relay).cfg.mark)
    ∧ (2000 ≤ (peer 3 1000 .heard).lastBeacon + 2 * (peer 3 1000 .heard).period * 100
      ∧ (peer 3 1000 .heard).lastBeacon + 2 * (peer 3 1000 .heard).period * 100 < 2001) :=
  ⟨peersSafe_told _ _ peerSafe_heard (by decide) (by decide) (by decide +kernel),
    peersSafe_told _ _ peerSafe_suspect (by decide) (by decide) (by decide +kernel),
    peersSafe_told _ _ peerSafe_silent (by decide) (by decide) (by decide +kernel),
    peersSafe_told _ _ peerSafe_good (by decide) (by decide) (by decide +kernel), by decide +kernel, by decide +kernel, by decide +kernel,
    by decide +kernel, by decide +kernel, rfl, rfl, rfl, rfl, by decide +kernel, by decide +kernel, by decide +kernel⟩

/-- A beacon from station 3 on the port given, with a mark and a delivery count. -/
def told (p : Port) (mark : Nat) (count : BitVec 32) : RxFrame :=
  ⟨p, (rx .beacon 3 (beaconPayload { beacon 2 mark 10 true with count := count })).frame⟩

/-- A relay with a batch passed, one at the mark of peer 3 and one upstream of it, which a volume of `v` litres leaves beyond the window. -/
def delivered (v : Nat) (f : RxFrame) : State :=
  train [entry 1 .passed 0, entry 2 .inbound 4000, entry 3 .inbound (max 4001 (v + 101))] (holding f (knowing (peer 3 1000 .suspect)))

theorem peersSafe_delivered (v : Nat) (f : RxFrame) (hf : ([f].all fun f => f.frame.station.toNat != 5) = true) : PeersSafe (delivered v f) :=
  peersSafe_one _ (peer 3 1000 .suspect) rfl rfl peerSafe_suspect (show (3 : Nat) ≠ 5 by decide) hf (referenceRight_none _ _ rfl rfl)

/-- Volumes of 1 and of 2,000,000 L move the train; 2,000,001 L jump. -/
theorem witness_beaconIsAppliedToItsPeer_volume :
    ([1, 2000000, 2000001] : List (BitVec 32)).all (fun v =>
      let f := told .up 1000 v
      (delivered v.toNat f).hasRole .relay && f.frame.kindOf == some .beacon && readBeacon f.frame.payload == { beacon 2 1000 10 true with count := v }
        && ((delivered v.toNat f).prt.peers.all fun p => (v - p.baseline).toNat == v.toNat)
        && decide ((delivered v.toNat f).trs.sync ≠ .synced ∧ ((delivered v.toNat f).trs.train.map (·.seq)).Nodup)
        && decide ((halfWidth (delivered v.toNat f) v.toNat : Int) < max 4001 (v.toNat + 101) - v.toNat)) = true
    ∧ (PeersSafe (delivered 1 (told .up 1000 1)) ∧ PeersSafe (delivered 2000000 (told .up 1000 2000000))
      ∧ PeersSafe (delivered 2000001 (told .up 1000 2000001)))
    ∧ ((1000 : Int) ≤ 5000 - 4000 ∧ (5000 - 4001 : Int) < 1000 ∧ (halfWidth (delivered 1 (told .up 1000 1)) 1 : Int) < 4000) :=
  ⟨by decide +kernel, ⟨peersSafe_delivered _ _ (by decide +kernel), peersSafe_delivered _ _ (by decide +kernel),
    peersSafe_delivered _ _ (by decide +kernel)⟩, by decide +kernel⟩

/-- A changed mark, and a beacon from upstream that comes in on DOWN. -/
theorem witness_beaconIsAppliedToItsPeer_conflict :
    PeersSafe (delivered 0 (told .up 999 0)) ∧ PeersSafe (delivered 0 (told .down 1000 0))
    ∧ (readBeacon (told .up 999 0).frame.payload).mark ≠ (peer 3 1000 .suspect).mark
    ∧ (readBeacon (told .down 1000 0).frame.payload).mark = (peer 3 1000 .suspect).mark ∧ 1000 < (station .relay).cfg.mark
    ∧ (told .down 1000 0).port = .down ∧ (readBeacon (told .down 1000 0).frame.payload).count = (peer 3 1000 .suspect).baseline :=
  ⟨peersSafe_delivered _ _ (by decide +kernel), peersSafe_delivered _ _ (by decide +kernel), by decide +kernel, by decide +kernel, by decide +kernel, rfl,
    by decide +kernel⟩

/-- A beacon of the GOOD reference with a newest sequence, at a SYNCED relay whose newest is 7, with both ports as given. -/
def shown (newest : SeqNo) : RxFrame := rx .beacon 3 (beaconPayload { beacon 2 1000 10 true with newestPresent := true, newest := newest })
def synced (p : PortState) (f : RxFrame) : State :=
  ports p .reset { holding f { station .relay with trs := { Trs.reset with sync := .synced, train := [entry 7 .inbound 101] } } with
    clock := 2000000, prt := ⟨[peer 3 1000 .good], some 3⟩ }

theorem witness_beaconIsAppliedToItsPeer_gap :
    (PeersSafe (synced upPort (shown 8)) ∧ PeersSafe (synced .reset (shown 7)))
    ∧ ((synced upPort (shown 8)).hasRole .relay = true ∧ (shown 8).port = .up ∧ (synced upPort (shown 8)).now ≤ 0 + 2 * 10 * 100
      ∧ readBeacon (shown 8).frame.payload = { beacon 2 1000 10 true with newestPresent := true, newest := 8 }
      ∧ (synced upPort (shown 8)).trs.sync = .synced ∧ (synced upPort (shown 8)).tlc.upPort.link = .up ∧ (synced .reset (shown 7)).tlc.upPort.link ≠ .up)
    ∧ (seqAfter 8 7 = true ∧ seqAfter 7 7 = false) :=
  ⟨⟨peersSafe_one _ (peer 3 1000 .good) rfl rfl ⟨by decide, by decide, by decide⟩ (show (3 : Nat) ≠ 5 by decide) rfl (referenceRight_some _ _ rfl rfl),
    peersSafe_one _ (peer 3 1000 .good) rfl rfl ⟨by decide, by decide, by decide⟩ (show (3 : Nat) ≠ 5 by decide) rfl (referenceRight_some _ _ rfl rfl)⟩,
    by decide +kernel, by decide⟩

/-- A peer under a conflict hold. -/
def heldPeer : Peer := { peer 3 1000 .suspect with conflictHold := some 9000 }

theorem witness_peerExpiriesMoveTheStanding :
    (PeersSafe (knowing (peer 3 1000 .heard)) ∧ PeersSafe (knowing downstream) ∧ PeersSafe (knowing (peer 3 1000 .suspect))
      ∧ PeersSafe (knowing (peer 3 1000 .silent)) ∧ PeersSafe (knowing heldPeer))
    ∧ (knowing (peer 3 1000 .heard)).nonOrigin = true ∧ downstream.standing = .good ∧ heldPeer.conflictHold = some 9000 :=
  ⟨⟨peersSafe_knowing _ peerSafe_heard (by decide) (by decide), peersSafe_knowing _ peerSafe_good (by decide) (by decide),
    peersSafe_knowing _ peerSafe_suspect (by decide) (by decide), peersSafe_knowing _ peerSafe_silent (by decide) (by decide),
    peersSafe_knowing _ ⟨by decide, by decide, by decide⟩ (by decide) (by decide)⟩, rfl, rfl, rfl⟩

/-! The train. -/

/-- A LAUNCH telegram of a sequence, with prior fields for sequence 7. -/
def launch (n : SeqNo) : RxFrame := rx .launch 2 (launchPayload ⟨n, 15, 11000, 2000000000, [⟨250, 1⟩], some (7, 100001)⟩)

/-- A LAUNCH telegram whose product is out of range. -/
def badLaunch : RxFrame := rx .launch 2 (launchPayload ⟨9, 16, 11000, 2000000000, [], none⟩)

/-- A relay whose train holds the sequences 1 to `n`. -/
def rising (n : Nat) : State := train ((List.range n).map fun i => entry (BitVec.ofNat 16 (i + 1)) .inbound (140 + i)) (station .relay)

theorem witness_launchIsAppended :
    ((station .relay).running = true ∧ (launch 9).frame.kindOf = some .launch ∧ badLaunch.frame.kindOf = some .launch
      ∧ (station .origin).hasRole .origin = true)
    ∧ launchValid (readLaunch badLaunch.frame.payload) = false
    ∧ ((train [entry 9 .inbound 40] (station .relay)).trs.train.getLast? = some (entry 9 .inbound 40)
      ∧ seqAfter (readLaunch (launch 9).frame.payload).seq 9 = false)
    ∧ ((station .relay).hasRole .relay = true ∧ launchValid (readLaunch (launch 9).frame.payload) = true ∧ (station .relay).trs.train = []
      ∧ (station .relay).tke.halfMix + (station .relay).cfg.uncFloor < (station .relay).cfg.mark)
    ∧ (seqAfter (readLaunch (launch 9).frame.payload).seq 8 = true ∧ seqAfter (readLaunch (launch 9).frame.payload).seq 7 = true
      ∧ (readLaunch (launch 9).frame.payload).seq ≠ seqNext 7 ∧ (readLaunch (launch 9).frame.payload).seq = seqNext 8)
    ∧ ([8, 39].all fun last => (rising last).trs.train.getLast?.map (·.seq) == some (BitVec.ofNat 16 last)
      && decide ((rising last).trs.train.length < 40 ∧ ((rising last).trs.train.map (·.seq)).Nodup)
      && (rising last).trs.train.all fun e => e.seq != BitVec.ofNat 16 (last + 1)) = true
    ∧ (readLaunch (launch 40).frame.payload).seq = seqNext 39 := by
  decide +kernel

/-- R13: a LAUNCH that is the next keeps SYNCED and raises nothing. -/
theorem test_launchNext : after .launchTaken (holding (launch 9) { station .relay with
      trs := { Trs.reset with sync := .synced, train := [entry 8 .inbound 140] } })
    (fun t => (t.trs.sync, t.spc.alarms, t.trs.train.map (·.rlv))) = some (.synced, 0, [140, 5000]) := by
  decide +kernel

theorem witness_launchSetsThePriorVolume :
    (train [entry 7 .inbound 40, { entry 8 .inbound 40 with launched := some 3 }] (station .relay)).hasRole .relay = true
    ∧ (launch 9).frame.kindOf = some .launch
    ∧ ([entry 7 .inbound 40, { entry 8 .inbound 40 with launched := some 3 }].map (·.seq)).Nodup
    ∧ launchValid (readLaunch (launch 9).frame.payload) = true
    ∧ [entry 7 .inbound 40, { entry 8 .inbound 40 with launched := some 3 }].getLast? = some { entry 8 .inbound 40 with launched := some 3 }
    ∧ seqAfter (readLaunch (launch 9).frame.payload).seq 8 = true ∧ (readLaunch (launch 9).frame.payload).prior = some (7, 100001)
    ∧ (entry 7 .inbound 40).launched = none := by
  decide +kernel

/-- A relay with a GOOD reference upstream of it. -/
def referenced (t : List Entry) (f : RxFrame) : State :=
  holding f { train t (station .relay) with prt := ⟨[peer 3 1000 .good], some 3⟩ }

/-- A DETECTED passage from station 3. -/
def passage (n : SeqNo) : RxFrame := rx .passage 3 (passagePayload n .detected)

theorem peerSafe_reference : PeerSafe (peer 3 1000 .good) := ⟨by decide, by decide, by decide⟩

theorem peersSafe_referenced (t : List Entry) (n : SeqNo) : PeersSafe (referenced t (passage n)) :=
  peersSafe_one _ (peer 3 1000 .good) rfl rfl peerSafe_reference (show (3 : Nat) ≠ 5 by decide) rfl (referenceRight_some _ _ rfl rfl)

/-- A relay whose peer 9 lies downstream, with two PASSED entries before one in WINDOW and one INBOUND. -/
def removing (n : SeqNo) : State :=
  train [entry 1 .passed 0, entry 2 .passed 0, entry 3 .window 1, entry 4 .inbound 101] (holding (rx .passage 9 (passagePayload n .missed)) (knowing downstream))

/-- The entry 2 snapped between one PASSED or beyond the window and one beyond it. -/
def snapping : State := referenced [entry 0 .passed 0, entry 1 .inbound 101, { entry 2 .window 5 with snapMark := some 999 }, entry 3 .inbound 101] (passage 2)

theorem witness_passageSnapsOrRemoves :
    (PeersSafe snapping ∧ snapping.hasRole .relay = true ∧ natAt (passage 2).frame.payload 2 1 = 1
      ∧ BitVec.ofNat 16 (natAt (passage 2).frame.payload 0 2) = (2 : SeqNo) ∧ (snapping.trs.train.map (·.seq)).Nodup
      ∧ (peer 3 1000 .good).mark < (station .relay).cfg.mark ∧ ((halfWidth snapping 0 : Nat) : Int) < 101
      ∧ (station .relay).tke.halfMix + (station .relay).cfg.uncFloor < (station .relay).cfg.mark - (peer 3 1000 .good).mark)
    ∧ (PeersSafe (removing 2) ∧ natAt (rx .passage 9 (passagePayload 2 .missed)).frame.payload 2 1 = 3
      ∧ (station .relay).cfg.mark < downstream.mark ∧ ((removing 2).trs.train.map (·.seq)).Nodup ∧ ((halfWidth (removing 2) 0 : Nat) : Int) < 101
      ∧ (removing 2).dsu.healthy = false) :=
  ⟨⟨peersSafe_one _ (peer 3 1000 .good) rfl rfl peerSafe_reference (show (3 : Nat) ≠ 5 by decide) rfl (referenceRight_some _ _ rfl rfl), by decide +kernel,
      by decide +kernel, by decide +kernel, by decide +kernel, by decide +kernel, by decide +kernel, by decide +kernel⟩,
    ⟨peersSafe_one _ downstream rfl rfl peerSafe_good (by decide) rfl (referenceRight_none _ _ rfl rfl), by decide +kernel, by decide +kernel,
      by decide +kernel, by decide +kernel, by decide +kernel⟩⟩

/-- An origin with one hold of station 9, product 2. -/
def holdingOrigin : State := { station .origin with lsc := { Lsc.reset with holds := [⟨9, 2, 60⟩] } }

/-- The product and the minutes of a HOLD as read. -/
def holdFields (product minutes : Nat) : Nat × Nat :=
  (natAt (rx .hold 9 (holdPayload product minutes)).frame.payload 0 1, natAt (rx .hold 9 (holdPayload product minutes)).frame.payload 1 1)

theorem witness_holdsAreKeptUntilTheyExpire :
    (holdingOrigin.running = true ∧ (rx .hold 9 (holdPayload 2 60)).frame.kindOf = some .hold ∧ holdingOrigin.hasRole .origin = true
      ∧ holdingOrigin.lsc.orders = [])
    ∧ ((station .relay).hasRole .origin = false ∧ holdFields 16 61 = (16, 61) ∧ (rx .hold 0 []).frame.station.toNat = 0
      ∧ (rx .hold 251 []).frame.station.toNat = 251)
    ∧ (holdFields 15 1 = (15, 1) ∧ holdFields 2 60 = (2, 60) ∧ holdFields 0 0 = (0, 0) ∧ (rx .hold 9 []).frame.station.toNat = 9)
    ∧ holdingOrigin.lsc.holds.any (fun h => h.station == 9 && h.product == 2) = true
    ∧ (holdingOrigin.lsc.holds.any (fun h => h.station == 9 && h.product == 15) = false ∧ (List.replicate 15 (⟨9, 2, 60⟩ : Hold)).length < 16)
    ∧ holdingOrigin.lsc.holds.find? (fun x => x.station == 9 && x.product == 2) = some ⟨9, 2, 60⟩ := by
  decide +kernel

/-! Joining. -/

/-- An ASK for a mark with no newest sequence. -/
def ask (mark : Nat) : RxFrame := rx .ask 9 (askPayload mark none)

/-- A SYNCED relay with two entries, one below and one beyond 9,000 L. -/
def answering : State := { train [entry 1 .passed (-5000), entry 2 .inbound 100] (station .relay) with
  trs := { Trs.reset with sync := .synced, train := [entry 1 .passed (-5000), entry 2 .inbound 100] } }

theorem witness_askIsAnswered :
    (answering.running = true ∧ (ask 5001).frame.kindOf = some .ask ∧ natAt (ask 5001).frame.payload 4 1 = 0)
    ∧ ((station .relay).trs.sync ≠ .synced ∧ natAt (ask 5000).frame.payload 0 4 = 5000 ∧ natAt (ask 2000000001).frame.payload 0 4 = 2000000001
      ∧ (downstream.standing = .good ∧ answering.cfg.mark < downstream.mark ∧ downstream.mark < natAt (ask 9001).frame.payload 0 4))
    ∧ (answering.trs.sync = .synced ∧ natAt (ask 5001).frame.payload 0 4 = 5001 ∧ answering.prt.peers = [] ∧ answering.trs.train ≠ []
      ∧ (answering.trs.train.map (·.seq)).Nodup)
    ∧ { station .relay with trs := { Trs.reset with sync := .synced } }.trs.train = [] := by
  decide +kernel

/-- An ASK from beyond the GOOD peer 9, with a newest sequence. -/
def askShowing (newest : SeqNo) : RxFrame := rx .ask 10 (askPayload 9001 (some newest))

theorem witness_askIsAnswered_gap :
    ({ answering with prt := ⟨[downstream], none⟩ }.hasRole .relay = true ∧ (askShowing 3).frame.kindOf = some .ask
      ∧ natAt (askShowing 3).frame.payload 0 4 = 9001 ∧ natAt (askShowing 3).frame.payload 4 1 = 1 ∧ downstream.mark < 9001)
    ∧ (answering.trs.sync = .synced ∧ answering.tlc.upPort.link ≠ .up ∧ answering.tlc.downPort.link ≠ .up
      ∧ answering.trs.train.getLast?.map (·.seq) = some 2)
    ∧ (BitVec.ofNat 16 (natAt (askShowing 3).frame.payload 5 2) = (3 : SeqNo) ∧ seqAfter 3 2 = true ∧ seqAfter 2 2 = false) := by
  decide +kernel

/-- An ITEM telegram for a station: index 1 of `count`, with the position given. -/
def item (addressee index count : Nat) (position : Int) : RxFrame := rx .item 3 (itemPayload addressee index count (entry 9 .inbound 0) position)

/-- A relay that asks. -/
def asking : State := { station .relay with trs := { Trs.reset with sync := .asking, attempts := 1, transferTimer := some 5000 } }

theorem witness_itemsFillTheTrain :
    (asking.hasRole .relay = true ∧ (item 5 1 2 5000).frame.kindOf = some .item ∧ asking.trs.sync = .asking ∧ asking.trs.adopted = none
      ∧ asking.trs.train = [] ∧ asking.trs.held = [])
    ∧ ((readItem (item 6 1 2 5000).frame.payload).addressee ≠ asking.cfg.station ∧ (readItem (item 5 2 2 5000).frame.payload).index ≠ 1)
    ∧ (readItem [5, 1, 0]).count = 0
    ∧ ((readItem (item 5 1 2 5000).frame.payload).addressee = asking.cfg.station ∧ (readItem (item 5 1 2 5000).frame.payload).index = 1
      ∧ (readItem (item 5 1 2 5000).frame.payload).count = 2 ∧ itemValid (readItem (item 5 1 2 5000).frame.payload) = true
      ∧ (readItem (item 5 1 2 5000).frame.payload).body.map (·.position) = some 5000
      ∧ (readItem (item 5 1 2 4899).frame.payload).body.map (·.position) = some 4899
      ∧ ((asking.tke.halfMix + asking.cfg.uncFloor : Nat) : Int) < (asking.cfg.mark : Int) - 4899) := by
  decide +kernel

/-- A relay with an ASK due, and a port UP if asked. -/
def askDue (up : Bool) : State :=
  { ports (if up then upPort else .reset) .reset (station .relay) with trs := { Trs.reset with askDue := true, reAskTimer := some 30000 } }

theorem witness_asksAreTriedThreeTimes :
    ((askDue true).nonOrigin = true ∧ (askDue true).trs.askDue = true ∧ (askDue true).trs.sync = .unsynced ∧ (askDue true).tlc.upPort.link = .up)
    ∧ (askDue false).tlc.upPort.link ≠ .up ∧ (askDue false).tlc.downPort.link ≠ .up
    ∧ (asking.nonOrigin = true ∧ asking.trs.transferTimer = some 5000 ∧ asking.trs.attempts < 3
      ∧ { asking.trs with attempts := 3 }.attempts = 3)
    ∧ (askDue true).trs.reAskTimer = some 30000 := by
  decide +kernel

/-- A relay with one item left to hand on, and its two ports. -/
def handing (up : PortState) : State := { ports up .reset (station .relay) with trs := { Trs.reset with answer := [[9, 1, 0]] } }

/-- A port with a full BULK queue. -/
def fullBulk : PortState := { busyPort with bulk := List.replicate 24 passageFrame }

theorem witness_answersAreHandedAndLearningEnds :
    ((handing upPort).running = true ∧ (handing upPort).trs.answer = [[9, 1, 0]] ∧ (handing upPort).tlc.upPort.bulk.length < 24)
    ∧ ((handing fullBulk).tlc.upPort.link = .up ∧ 24 ≤ (handing fullBulk).tlc.upPort.bulk.length)
    ∧ ({ station .origin with trs := { Trs.reset with sync := .seqLearn, learnTimer := some 60000 } }.hasRole .origin = true
      ∧ (station .origin).lsc.orders = []) := by
  decide +kernel

/-! Holds of a terminal. -/

/-- A terminus that has reported a headroom on route 1, with the hold of product 1 as given. -/
def reporting (room : Nat) (slot : HoldSlot) : State := { station .terminus with hlu := { Hlu.reset with
  headrooms := { PerRoute.fill none with r1 := some room }, staleTimer := some 3000, slots := Hlu.reset.slots.set 1 slot } }

theorem witness_statusAndHoldsOfATerminal :
    (station .origin).running = true ∧ (station .origin).cfg.role = some .origin ∧ (station .relay).cfg.role = some .relay
    ∧ ((reporting 20 ⟨true, some 9⟩).running = true ∧ (reporting 20 ⟨true, some 9⟩).cfg.role = some .terminus
      ∧ (station .delivery).cfg.role = some .delivery)
    ∧ (reporting 20 ⟨true, some 9⟩).hlu.staleTimer = some 3000 ∧ (reporting 20 ⟨true, some 9⟩).hlu.slots[1]? = some ⟨true, some 9⟩ := by
  decide +kernel

theorem witness_watermarkRaisesAndClearsAHold :
    ((reporting 19 ⟨false, none⟩).hlu.slots.length = 16 ∧ routeGet (reporting 19 ⟨false, none⟩).cfg.routes .r1 = .product 1
      ∧ routeGet (reporting 19 ⟨false, none⟩).hlu.headrooms .r1 = some 19 ∧ (reporting 19 ⟨false, none⟩).hlu.slots[1]? = some ⟨false, none⟩)
    ∧ (19 < routeGet (station .terminus).cfg.watermarks .r1 ∧ routeGet (station .terminus).cfg.watermarks .r1 ≤ 20)
    ∧ ((reporting 30 ⟨true, some 9⟩).hlu.slots[1]? = some ⟨true, some 9⟩
      ∧ routeGet (station .terminus).cfg.watermarks .r1 + (station .terminus).cfg.holdHyst ≤ 30
      ∧ 29 < routeGet (station .terminus).cfg.watermarks .r1 + (station .terminus).cfg.holdHyst)
    ∧ (routeGet (station .terminus).cfg.routes .r4 = .unused ∧ routeGet (reporting 19 ⟨false, none⟩).hlu.headrooms .r2 = none
      ∧ (station .delivery).hasRole .terminus = false ∧ routeGet (station .delivery).cfg.routes .r3 = .transmix)
    ∧ (routeGet (station .terminus).cfg.routes .r3 = .transmix ∧ (station .terminus).hlu.slots[0]? = some ⟨false, none⟩) := by
  decide +kernel

/-! Valves. -/

/-- A terminus whose route 1 stands as given. -/
def valve (x : RouteState) : State := { station .terminus with vld := { Vld.reset with routes := { PerRoute.fill RouteState.reset with r1 := x } } }

/-- The routes as the limit tests find them: in travel to open, and at rest open. -/
def travelling : RouteState := ⟨.opened, some 30000, false, false, false, false⟩
def atRest : RouteState := ⟨.opened, none, false, true, false, false⟩

theorem witness_limitsConfirmOrFaultARoute :
    State.reset.running = false
    ∧ ((valve travelling).running = true ∧ (valve travelling).hasRole .delivery = false ∧ (valve travelling).vld.inFlight = none)
    ∧ (RouteState.reset.latch = .none ∧ RouteState.reset.travel = none)
    ∧ (routeState (valve travelling) .r1 = travelling ∧ travelling.latch ≠ .none ∧ travelling.travel = some 30000
      ∧ { travelling with closeLimit := true }.closeLimit = true)
    ∧ (routeState (valve atRest) .r1 = atRest ∧ atRest.latch ≠ .none ∧ atRest.travel = none ∧ atRest.openLimit = true
      ∧ atRest.closeLimit = false) := by
  decide +kernel

/-- An origin that switches to route 2 from route 1, its open in travel. -/
def making : State := { station .origin with vld := { Vld.reset with
  current := some .r1
  inFlight := some ⟨⟨.r2, ⟨.none, none, false⟩⟩, some .r1, .making, [], false⟩
  routes := { PerRoute.fill RouteState.reset with r1 := atRest, r2 := travelling } } }

theorem witness_switchMakesBreaksAndLaunches_make :
    making.hasRole .origin = true ∧ making.vld.inFlight = some ⟨⟨.r2, ⟨.none, none, false⟩⟩, some .r1, .making, [], false⟩
    ∧ (routeState making .r2).latch = .opened ∧ (routeState making .r2).travel = some 30000 ∧ (routeState making .r2).closeLimit = false
    ∧ (routeState making .r2).startupClose = false ∧ (routeState making .r1).closeLimit = false := by
  decide +kernel

/-- The same origin while it breaks: the close of route 1 in travel, its open limit shown or not, an order waiting, with or without a running
batch. -/
def breaking (seq : Option SeqNo) (shown : Bool) : State := { train ((List.range 39).map fun i => entry (BitVec.ofNat 16 i) .inbound 101) (station .origin) with
  vld := { Vld.reset with
    current := some .r2
    inFlight := some ⟨⟨.r2, ⟨.none, none, false⟩⟩, some .r1, .breaking, [.r1], false⟩
    routes := { PerRoute.fill RouteState.reset with r1 := ⟨.closed, some 30000, false, shown, false, false⟩, r2 := atRest } }
  lsc := { Lsc.reset with orders := [⟨1, 5000, 1, []⟩], nextSeq := some 39, switching := true, running := { Running.lineFill with seq := seq } } }

theorem witness_switchMakesBreaksAndLaunches_break :
    ([(none, false), (none, true), (some 38, false), (some 38, true)] : List (Option SeqNo × Bool)).all (fun q =>
      let s := breaking q.1 q.2
      let x := routeState s .r1
      s.hasRole .origin && s.vld.waiting == [] && x.latch == .closed && x.travel.isSome && x.openLimit == q.2 && !x.startupClose
        && s.lsc.nextSeq == some 39 && decide (s.trs.train.length < 40) && s.lsc.orders.all (fun o => 1 ≤ o.nominal)) = true
    ∧ ∀ seq shown, DensitySafe (breaking seq shown) :=
  ⟨by decide +kernel, fun _ _ => densitySafe_reset _ rfl⟩

/-- A terminus with an open record whose action of the kind given is in MAKE on route 2, from the old route given, or in BREAK, the close of route 1 in
travel and its open limit shown. -/
def switching (k : ActionKind) (x : InFlight) : State := { cutter [entry 2 .window 402] (sequencer .settling volumeCut [] 0) with
  vld := { Vld.reset with
    inFlight := some { x with request := ⟨.r2, ⟨k, some 0, false⟩⟩ }
    routes := { PerRoute.fill RouteState.reset with r1 := ⟨.closed, some 30000, false, true, false, false⟩, r2 := travelling } } }

/-- Faults: the open of the target times out at the ORIGIN and, as a HEAD and as a FINAL, at a TERMINUS, from an old route and from none; the close of the
old route ends with both limits. -/
theorem witness_switchMakesBreaksAndLaunches_fault :
    (making.running = true ∧ making.vld.waiting = [] ∧ (routeState making .r2).travel = some 30000)
    ∧ ([(ActionKind.head, some Route.r1), (.head, none), (.final, some .r1), (.final, none)] : List (ActionKind × Option Route)).all (fun y =>
      let s := switching y.1 ⟨⟨.r1, ⟨.none, none, false⟩⟩, y.2, .making, [], false⟩
      s.hasRole .terminus && s.vld.inFlight == some ⟨⟨.r2, ⟨y.1, some 0, false⟩⟩, y.2, .making, [], false⟩ && s.vld.waiting == []
        && (routeState s .r2).travel == some 30000 && !(routeState s .r2).startupClose && s.csq.record == some volumeCut && volumeCut.number == 0
        && s.csq.routeInUse == some .r2 && s.trs.train.all (fun e => !seqAfter volumeCut.cutEntry e.seq)) = true
    ∧ (let s := switching .head ⟨⟨.r1, ⟨.none, none, false⟩⟩, some .r1, .breaking, [.r1], false⟩
      s.vld.inFlight = some ⟨⟨.r2, ⟨.head, some 0, false⟩⟩, some .r1, .breaking, [.r1], false⟩
        ∧ (routeState s .r1).latch = .closed ∧ (routeState s .r1).travel.isSome = true ∧ (routeState s .r1).openLimit = true
        ∧ (routeState s .r1).startupClose = false) := by
  decide +kernel

/-- A terminus in STEADY after a RELEASE_TO made from UNKNOWN before the start reading, its switch to route 1 in MAKE, with the route in use that the
reading left. -/
def released (inUse : Option Route) : State := { station .terminus with
  csq := { Csq.reset with state := .steady, routeInUse := inUse }
  vld := { Vld.reset with
    startRead := true
    current := inUse
    inFlight := some ⟨⟨.r1, ⟨.none, none, true⟩⟩, inUse, .making, [], false⟩
    routes := { PerRoute.fill RouteState.reset with r1 := travelling } } }

/-- R144, R178: that switch is abandoned and CSQ is in UNKNOWN with no route in use, after ROUTE_UNKNOWN and after a reading of route 2. -/
theorem test_releaseAbandoned : [none, some .r2].map (fun r => after (.travelTimerExpiry .r1) (released r) (fun t => (t.csq.state, t.csq.routeInUse)))
    = [some (.unknown, none), some (.unknown, none)] := by
  decide +kernel

/-! The station port. -/

theorem witness_requestsAreRefusedOrTaken :
    (3 ≤ ([1, 0, 0] : List Byte).length ∧ ([1, 0, 0] : List Byte).length = natAt [1, 0, 0] 1 2 + 3 ∧ (0 : Byte) ≠ crc8 [1, 0, 0])
    ∧ (([1, 0, 1, 7] : List Byte).length = natAt [1, 0, 1, 7] 1 2 + 3
      ∧ requestLength (([1, 0, 1, 7] : List Byte).getD 0 0).toNat ≠ some (natAt [1, 0, 1, 7] 1 2))
    ∧ State.reset.running = false ∧ (station .relay).running = true ∧ (station .relay).cfg.role ≠ some .terminus
    ∧ (station .relay).cfg.role ≠ some .origin ∧ (station .relay).cfg.role ≠ some .delivery ∧ (station .origin).hasRole .origin = true
    ∧ (([1, 0, 0] : List Byte).length < 4 ∧ ([1, 0, 1, 7] : List Byte).length < natAt [1, 0, 1, 7] 1 2 + 4) := by
  decide +kernel

/-- R198, R199: the bytes of ACK_ALARMS 00000002H act as that command, and so do the same bytes with a byte after them; a byte short of them there is
no request yet. -/
def ackBytes : List Byte := [6, 0, 4, 0, 0, 0, 2]
theorem test_goodRequest : ([[crc8 ackBytes], [crc8 ackBytes, 0xFF], []] : List (List Byte)).map (fun tail =>
      after (.spiBadRequest (ackBytes ++ tail)) { station .relay with spc := { Spc.reset with alarms := 3 } }
        (fun t => (t.spc.alarms, t.spc.response.length))) = [some (1, 4), some (1, 4), some (3, 0)] := by
  decide +kernel

theorem witness_readsChangeOnlyTheResponse :
    (station .relay).running = true ∧ (train [entry 1 .inbound 40] (station .relay)).trs.train[(1 : Byte).toNat - 1]? = some (entry 1 .inbound 40)
    ∧ (train [entry 1 .inbound 40] (station .relay)).trs.train.length < (2 : Byte).toNat
    ∧ (knowing downstream).prt.peers[(1 : Byte).toNat - 1]? = some downstream ∧ (knowing downstream).prt.peers.length < (2 : Byte).toNat := by
  decide +kernel

/-- A delivery record. -/
def deliveryRecord : LogRecord := .delivery ⟨1, 1, .r1, 5, 5, 5, 0, 5, 0, 5, .clear⟩

/-- A station with one event and one record, both being read, and a lost notice owed if asked. -/
def readingOut (owed : Bool) : State := { station .relay with spc := { Spc.reset with
  events := [⟨0, .trainSynced⟩], cutLog := [deliveryRecord], readingEvent := true, readingRecord := true, lostOwed := owed } }

theorem witness_readItemsLeaveWhenClockedOut :
    ((station .relay).running = true ∧ (station .relay).spc.events = [] ∧ (station .relay).spc.cutLog = []
      ∧ (station .relay).spc.readingEvent = false ∧ (station .relay).spc.readingRecord = false)
    ∧ ((readingOut true).running = true ∧ (readingOut true).spc.events = [⟨0, .trainSynced⟩] ∧ (readingOut true).spc.cutLog = [deliveryRecord]
      ∧ (readingOut true).spc.readingEvent = true ∧ (readingOut true).spc.readingRecord = true ∧ (readingOut true).spc.lostOwed = true)
    ∧ (readingOut false).spc.lostOwed = false := by
  decide +kernel

/-- A station with `n` events and a lost notice owed. -/
def owing (n : Nat) : State := { station .relay with spc := { Spc.reset with
    events := List.replicate n ⟨0, .trainSynced⟩, lostOwed := true, lostCount := 1 } }

theorem witness_eventsAndAlarmsAreKept :
    ((owing 63).spc.events.length < 64 ∧ (owing 63).spc.lostOwed = true ∧ (owing 63).running = true ∧ 64 ≤ (owing 64).spc.events.length)
    ∧ (station .relay).spc.lostOwed = false ∧ (0x400000#32).getLsbD 22 = true ∧ (0x3FFFFF#32) < 0x400000#32
    ∧ (State.reset.cfl.load = .loading ∧ { Cfl.reset with load := .configFault }.load = .configFault ∧ (owing 1).cfl.load = .run) := by
  decide +kernel

/-- R206: INT at the event watermark 1 and one below it, and with a latched alarm. -/
theorem test_intLevel : intAsserted { owing 1 with clock := 0 } = true ∧ intAsserted (station .relay) = false
    ∧ intAsserted { station .relay with spc := { Spc.reset with alarms := 1 } } = true
    ∧ intAsserted { station .relay with
      cfl := { (station .relay).cfl with published := { config .relay with alarmMask := 1 } }, spc := { Spc.reset with alarms := 1 } } = false := by
  decide +kernel

theorem witness_noHighBits : ∀ n, 22 ≤ n → (0x3FFFFF#32).getLsbD n = false := fun n h => by
  by_cases hn : n < 32
  · have := List.all_eq_true.mp (show ((List.range 32).all fun k => k < 22 || !(0x3FFFFF#32).getLsbD k) = true by decide +kernel) n (List.mem_range.mpr hn)
    simpa [Nat.not_lt.mpr h] using this
  · exact BitVec.getLsbD_of_ge _ _ (Nat.not_lt.mp hn)

/-! Orders and overrides. -/

/-- A launch order for product 1. -/
def order : Order := ⟨1, 5000, 100000, []⟩

/-- An origin with `n` orders waiting. -/
def ordered (n : Nat) : State := { station .origin with lsc := { Lsc.reset with orders := List.replicate n order } }

/-- Six places, the first two used. -/
def places : List OrderPlace := [⟨1, 1⟩, ⟨250, 2000000000⟩, ⟨0, 0⟩, ⟨0, 0⟩, ⟨0, 0⟩, ⟨0, 0⟩]

theorem witness_ordersJoinLeaveAndStart_queue :
    ((ordered 7).hasRole .origin = true ∧ 1 ≤ (ordered 7).lsc.orders.length ∧ (ordered 7).lsc.orders.length < 8 ∧ 8 ≤ (ordered 8).lsc.orders.length
      ∧ places.length = 6)
    ∧ ((allRoutes.all fun r => routeGet (config .origin).routes r != .product 15) = true
      ∧ routeGet (config .origin).routes .r1 = .product (1 : Byte).toNat)
    ∧ (5000 ≤ (5000 : BitVec 16).toNat ∧ (5000 : BitVec 16).toNat ≤ 11000 ∧ (11000 : BitVec 16).toNat ≤ 11000 ∧ (99999 : BitVec 32).toNat < 100000
      ∧ (2000000000 : BitVec 32).toNat ≤ 2000000000)
    ∧ ((places.take 2).all fun x => 1 ≤ x.station.toNat && x.station.toNat ≤ 250 && x.station.toNat != 5 && 1 ≤ x.volume.toNat
      && x.volume.toNat ≤ 2000000000) = true
    ∧ ((places.take 2).map (·.station.toNat)).Nodup
    ∧ ((ordered 2).lsc.orders.length < (3 : Byte).toNat ∧ (2 : Byte).toNat ≤ (ordered 2).lsc.orders.length
      ∧ { (ordered 2).lsc with switching := true }.switching = true) := by
  decide +kernel

/-- An origin free to start a changeover to route 1, the holds and the running product given. -/
def free (holds : List Hold) (product : Option Nat) : State := { station .origin with
  trs := { Trs.reset with sync := .synced }
  vld := { Vld.reset with startRead := true, current := some .r2 }
  prt := ⟨[{ peer 30 9000 .good with role := .terminus, arrival := .down }], none⟩
  lsc := { Lsc.reset with holds := holds, running := { Running.lineFill with product := product } } }

/-- No hold; a hold of product 1 at the place 250 the order delivers to; the same with one of the running product 2 at the TERMINUS 30. -/
theorem witness_ordersJoinLeaveAndStart_start :
    ([([], none), ([⟨250, 1, 60000⟩], none), ([⟨250, 0, 60000⟩, ⟨30, 2, 60000⟩], some 2)] : List (List Hold × Option Nat)).all (fun x =>
      let s := free x.1 x.2
      s.hasRole .origin && s.lsc.orders == [] && productRoute s.cfg 1 == some .r1
        && decide (s.lsc.running.nominal ≤ s.lsc.running.launched ∧ s.trs.sync ≠ .seqLearn ∧ s.vld.current ≠ some .r1)
        && !s.lsc.switching && !s.lsc.faultMark && s.vld.startRead && s.vld.inFlight == none && !(routeState s .r1).openLimit
        && decide ((s.prt.peers.map (·.station)).Nodup)) = true
    ∧ (places.length = 6 ∧ (places.take 2).any (fun x => x.station.toNat == 250) = true
      ∧ (free [] none).prt.peers.map (fun p => (p.station, p.role)) = [(30, .terminus)]) := by
  decide +kernel

/-- R187 to R189: those three start, wait, and start with HOLD_CONFLICT. -/
theorem test_changeover : ([([], none), ([⟨250, 1, 60000⟩], none), ([⟨250, 0, 60000⟩, ⟨30, 2, 60000⟩], some 2)] : List (List Hold × Option Nat)).map
    (fun x => after (.enterOrder 1 8000 200000 2 places) (free x.1 x.2) (fun t => (t.lsc.switching, alarmLatched t .holdConflict)))
      = [some (true, false), some (false, false), some (true, true)] := by
  decide +kernel

/-- A SYNCED origin whose head order delivers a held product to its holder, so that a block is applied. -/
def heldOrder : Order := { order with deliveries := [⟨9, 5⟩] }
def blocked : State := { station .origin with
  trs := { Trs.reset with sync := .synced }
  lsc := { Lsc.reset with orders := [heldOrder], holds := [⟨9, 1, 60⟩], running := { Running.lineFill with product := some 2 } } }

theorem witness_forceAdvanceActsAtOnce :
    ((station .relay).running = true ∧ (station .relay).cfg.role = some .relay ∧ (station .delivery).cfg.role = some .delivery)
    ∧ ((station .origin).cfg.role = some .origin ∧ (station .origin).trs.sync ≠ .synced)
    ∧ (blocked.trs.sync = .synced ∧ blocked.lsc.switching = false ∧ blocked.lsc.orders = [heldOrder] ∧ blockApplied blocked heldOrder = true)
    ∧ ((station .terminus).cfg.role = some .terminus ∧ (station .terminus).csq.record = none)
    ∧ ((cutting [⟨.r3, 100, .density, 2, .head⟩]).csq.record = some openCut ∧ openCut.policy ≠ .none ∧ openCut.finalExecuted = false
      ∧ (cutting [⟨.r3, 100, .density, 2, .head⟩]).csq.queue = [⟨.r3, 100, .density, 2, .head⟩]
      ∧ (cutting [⟨.r3, 100, .density, 2, .head⟩]).csq.routeInUse = some .r3) := by
  decide +kernel

/-- A terminus on route 1 with an open record and VLD free. -/
def advancing (r : OpenCut) (queue : List Action) : State := { cutting queue with
  vld := { Vld.reset with startRead := true, current := some .r1 }
  csq := { Csq.reset with state := .armed, routeInUse := some .r1, record := some r, queue := queue } }

theorem witness_forceAdvanceActsAtOnce_switch :
    ([(openCut, [⟨.r3, 100, .density, 1, .head⟩]), (openCut, []), ({ openCut with policy := .intoA }, []), ({ openCut with headReached := true }, [])]
      : List (OpenCut × List Action)).all (fun x =>
      let s := advancing x.1 x.2
      s.hasRole .terminus && s.csq.record == some x.1 && x.1.policy != .none && !x.1.finalExecuted && !x.1.finalReached && s.csq.queue == x.2
        && s.vld.startRead && s.vld.inFlight == none && s.csq.routeInUse == some .r1 && s.vld.current == some .r1
        && !(routeState s .r3).openLimit && !(routeState s .r2).openLimit) = true
    ∧ (openCut.policy = .transmix ∧ openCut.headReached = false ∧ transmixRoute (advancing openCut []).cfg = some .r3
      ∧ productRoute (advancing openCut []).cfg openCut.productB = some .r2) := by
  decide +kernel

/-- A terminus on the transmix route in a cut state without a record. -/
def resting (c : CutState) : State := { station .terminus with csq := { Csq.reset with state := c, routeInUse := some .r3 } }

theorem cutSafe_resting (c : CutState) (h : c = .unknown ∨ c = .steady ∨ c = .held) : CutSafe (resting c) := by
  rcases h with rfl | rfl | rfl <;> exact cutSafe_shut _ (by decide +kernel)

theorem witness_overridesHoldAndRelease :
    (CutSafe (resting .unknown) ∧ CutSafe (resting .steady) ∧ CutSafe (resting .held))
    ∧ ((resting .held).hasRole .terminus = true ∧ (resting .unknown).csq.state = .unknown ∧ (resting .steady).csq.state = .steady
      ∧ (resting .held).csq.state = .held ∧ transmixRoute (resting .held).cfg = some .r3 ∧ (resting .held).csq.routeInUse = some .r3)
    ∧ (routeNumber .r3 = (3 : Byte).toNat ∧ routeGet (resting .held).cfg.routes .r3 ≠ .unused ∧ (resting .held).trs.train = [])
    ∧ (routeNumber .r4 = (4 : Byte).toNat ∧ routeGet (resting .held).cfg.routes .r4 = .unused)
    ∧ (allRoutes.all fun r => routeNumber r != (9 : Byte).toNat) = true
    ∧ (CutSafe (cutting []) ∧ (cutting []).csq.record = some openCut ∧ (cutting []).csq.routeInUse = some .r3 ∧ (cutting []).trs.train = []) :=
  ⟨⟨cutSafe_resting _ (.inl rfl), cutSafe_resting _ (.inr (.inl rfl)), cutSafe_resting _ (.inr (.inr rfl))⟩, by decide +kernel, by decide +kernel,
    by decide +kernel, by decide +kernel, cutSafe_open _ openCut (by decide +kernel), by decide +kernel⟩

theorem witness_deliveriesOpenAndClose_close :
    ((station .delivery).hasRole .delivery = true ∧ (station .delivery).dsq.active = none)
    ∧ ((deliveringAt .closing 5).dsq.state = .closing ∧ (deliveringAt .opening 5).dsq.state = .opening
      ∧ (deliveringAt .delivering 5).dsq.state = .delivering)
    ∧ ((deliveringAt .delivering 5).hasRole .delivery = true ∧ (deliveringAt .delivering 5).dsq.active = some (delivery 5)
      ∧ (delivery 5).atCloseRequest = none ∧ (delivery 5).closePending = false
      ∧ (routeState (deliveringAt .delivering 5) (delivery 5).route).closeLimit = false) := by
  decide +kernel

/-- A delivery station with one PASSED entry of a product, ordered here, at the RLV given, whose next pulse is one litre. -/
def due (product : Nat) (rlv : Int) : State :=
  train [{ entry 1 .passed rlv with product := product, deliveries := [⟨5, 7⟩] }] (counting .delivery 0 0)

/-- The window and DELIVERY_GUARD reach 100 L past the station: RLV −98 comes to −99 and is not due, −99 comes to −100 and is. Product 1 has a route and
product 15 none. -/
theorem witness_deliveriesOpenAndClose_open :
    ([(1, -98), (1, -99), (15, -99)] : List (Nat × Int)).all (fun x =>
      let s := due x.1 x.2
      s.hasRole .delivery && nextLitres s == 1 && s.dsq.state == .idle && s.dsq.active == none && s.dsq.note == none && s.dsq.candidate == none
        && s.dsq.deliveredThrough == none && s.trs.train.all (fun e => e.deliveries.contains ⟨s.cfg.station, 7⟩)
        && halfWidth s 0 + s.cfg.deliveryGuard == 100) = true
    ∧ (0 < (-98 - 1 + 100 : Int) ∧ (-99 - 1 : Int) ≤ -100)
    ∧ (productRoute (due 1 0).cfg 1 = some .r1 ∧ productRoute (due 15 0).cfg 15 = none ∧ (routeState (due 1 0) .r1).openLimit = false) := by
  decide +kernel

/-- A delivery whose route is in travel. -/
def moving (d : DeliveryState) (latch : Latch) (shown : Bool) : State := { station .delivery with
  dsq := { Dsq.reset with state := d, active := some (delivery 5) }
  vld := { Vld.reset with routes := { PerRoute.fill RouteState.reset with r1 := ⟨latch, some 30000, false, shown, false, false⟩ } } }

theorem witness_deliveriesOpenAndClose_confirm :
    (moving .opening .opened false).hasRole .delivery = true ∧ (moving .opening .opened false).vld.inFlight = none
    ∧ (moving .opening .opened false).dsq.active = some (delivery 5) ∧ (delivery 5).delivered < (delivery 5).ordered
    ∧ ((routeState (moving .opening .opened false) .r1).latch = .opened ∧ (routeState (moving .opening .opened false) .r1).closeLimit = false)
    ∧ ((moving .closing .closed false).dsq.state = .closing ∧ (routeState (moving .closing .closed false) .r1).latch = .closed
      ∧ (routeState (moving .closing .closed false) .r1).openLimit = false ∧ (moving .closing .closed false).trs.train = []
      ∧ (moving .closing .closed false).dsq.candidate = none) := by
  decide +kernel

/-- R165, R204: with 16 records in the log, the event of a closed delivery carries OVERWRITE. -/
theorem test_deliveryClosedOverwrite : after (.limitChange .r1 .closed true) { moving .closing .closed false with
      spc := { Spc.reset with cutLog := List.replicate 16 deliveryRecord } }
    (fun t => (t.spc.events.map (·.event), t.spc.cutLog.length)) = some ([.deliveryClosed 1 0 { DeliveryFlags.clear with overwrite := true }], 16) := by
  decide +kernel

theorem witness_resyncEmptiesTheTrain :
    ((station .relay).hasRole .relay = true ∧ (station .relay).tlc.upPort.link ≠ .up ∧ (station .relay).tlc.downPort.link ≠ .up)
    ∧ sendingLine.hasRole .relay = true ∧ sendingLine.tlc.upPort.link = .up
    ∧ (CutSafe (resting .steady) ∧ CutSafe (resting .unknown) ∧ (resting .steady).csq.record = none ∧ (resting .steady).tlc.upPort.link ≠ .up
      ∧ CutSafe (cutting []) ∧ (cutting []).csq.record = some openCut ∧ (cutting []).tlc.downPort.link ≠ .up)
    ∧ ((station .delivery).dsq.active = none ∧ (deliveringAt .delivering 5).hasRole .delivery = true
      ∧ (deliveringAt .delivering 5).dsq.active = some (delivery 5) ∧ (delivery 5).atCloseRequest = none
      ∧ (routeState (deliveringAt .delivering 5) (delivery 5).route).closeLimit = false) :=
  ⟨by decide +kernel, by decide +kernel, by decide +kernel, ⟨cutSafe_resting _ (.inr (.inl rfl)), cutSafe_resting _ (.inl rfl), by decide +kernel,
    by decide +kernel, cutSafe_open _ openCut (by decide +kernel), by decide +kernel, by decide +kernel⟩, by decide +kernel⟩

/-! Steps. -/

theorem witness_runKeepsConfigurationAndCount :
    Instr.mainlinePulse ≠ .powerOnReset ∧ exec .readEvent State.reset = .next (refuse .notState State.reset) ∧ (station .relay).cfl.load = .run :=
  ⟨by decide, rfl, rfl⟩

/-- A relay with a command waiting. -/
def waiting : State := { station .relay with pending := [.mainlinePulse] }

theorem waiting_steps : ∃ t, step waiting = .next t := ⟨_, rfl⟩

theorem witness_meterTrackingAndDensityStaySafe :
    MeterSafe waiting ∧ TrackingSafe { waiting with tke := ⟨mixVolume 9 5000, mixVolume 9 5000 / 2⟩ } ∧ DensitySafe waiting ∧ ∃ t, step waiting = .next t :=
  ⟨⟨by decide, by decide, by decide, by decide, by decide, by decide, by decide⟩, ⟨by decide +kernel, by decide +kernel, fun _ => rfl⟩,
    densitySafe_reset _ rfl, waiting_steps⟩

/-- The same with a reference peer. -/
def waitingWithPeer : State := { waiting with prt := ⟨[peer 3 1000 .good], some 3⟩ }

theorem witness_peersStaySafe : PeersSafe waitingWithPeer ∧ ∃ t, step waitingWithPeer = .next t :=
  ⟨peersSafe_one _ (peer 3 1000 .good) rfl rfl peerSafe_reference (by decide) rfl (referenceRight_some _ _ rfl rfl), _, rfl⟩

/-- An origin with a train, an order and a hold, about to cancel the order. -/
def launching : State := { train [entry 1 .passed (-2147483648)] (ordered 1) with
  pending := [.cancelOrder 1], lsc := { (ordered 1).lsc with holds := [⟨9, 2, 60⟩, ⟨9, 0, 60⟩] } }

theorem witness_trainAndLaunchStaySafe : TrainSafe launching ∧ LaunchSafe launching ∧ ∃ t, step launching = .next t :=
  ⟨trainSafe_of _ (by decide +kernel), ⟨by decide, fun o m => by
      rw [List.mem_singleton.mp (show o ∈ [order] from m)]
      exact ⟨by decide, by decide, by decide, by decide⟩, by decide, by decide, by decide, by decide, by decide⟩, _, rfl⟩

theorem stationSafe_reset : StationSafe State.reset := ⟨by decide, by decide, by decide, by decide⟩

theorem routeSafe_reset : RouteSafe RouteState.reset := ⟨by decide, by decide, by decide⟩

theorem valveSafe_making : ValveSafe { making with vld := { making.vld with startRead := true } } where
  waiting := by decide
  routes r := by cases r <;> first | exact routeSafe_reset | exact ⟨by decide, by decide, by decide⟩
  switch x h := by
    cases h
    exact ⟨rfl, rfl, rfl, by decide⟩
  reading h := absurd h (by decide)
  timer h := absurd h (by decide)
  outside h := absurd h (by decide)

theorem witness_lineStationAndValvesStaySafe :
    LineSafe { sendingLine with pending := [.txPortFree .down] } ∧ StationSafe { sendingLine with pending := [.txPortFree .down] }
    ∧ (∃ t, step { sendingLine with pending := [.txPortFree .down] } = .next t)
    ∧ ValveSafe { making with vld := { making.vld with startRead := true } }
    ∧ ∃ t, step { making with vld := { making.vld with startRead := true }, pending := [.limitChange .r2 .opened true] } = .next t :=
  ⟨⟨portSafe_up, portSafe_busy, by decide⟩, ⟨by decide, by decide, by decide, by decide⟩, ⟨_, rfl⟩, valveSafe_making, _, rfl⟩

/-- A terminus with an open record and its head action waiting, about to be forced to transmix. -/
def forcing : State := { advancing { openCut with headReached := true } [⟨.r3, 0, .density, 1, .head⟩] with pending := [.forceTransmix] }

theorem witness_cutStaysSafe : CutSafe forcing ∧ ∃ t, step forcing = .next t :=
  ⟨cutSafe_open _ { openCut with headReached := true } (by decide +kernel), _, rfl⟩

theorem witness_deliveryAndTerminalStaySafe :
    DeliverySafe { deliveringAt .delivering 5 with pending := [.closeDelivery] }
    ∧ (∃ t, step { deliveringAt .delivering 5 with pending := [.closeDelivery] } = .next t)
    ∧ TerminalSafe (reporting 65535 ⟨true, some 9⟩) ∧ ∃ t, step { reporting 65535 ⟨true, some 9⟩ with pending := [.staleTimerExpiry] } = .next t :=
  ⟨rfl, ⟨_, rfl⟩, ⟨by decide, by decide, fun r v h => by cases r <;> cases h; decide, by decide, by decide⟩, _, rfl⟩

end Sys2Proof.Tests
end

