-- ==== Sys2Proof/Proofs/TrainSafety.lean ====
section
/-! SUPPORT. What the operations keep of TRS and LSC: the ranges of the train's entries, of the orders and of the holds. -/

namespace Sys2Proof.Machine

/-! ### Entries -/

theorem entrySafe_window {e : Entry} (h : EntrySafe e) (hi : e.track = .inbound) : EntrySafe { e with track := .window } :=
  { h with kind := by have := h.kind; simp [hi] at this; simp [this] }

theorem entrySafe_declared {e : Entry} (k : PassageKind) (h : EntrySafe e) : EntrySafe (e.declared k) := by
  cases k with
  | detected => exact { h with kind := rfl, lowest := (by decide : lowestRlv ≤ 0), highest := (by decide : 0 ≤ highestRlv), since := Nat.zero_le _ }
  | estimated => exact { h with kind := rfl }
  | missed => exact { h with kind := rfl }

theorem entrySafe_advance {e : Entry} (n : Nat) (h : EntrySafe e) : EntrySafe (e.advance n) :=
  { h with
    lowest := by simp only [Entry.advance, lowerRlv]; omega
    highest := by
      have h1 := h.highest
      have h2 : lowestRlv ≤ highestRlv := by decide
      simp only [Entry.advance, lowerRlv]
      omega
    since := by
      have := h.since
      simp only [Entry.advance, raiseS]
      split <;> omega }

theorem entrySafe_deliver {e : Entry} (n : Nat) (h : EntrySafe e) : EntrySafe (e.deliver n) :=
  { h with remaining := fun hl => (Nat.sub_le _ _).trans (h.remaining hl) }

theorem entrySafe_fillLaunched {e : Entry} {v : Nat} (hv : v ≤ 2000000000) (h : EntrySafe e) : EntrySafe (e.fillLaunched v) := by
  unfold Entry.fillLaunched
  split
  · exact h
  · exact { h with launched := by rintro _ ⟨⟩; exact hv, remaining := by rintro ⟨⟩ }

theorem entrySafe_deltaEntry {e : Entry} (own mark delta : Nat) (chosen : Option SeqNo) (h : EntrySafe e) :
    EntrySafe (deltaEntry own mark delta chosen e) := by
  have ha : EntrySafe (if (own : Int) - e.rlv < (mark : Int) then e.advance delta else e) := by
    split
    · exact entrySafe_advance delta h
    · exact h
  unfold deltaEntry
  simp only
  split
  · exact entrySafe_deliver delta ha
  · exact ha

/-- A snap that R54 allows keeps the entry's ranges: the peer's mark is below the own one. -/
theorem entrySafe_snapped {e : Entry} {own : Nat} {p : Peer} (r : Bool) (w : Nat) (ho : own ≤ 2000000000)
    (ha : snapAllowed own p e = true) (h : EntrySafe e) : EntrySafe (e.snapped own p.mark r w) := by
  simp only [snapAllowed, Bool.and_eq_true, decide_eq_true_eq, bne_iff_ne] at ha
  obtain ⟨⟨⟨-, hm⟩, -⟩, ht⟩ := ha
  have hk : e.kind.isSome = false := by rw [h.kind]; simpa using ht
  exact { h with
    snapMark := by rintro _ ⟨⟩; omega
    kind := by
      simp only [Entry.snapped, hk]
      split <;> simp [ht]
    lowest := by simp only [Entry.snapped, lowestRlv]; omega
    highest := by simp only [Entry.snapped, highestRlv]; omega
    since := Nat.zero_le _ }

theorem entrySafe_entryOfLaunch {mark : Nat} {m : LaunchMsg} (hm : mark ≤ 2000000000) (hv : launchValid m = true) :
    EntrySafe (entryOfLaunch mark m) := by
  simp only [launchValid, Bool.and_eq_true, decide_eq_true_eq] at hv
  obtain ⟨⟨⟨⟨⟨⟨⟨p1, p2⟩, d1⟩, d2⟩, n1⟩, n2⟩, hd⟩, -⟩ := hv
  exact {
    product := ⟨p1, p2⟩, density := ⟨d1, d2⟩, nominal := ⟨n1, n2⟩, launched := by rintro _ ⟨⟩, remaining := fun _ => n2
    deliveries := hd, snapMark := by rintro _ ⟨⟩, kind := rfl
    lowest := by simp only [entryOfLaunch, lowestRlv]; omega
    highest := by simp only [entryOfLaunch, highestRlv]; omega
    since := Nat.zero_le _ }

theorem entrySafe_entryOfOrder {o : Order} (n : SeqNo) (h : OrderSafe o) : EntrySafe (entryOfOrder n o) where
  product := h.product
  density := h.density
  nominal := h.nominal
  launched := by rintro _ ⟨⟩
  remaining := fun _ => h.nominal.2
  deliveries := h.deliveries
  snapMark := by rintro _ ⟨⟩
  kind := rfl
  lowest := (by decide : lowestRlv ≤ 0)
  highest := (by decide : 0 ≤ highestRlv)
  since := Nat.zero_le _

/-- The checks of R124 on an item with a batch, one by one. -/
theorem itemValid_some {m : ItemMsg} {b : ItemBody} (hv : itemValid m = true) (hb : m.body = some b) :
    (1 ≤ b.product ∧ b.product ≤ 15) ∧ (5000 ≤ b.density ∧ b.density ≤ 11000) ∧ (100000 ≤ b.nominal ∧ b.nominal ≤ 2000000000)
      ∧ (b.launchedPresent = 0 ∨ (b.launchedPresent = 1 ∧ b.launchedField ≤ 2000000000)) ∧ b.remaining ≤ 2000000000
      ∧ deliveriesValid b.deliveries = true := by
  simp only [itemValid, hb, Bool.and_eq_true, Bool.or_eq_true, decide_eq_true_eq, beq_iff_eq] at hv
  obtain ⟨-, ⟨⟨⟨⟨⟨⟨⟨p1, p2⟩, d1⟩, d2⟩, n1⟩, n2⟩, hl⟩, hr⟩, hd⟩ := hv
  exact ⟨⟨p1, p2⟩, ⟨d1, d2⟩, ⟨n1, n2⟩, hl, hr, hd⟩

theorem launched_le_of_itemValid {m : ItemMsg} {b : ItemBody} (hv : itemValid m = true) (hb : m.body = some b) {v : Nat}
    (h : b.launched = some v) : v ≤ 2000000000 := by
  obtain ⟨-, -, -, hl, -⟩ := itemValid_some hv hb
  unfold ItemBody.launched at h
  split at h
  · cases h; omega
  · cases h

theorem entrySafe_entryOfItem {m : ItemMsg} {b : ItemBody} (mark : Nat) (hv : itemValid m = true) (hb : m.body = some b) :
    EntrySafe (entryOfItem mark b) := by
  obtain ⟨hp, hd, hn, -, hr, hl⟩ := itemValid_some hv hb
  have hc := clampInt_bounds (lo := lowestRlv) (hi := highestRlv) ((mark : Int) - b.position) (by decide)
  exact {
    product := hp, density := hd, nominal := hn, launched := fun _ h => launched_le_of_itemValid hv hb h
    remaining := fun _ => hr, deliveries := hl, snapMark := by rintro _ ⟨⟩
    kind := by
      simp only [entryOfItem]
      split <;> rfl
    lowest := hc.1, highest := hc.2, since := Nat.zero_le _ }

/-! ### The train -/

/-- A change at a sequence reaches the entry that is found under it, and no other. -/
theorem mem_changeEntry_found {n : SeqNo} {f : Entry → Entry} {t : List Entry} {e x : Entry} (hf : findEntry t n = some e)
    (h : x ∈ changeEntry n f t) : x ∈ t ∨ x = f e := by
  induction t with
  | nil => cases h
  | cons a rest ih =>
    simp only [changeEntry] at h
    simp only [findEntry, List.find?_cons] at hf
    split at h
    · next hn =>
      simp only [hn, Option.some.injEq] at hf
      rcases List.mem_cons.mp h with rfl | h
      · exact .inr (hf ▸ rfl)
      · exact .inl (List.mem_cons_of_mem _ h)
    · next hn =>
      simp only [hn] at hf
      rcases List.mem_cons.mp h with rfl | h
      · exact .inl List.mem_cons_self
      · exact (ih hf h).imp_left (List.mem_cons_of_mem _)

/-- A chip in RUN whose train, orders and holds are within their ranges, with at most `k` entries. In RUN the train need not be empty, so
every operation of the running chip keeps this; but for the insertions it is kept for every `k`, so that room for one entry stays
room for one entry. -/
structure TrainLaunchSafe (k : Nat) (s : State) : Prop where
  running : s.running = true
  room : s.trs.train.length ≤ k
  train : TrainSafe s
  launch : LaunchSafe s

/-- The part of the state that `TrainLaunchSafe` speaks of. -/
def trainLaunchView (s : State) : Cfl × List Entry × Lsc := (s.cfl, s.trs.train, s.lsc)

theorem trainLaunchView_eq {s t : State} (h : trainLaunchView t = trainLaunchView s) :
    t.cfl = s.cfl ∧ t.trs.train = s.trs.train ∧ t.lsc = s.lsc := by
  simpa [trainLaunchView] using h

theorem trainSafe_of_eq {s t : State} (hc : t.cfl = s.cfl) (ht : t.trs.train = s.trs.train) (hs : TrainSafe s) : TrainSafe t :=
  ⟨ht ▸ hs.room, ht ▸ hs.entries, by simpa [State.cfg, hc] using hs.mark,
    fun hr => ht ▸ hs.outside (by simpa [State.running, hc] using hr)⟩

theorem launchSafe_of_eq {s t : State} (h : t.lsc = s.lsc) (hs : LaunchSafe s) : LaunchSafe t :=
  ⟨h ▸ hs.orders, h ▸ hs.ranges, h ▸ hs.switching, h ▸ hs.launched, h ▸ hs.holds, h ▸ hs.keys, h ▸ hs.holders⟩

theorem trainLaunchSafe_of_view {k : Nat} {s t : State} (h : trainLaunchView t = trainLaunchView s) (hs : TrainLaunchSafe k s) :
    TrainLaunchSafe k t := by
  obtain ⟨hc, ht, hl⟩ := trainLaunchView_eq h
  exact ⟨by simpa [State.running, hc] using hs.running, ht ▸ hs.room, trainSafe_of_eq hc ht hs.train, launchSafe_of_eq hl hs.launch⟩

theorem trainLaunchSafe_iff_of_view {k : Nat} {s t : State} (h : trainLaunchView t = trainLaunchView s) :
    TrainLaunchSafe k t ↔ TrainLaunchSafe k s :=
  ⟨trainLaunchSafe_of_view h.symm, trainLaunchSafe_of_view h⟩

section Trains
variable {k : Nat} {s : State} {l : List Entry} {f : Entry → Entry}

/-- A train within its ranges put in place of the old one. -/
theorem trainLaunchSafe_putTrain_of_room (hs : TrainLaunchSafe k s) (hk : l.length ≤ k) (h40 : l.length ≤ 40)
    (he : ∀ e ∈ l, EntrySafe e) : TrainLaunchSafe k (putTrain l s) :=
  ⟨hs.running, hk, ⟨h40, he, hs.train.mark, fun h => absurd hs.running (by simpa [State.running] using h)⟩,
    launchSafe_of_eq (s := s) rfl hs.launch⟩

/-- A train that is no longer, within its ranges, put in place of the old one. -/
theorem trainLaunchSafe_putTrain (hs : TrainLaunchSafe k s) (hl : l.length ≤ s.trs.train.length)
    (he : ∀ e ∈ l, EntrySafe e) : TrainLaunchSafe k (putTrain l s) :=
  trainLaunchSafe_putTrain_of_room hs (hl.trans hs.room) (hl.trans hs.train.room) he

theorem trainLaunchSafe_putTrain_sublist (hs : TrainLaunchSafe k s) (hl : List.Sublist l s.trs.train) :
    TrainLaunchSafe k (putTrain l s) :=
  trainLaunchSafe_putTrain hs hl.length_le fun e he => hs.train.entries e (hl.subset he)

theorem trainLaunchSafe_putTrain_map (hs : TrainLaunchSafe k s) (hf : ∀ e, EntrySafe e → EntrySafe (f e)) :
    TrainLaunchSafe k (putTrain (s.trs.train.map f) s) := by
  refine trainLaunchSafe_putTrain hs (by simp) fun e he => ?_
  obtain ⟨a, ha, rfl⟩ := List.mem_map.mp he
  exact hf a (hs.train.entries a ha)

theorem trainLaunchSafe_updateEntry (n : SeqNo) (hf : ∀ e, EntrySafe e → EntrySafe (f e)) (hs : TrainLaunchSafe k s) :
    TrainLaunchSafe k (updateEntry n f s) := by
  refine trainLaunchSafe_putTrain hs (by simp) fun x hx => ?_
  rcases mem_changeEntry hx with h | ⟨e, he, -, rfl⟩
  · exact hs.train.entries x h
  · exact hf e (hs.train.entries e he)

theorem trainLaunchSafe_updateFound {n : SeqNo} {e : Entry} (hs : TrainLaunchSafe k s)
    (he : findEntry s.trs.train n = some e) (hf : EntrySafe e → EntrySafe (f e)) : TrainLaunchSafe k (updateEntry n f s) := by
  refine trainLaunchSafe_putTrain hs (by simp) fun x hx => ?_
  rcases mem_changeEntry_found he hx with h | rfl
  · exact hs.train.entries x h
  · exact hf (hs.train.entries e (findEntry_some he).1)

/-- An entry within its ranges added to a train with room. -/
theorem trainLaunchSafe_putTrain_perm {t : List Entry} {e : Entry} (hs : TrainLaunchSafe 40 s) (hp : List.Perm l (e :: t))
    (ht : t.length < 40) (hm : ∀ x ∈ t, EntrySafe x) (he : EntrySafe e) : TrainLaunchSafe 40 (putTrain l s) := by
  have hl : l.length ≤ 40 := by simpa [hp.length_eq] using ht
  refine trainLaunchSafe_putTrain_of_room hs hl hl fun x hx => ?_
  rcases List.mem_cons.mp (hp.subset hx) with rfl | hx
  · exact he
  · exact hm x hx

end Trains

/-! ### Updates that leave the train, the orders and the holds as they are -/

section Updates
variable {k : Nat} (s : State)

@[simp] theorem trainLaunchSafe_choices (n : Nat) : TrainLaunchSafe k { s with choices := n } ↔ TrainLaunchSafe k s :=
  trainLaunchSafe_iff_of_view rfl
@[simp] theorem trainLaunchSafe_clock (n : Nat) : TrainLaunchSafe k { s with clock := n } ↔ TrainLaunchSafe k s :=
  trainLaunchSafe_iff_of_view rfl
@[simp] theorem trainLaunchSafe_mtr (x : Mtr) : TrainLaunchSafe k { s with mtr := x } ↔ TrainLaunchSafe k s :=
  trainLaunchSafe_iff_of_view rfl
@[simp] theorem trainLaunchSafe_prt (x : Prt) : TrainLaunchSafe k { s with prt := x } ↔ TrainLaunchSafe k s :=
  trainLaunchSafe_iff_of_view rfl
@[simp] theorem trainLaunchSafe_tlc (x : Tlc) : TrainLaunchSafe k { s with tlc := x } ↔ TrainLaunchSafe k s :=
  trainLaunchSafe_iff_of_view rfl
@[simp] theorem trainLaunchSafe_vld (x : Vld) : TrainLaunchSafe k { s with vld := x } ↔ TrainLaunchSafe k s :=
  trainLaunchSafe_iff_of_view rfl
@[simp] theorem trainLaunchSafe_spc (x : Spc) : TrainLaunchSafe k { s with spc := x } ↔ TrainLaunchSafe k s :=
  trainLaunchSafe_iff_of_view rfl
@[simp] theorem trainLaunchSafe_advanceTo (n : Nat) : TrainLaunchSafe k (s.advanceTo n) ↔ TrainLaunchSafe k s :=
  trainLaunchSafe_iff_of_view rfl
@[simp] theorem trainLaunchSafe_putMtr (f : Mtr → Mtr) : TrainLaunchSafe k (putMtr f s) ↔ TrainLaunchSafe k s :=
  trainLaunchSafe_iff_of_view rfl
@[simp] theorem trainLaunchSafe_putDsu (f : Dsu → Dsu) : TrainLaunchSafe k (putDsu f s) ↔ TrainLaunchSafe k s :=
  trainLaunchSafe_iff_of_view rfl
@[simp] theorem trainLaunchSafe_putCsq (f : Csq → Csq) : TrainLaunchSafe k (putCsq f s) ↔ TrainLaunchSafe k s :=
  trainLaunchSafe_iff_of_view rfl
@[simp] theorem trainLaunchSafe_putDsq (f : Dsq → Dsq) : TrainLaunchSafe k (putDsq f s) ↔ TrainLaunchSafe k s :=
  trainLaunchSafe_iff_of_view rfl
@[simp] theorem trainLaunchSafe_putHlu (f : Hlu → Hlu) : TrainLaunchSafe k (putHlu f s) ↔ TrainLaunchSafe k s :=
  trainLaunchSafe_iff_of_view rfl
@[simp] theorem trainLaunchSafe_putSpc (f : Spc → Spc) : TrainLaunchSafe k (putSpc f s) ↔ TrainLaunchSafe k s :=
  trainLaunchSafe_iff_of_view rfl
@[simp] theorem trainLaunchSafe_putRoute (r : Route) (x : RouteState) : TrainLaunchSafe k (putRoute r x s) ↔ TrainLaunchSafe k s :=
  trainLaunchSafe_iff_of_view rfl
@[simp] theorem trainLaunchSafe_putInFlight (x : Option InFlight) : TrainLaunchSafe k (putInFlight x s) ↔ TrainLaunchSafe k s :=
  trainLaunchSafe_iff_of_view rfl
@[simp] theorem trainLaunchSafe_putCurrent (x : Option Route) : TrainLaunchSafe k (putCurrent x s) ↔ TrainLaunchSafe k s :=
  trainLaunchSafe_iff_of_view rfl
@[simp] theorem trainLaunchSafe_putPeers (l : List Peer) : TrainLaunchSafe k (putPeers l s) ↔ TrainLaunchSafe k s :=
  trainLaunchSafe_iff_of_view rfl
@[simp] theorem trainLaunchSafe_modifyPort (p : Port) (f : PortState → PortState) : TrainLaunchSafe k (modifyPort p f s) ↔ TrainLaunchSafe k s :=
  trainLaunchSafe_iff_of_view rfl
@[simp] theorem trainLaunchSafe_respond (x : RespStatus) (p : List Byte) : TrainLaunchSafe k (respond x p s) ↔ TrainLaunchSafe k s :=
  trainLaunchSafe_iff_of_view rfl
@[simp] theorem trainLaunchSafe_refuse (w : Reason) : TrainLaunchSafe k (refuse w s) ↔ TrainLaunchSafe k s :=
  trainLaunchSafe_iff_of_view rfl
@[simp] theorem trainLaunchSafe_dropReceived : TrainLaunchSafe k (dropReceived s) ↔ TrainLaunchSafe k s :=
  trainLaunchSafe_iff_of_view rfl

/-- TRS changed, the train apart. -/
theorem trainLaunchSafe_trs {x : Trs} (h : x.train = s.trs.train) : TrainLaunchSafe k { s with trs := x } ↔ TrainLaunchSafe k s :=
  trainLaunchSafe_iff_of_view (by simp [trainLaunchView, h])

theorem trainLaunchSafe_putTrs {f : Trs → Trs} (h : (f s.trs).train = s.trs.train) : TrainLaunchSafe k (putTrs f s) ↔ TrainLaunchSafe k s :=
  trainLaunchSafe_trs s h

@[simp] theorem trainLaunchSafe_offerEvent (e : Event) : TrainLaunchSafe k (offerEvent e s) ↔ TrainLaunchSafe k s := by
  rw [offerEvent_eq]; simp

@[simp] theorem trainLaunchSafe_raiseAlarm (a : Alarm) (d : Nat) : TrainLaunchSafe k (raiseAlarm a d s) ↔ TrainLaunchSafe k s := by
  rw [raiseAlarm_eq]; simp

@[simp] theorem trainLaunchSafe_queueLostNotice : TrainLaunchSafe k (queueLostNotice s) ↔ TrainLaunchSafe k s := by
  rcases queueLostNotice_cases s with ⟨-, h⟩ | ⟨-, h⟩ <;> simp [h]

@[simp] theorem trainLaunchSafe_appendToLog (r : LogRecord) : TrainLaunchSafe k (appendToLog r s) ↔ TrainLaunchSafe k s := by
  unfold appendToLog; split <;> simp

@[simp] theorem trainLaunchSafe_placeFrame (a : Alarm) (p : Port) (c : QueueClass) (f : Frame) :
    TrainLaunchSafe k (placeFrame a p c f s) ↔ TrainLaunchSafe k s := by
  rcases placeFrame_cases a p c f s with ⟨-, h⟩ | ⟨-, h⟩ <;> simp [h]

@[simp] theorem trainLaunchSafe_placeOwn (c : QueueClass) (f : Frame) (p : Port) :
    TrainLaunchSafe k (placeOwn c f p s) ↔ TrainLaunchSafe k s := by
  rcases placeOwn_cases c f p s with ⟨-, h⟩ | ⟨-, h⟩ <;> simp [h]

@[simp] theorem trainLaunchSafe_sendOwn (c : Kind) (p : List Byte) : TrainLaunchSafe k (sendOwn c p s) ↔ TrainLaunchSafe k s := by
  unfold sendOwn inEitherOrder
  (repeat' split) <;> simp

@[simp] theorem trainLaunchSafe_forwardFrame (p : Port) (c : Kind) (f : Frame) :
    TrainLaunchSafe k (forwardFrame p c f s) ↔ TrainLaunchSafe k s := by
  unfold forwardFrame; split <;> simp

@[simp] theorem trainLaunchSafe_placeReceived (p : Port) (f : Frame) : TrainLaunchSafe k (placeReceived p f s) ↔ TrainLaunchSafe k s := by
  rcases placeReceived_cases p f s with ⟨-, h⟩ | ⟨-, h⟩ <;> simp [h]

@[simp] theorem trainLaunchSafe_badFrame (p : Port) : TrainLaunchSafe k (badFrame p s) ↔ TrainLaunchSafe k s := by
  simp only [badFrame]; split <;> simp

@[simp] theorem trainLaunchSafe_sendAsk (n : Nat) : TrainLaunchSafe k (sendAsk n s) ↔ TrainLaunchSafe k s := by
  unfold sendAsk
  rw [trainLaunchSafe_sendOwn]
  exact trainLaunchSafe_trs s rfl

@[simp] theorem trainLaunchSafe_sendAskIfDue : TrainLaunchSafe k (sendAskIfDue s) ↔ TrainLaunchSafe k s := by
  unfold sendAskIfDue; split <;> simp

@[simp] theorem trainLaunchSafe_leaveSynced : TrainLaunchSafe k (leaveSynced s) ↔ TrainLaunchSafe k s := by
  unfold leaveSynced
  split
  · rw [trainLaunchSafe_sendAskIfDue]
    exact trainLaunchSafe_trs s rfl
  · rfl

@[simp] theorem trainLaunchSafe_raiseGap : TrainLaunchSafe k (raiseGap s) ↔ TrainLaunchSafe k s := by simp [raiseGap]

@[simp] theorem trainLaunchSafe_refuseInsertion : TrainLaunchSafe k (refuseInsertion s) ↔ TrainLaunchSafe k s := by
  simp [refuseInsertion]

/-! ### Valves -/

@[simp] theorem trainLaunchSafe_faultRoute (r : Route) : TrainLaunchSafe k (faultRoute r s) ↔ TrainLaunchSafe k s := by simp [faultRoute]

@[simp] theorem trainLaunchSafe_commandRoute (r : Route) (p : Limit) (b : Bool) :
    TrainLaunchSafe k (commandRoute r p b s).1 ↔ TrainLaunchSafe k s := by
  rcases commandRoute_cases r p b s with ⟨-, x, h⟩ | ⟨-, x, h⟩ | ⟨-, x, h⟩ <;> simp [h]

end Updates

@[simp] theorem trainLaunchSafe_commandCloses {k : Nat} (l : List Route) (x : InFlight) (s : State) :
    TrainLaunchSafe k (commandCloses l x s).1 ↔ TrainLaunchSafe k s := by
  induction l generalizing x s with
  | nil => rfl
  | cons r rest ih => simp only [commandCloses]; split <;> simp [ih]

section Switches
variable {k : Nat} (s : State)

@[simp] theorem trainLaunchSafe_makeConfirmed (x : InFlight) : TrainLaunchSafe k (makeConfirmed x s).1 ↔ TrainLaunchSafe k s := by
  simp only [makeConfirmed]; (repeat' split) <;> simp

@[simp] theorem trainLaunchSafe_makeFaulted (x : InFlight) : TrainLaunchSafe k (makeFaulted x s).1 ↔ TrainLaunchSafe k s := by
  simp [makeFaulted]

@[simp] theorem trainLaunchSafe_startSwitch (q : SwitchRequest) : TrainLaunchSafe k (startSwitch q s).1 ↔ TrainLaunchSafe k s := by
  simp only [startSwitch]; (repeat' split) <;> simp

end Switches

@[simp] theorem trainLaunchSafe_startWaiting {k : Nat} (n : Nat) (s : State) : TrainLaunchSafe k (startWaiting n s).1 ↔ TrainLaunchSafe k s := by
  induction n generalizing s with
  | zero => rfl
  | succ n ih =>
    simp only [startWaiting]
    split
    · split <;> simp [ih]
    · rfl

section Steps
variable {k : Nat} {s : State}

@[simp] theorem trainLaunchSafe_requestSwitch (q : SwitchRequest) : TrainLaunchSafe k (requestSwitch q s).1 ↔ TrainLaunchSafe k s := by
  rcases requestSwitch_cases q s with ⟨-, h⟩ | ⟨-, h⟩ | ⟨-, -, h⟩ <;> simp [h]

@[simp] theorem trainLaunchSafe_switchCommandEnded (x : InFlight) (r : Route) (e : CommandEnd) :
    TrainLaunchSafe k (switchCommandEnded x r e s).1 ↔ TrainLaunchSafe k s := by
  simp only [switchCommandEnded]; (repeat' split) <;> simp

/-! ### Cutting -/

@[simp] theorem trainLaunchSafe_resolveProduct (p : Nat) : TrainLaunchSafe k (resolveProduct p s).1 ↔ TrainLaunchSafe k s := by
  unfold resolveProduct; split <;> simp

@[simp] theorem trainLaunchSafe_modifyRecord (f : OpenCut → OpenCut) : TrainLaunchSafe k (modifyRecord f s) ↔ TrainLaunchSafe k s := by
  simp [modifyRecord]

@[simp] theorem trainLaunchSafe_flagRecord (f : CutFlags → CutFlags) : TrainLaunchSafe k (flagRecord f s) ↔ TrainLaunchSafe k s := by
  simp [flagRecord]

@[simp] theorem trainLaunchSafe_thresholdTarget (a : ActionKind) (r : OpenCut) :
    TrainLaunchSafe k (thresholdTarget a r s).1 ↔ TrainLaunchSafe k s := by
  unfold thresholdTarget; split <;> simp

@[simp] theorem trainLaunchSafe_markReached (a : ActionKind) (t : Option Route) : TrainLaunchSafe k (markReached a t s) ↔ TrainLaunchSafe k s := by
  unfold markReached; split <;> simp

@[simp] theorem trainLaunchSafe_reachThreshold (a : ActionKind) (x : Source) : TrainLaunchSafe k (reachThreshold a x s) ↔ TrainLaunchSafe k s := by
  simp only [reachThreshold]; (repeat' split) <;> simp

@[simp] theorem trainLaunchSafe_judgeWith (f : Nat → Bool) (x : Source) : TrainLaunchSafe k (judgeWith f x s) ↔ TrainLaunchSafe k s := by
  simp only [judgeWith]; (repeat' split) <;> simp

@[simp] theorem trainLaunchSafe_judgeVolume : TrainLaunchSafe k (judgeVolume s) ↔ TrainLaunchSafe k s := by
  unfold judgeVolume; split <;> simp

@[simp] theorem trainLaunchSafe_judgeDensity : TrainLaunchSafe k (judgeDensity s) ↔ TrainLaunchSafe k s := by
  unfold judgeDensity changeToVolume; (repeat' split) <;> simp

@[simp] theorem trainLaunchSafe_judgeThresholds : TrainLaunchSafe k (judgeThresholds s) ↔ TrainLaunchSafe k s := by
  unfold judgeThresholds; (repeat' split) <;> simp

@[simp] theorem trainLaunchSafe_cutRlvChanged : TrainLaunchSafe k (cutRlvChanged s) ↔ TrainLaunchSafe k s := by
  unfold cutRlvChanged; (repeat' split) <;> simp

@[simp] theorem trainLaunchSafe_cutDensityNotice : TrainLaunchSafe k (cutDensityNotice s) ↔ TrainLaunchSafe k s := by
  unfold cutDensityNotice; (repeat' split) <;> simp

@[simp] theorem trainLaunchSafe_openCut (e : Entry) : TrainLaunchSafe k (openCut e s) ↔ TrainLaunchSafe k s := by simp [openCut]

@[simp] theorem trainLaunchSafe_openDue : TrainLaunchSafe k (openDue s) ↔ TrainLaunchSafe k s := by
  unfold openDue; (repeat' split) <;> simp

@[simp] theorem trainLaunchSafe_leaveUnknown : TrainLaunchSafe k (leaveUnknown s) ↔ TrainLaunchSafe k s := by
  unfold leaveUnknown; split <;> simp [enterSteady]

@[simp] theorem trainLaunchSafe_takeStream (t : Route) (x : Source) (a : ActionKind) :
    TrainLaunchSafe k (takeStream t x a s) ↔ TrainLaunchSafe k s := by
  simp [takeStream]

@[simp] theorem trainLaunchSafe_countLitre : TrainLaunchSafe k (countLitre s) ↔ TrainLaunchSafe k s := by
  unfold countLitre; (repeat' split) <;> simp

@[simp] theorem trainLaunchSafe_withholdFinal : TrainLaunchSafe k (withholdFinal s) ↔ TrainLaunchSafe k s := by simp [withholdFinal]

@[simp] theorem trainLaunchSafe_mergeActions (b : Bool) : TrainLaunchSafe k (mergeActions b s) ↔ TrainLaunchSafe k s := by
  unfold mergeActions; (repeat' split) <;> simp

/-! The closes remove entries (R146), and what can close a record keeps the rest within its ranges. -/

@[simp] theorem trainLaunchSafe_closeRecord (b : Bool) (x : CutState) (h : TrainLaunchSafe k s) : TrainLaunchSafe k (closeRecord b x s) := by
  unfold closeRecord
  split
  · exact h
  · simp only [trainLaunchSafe_putCsq]
    split
    · exact trainLaunchSafe_putTrain_sublist (by simpa using h) (removeBefore_sublist _ _)
    · simpa using h

@[simp] theorem trainLaunchSafe_cutAbandoned (q : SwitchRequest) (r : Option Route) (h : TrainLaunchSafe k s) :
    TrainLaunchSafe k (cutAbandoned q r s) := by
  simp only [cutAbandoned]; (repeat' split) <;> simp [h]

@[simp] theorem trainLaunchSafe_cutOutcome (o : SwitchOutcome) (h : TrainLaunchSafe k s) : TrainLaunchSafe k (cutOutcome o s) := by
  unfold cutOutcome; (repeat' split) <;> simp [h]

end Steps

@[simp] theorem trainLaunchSafe_cutOutcomes {k : Nat} (l : List SwitchOutcome) {s : State} (h : TrainLaunchSafe k s) :
    TrainLaunchSafe k (cutOutcomes l s) := by
  unfold cutOutcomes
  induction l generalizing s with
  | nil => exact h
  | cons o rest ih => exact ih (trainLaunchSafe_cutOutcome o h)

@[simp] theorem trainLaunchSafe_executeSwitch {k : Nat} (t : Route) (x : Source) (a : ActionKind) (b : Bool) {s : State} (h : TrainLaunchSafe k s) :
    TrainLaunchSafe k (executeSwitch t x a b s) := by
  unfold executeSwitch; split <;> simp [h]

@[simp] theorem trainLaunchSafe_executeDue {k : Nat} (n : Nat) {s : State} (h : TrainLaunchSafe k s) : TrainLaunchSafe k (executeDue n s) := by
  induction n generalizing s with
  | zero => exact h
  | succ n ih =>
    simp only [executeDue]
    split
    · split
      · exact ih (by simp [h])
      · exact h
    · exact h

section Cuts
variable {k : Nat} {s : State} (h : TrainLaunchSafe k s)
include h

@[simp] theorem trainLaunchSafe_switchToTransmix : TrainLaunchSafe k (switchToTransmix s) := by
  unfold switchToTransmix; split <;> simp [h]

@[simp] theorem trainLaunchSafe_checkProduct : TrainLaunchSafe k (checkProduct s) := by
  simp only [checkProduct]
  split
  · exact h
  · split
    · refine trainLaunchSafe_switchToTransmix ?_
      simp only [trainLaunchSafe_raiseAlarm]
      exact trainLaunchSafe_updateEntry _ (fun e he => { he with }) (by simp [h])
    · simp [h]
    · simp [h]

@[simp] theorem trainLaunchSafe_executeAndSettle : TrainLaunchSafe k (executeAndSettle s) := by
  simp only [executeAndSettle]; split <;> simp [h]

@[simp] theorem trainLaunchSafe_mergeCut (e : Entry) : TrainLaunchSafe k (mergeCut e s) := by
  unfold mergeCut
  split
  · exact h
  · simp only [trainLaunchSafe_mergeActions, trainLaunchSafe_withholdFinal, trainLaunchSafe_raiseAlarm, trainLaunchSafe_putCsq]
    refine trainLaunchSafe_putTrain_map h fun e he => ?_
    split
    · exact { he with }
    · exact he

@[simp] theorem trainLaunchSafe_cutEntered (n : SeqNo) : TrainLaunchSafe k (cutEntered n s) := by
  unfold cutEntered; (repeat' split) <;> simp [h]

@[simp] theorem trainLaunchSafe_cutMissed (r : OpenCut) : TrainLaunchSafe k (cutMissed r s) := by
  simp only [cutMissed]; (repeat' split) <;> simp [h]

@[simp] theorem trainLaunchSafe_cutDeclared (a : PassageKind) (n : SeqNo) (x : Int) : TrainLaunchSafe k (cutDeclared a n x s) := by
  unfold cutDeclared; (repeat' split) <;> simp [h]

@[simp] theorem trainLaunchSafe_cutUntracked : TrainLaunchSafe k (cutUntracked s) := by
  unfold cutUntracked; split <;> simp [h]

@[simp] theorem trainLaunchSafe_cutReleaseTo (r : Route) : TrainLaunchSafe k (cutReleaseTo r s) := by simp [cutReleaseTo, h]

@[simp] theorem trainLaunchSafe_cutResync : TrainLaunchSafe k (cutResync s) := by simp [cutResync, h]

theorem trainLaunchSafe_cutForceAdvance {t : State} (ht : cutForceAdvance s = some t) : TrainLaunchSafe k t := by
  unfold cutForceAdvance at ht
  split at ht
  · cases ht
  · next r _ =>
    split at ht
    · cases ht
    · simp only at ht
      split at ht
      · obtain rfl := Option.some.inj ht; simp [h]
      · generalize (if r.headPending = true then ActionKind.head else if r.finalPending = true then ActionKind.final else ActionKind.none) = a
          at ht
        split at ht
        · cases ht
        · obtain rfl := Option.some.inj ht
          split <;> simp [h]

theorem trainLaunchSafe_cutForceTransmix {t : State} (ht : cutForceTransmix s = some t) : TrainLaunchSafe k t := by
  unfold cutForceTransmix at ht
  split at ht
  · cases ht
  · obtain rfl := Option.some.inj ht; simp [h]

end Cuts

end Sys2Proof.Machine
end

