-- ==== Sys2Proof/Proofs/MoveSafety.lean ====
section
/-! SUPPORT. What delivering, tracking, launching and joining keep of TRS and LSC. -/

namespace Sys2Proof.Machine

/-! ### Delivering -/

section Delivering
variable {k : Nat} {s : State}

@[simp] theorem trainLaunchSafe_modifyActive (f : ActiveDelivery → ActiveDelivery) :
    TrainLaunchSafe k (modifyActive f s) ↔ TrainLaunchSafe k s := by
  simp [modifyActive]

@[simp] theorem trainLaunchSafe_flagActive (f : DeliveryFlags → DeliveryFlags) :
    TrainLaunchSafe k (flagActive f s) ↔ TrainLaunchSafe k s := by
  simp [flagActive]

@[simp] theorem trainLaunchSafe_noteCloseRequest : TrainLaunchSafe k (noteCloseRequest s) ↔ TrainLaunchSafe k s := by
  simp [noteCloseRequest]

@[simp] theorem trainLaunchSafe_closeEnded (e : CommandEnd) : TrainLaunchSafe k (closeEnded e s) ↔ TrainLaunchSafe k s := by
  unfold closeEnded endDelivery; (repeat' split) <;> simp

@[simp] theorem trainLaunchSafe_handClose : TrainLaunchSafe k (handClose s).1 ↔ TrainLaunchSafe k s := by
  simp only [handClose]; (repeat' split) <;> simp

@[simp] theorem trainLaunchSafe_requestClose (f : DeliveryFlags → DeliveryFlags) :
    TrainLaunchSafe k (requestClose f s).1 ↔ TrainLaunchSafe k s := by
  unfold requestClose; (repeat' split) <;> simp

@[simp] theorem trainLaunchSafe_doneTest : TrainLaunchSafe k (doneTest s).1 ↔ TrainLaunchSafe k s := by
  unfold doneTest; (repeat' split) <;> simp

@[simp] theorem trainLaunchSafe_openEnded (e : CommandEnd) : TrainLaunchSafe k (openEnded e s).1 ↔ TrainLaunchSafe k s := by
  unfold openEnded; (repeat' split) <;> simp

@[simp] theorem trainLaunchSafe_openDelivery (c : Candidate) : TrainLaunchSafe k (openDelivery c s).1 ↔ TrainLaunchSafe k s := by
  simp only [openDelivery]; (repeat' split) <;> simp

@[simp] theorem trainLaunchSafe_skipPassed : TrainLaunchSafe k (skipPassed s) ↔ TrainLaunchSafe k s := by
  unfold skipPassed; (repeat' split) <;> simp

@[simp] theorem trainLaunchSafe_chooseCandidate : TrainLaunchSafe k (chooseCandidate s) ↔ TrainLaunchSafe k s := by
  unfold chooseCandidate; (repeat' split) <;> simp

@[simp] theorem trainLaunchSafe_judgeCandidateOnce : TrainLaunchSafe k (judgeCandidateOnce s).1 ↔ TrainLaunchSafe k s := by
  simp only [judgeCandidateOnce]; (repeat' split) <;> simp

@[simp] theorem trainLaunchSafe_judgeCandidate : TrainLaunchSafe k (judgeCandidate s) ↔ TrainLaunchSafe k s := by
  unfold judgeCandidate; split <;> simp

@[simp] theorem trainLaunchSafe_afterDelivery (y : State × Bool) : TrainLaunchSafe k (afterDelivery y) ↔ TrainLaunchSafe k y.1 := by
  unfold afterDelivery; split <;> simp

@[simp] theorem trainLaunchSafe_trailingTest : TrainLaunchSafe k (trailingTest s) ↔ TrainLaunchSafe k s := by
  unfold trailingTest; split <;> simp

@[simp] theorem trainLaunchSafe_deliveryAfterEvaluation : TrainLaunchSafe k (deliveryAfterEvaluation s) ↔ TrainLaunchSafe k s := by
  unfold deliveryAfterEvaluation inEitherOrder; split <;> simp

@[simp] theorem trainLaunchSafe_deliveryResync : TrainLaunchSafe k (deliveryResync s) ↔ TrainLaunchSafe k s := by simp [deliveryResync]

theorem trainLaunchSafe_closeCommanded {t : State} (h : TrainLaunchSafe k s) (ht : closeCommanded s = some t) : TrainLaunchSafe k t := by
  unfold closeCommanded at ht
  split at ht
  · cases ht
  · split at ht
    · obtain rfl := Option.some.inj ht; simp [h]
    · cases ht

theorem trainLaunchSafe_plainOutcome (r : Route) (e : CommandEnd) : TrainLaunchSafe k (plainOutcome r e s) ↔ TrainLaunchSafe k s := by
  unfold plainOutcome; (repeat' split) <;> simp

theorem trainLaunchSafe_countDelivered (h : TrainLaunchSafe k s) : TrainLaunchSafe k (countDelivered s) := by
  unfold countDelivered
  split
  · exact h
  · split
    · exact h
    · simp only [trainLaunchSafe_afterDelivery, trainLaunchSafe_doneTest]
      exact trainLaunchSafe_updateEntry _ (fun e he => entrySafe_deliver 1 he) (by simp [h])

end Delivering

/-! ### Tracking -/

section Tracking
variable {k : Nat} {s : State} (h : TrainLaunchSafe k s)
include h

@[simp] theorem trainLaunchSafe_judgeNudge (e : Entry) : TrainLaunchSafe k (judgeNudge e s) := by
  unfold judgeNudge; split <;> simp [h]

@[simp] theorem trainLaunchSafe_handDeclaration (a : PassageKind) (e : Entry) : TrainLaunchSafe k (handDeclaration a e s) := by
  unfold handDeclaration noteDetection; (repeat' split) <;> simp [h]

@[simp] theorem trainLaunchSafe_declare (a : PassageKind) (e : Entry) : TrainLaunchSafe k (declare a e s) := by
  have h1 : TrainLaunchSafe k (if a = .detected then judgeNudge e s else s) := by split <;> simp [h]
  have h2 := trainLaunchSafe_updateEntry e.seq (fun x hx => entrySafe_declared a hx) h1
  simp only [declare]
  split <;> simp [h2]

@[simp] theorem trainLaunchSafe_testWindow (b : Bool) (e : Entry) : TrainLaunchSafe k (testWindow b e s) := by
  unfold testWindow; (repeat' split) <;> simp [h]

theorem trainLaunchSafe_openWindow {n : SeqNo} {e : Entry} (he : findEntry s.trs.train n = some e) (hi : e.track = .inbound) :
    TrainLaunchSafe k (openWindow n s) := by
  have h1 := trainLaunchSafe_updateFound (f := fun e => { e with track := .window }) h he fun hs => entrySafe_window hs hi
  simp only [openWindow]
  split <;> simp [h1]

end Tracking

theorem trainLaunchSafe_visitEntry {k : Nat} (a : Bool) (b : Option SeqNo) (x : State × Tracker) (n : SeqNo) (h : TrainLaunchSafe k x.1) :
    TrainLaunchSafe k (visitEntry a b x n).1 := by
  simp only [visitEntry]
  split
  · exact h
  · next e he =>
    split
    · exact h
    · have h1 : TrainLaunchSafe k (if e.track = .inbound ∧ e.rlv ≤ (halfWidth x.1 e.sinceSnap : Int) then openWindow n x.1 else x.1) := by
        split
        · next hi => exact trainLaunchSafe_openWindow h he hi.1
        · exact h
      simp only
      split
      · split
        · exact trainLaunchSafe_testWindow h1 _ _
        · exact h1
      · exact h1

theorem trainLaunchSafe_visits {k : Nat} (a : Bool) (b : Option SeqNo) (l : List SeqNo) (x : State × Tracker) (h : TrainLaunchSafe k x.1) :
    TrainLaunchSafe k (l.foldl (visitEntry a b) x).1 := by
  induction l generalizing x with
  | nil => exact h
  | cons n rest ih => exact ih _ (trainLaunchSafe_visitEntry a b x n h)

@[simp] theorem trainLaunchSafe_evaluateOnce {k : Nat} (a : Bool) (b : Option SeqNo) {s : State} (h : TrainLaunchSafe k s) :
    TrainLaunchSafe k (evaluateOnce a b s) := by
  simp only [evaluateOnce]
  split <;> simp [trainLaunchSafe_visits, h]

@[simp] theorem trainLaunchSafe_evaluateRemovals {k : Nat} (n m : Nat) {s : State} (h : TrainLaunchSafe k s) :
    TrainLaunchSafe k (evaluateRemovals n m s) := by
  induction n generalizing m s with
  | zero => exact h
  | succ n ih =>
    simp only [evaluateRemovals]
    split
    · exact ih _ (trainLaunchSafe_evaluateOnce _ _ h)
    · exact h

section Moves
variable {k : Nat} {s : State} (h : TrainLaunchSafe k s)
include h

@[simp] theorem trainLaunchSafe_evaluate (a : Bool) (b : Option SeqNo) : TrainLaunchSafe k (evaluate a b s) := by
  unfold evaluate; split <;> simp [h]

@[simp] theorem trainLaunchSafe_evaluateIfRemoved (t : State) : TrainLaunchSafe k (evaluateIfRemoved t s) := by
  unfold evaluateIfRemoved; split <;> simp [h]

@[simp] theorem trainLaunchSafe_afterMove (b : Option SeqNo) : TrainLaunchSafe k (afterMove b s) := by
  unfold afterMove inEitherOrder; (repeat' split) <;> simp [h]

theorem trainLaunchSafe_trackLitre : TrainLaunchSafe k (trackLitre s) :=
  trainLaunchSafe_afterMove (trainLaunchSafe_putTrain_map h fun _ => entrySafe_advance 1) _

theorem trainLaunchSafe_trackDelta (d m : Nat) : TrainLaunchSafe k (trackDelta d m s) :=
  trainLaunchSafe_afterMove (trainLaunchSafe_putTrain_map h fun _ => entrySafe_deltaEntry _ _ _ _) _

theorem trainLaunchSafe_takeSnap (x : Nat) (n : SeqNo) (a : PassageKind) : TrainLaunchSafe k (takeSnap x n a s) := by
  unfold takeSnap
  split
  · next p e _ he =>
    split
    · next ha => exact trainLaunchSafe_afterMove (trainLaunchSafe_updateFound h he (entrySafe_snapped _ _ h.train.mark ha)) _
    · exact h
  · exact h

theorem trainLaunchSafe_takeRemoval (x : Nat) (n : SeqNo) : TrainLaunchSafe k (takeRemoval x n s) := by
  unfold takeRemoval
  split
  · split
    · exact trainLaunchSafe_evaluateIfRemoved (trainLaunchSafe_putTrain_sublist h (removeBefore_sublist _ _)) _
    · exact h
  · exact h

@[simp] theorem trainLaunchSafe_densityNotice (b : Bool) : TrainLaunchSafe k (densityNotice b s) := by
  unfold densityNotice inEitherOrder; (repeat' split) <;> simp [h]

theorem trainLaunchSafe_declareDeparture : TrainLaunchSafe k (declareDeparture s) := by
  have h1 : TrainLaunchSafe k (raiseAlarm .untrackedInterface 0 s) := by simp [h]
  have h2 (n : SeqNo) := trainLaunchSafe_updateEntry n (f := fun e => { e with untrackedFollows := true }) (fun _ he => { he with }) h1
  simp only [declareDeparture]
  split <;> split <;> simp only [trainLaunchSafe_cutUntracked, h1, h2]

@[simp] theorem trainLaunchSafe_judgeDeparture (n : Nat) : TrainLaunchSafe k (judgeDeparture n s) := by
  unfold judgeDeparture; (repeat' split) <;> simp [h, trainLaunchSafe_declareDeparture]

theorem trainLaunchSafe_acceptSample (v : Nat) : TrainLaunchSafe k (acceptSample v s) := by
  simp only [acceptSample]; (repeat' split) <;> simp [h]

theorem trainLaunchSafe_restartDensity : TrainLaunchSafe k (restartDensity s) := by
  simp only [restartDensity]; (repeat' split) <;> simp [h]

@[simp] theorem trainLaunchSafe_rejectSample : TrainLaunchSafe k (rejectSample s) := by
  unfold rejectSample; split <;> simp [h, trainLaunchSafe_restartDensity]

@[simp] theorem trainLaunchSafe_huntCharacter (v : Byte) (g : Bool) : TrainLaunchSafe k (huntCharacter v g s) := by
  unfold huntCharacter putReceiver; split <;> simp [h]

theorem trainLaunchSafe_frameCharacter (l : List Byte) (v : Byte) (g : Bool) : TrainLaunchSafe k (frameCharacter l v g s) := by
  unfold frameCharacter judgeSample putReceiver
  (repeat' split) <;> simp [h, trainLaunchSafe_acceptSample]

theorem trainLaunchSafe_takeCharacter (v : Byte) (g : Bool) : TrainLaunchSafe k (takeCharacter v g s) := by
  unfold takeCharacter; (repeat' split) <;> simp [h, trainLaunchSafe_frameCharacter, putReceiver]

theorem trainLaunchSafe_abandonSample : TrainLaunchSafe k (abandonSample s) := by
  unfold abandonSample; split <;> simp [h, putReceiver]

theorem trainLaunchSafe_silenceExpired : TrainLaunchSafe k (silenceExpired s) := by
  unfold silenceExpired; split <;> simp [h, trainLaunchSafe_restartDensity]

end Moves

/-! ### Launching -/

theorem trainLaunchSafe_putLsc {s : State} {f : Lsc → Lsc} (h : TrainLaunchSafe 40 s) (hf : LaunchSafe (putLsc f s)) :
    TrainLaunchSafe 40 (putLsc f s) :=
  ⟨h.running, h.room, trainSafe_of_eq (s := s) rfl rfl h.train, hf⟩

section Launching
variable {s : State} (h : TrainLaunchSafe 40 s)
include h

theorem trainLaunchSafe_closeRunningEntry : TrainLaunchSafe 40 (closeRunningEntry s) := by
  unfold closeRunningEntry
  split
  · exact trainLaunchSafe_updateEntry _ (fun e he => entrySafe_fillLaunched h.launch.launched he) h
  · exact h

theorem trainLaunchSafe_appendOrderEntry (n : SeqNo) {o : Order} (ho : OrderSafe o) : TrainLaunchSafe 40 (appendOrderEntry n o s) := by
  unfold appendOrderEntry
  split
  · next t ht =>
    obtain ⟨hl, hsub⟩ := roomFor_some ht h.train.room
    exact trainLaunchSafe_putTrain_perm h (List.perm_append_singleton _ _) hl
      (fun x hx => h.train.entries x (hsub.subset hx)) (entrySafe_entryOfOrder n ho)
  · simpa using h

end Launching

@[simp] theorem closeRunningEntry_lsc (s : State) : (closeRunningEntry s).lsc = s.lsc := by
  unfold closeRunningEntry; split <;> rfl

@[simp] theorem sendOwn_lsc (k : Kind) (p : List Byte) (s : State) : (sendOwn k p s).lsc = s.lsc := by
  refine sendOwn_keeps (fun t => t.lsc = s.lsc) k p (fun q f t ht => ?_) (fun t ht => ht) rfl
  rcases placeOwn_cases k.queueClass f q t with ⟨-, e⟩ | ⟨-, e⟩ <;> rw [e]
  · exact ht
  · rcases placeFrame_cases .txOverflow q k.queueClass f t with ⟨-, e⟩ | ⟨-, e⟩ <;> rw [e]
    · simpa using ht
    · exact ht

@[simp] theorem refuseInsertion_lsc (s : State) : (refuseInsertion s).lsc = s.lsc := by
  unfold refuseInsertion leaveSynced sendAskIfDue sendAsk
  (repeat' split) <;> simp

@[simp] theorem appendOrderEntry_lsc (n : SeqNo) (o : Order) (s : State) : (appendOrderEntry n o s).lsc = s.lsc := by
  unfold appendOrderEntry; split <;> simp

theorem trainLaunchSafe_completeChangeover (r : Route) (x : SwitchResult) {s : State} (h : TrainLaunchSafe 40 s) :
    TrainLaunchSafe 40 (completeChangeover r x s) := by
  unfold completeChangeover
  split
  · exact trainLaunchSafe_putLsc h ⟨h.launch.orders, h.launch.ranges, by rintro ⟨⟩, h.launch.launched, h.launch.holds, h.launch.keys,
      h.launch.holders⟩
  · next o rest ho =>
    have hr := h.launch.ranges
    have hl := h.launch.orders
    rw [ho] at hr hl
    have h1 := trainLaunchSafe_appendOrderEntry (trainLaunchSafe_closeRunningEntry h) (s.lsc.nextSeq.getD 1)
      (hr o List.mem_cons_self)
    simp only [trainLaunchSafe_offerEvent]
    refine trainLaunchSafe_putLsc (by simpa using h1) ⟨?_, ?_, by rintro ⟨⟩, Nat.zero_le _, ?_, ?_, ?_⟩
    · exact (Nat.le_succ _).trans hl
    · exact fun q hq => hr q (List.mem_cons_of_mem _ hq)
    · simpa [Lsc.advanced] using h.launch.holds
    · simpa [Lsc.advanced] using h.launch.keys
    · simpa [Lsc.advanced] using h.launch.holders

@[simp] theorem trainLaunchSafe_changeoverOutcome (o : SwitchOutcome) {s : State} (h : TrainLaunchSafe 40 s) :
    TrainLaunchSafe 40 (changeoverOutcome o s) := by
  unfold changeoverOutcome
  split
  · exact trainLaunchSafe_completeChangeover _ _ h
  · exact trainLaunchSafe_completeChangeover _ _ h
  · exact trainLaunchSafe_putLsc h ⟨h.launch.orders, h.launch.ranges, by rintro ⟨⟩, h.launch.launched, h.launch.holds, h.launch.keys,
      h.launch.holders⟩

@[simp] theorem trainLaunchSafe_changeovers (l : List SwitchOutcome) {s : State} (h : TrainLaunchSafe 40 s) :
    TrainLaunchSafe 40 (l.foldl (fun s o => changeoverOutcome o s) s) := by
  induction l generalizing s with
  | nil => exact h
  | cons o rest ih => exact ih (trainLaunchSafe_changeoverOutcome o h)

/-- A changeover starts to an order that waits, so SWITCHING has an order to change over to. -/
theorem trainLaunchSafe_startChangeover (o : Order) {s : State} (h : TrainLaunchSafe 40 s) (ho : s.lsc.orders ≠ []) :
    TrainLaunchSafe 40 (startChangeover o s).1 := by
  unfold startChangeover
  split
  · exact h
  · simp only [trainLaunchSafe_requestSwitch]
    exact trainLaunchSafe_putLsc h ⟨h.launch.orders, h.launch.ranges, fun _ => ho, h.launch.launched, h.launch.holds, h.launch.keys,
      h.launch.holders⟩

theorem trainLaunchSafe_startWithConflict (o : Order) {s : State} (h : TrainLaunchSafe 40 s) (ho : s.lsc.orders ≠ []) :
    TrainLaunchSafe 40 (startWithConflict o s).1 := by
  unfold startWithConflict
  split
  · exact trainLaunchSafe_startChangeover o (by simp [h]) (by simpa using ho)
  · exact trainLaunchSafe_startChangeover o h ho

theorem trainLaunchSafe_judgeChangeoverOnce {s : State} (h : TrainLaunchSafe 40 s) : TrainLaunchSafe 40 (judgeChangeoverOnce s).1 := by
  unfold judgeChangeoverOnce
  split
  · split
    · next ho =>
      split
      · exact h
      · exact trainLaunchSafe_startWithConflict _ h (by simp [ho])
    · exact h
  · exact h

theorem trainLaunchSafe_judgeChangeovers (n : Nat) {s : State} (h : TrainLaunchSafe 40 s) : TrainLaunchSafe 40 (judgeChangeovers n s) := by
  induction n generalizing s with
  | zero => exact h
  | succ n ih =>
    have h1 := trainLaunchSafe_judgeChangeoverOnce h
    simp only [judgeChangeovers]
    split
    · next he => rwa [he] at h1
    · next he => rw [he] at h1; exact ih (trainLaunchSafe_changeovers _ h1)

section Changeovers
variable {s : State} (h : TrainLaunchSafe 40 s)
include h

@[simp] theorem trainLaunchSafe_judgeChangeover : TrainLaunchSafe 40 (judgeChangeover s) := trainLaunchSafe_judgeChangeovers _ h

@[simp] theorem trainLaunchSafe_changeoverOutcomes (l : List SwitchOutcome) : TrainLaunchSafe 40 (changeoverOutcomes l s) := by
  unfold changeoverOutcomes
  split
  · exact h
  · exact trainLaunchSafe_judgeChangeover (trainLaunchSafe_changeovers _ h)

theorem trainLaunchSafe_countLaunched : TrainLaunchSafe 40 (countLaunched s) :=
  trainLaunchSafe_judgeChangeover (trainLaunchSafe_putLsc h ⟨h.launch.orders, h.launch.ranges, h.launch.switching,
    Nat.min_le_left _ _, h.launch.holds, h.launch.keys, h.launch.holders⟩)

theorem trainLaunchSafe_launchForceAdvance {t : State} (ht : launchForceAdvance s = some t) : TrainLaunchSafe 40 t := by
  unfold launchForceAdvance at ht
  split at ht
  · split at ht
    · cases ht
    · next o rest ho =>
      have h1 : TrainLaunchSafe 40 (putLsc (fun l => { l with faultMark := false }) s) :=
        trainLaunchSafe_putLsc h ⟨h.launch.orders, h.launch.ranges, h.launch.switching, h.launch.launched, h.launch.holds, h.launch.keys,
          h.launch.holders⟩
      simp only at ht
      split at ht
      · obtain rfl := Option.some.inj ht; exact h1
      · obtain rfl := Option.some.inj ht
        exact trainLaunchSafe_changeoverOutcomes (trainLaunchSafe_startWithConflict o h1 (by simp [ho])) _
  · cases ht

/-! ### The hold table -/

/-- A hold table within R192's bounds put in place of the old one. -/
theorem trainLaunchSafe_putHolds {l : List Hold} (hl : l.length ≤ 16) (hk : (l.map fun h => (h.station, h.product)).Nodup)
    (hr : ∀ h ∈ l, 1 ≤ h.station ∧ h.station ≤ 250 ∧ h.product ≤ 15) : TrainLaunchSafe 40 (putHolds l s) :=
  trainLaunchSafe_putLsc h ⟨h.launch.orders, h.launch.ranges, h.launch.switching, h.launch.launched, hl, hk, hr⟩

theorem trainLaunchSafe_putHolds_sublist {l : List Hold} (hl : List.Sublist l s.lsc.holds) : TrainLaunchSafe 40 (putHolds l s) :=
  trainLaunchSafe_putHolds h (hl.length_le.trans h.launch.holds) (h.launch.keys.sublist (hl.map _))
    fun x hx => h.launch.holders x (hl.subset hx)

theorem trainLaunchSafe_removeHold (a b : Nat) : TrainLaunchSafe 40 (removeHold a b s) := by
  unfold removeHold
  split
  · exact trainLaunchSafe_judgeChangeover (trainLaunchSafe_putHolds_sublist h List.filter_sublist)
  · exact h

end Changeovers

theorem Hold.hasKey_iff (x : Hold) (a b : Nat) : x.hasKey a b = true ↔ x.station = a ∧ x.product = b := by
  simp [Hold.hasKey]

/-- The hold that a full table replaces is one of the table. -/
theorem earliestHold_mem {l : List Hold} {k : Hold} (h : earliestHold l = some k) : k ∈ l := by
  induction l generalizing k with
  | nil => cases h
  | cons x rest ih =>
    simp only [earliestHold] at h
    split at h
    · cases h; exact List.mem_cons_self
    · next y hy =>
      split at h
      · cases h; exact List.mem_cons_of_mem _ (ih hy)
      · cases h; exact List.mem_cons_self

/-- A hold of a new key at the end of a table keeps the keys distinct. -/
theorem keys_append {l : List Hold} {a b c : Nat} (hk : (l.map fun h => (h.station, h.product)).Nodup)
    (hn : ∀ h ∈ l, h.hasKey a b = false) : ((l ++ [Hold.mk a b c]).map fun h => (h.station, h.product)).Nodup := by
  rw [List.map_append, List.nodup_append]
  refine ⟨hk, by simp, ?_⟩
  rintro x hx y hy rfl
  obtain ⟨z, hz, hx⟩ := List.mem_map.mp hx
  have := hn z hz
  simp only [List.map_cons, List.map_nil, List.mem_singleton] at hy
  subst hx
  simp only [Prod.mk.injEq] at hy
  simp [Hold.hasKey, hy] at this

theorem trainLaunchSafe_setHold {a b c : Nat} {s : State} (h : TrainLaunchSafe 40 s) (ha : 1 ≤ a ∧ a ≤ 250) (hb : b ≤ 15) :
    TrainLaunchSafe 40 (setHold a b c s) := by
  unfold setHold
  split
  · refine trainLaunchSafe_putHolds h (by simpa using h.launch.holds) ?_ fun x hx => ?_
    · convert h.launch.keys using 1
      simp only [List.map_map]
      refine List.map_congr_left fun x _ => ?_
      simp only [Function.comp_apply]
      split <;> rfl
    · obtain ⟨y, hy, rfl⟩ := List.mem_map.mp hx
      have := h.launch.holders y hy
      split <;> exact this
  · next hn =>
    simp only [List.any_eq_true, not_exists, not_and, Bool.not_eq_true] at hn
    have hr : ∀ x ∈ s.lsc.holds ++ [⟨a, b, c⟩], 1 ≤ x.station ∧ x.station ≤ 250 ∧ x.product ≤ 15 := fun x hx => by
      rcases List.mem_append.mp hx with hx | hx
      · exact h.launch.holders x hx
      · rw [List.mem_singleton.mp hx]; exact ⟨ha.1, ha.2, hb⟩
    split
    · next hl => exact trainLaunchSafe_putHolds h (by simpa using hl) (keys_append h.launch.keys hn) hr
    · split
      · exact h
      · next k hk =>
        have hsub : List.Sublist (s.lsc.holds.filter fun x => !x.hasKey k.station k.product) s.lsc.holds := List.filter_sublist
        have hlt : (s.lsc.holds.filter fun x => !x.hasKey k.station k.product).length < s.lsc.holds.length :=
          List.length_filter_lt_length_iff_exists.mpr ⟨k, earliestHold_mem hk, by simp [Hold.hasKey]⟩
        have := h.launch.holds
        refine trainLaunchSafe_judgeChangeover (trainLaunchSafe_putHolds h ?_ ?_ fun x hx => hr x ((hsub.append_right _).subset hx))
        · simp only [List.length_append, List.length_singleton]; omega
        · exact keys_append (h.launch.keys.sublist (hsub.map _)) fun x hx => hn x (hsub.subset hx)

theorem trainLaunchSafe_takeHold (a b c : Nat) {s : State} (h : TrainLaunchSafe 40 s) : TrainLaunchSafe 40 (takeHold a b c s) := by
  unfold takeHold
  split
  · next hv =>
    obtain ⟨hb, -, ha⟩ := hv
    split
    · exact trainLaunchSafe_removeHold h _ _
    · exact trainLaunchSafe_setHold h ha hb
  · exact h

end Sys2Proof.Machine
end

