-- ==== Sys2Proof/Proofs/CommandSafety.lean ====
section
/-! SUPPORT. What joining the line and each command keep of TRS and LSC; the settled O57. -/

namespace Sys2Proof.Machine

theorem trainLaunchSafe_ite {k : Nat} {c : Prop} [Decidable c] {s t : State} (hs : TrainLaunchSafe k s) (ht : TrainLaunchSafe k t) :
    TrainLaunchSafe k (if c then s else t) := by
  split
  · exact hs
  · exact ht

/-! ### Joining -/

section Joining
variable {s : State} (h : TrainLaunchSafe 40 s)
include h

/-- Room made for an entry is room for one: at most 39 entries stand after it. -/
theorem trainLaunchSafe_makeRoom {t : State} (ht : makeRoom s = some t) : TrainLaunchSafe 39 t := by
  unfold makeRoom at ht
  split at ht
  · cases ht
  · next l hl =>
    obtain ⟨hlt, hsub⟩ := roomFor_some hl h.train.room
    split at ht
    · obtain rfl := Option.some.inj ht
      have h1 : TrainLaunchSafe 39 (putTrain l s) :=
        trainLaunchSafe_of_view (s := putTrain l s) rfl
          ⟨h.running, Nat.le_of_lt_succ hlt, (trainLaunchSafe_putTrain_sublist h hsub).train, launchSafe_of_eq (s := s) rfl h.launch⟩
      refine trainLaunchSafe_evaluateIfRemoved ?_ _
      split <;> simp [h1]
    · next hlen =>
      obtain rfl := Option.some.inj ht
      have := hsub.length_le
      exact ⟨h.running, by omega, h.train, h.launch⟩

theorem trainLaunchSafe_applyPrior {m : LaunchMsg} (hv : launchValid m = true) : TrainLaunchSafe 40 (applyPrior m s) := by
  unfold applyPrior
  split
  · exact h
  · next n v hp =>
    have hle : v ≤ 2000000000 := by
      simp only [launchValid, hp, Bool.and_eq_true, decide_eq_true_eq] at hv
      exact hv.2
    exact trainLaunchSafe_updateEntry n (fun _ => entrySafe_fillLaunched hle) h

end Joining

/-- An entry within its ranges put into a train with at most 39 entries. -/
theorem trainLaunchSafe_insert {s : State} {l : List Entry} {e : Entry} (h : TrainLaunchSafe 39 s) (hp : List.Perm l (e :: s.trs.train))
    (he : EntrySafe e) : TrainLaunchSafe 40 (putTrain l s) :=
  trainLaunchSafe_putTrain_perm ⟨h.running, h.train.room, h.train, h.launch⟩ hp (Nat.lt_succ_of_le h.room) h.train.entries he

section Insertion
variable {s : State} (h : TrainLaunchSafe 40 s)
include h

theorem trainLaunchSafe_appendLaunch {m : LaunchMsg} (b : Bool) (hv : launchValid m = true) : TrainLaunchSafe 40 (appendLaunch m b s) := by
  unfold appendLaunch
  split
  · simpa using h
  · next s1 h1 =>
    have hr := trainLaunchSafe_makeRoom h h1
    have hi := trainLaunchSafe_insert hr (List.perm_append_singleton (entryOfLaunch s1.cfg.mark m) s1.trs.train)
      (entrySafe_entryOfLaunch hr.train.mark hv)
    refine trainLaunchSafe_evaluate ?_ _ _
    split <;> simp [hi]

theorem trainLaunchSafe_placeLaunch {m : LaunchMsg} (hv : launchValid m = true) : TrainLaunchSafe 40 (placeLaunch m s) := by
  have hp := trainLaunchSafe_applyPrior h hv
  unfold placeLaunch
  (repeat' split) <;> simp only [trainLaunchSafe_appendLaunch hp _ hv, h]

theorem trainLaunchSafe_insertItem {m : ItemMsg} {b : ItemBody} (hv : itemValid m = true) (hb : m.body = some b) :
    TrainLaunchSafe 40 (insertItem b s).1 := by
  simp only [insertItem]
  split
  · split
    · next v hl => exact trainLaunchSafe_updateEntry _ (fun _ => entrySafe_fillLaunched (launched_le_of_itemValid hv hb hl)) h
    · exact h
  · split
    · exact h
    · split
      · exact h
      · split
        · simpa using h
        · next s1 h1 =>
          have hr := trainLaunchSafe_makeRoom h h1
          split
          · exact ⟨hr.running, hr.train.room, hr.train, hr.launch⟩
          · next l hl =>
            exact trainLaunchSafe_evaluate (trainLaunchSafe_insert hr (placeEntry_perm hl) (entrySafe_entryOfItem _ hv hb)) _ _

end Insertion

section Transfer
variable {s : State}

@[simp] theorem trainLaunchSafe_transferComplete : TrainLaunchSafe 40 (transferComplete s) ↔ TrainLaunchSafe 40 s := by
  have h1 : TrainLaunchSafe 40 (offerEvent .trainSynced
      (putTrs (fun t => { t.clearAnswer with sync := .synced, transferTimer := none, attempts := 0 }) s)) ↔ TrainLaunchSafe 40 s := by
    rw [trainLaunchSafe_offerEvent]
    exact trainLaunchSafe_putTrs s rfl
  simp only [transferComplete]
  split <;> simp [h1]

variable (h : TrainLaunchSafe 40 s)
include h

theorem trainLaunchSafe_takeAdopted {m : ItemMsg} (hv : itemValid m = true) : TrainLaunchSafe 40 (takeAdopted m s) := by
  have h1 : TrainLaunchSafe 40 (putTrs (fun t => { t with transferTimer := some (s.now + 5000) }) s) :=
    (trainLaunchSafe_putTrs s rfl).mpr h
  simp only [takeAdopted]
  split
  · simp only [trainLaunchSafe_transferComplete, h1]
  · next b hb =>
    have h2 := trainLaunchSafe_insertItem h1 hv hb
    have h3 := trainLaunchSafe_ite (c := (insertItem b (putTrs (fun t => { t with transferTimer := some (s.now + 5000) }) s)).2 = true)
      ((trainLaunchSafe_putTrs (f := fun t => { t with held := t.held ++ [m.index] }) _ rfl).mpr h2) h2
    exact trainLaunchSafe_ite (trainLaunchSafe_transferComplete.mpr h3) h3

theorem trainLaunchSafe_takeItem (x : Nat) (m : ItemMsg) : TrainLaunchSafe 40 (takeItem x m s) := by
  have ha : TrainLaunchSafe 40 (putTrs (fun t => { t with adopted := some (x, m.count) }) s) := (trainLaunchSafe_putTrs s rfl).mpr h
  unfold takeItem
  split
  · next hv =>
    unfold judgeItem
    (repeat' split) <;> simp only [trainLaunchSafe_takeAdopted ha hv.2.2, trainLaunchSafe_takeAdopted h hv.2.2, h]
  · exact h

theorem trainLaunchSafe_transferExpired : TrainLaunchSafe 40 (transferExpired s) := by
  unfold transferExpired
  split
  · exact h
  · simp only
    split
    · simp [h]
    · rw [trainLaunchSafe_offerEvent]
      exact (trainLaunchSafe_putTrs _ rfl).mpr (by simpa using h)

theorem trainLaunchSafe_reAskExpired : TrainLaunchSafe 40 (reAskExpired s) := by
  unfold reAskExpired
  split
  · exact h
  · rw [trainLaunchSafe_sendAskIfDue]
    exact (trainLaunchSafe_putTrs _ rfl).mpr (by simpa using h)

theorem trainLaunchSafe_trainResync : TrainLaunchSafe 40 (trainResync s) := by
  unfold trainResync
  rw [trainLaunchSafe_sendAskIfDue]
  exact (trainLaunchSafe_putTrs _ rfl).mpr (trainLaunchSafe_putTrain_sublist h (List.nil_sublist _))

theorem trainLaunchSafe_takeAsk (x : Nat) (a : AskMsg) : TrainLaunchSafe 40 (takeAsk x a s) := by
  have h1 := trainLaunchSafe_ite (c := answersAsk s a = true)
    ((trainLaunchSafe_putTrs (f := fun t => { t with answer := buildAnswer s x a.mark }) s rfl).mpr h) h
  unfold takeAsk
  exact trainLaunchSafe_ite (trainLaunchSafe_ite ((trainLaunchSafe_raiseGap _).mpr h1) h1) h

theorem trainLaunchSafe_handItem : TrainLaunchSafe 40 (handItem s) := by
  unfold handItem
  split
  · exact h
  · split
    · rw [trainLaunchSafe_sendOwn]
      exact (trainLaunchSafe_putTrs _ rfl).mpr h
    · exact h

theorem trainLaunchSafe_learningEnds : TrainLaunchSafe 40 (learningEnds s) := by
  unfold learningEnds
  split
  · exact h
  · next due _ =>
    refine trainLaunchSafe_judgeChangeover ?_
    rw [trainLaunchSafe_offerEvent]
    have h1 : TrainLaunchSafe 40 (putTrs (fun t => { t with sync := .synced, learnTimer := none }) (s.advanceTo due)) :=
      (trainLaunchSafe_putTrs _ rfl).mpr (by simpa using h)
    exact trainLaunchSafe_putLsc h1 ⟨h.launch.orders, h.launch.ranges, h.launch.switching, h.launch.launched, h.launch.holds,
      h.launch.keys, h.launch.holders⟩

theorem trainLaunchSafe_learnSequence (b : BeaconMsg) : TrainLaunchSafe 40 (learnSequence b s) := by
  unfold learnSequence
  (repeat' split) <;> exact trainLaunchSafe_of_view (s := s) rfl h

/-! ### Ports and peers -/

theorem trainLaunchSafe_portBecomesUp (p : Port) : TrainLaunchSafe 40 (portBecomesUp p s) := by
  unfold portBecomesUp startLearning
  rw [trainLaunchSafe_sendAskIfDue]
  split
  · exact (trainLaunchSafe_putTrs _ rfl).mpr (by simpa using h)
  · simpa using h

end Transfer

section Peers
variable {k : Nat} {s : State}

@[simp] theorem trainLaunchSafe_recomputeReference : TrainLaunchSafe k (recomputeReference s) ↔ TrainLaunchSafe k s := by
  simp only [recomputeReference]; split <;> simp

@[simp] theorem trainLaunchSafe_createPeer (n : Nat) (b : BeaconMsg) (r : Role) (p : Port) :
    TrainLaunchSafe k (createPeer n b r p s) ↔ TrainLaunchSafe k s := by
  simp only [createPeer]; (repeat' split) <;> simp

@[simp] theorem trainLaunchSafe_applyBeacon (q : Peer) (b : BeaconMsg) (r : Role) (p : Port) :
    TrainLaunchSafe k (applyBeacon q b r p s).1 ↔ TrainLaunchSafe k s := by
  simp only [applyBeacon]; (repeat' split) <;> simp

@[simp] theorem trainLaunchSafe_judgeBeaconGap (n : Nat) : TrainLaunchSafe k (judgeBeaconGap n s) ↔ TrainLaunchSafe k s := by
  unfold judgeBeaconGap; split <;> simp

theorem trainLaunchSafe_takeBeacon (n : Nat) (b : BeaconMsg) (r : Role) (p : Port) (h : TrainLaunchSafe k s) :
    TrainLaunchSafe k (takeBeacon n b r p s) := by
  unfold takeBeacon
  split
  · simpa using h
  · next q _ =>
    have h1 : TrainLaunchSafe k (applyBeacon q b r p s).1 := by simpa using h
    split
    · next he =>
      rw [he] at h1
      exact inEitherOrder_keeps (TrainLaunchSafe k) (fun _ ht => trainLaunchSafe_trackDelta ht _ _) (fun _ ht => by simpa using ht)
        (fun _ ht => by simpa using ht) h1
    · next he =>
      rw [he] at h1
      simpa using h1

theorem trainLaunchSafe_peerSuspect (n : Nat) : TrainLaunchSafe k (peerSuspect n s) ↔ TrainLaunchSafe k s := by
  simp only [peerSuspect]; (repeat' split) <;> simp

theorem trainLaunchSafe_peerSilence (n : Nat) : TrainLaunchSafe k (peerSilence n s) ↔ TrainLaunchSafe k s := by
  unfold peerSilence; (repeat' split) <;> simp

@[simp] theorem trainLaunchSafe_peerFree (n : Nat) : TrainLaunchSafe k (peerFree n s) ↔ TrainLaunchSafe k s := by
  unfold peerFree; (repeat' split) <;> simp

theorem trainLaunchSafe_holdEnds (n : Nat) : TrainLaunchSafe k (holdEnds n s) ↔ TrainLaunchSafe k s := by
  unfold holdEnds; (repeat' split) <;> simp

theorem trainLaunchSafe_judgePeerChange (t : State) (h : TrainLaunchSafe 40 s) : TrainLaunchSafe 40 (judgePeerChange t s) := by
  unfold judgePeerChange; split <;> simp [h]

end Peers

/-! ### Litres -/

section Litres
variable {s : State}

theorem trainLaunchSafe_emitLitre (h : TrainLaunchSafe 40 s) : TrainLaunchSafe 40 (emitLitre s) := by
  have h1 : TrainLaunchSafe 40 (putMtr (fun m => { m with fine := lessLitre m.fine, count := m.count + 1 }) s) := by simpa using h
  unfold emitLitre handLitre
  split
  · refine inEitherOrder_keeps (TrainLaunchSafe 40) (fun t ht => ?_) (fun t ht => trainLaunchSafe_trackLitre ht) (fun t ht => by simpa using ht) (by simpa using h1)
    exact trainLaunchSafe_evaluateIfRemoved (trainLaunchSafe_executeAndSettle ht) _
  · split
    · exact trainLaunchSafe_countLaunched (trainLaunchSafe_trackLitre h1)
    · exact trainLaunchSafe_trackLitre h1

theorem trainLaunchSafe_emitLitres (n : Nat) (h : TrainLaunchSafe 40 s) : TrainLaunchSafe 40 (emitLitres n s) := by
  induction n generalizing s with
  | zero => exact h
  | succ n ih => exact ih (trainLaunchSafe_emitLitre h)

theorem trainLaunchSafe_emitDeliveries (n : Nat) (h : TrainLaunchSafe 40 s) : TrainLaunchSafe 40 (emitDeliveries n s) := by
  induction n generalizing s with
  | zero => exact h
  | succ n ih => exact ih (trainLaunchSafe_countDelivered (by simpa using h))

theorem trainLaunchSafe_takeMainline (h : TrainLaunchSafe 40 s) : TrainLaunchSafe 40 (takeMainline s) :=
  trainLaunchSafe_emitLitres _ (by simpa using h)

theorem trainLaunchSafe_takeDelivery (h : TrainLaunchSafe 40 s) : TrainLaunchSafe 40 (takeDelivery s) :=
  trainLaunchSafe_emitDeliveries _ (by simpa using h)

/-! ### Valves' events and the start reading -/

theorem trainLaunchSafe_commandEnded (r : Route) (b : Bool) (e : CommandEnd) (h : TrainLaunchSafe 40 s) :
    TrainLaunchSafe 40 (commandEnded r b e s) := by
  unfold commandEnded
  (repeat' split) <;> simp [h, trainLaunchSafe_plainOutcome]

theorem trainLaunchSafe_limitSettled (r : Route) (x : RouteState) (h : TrainLaunchSafe 40 s) : TrainLaunchSafe 40 (limitSettled r x s) := by
  unfold limitSettled
  split
  · exact trainLaunchSafe_commandEnded _ _ _ (by simpa using h)
  · exact trainLaunchSafe_commandEnded _ _ _ (by simpa using h)
  · split <;> simp [h]

theorem trainLaunchSafe_reportRouteToLaunch (r : Option Route) (h : TrainLaunchSafe 40 s) : TrainLaunchSafe 40 (reportRouteToLaunch r s) := by
  unfold reportRouteToLaunch
  split
  · exact trainLaunchSafe_putLsc h ⟨h.launch.orders, h.launch.ranges, h.launch.switching, h.launch.launched, h.launch.holds,
      h.launch.keys, h.launch.holders⟩
  · exact h

theorem trainLaunchSafe_readCurrentRoute {f : Option Route → State → State}
    (hf : ∀ r t, TrainLaunchSafe 40 t → TrainLaunchSafe 40 (f r t)) (h : TrainLaunchSafe 40 s) :
    TrainLaunchSafe 40 (readCurrentRoute f s) := by
  unfold readCurrentRoute
  split <;> exact hf _ _ (by simpa using h)

theorem trainLaunchSafe_startCloses (l : List Route) (h : TrainLaunchSafe 40 s) :
    TrainLaunchSafe 40 (l.foldl (fun s r => (commandRoute r .closed true s).1) s) := by
  induction l generalizing s with
  | nil => exact h
  | cons r rest ih => exact ih (by simpa using h)

theorem trainLaunchSafe_startReading (h : TrainLaunchSafe 40 s) : TrainLaunchSafe 40 (startReading s) := by
  have h1 : TrainLaunchSafe 40 (readCurrentRoute reportRouteToCut s) :=
    trainLaunchSafe_readCurrentRoute (fun r t ht => by simpa [reportRouteToCut] using ht) h
  have h2 : TrainLaunchSafe 40 (readCurrentRoute reportRouteToLaunch s) :=
    trainLaunchSafe_readCurrentRoute (fun r t ht => trainLaunchSafe_reportRouteToLaunch r ht) h
  unfold startReading
  (repeat' split) <;> simp [h, h1, h2, closeOpenRoutes, trainLaunchSafe_startCloses]

/-! ### Holds of a terminal -/

theorem trainLaunchSafe_judgeHolds (h : TrainLaunchSafe 40 s) : TrainLaunchSafe 40 (judgeHolds s) := by
  have h1 (r : Route) (t : State) (ht : TrainLaunchSafe 40 t) : TrainLaunchSafe 40 (judgeHold t r) := by
    unfold judgeHold
    (repeat' split) <;> simp [ht, putSlot]
  unfold judgeHolds
  generalize allRoutes = l
  induction l generalizing s with
  | nil => exact h
  | cons r rest ih => exact ih (h1 r _ h)

theorem trainLaunchSafe_refreshHold (p : Nat) (h : TrainLaunchSafe 40 s) : TrainLaunchSafe 40 (refreshHold p s) := by
  unfold refreshHold; split <;> simp [h, putSlot]

theorem trainLaunchSafe_statusStale (h : TrainLaunchSafe 40 s) : TrainLaunchSafe 40 (statusStale s) := by
  unfold statusStale; split <;> simp [h]

/-! ### Orders (R184, R185) -/

/-- An order that passes R184's checks is within its ranges. -/
theorem orderSafe_of_orderFault {product : Byte} {density : BitVec 16} {nominal : BitVec 32} {count : Byte} {places : List OrderPlace}
    (h : orderFault s (orderOf product density nominal count places) count.toNat = none) :
    s.lsc.orders.length < 8 ∧ OrderSafe (orderOf product density nominal count places) := by
  generalize ho : orderOf product density nominal count places = o at h
  have hn : 100000 ≤ o.nominal := by rw [← ho]; exact Nat.le_max_left _ _
  have hd : o.deliveries.length ≤ count.toNat := by
    rw [← ho]
    simp only [orderOf, orderDeliveries, List.length_map, List.length_take]
    omega
  unfold orderFault at h
  (repeat' split at h) <;> try cases h
  next h1 h2 h3 h4 h5 h6 h7 h8 =>
  refine ⟨by omega, ⟨by omega, by omega⟩, ⟨by omega, by omega⟩, ⟨hn, by omega⟩, ?_⟩
  simp only [List.any_eq_true, not_exists, not_and, Bool.or_eq_true, decide_eq_true_eq, not_or] at h7
  simp only [deliveriesValid, Bool.and_eq_true, decide_eq_true_eq, List.all_eq_true]
  refine ⟨⟨by omega, fun d hd => ?_⟩, by simpa using h8⟩
  have := h7 d hd
  omega

theorem trainLaunchSafe_enterOrder {o : Order} {count : Nat} (b : Bool) (h : TrainLaunchSafe 40 s)
    (ho : orderFault s o count = none → s.lsc.orders.length < 8 ∧ OrderSafe o) : TrainLaunchSafe 40 (enterOrder o count b s) := by
  unfold enterOrder
  split
  · simpa using h
  · next hf =>
    obtain ⟨hl, hr⟩ := ho hf
    have h1 : TrainLaunchSafe 40 (putLsc (fun l => { l with orders := l.orders ++ [o] }) s) := by
      refine trainLaunchSafe_putLsc h ⟨by simpa using hl, fun q hq => ?_, by simp, h.launch.launched, h.launch.holds, h.launch.keys,
        h.launch.holders⟩
      rcases List.mem_append.mp hq with hq | hq
      · exact h.launch.ranges q hq
      · rw [List.mem_singleton.mp hq]; exact hr
    rw [trainLaunchSafe_respond]
    unfold judgeIfOnly
    split <;> simp only [trainLaunchSafe_judgeChangeover, h1]

theorem trainLaunchSafe_cancelOrder (n : Nat) (h : TrainLaunchSafe 40 s) : TrainLaunchSafe 40 (cancelOrder n s) := by
  unfold cancelOrder
  split
  · simpa using h
  · split
    · simpa using h
    · next h0 h1 =>
      have hl := h.launch.orders
      have hsub : List.Sublist (s.lsc.orders.eraseIdx (n - 1)) s.lsc.orders := List.eraseIdx_sublist _ _
      have h2 : TrainLaunchSafe 40 (putLsc (fun l => { l with orders := l.orders.eraseIdx (n - 1) }) s) := by
        refine trainLaunchSafe_putLsc h ⟨hsub.length_le.trans hl, fun q hq => h.launch.ranges q (hsub.subset hq), fun hw => ?_,
          h.launch.launched, h.launch.holds, h.launch.keys, h.launch.holders⟩
        have hlen := List.length_eraseIdx_add_one (l := s.lsc.orders) (i := n - 1) (by omega)
        have hn : n ≠ 1 := fun hn => h1 ⟨hn, hw⟩
        intro hnil
        simp only [putLsc_lsc] at hnil
        rw [hnil] at hlen
        simp at hlen
        omega
      rw [trainLaunchSafe_respond]
      split <;> simp only [trainLaunchSafe_judgeChangeover, h2]

end Litres

/-! ### Commands -/

/-- A command answered or refused (R199). -/
theorem trainLaunchSafe_whenRunning {f : State → State} {s : State} (h : TrainLaunchSafe 40 s) (hf : TrainLaunchSafe 40 (f s)) :
    TrainLaunchSafe 40 (whenRunning f s) := by
  unfold whenRunning; split
  · exact hf
  · simpa using h

theorem trainLaunchSafe_respondDone {d : Option State} {s : State} (h : TrainLaunchSafe 40 s) (hd : ∀ t, d = some t → TrainLaunchSafe 40 t) :
    TrainLaunchSafe 40 (respondDone d s) := by
  unfold respondDone
  split
  · simpa using hd _ rfl
  · simpa using h

theorem trainLaunchSafe_evaluated {d : Option State} {s t : State} (hd : ∀ t, d = some t → TrainLaunchSafe 40 t)
    (ht : evaluated s d = some t) : TrainLaunchSafe 40 t := by
  obtain ⟨x, hx, rfl⟩ := Option.map_eq_some_iff.mp ht
  exact trainLaunchSafe_evaluateIfRemoved (hd x hx) _

theorem trainLaunchSafe_resync {s : State} (h : TrainLaunchSafe 40 s) : TrainLaunchSafe 40 (resync s) := by
  simp only [resync]
  refine trainLaunchSafe_trainResync ?_
  (repeat' split) <;> simp [h]

/-- The commands that come as SPI requests (12.2). -/
def Instr.byRequest : Instr → Bool
  | .readStatus | .readEvent | .readCut | .readTrain _ | .readPeer _ | .ackAlarms _ | .setStatus _ | .enterOrder _ _ _ _ _
  | .cancelOrder _ | .forceAdvance | .forceTransmix | .releaseTo _ | .closeDelivery | .resync => true
  | _ => false

theorem exec_byRequest {c : Instr} (h : Instr.byRequest c = true) (s : State) : exec c s = execRequest c s := by
  cases c
  case readStatus | readEvent | readCut | readTrain | readPeer | ackAlarms | setStatus | enterOrder | cancelOrder | forceAdvance
      | forceTransmix | releaseTo | closeDelivery | resync => rfl
  all_goals cases h

/-- The commands that come as requests keep a running chip safe. -/
theorem trainLaunchSafe_execRequest {c : Instr} {s t : State} (h : TrainLaunchSafe 40 s) (ht : execRequest c s = .next t) :
    TrainLaunchSafe 40 t := by
  cases c
  case readStatus => cases ht; simpa using h
  case readEvent =>
    cases ht
    refine trainLaunchSafe_whenRunning h ?_
    unfold readEvent; split <;> simpa using h
  case readCut =>
    cases ht
    refine trainLaunchSafe_whenRunning h ?_
    unfold readCut; split <;> simpa using h
  case readTrain =>
    cases ht
    refine trainLaunchSafe_whenRunning h ?_
    unfold respondRead; split <;> simpa using h
  case readPeer =>
    cases ht
    refine trainLaunchSafe_whenRunning h ?_
    unfold respondRead; split <;> simpa using h
  case ackAlarms =>
    cases ht
    refine trainLaunchSafe_whenRunning h ?_
    unfold ackAlarms; split <;> simpa using h
  case setStatus v =>
    cases ht
    refine trainLaunchSafe_whenRunning h ?_
    unfold setStatus
    split
    · rw [trainLaunchSafe_respond]
      exact trainLaunchSafe_judgeHolds (by simpa [restartStaleTimer] using h)
    · simpa using h
  case enterOrder =>
    cases ht
    refine trainLaunchSafe_whenRunning h ?_
    split
    · exact trainLaunchSafe_enterOrder _ h orderSafe_of_orderFault
    · simpa using h
  case cancelOrder =>
    cases ht
    refine trainLaunchSafe_whenRunning h ?_
    split
    · exact trainLaunchSafe_cancelOrder _ h
    · simpa using h
  case forceAdvance =>
    cases ht
    refine trainLaunchSafe_whenRunning h ?_
    split
    · exact trainLaunchSafe_respondDone h fun _ => trainLaunchSafe_evaluated fun _ => trainLaunchSafe_cutForceAdvance h
    · split
      · exact trainLaunchSafe_respondDone h fun _ => trainLaunchSafe_launchForceAdvance h
      · simpa using h
  case forceTransmix =>
    cases ht
    refine trainLaunchSafe_whenRunning h ?_
    split
    · exact trainLaunchSafe_respondDone h fun _ => trainLaunchSafe_evaluated fun _ => trainLaunchSafe_cutForceTransmix h
    · simpa using h
  case releaseTo =>
    cases ht
    refine trainLaunchSafe_whenRunning h ?_
    simp only [releaseTo]
    (repeat' split) <;> simp [h]
  case closeDelivery =>
    cases ht
    refine trainLaunchSafe_whenRunning h ?_
    split
    · exact trainLaunchSafe_respondDone h fun _ => trainLaunchSafe_closeCommanded h
    · simpa using h
  case resync =>
    cases ht
    refine trainLaunchSafe_whenRunning h ?_
    split
    · simpa using h
    · simpa using trainLaunchSafe_resync h
  all_goals cases ht; exact h

/-- A telegram taken from the receive queue (R107). -/
theorem trainLaunchSafe_taken {k : Kind} {f : RxFrame → State → State} {s : State} (h : TrainLaunchSafe 40 s)
    (hf : ∀ x, TrainLaunchSafe 40 (f x s)) :
    TrainLaunchSafe 40 (match headFrame k s with | some x => dropReceived (f x s) | none => s) := by
  split
  · simpa using hf _
  · exact h

theorem trainLaunchSafe_receiveBeacon (f : RxFrame) {s : State} (h : TrainLaunchSafe 40 s) : TrainLaunchSafe 40 (receiveBeacon f s) := by
  simp only [receiveBeacon]
  split
  · split
    · exact trainLaunchSafe_judgePeerChange _ (trainLaunchSafe_takeBeacon _ _ _ _ (trainLaunchSafe_learnSequence h _))
    · exact h
  · exact h

theorem trainLaunchSafe_receiveLaunch (f : RxFrame) {s : State} (h : TrainLaunchSafe 40 s) : TrainLaunchSafe 40 (receiveLaunch f s) := by
  unfold receiveLaunch
  split
  · next hv => exact trainLaunchSafe_placeLaunch h (by simp only [Bool.and_eq_true] at hv; exact hv.2)
  · exact h

theorem trainLaunchSafe_receivePassage (f : RxFrame) {s : State} (h : TrainLaunchSafe 40 s) : TrainLaunchSafe 40 (receivePassage f s) := by
  unfold receivePassage
  split
  · exact trainLaunchSafe_takeRemoval (trainLaunchSafe_takeSnap h _ _ _) _ _
  · exact h

theorem trainLaunchSafe_receiveHold (f : RxFrame) {s : State} (h : TrainLaunchSafe 40 s) : TrainLaunchSafe 40 (receiveHold f s) := by
  unfold receiveHold
  split
  · exact trainLaunchSafe_takeHold _ _ _ h
  · exact h

/-- Every command but POWER_ON_RESET keeps a running chip's train, orders and holds safe. -/
theorem trainLaunchSafe_exec {c : Instr} {s t : State} (hc : c ≠ .powerOnReset) (h : TrainLaunchSafe 40 s) (ht : exec c s = .next t) :
    TrainLaunchSafe 40 t := by
  by_cases hq : Instr.byRequest c = true
  · exact trainLaunchSafe_execRequest h (exec_byRequest hq s ▸ ht)
  cases c
  case powerOnReset => exact absurd rfl hc
  case readStatus | readEvent | readCut | readTrain | readPeer | ackAlarms | setStatus | enterOrder | cancelOrder | forceAdvance
      | forceTransmix | releaseTo | closeDelivery | resync => exact absurd rfl hq
  case resetRelease =>
    have hl : s.cfl.load ≠ .loading := fun hl => by simpa [State.running, hl] using h.running
    simp only [exec, execResetRelease, hl, if_false] at ht
    cases ht; exact h
  case configLoadDone =>
    have hl : s.cfl.load ≠ .loading := fun hl => by simpa [State.running, hl] using h.running
    simp only [exec, execConfigLoadDone, hl, false_and, if_false] at ht
    cases ht; exact h
  case mainlinePulse => cases ht; exact trainLaunchSafe_ite (trainLaunchSafe_takeMainline h) h
  case trimNudge =>
    cases ht
    split
    · exact h
    · simpa [takeNudge] using h
  case deliveryPulse => cases ht; exact trainLaunchSafe_ite (trainLaunchSafe_takeDelivery h) h
  case densityCharacter => cases ht; exact trainLaunchSafe_ite (trainLaunchSafe_takeCharacter h _ _) h
  case frameCharTimeout => cases ht; exact trainLaunchSafe_ite (trainLaunchSafe_abandonSample h) h
  case silenceTimerExpiry => cases ht; exact trainLaunchSafe_ite (trainLaunchSafe_silenceExpired h) h
  case portSignalDetected => cases ht; exact trainLaunchSafe_ite (by simpa using h) h
  case portReachesUp => cases ht; exact trainLaunchSafe_ite (trainLaunchSafe_portBecomesUp h _) h
  case lossOfSignal =>
    cases ht
    (repeat' split) <;> simp [h]
  case frameReceived =>
    cases ht
    refine trainLaunchSafe_ite ?_ h
    unfold receiveFrame receiveGood
    (repeat' split) <;> simp [h]
  case rxFrameAborted => cases ht; exact trainLaunchSafe_ite (by simpa using h) h
  case noiseCleanExpiry => cases ht; exact trainLaunchSafe_ite (by simpa [portClean] using h) h
  case beaconTaken => cases ht; exact trainLaunchSafe_taken h fun x => trainLaunchSafe_receiveBeacon x h
  case launchTaken => cases ht; exact trainLaunchSafe_taken h fun x => trainLaunchSafe_receiveLaunch x h
  case passageTaken => cases ht; exact trainLaunchSafe_taken h fun x => trainLaunchSafe_receivePassage x h
  case holdTaken => cases ht; exact trainLaunchSafe_taken h fun x => trainLaunchSafe_receiveHold x h
  case askTaken => cases ht; exact trainLaunchSafe_taken h fun x => trainLaunchSafe_takeAsk h _ _
  case itemTaken => cases ht; exact trainLaunchSafe_taken h fun x => trainLaunchSafe_takeItem h _ _
  case peerSuspectExpiry => cases ht; exact trainLaunchSafe_ite ((trainLaunchSafe_peerSuspect _).mpr h) h
  case peerSilenceExpiry => cases ht; exact trainLaunchSafe_ite ((trainLaunchSafe_peerSilence _).mpr h) h
  case peerFreeExpiry => cases ht; exact trainLaunchSafe_ite (trainLaunchSafe_judgePeerChange _ (by simpa using h)) h
  case conflictHoldExpiry => cases ht; exact trainLaunchSafe_ite ((trainLaunchSafe_holdEnds _).mpr h) h
  case askSend => cases ht; simpa using h
  case transferTimerExpiry => cases ht; exact trainLaunchSafe_ite (trainLaunchSafe_transferExpired h) h
  case reAskTimerExpiry => cases ht; exact trainLaunchSafe_ite (trainLaunchSafe_reAskExpired h) h
  case answerItemHanded => cases ht; exact trainLaunchSafe_ite (trainLaunchSafe_handItem h) h
  case learnTimerExpiry => cases ht; exact trainLaunchSafe_ite (trainLaunchSafe_learningEnds h) h
  case beaconTimerExpiry =>
    cases ht
    split
    · simp only [beaconExpired]
      refine trainLaunchSafe_ite ?_ (trainLaunchSafe_of_view (s := s) rfl h)
      exact (trainLaunchSafe_sendOwn _ _ _).mpr (trainLaunchSafe_of_view (s := s) rfl h)
    · exact h
  case txPortFree =>
    cases ht
    split
    · simpa [portFree] using h
    · exact h
  case limitChange => cases ht; exact trainLaunchSafe_ite (trainLaunchSafe_limitSettled _ _ (by simpa using h)) (by simpa using h)
  case travelTimerExpiry =>
    cases ht
    split
    · exact trainLaunchSafe_commandEnded _ _ _ (by simpa using h)
    · exact h
  case startReading =>
    cases ht
    split
    · exact trainLaunchSafe_startReading (trainLaunchSafe_of_view (s := s) rfl h)
    · exact h
  case holdEntryExpiry =>
    cases ht
    refine trainLaunchSafe_ite ?_ h
    unfold holdExpired
    split
    · exact h
    · exact trainLaunchSafe_removeHold (by simpa using h) _ _
  case holdRefreshExpiry => cases ht; exact trainLaunchSafe_ite (trainLaunchSafe_refreshHold _ h) h
  case staleTimerExpiry => cases ht; exact trainLaunchSafe_ite (trainLaunchSafe_statusStale h) h
  case spiRequestAborted => cases ht; simpa using h
  case spiBadRequest bytes =>
    rcases execSpiBadRequest_cases bytes s with ⟨-, e⟩ | ⟨-, why, -, e⟩ | ⟨c, -, e⟩ | ⟨-, e⟩ <;> rw [exec, e] at ht
    · cases ht; simpa using h
    · cases ht; simpa using h
    · exact trainLaunchSafe_execRequest h ht
    · cases ht; exact h
  case readEventRetire => cases ht; exact trainLaunchSafe_ite (by simpa using h) h
  case readCutRetire => cases ht; exact trainLaunchSafe_ite (by simpa using h) h
  case lostNoticeQueued => cases ht; simpa using h
  case trainingSymbolReceived p x =>
    cases ht
    refine trainLaunchSafe_ite ?_ h
    cases x <;> simp only [trainingSymbol, trainLaunchSafe_modifyPort, h]
    exact trainLaunchSafe_ite (by simpa using h) (trainLaunchSafe_portBecomesUp h _)

/-! ### Outside RUN -/

theorem hasRole_idle {s : State} (h : s.running = false) (r : Role) : s.hasRole r = false := by simp [State.hasRole, h]

theorem nonOrigin_idle {s : State} (h : s.running = false) : s.nonOrigin = false := by simp [State.nonOrigin, h]

theorem headFrame_idle {s : State} (h : s.running = false) (k : Kind) : headFrame k s = none := by simp [headFrame, h]

theorem whenRunning_idle {s : State} (h : s.running = false) (f : State → State) : whenRunning f s = refuse .notState s := by
  simp [whenRunning, h]

theorem trainLaunchView_whenRunning {s : State} (h : s.running = false) (f : State → State) :
    trainLaunchView (whenRunning f s) = trainLaunchView s := by
  rw [whenRunning_idle h]; rfl

theorem trainLaunchView_queueLostNotice (s : State) : trainLaunchView (queueLostNotice s) = trainLaunchView s := by
  unfold queueLostNotice; split <;> rfl

theorem execRequest_idle {c : Instr} {s t : State} (h : s.running = false) (ht : execRequest c s = .next t) :
    trainLaunchView t = trainLaunchView s := by
  cases c <;> cases ht
  case readEvent | readCut | readTrain | readPeer | ackAlarms | setStatus | enterOrder | cancelOrder | forceAdvance | forceTransmix
      | releaseTo | closeDelivery | resync => exact trainLaunchView_whenRunning h _
  all_goals rfl

/-- Outside RUN no command but POWER_ON_RESET, RESET_RELEASE and CONFIG_LOAD_DONE writes the configuration, the train or LSC. -/
theorem exec_idle {c : Instr} {s t : State} (hp : c ≠ .powerOnReset) (hr : c ≠ .resetRelease) (hl : ∀ m, c ≠ .configLoadDone m)
    (h : s.running = false) (ht : exec c s = .next t) : trainLaunchView t = trainLaunchView s := by
  have hro := hasRole_idle h
  have hno := nonOrigin_idle h
  by_cases hq : Instr.byRequest c = true
  · exact execRequest_idle h (exec_byRequest hq s ▸ ht)
  cases c
  case powerOnReset => exact absurd rfl hp
  case resetRelease => exact absurd rfl hr
  case configLoadDone m => exact absurd rfl (hl m)
  case trimNudge =>
    cases ht
    split <;> simp [takeNudge, trainLaunchView]
  case spiBadRequest bytes =>
    rcases execSpiBadRequest_cases bytes s with ⟨-, e⟩ | ⟨-, why, -, e⟩ | ⟨c, -, e⟩ | ⟨-, e⟩ <;> rw [exec, e] at ht
    · cases ht; rfl
    · cases ht; rfl
    · exact execRequest_idle h ht
    · cases ht; rfl
  case limitChange => cases ht; simp [h, trainLaunchView]
  case readEventRetire =>
    cases ht
    split
    · exact trainLaunchView_queueLostNotice _
    · rfl
  case lostNoticeQueued =>
    cases ht
    exact trainLaunchView_queueLostNotice _
  case readCutRetire => cases ht; split <;> rfl
  case askSend => cases ht; simp [sendAskIfDue, askReady, hno]
  case spiRequestAborted => cases ht; rfl
  case readStatus | readEvent | readCut | readTrain | readPeer | ackAlarms | setStatus | enterOrder | cancelOrder | forceAdvance
      | forceTransmix | releaseTo | closeDelivery | resync => exact absurd rfl hq
  case mainlinePulse => cases ht; simp [h]
  case deliveryPulse | learnTimerExpiry | holdEntryExpiry => cases ht; simp [hro]
  case holdRefreshExpiry | staleTimerExpiry => cases ht; simp [holdRole, hro]
  case transferTimerExpiry | reAskTimerExpiry => cases ht; simp [hno]
  case densityCharacter | frameCharTimeout | silenceTimerExpiry => cases ht; simp [densityActive, h]
  case beaconTaken | launchTaken | passageTaken | holdTaken | askTaken | itemTaken => cases ht; simp [headFrame_idle h]
  all_goals cases ht; simp [h]

/-! ### Loading (R208 to R210) -/

theorem clampMark_le (r : Option Role) (n : Nat) : clampMark r n ≤ 2000000000 := by
  unfold clampMark
  split
  · exact Nat.zero_le _
  · exact (clampNat_bounds n (by decide)).2

/-- What CFL does with what it has read leaves the train and LSC as they are and publishes a mark in range. -/
theorem finishLoad_trainLaunch (m : MemoryRead) {s : State} (hm : s.cfg.mark ≤ 2000000000) :
    (finishLoad m s).trs.train = s.trs.train ∧ (finishLoad m s).lsc = s.lsc ∧ (finishLoad m s).cfg.mark ≤ 2000000000 := by
  have hb (p : Published) : (startBlocks p s).trs.train = s.trs.train := by
    simp only [startBlocks]; split <;> rfl
  unfold finishLoad
  split
  · exact ⟨rfl, rfl, hm⟩
  · simp only [loadRecord]
    split
    · exact ⟨rfl, rfl, hm⟩
    · have hp := clampMark_le (recordRole m.image) (field m.image 2 4)
      simp only [publish]
      split
      · exact ⟨hb _, rfl, hp⟩
      · exact ⟨by rw [raiseAlarm_trs]; exact hb _, by rw [raiseAlarm_lsc]; rfl, by rw [State.cfg, raiseAlarm_cfl]; exact hp⟩

theorem trainSafe_reset : TrainSafe State.reset :=
  ⟨by decide, by rintro _ ⟨⟩, by decide, fun _ => rfl⟩

theorem launchSafe_reset : LaunchSafe State.reset :=
  ⟨by decide, by rintro _ ⟨⟩, by rintro ⟨⟩, by decide, by decide, by decide, by rintro _ ⟨⟩⟩

theorem exec_trainLaunch_idle {c : Instr} {s t : State} (h : s.running = false) (hs : TrainSafe s) (hl : LaunchSafe s)
    (hc : c ≠ .powerOnReset) (ht : exec c s = .next t) : TrainSafe t ∧ LaunchSafe t := by
  cases c
  case resetRelease =>
    cases ht
    split
    · exact ⟨⟨hs.room, hs.entries, hs.mark, fun _ => hs.outside h⟩, launchSafe_of_eq (s := s) rfl hl⟩
    · exact ⟨hs, hl⟩
  case configLoadDone m =>
    cases ht
    split
    · obtain ⟨htr, hls, hm⟩ := finishLoad_trainLaunch m hs.mark
      have hnil := hs.outside h
      exact ⟨⟨by simp [htr, hnil], by simp [htr, hnil], hm, fun _ => htr.trans hnil⟩, launchSafe_of_eq hls hl⟩
    · exact ⟨hs, hl⟩
  all_goals
    obtain ⟨h1, h2, h3⟩ := trainLaunchView_eq (exec_idle hc nofun nofun h ht)
    exact ⟨trainSafe_of_eq h1 h2 hs, launchSafe_of_eq h3 hl⟩

/-- Every command keeps the train, the orders and the holds within their ranges and bounds. -/
theorem exec_trainLaunch {c : Instr} {s t : State} (hs : TrainSafe s) (hl : LaunchSafe s) (ht : exec c s = .next t) :
    TrainSafe t ∧ LaunchSafe t := by
  by_cases hc : c = .powerOnReset
  · subst hc
    cases ht
    exact ⟨trainSafe_of_eq (s := State.reset) rfl rfl trainSafe_reset, launchSafe_of_eq (s := State.reset) rfl launchSafe_reset⟩
  cases h : s.running with
  | false => exact exec_trainLaunch_idle h hs hl hc ht
  | true =>
    have hk := trainLaunchSafe_exec hc ⟨h, hs.room, hs, hl⟩ ht
    exact ⟨hk.train, hk.launch⟩

/-- Settles O57: in RUN every operation keeps the ranges and, the insertions apart, the room; outside RUN no command but those of the
loader reaches the train or LSC. -/
theorem trainAndLaunchStaySafe : Obligations.TrainAndLaunchStaySafe := by
  intro s t hs hl ht
  unfold step at ht
  split at ht
  · cases ht
    exact ⟨trainSafe_of_eq (s := s) rfl rfl hs, launchSafe_of_eq (s := s) rfl hl⟩
  · next c rest _ =>
    exact exec_trainLaunch (s := { s with pending := rest }) (trainSafe_of_eq (s := s) rfl rfl hs) (launchSafe_of_eq (s := s) rfl hl) ht

end Sys2Proof.Machine
end

