-- ==== Sys2Proof/Proofs/ResetAndReads.lean ====
section
/-! SUPPORT. The reset state, the publication of a good record and the reads: settled O3, O5, O45 and O54. -/

namespace Sys2Proof.Machine

/-! ### Reset -/

/-- Settles O3: the reset state is concrete, but for the port and the route that are asked for. -/
theorem resetValues : Obligations.ResetValues := by
  refine ⟨by decide, by decide, by decide, by decide, by decide, by decide, fun p => ?_, by decide, by decide, by decide, fun r => ?_,
    by decide, by decide, by decide, by decide, by decide⟩
  · cases p <;> decide
  · simp [routeState, State.reset, Vld.reset, RouteState.reset]

theorem portSafe_resetPort : PortSafe PortState.reset :=
  ⟨by decide, by decide, by decide, by decide, fun _ => rfl, fun _ => ⟨rfl, rfl, rfl⟩⟩

theorem routeState_reset (r : Route) : routeState State.reset r = RouteState.reset := routeGet_fill _ r

theorem routeSafe_resetRoute : RouteSafe RouteState.reset := ⟨nofun, nofun, nofun⟩

theorem meterSafe_reset : MeterSafe State.reset :=
  ⟨by decide, by decide, by decide, by decide, by decide, by decide, by decide⟩

theorem trackingSafe_reset : TrackingSafe State.reset := ⟨by decide, by decide, nofun⟩

theorem densitySafe_reset : DensitySafe State.reset :=
  ⟨by decide, by decide, nofun, by decide, nofun, by decide, by decide, by decide, by decide, by decide, nofun⟩

theorem peersSafe_reset : PeersSafe State.reset :=
  ⟨by decide, .nil, nofun, nofun, nofun, fun _ => ⟨rfl, rfl⟩, fun _ hq => nomatch hq⟩

theorem lineSafe_reset : LineSafe State.reset := ⟨portSafe_resetPort, portSafe_resetPort, by decide⟩

theorem stationSafe_reset : StationSafe State.reset := ⟨by decide, by decide, by decide, nofun⟩

theorem valveSafe_reset : ValveSafe State.reset where
  waiting := by decide
  routes r := routeState_reset r ▸ routeSafe_resetRoute
  switch := nofun
  reading _ := rfl
  timer := nofun
  outside _ := ⟨fun r => by rw [routeState_reset]; rfl, rfl, rfl, rfl⟩

theorem cutSafe_reset : CutSafe State.reset where
  record := by decide
  rest _ := ⟨rfl, rfl⟩
  counted _ h := nomatch h
  logged _ h := nomatch h
  heads := Nat.zero_le _
  finals := Nat.zero_le _
  kinds _ h := nomatch h
  reached _ h := nomatch h
  rising := .nil
  bounded _ h := nomatch h

theorem terminalSafe_reset : TerminalSafe State.reset where
  slots := by decide
  timers x hx := by rw [List.eq_of_mem_replicate hx]; rfl
  headrooms r v h := by
    have hn : routeGet (PerRoute.fill (none : Option Nat)) r = some v := h
    simp at hn
  stale := nofun
  outside _ := rfl

/-- Settles O54: at reset every queue, table and timer is empty or stopped. -/
theorem resetIsSafe : Obligations.ResetIsSafe :=
  ⟨meterSafe_reset, trackingSafe_reset, densitySafe_reset, trainSafe_reset, launchSafe_reset, peersSafe_reset, lineSafe_reset,
    stationSafe_reset, valveSafe_reset, cutSafe_reset, rfl, terminalSafe_reset⟩

/-! ### Publication (R208 to R210) -/

theorem recordRole_isSome {image : List Byte} (h1 : 1 ≤ natAt image 1 1) (h4 : natAt image 1 1 ≤ 4) : (recordRole image).isSome = true := by
  unfold recordRole field
  generalize natAt image 1 1 = n at h1 h4
  interval_cases n <;> rfl

/-- A record of a present memory that passes R208's checks has no fault before clamping. -/
theorem recordFault_none {status : Byte} {heldHigh : Bool} {image : List Byte} (hp : status ≠ 0xFF ∨ heldHigh = false)
    (hr : RecordPasses image) : recordFault ⟨status, heldHigh, image⟩ = none := by
  obtain ⟨hcrc, hs1, hs2, hr1, hr4⟩ := hr
  have hm : memoryAbsent ⟨status, heldHigh, image⟩ = false := by
    simpa [memoryAbsent, imp_iff_not_or] using hp
  have hc : recordCrcMatches image = true := by simp [recordCrcMatches, hcrc]
  have hst : ¬ (field image 0 1 = 0 ∨ 250 < field image 0 1) := by unfold field; omega
  have hro : (recordRole image).isNone = false := by simpa using recordRole_isSome hr1 hr4
  simp [recordFault, hm, hc, hst, hro]

theorem transmixRoute_isNone (p : Published) : (transmixRoute p).isNone = true ↔ ∀ r : Route, routeGet p.routes r ≠ .transmix := by
  simp only [transmixRoute, Option.isNone_iff_eq_none, List.find?_eq_none, beq_iff_eq]
  exact ⟨fun h r => h r (by cases r <;> decide), fun h r _ => h r⟩

/-- T0 was clamped into ±TRIM_MAX, so clamping it again changes nothing. -/
theorem clampInt_trimInitial (image : List Byte) :
    clampInt (-((clampedRecord image).trimMax : Int)) (clampedRecord image).trimMax (clampedRecord image).trimInitial
      = (clampedRecord image).trimInitial := by
  simp only [clampedRecord, clampTrimInitial]
  generalize clampTrimMax image = m
  unfold clampInt
  omega

/-- Settles O5: a record without a fault is clamped and published, and every block starts. -/
theorem goodRecordIsPublished : Obligations.GoodRecordIsPublished := by
  intro status heldHigh image s hl hrd hp hr
  have he : exec (.configLoadDone ⟨status, heldHigh, image⟩) s = .next (loadRecord image s) := by
    simp only [exec, execConfigLoadDone, hl, hrd, and_self, if_true, finishLoad, recordFault_none hp hr]
  refine ⟨fun ht hx => ?_, fun hx => ?_⟩
  · have hc : (clampedRecord image).role = some .terminus ∧ (transmixRoute (clampedRecord image)).isNone = true :=
      ⟨ht, (transmixRoute_isNone _).mpr hx⟩
    rw [he, loadRecord, if_pos hc]
    rfl
  · have hc : ¬ ((clampedRecord image).role = some .terminus ∧ (transmixRoute (clampedRecord image)).isNone = true) := by
      rw [transmixRoute_isNone]
      rintro ⟨ht, hn⟩
      rcases hx with h | ⟨r, h⟩
      · exact h ht
      · exact hn r h
    rw [he, loadRecord, if_neg hc, publish]
    simp only [List.isEmpty_iff, startBlocks, clampInt_trimInitial]
    rfl

/-! ### Reads (R201) -/

/-- Settles O45: a read is answered from the state, by its index. -/
theorem readsChangeOnlyTheResponse : Obligations.ReadsChangeOnlyTheResponse := by
  intro s
  refine ⟨rfl, fun hr index => ?_⟩
  have hi : index = 0 ↔ index.toNat = 0 := by
    rw [← BitVec.toNat_inj]; rfl
  have ht : exec (.readTrain index) s = .next (respondRead (trainReport s index.toNat) s) := by
    simp [exec, execReadTrain, whenRunning, hr]
  have hp : exec (.readPeer index) s = .next (respondRead (peerReport s index.toNat) s) := by
    simp [exec, execReadPeer, whenRunning, hr]
  have none_of {α : Type} (l : List α) (h : ¬ index.toNat = 0) (hl : l.length < index.toNat) : l[index.toNat - 1]? = none :=
    List.getElem?_eq_none (by omega)
  refine ⟨fun e h0 he => ?_, fun h => ?_, fun p h0 he => ?_, fun h => ?_⟩
  · rw [ht, trainReport, if_neg (fun h => h0 (hi.mpr h)), he]
    rfl
  · have hn : trainReport s index.toNat = none := by
      unfold trainReport
      split
      · rfl
      · next h0 => rw [none_of _ h0 (h.resolve_left fun h => h0 (hi.mp h))]; rfl
    rw [ht, hn]
    rfl
  · rw [hp, peerReport, if_neg (fun h => h0 (hi.mpr h)), he]
    rfl
  · have hn : peerReport s index.toNat = none := by
      unfold peerReport
      split
      · rfl
      · next h0 => rw [none_of _ h0 (h.resolve_left fun h => h0 (hi.mp h))]; rfl
    rw [hp, hn]
    rfl

end Sys2Proof.Machine
end

