-- ==== Sys2Proof/Proofs/DeliveryPulse.lean ====
section
/-! SUPPORT. The delivery pulse (R30, R31, R163): settled O12. -/

namespace Sys2Proof.Machine

/-! ### Changes of one entry -/

theorem changeEntry_comp (n : SeqNo) (f g : Entry → Entry) (hg : ∀ e, (g e).seq = e.seq) (t : List Entry) :
    changeEntry n f (changeEntry n g t) = changeEntry n (fun e => f (g e)) t := by
  induction t with
  | nil => rfl
  | cons e rest ih =>
    by_cases h : (e.seq == n) = true
    · simp [changeEntry, h, hg]
    · simp [changeEntry, h, ih]

theorem changeEntry_id (n : SeqNo) (t : List Entry) : changeEntry n (fun e => e) t = t := by
  induction t with
  | nil => rfl
  | cons e rest ih => simp [changeEntry, ih]

/-- The batch at the station is told by the sequences and the tracking states alone. -/
theorem batchAtStation_congr {t u : List Entry} (h : t.map (fun e => (e.seq, e.track)) = u.map (fun e => (e.seq, e.track))) :
    (batchAtStation t).map (·.seq) = (batchAtStation u).map (·.seq) := by
  have key (l : List Entry) : (batchAtStation l).map (·.seq)
      = (((l.map fun e => (e.seq, e.track)).filter fun x => x.2 == .passed).getLast?).map (·.1) := by
    simp only [batchAtStation, List.filter_map, List.getLast?_map, Option.map_map]
    rfl
  rw [key, key, h]

theorem changeEntry_map {α : Type} (n : SeqNo) (f : Entry → Entry) (p : Entry → α) (hf : ∀ e, p (f e) = p e) (t : List Entry) :
    (changeEntry n f t).map p = t.map p := by
  induction t with
  | nil => rfl
  | cons e rest ih => simp only [changeEntry]; split <;> simp [hf, ih]

/-- A train put in place that has the same batch at the station leaves DSU as it is (R75). -/
theorem putTrain_same {t : List Entry} {s : State} (h : (batchAtStation t).map (·.seq) = (batchAtStation s.trs.train).map (·.seq)) :
    putTrain t s = { s with trs := { s.trs with train := t } } := by
  simp [putTrain, h]

/-- A change that keeps an entry's sequence and tracking state writes the train alone. -/
theorem updateEntry_same {n : SeqNo} {f : Entry → Entry} (hf : ∀ e, (f e).seq = e.seq ∧ (f e).track = e.track) (s : State) :
    updateEntry n f s = { s with trs := { s.trs with train := changeEntry n f s.trs.train } } :=
  putTrain_same (batchAtStation_congr (changeEntry_map n f _ (fun e => by simp [hf e]) _))

/-! ### Litres of a delivery -/

/-- MTR after `n` delivery litres (R31). -/
def Mtr.delivered : Nat → Mtr → Mtr
  | 0, m => m
  | n + 1, m => Mtr.delivered n { m with deliveryFine := lessLitre m.deliveryFine, deliveryCount := m.deliveryCount + 1 }

theorem Mtr.delivered_add (j n : Nat) (m : Mtr) : (m.delivered j).delivered n = m.delivered (j + n) := by
  induction j generalizing m with
  | zero => rw [Nat.zero_add]; rfl
  | succ j ih => rw [Nat.succ_add]; exact ih _

theorem bitVec_add_one_add (c : Count32) (n : Nat) : c + 1 + BitVec.ofNat 32 n = c + BitVec.ofNat 32 (n + 1) := by
  rw [Nat.add_comm n 1, BitVec.ofNat_add, ← BitVec.add_assoc]; rfl

theorem Mtr.delivered_eq (n : Nat) (m : Mtr) : m.delivered n = { m with
    deliveryFine := m.deliveryFine - n * litre, deliveryCount := m.deliveryCount + BitVec.ofNat 32 n } := by
  induction n generalizing m with
  | zero => rw [Nat.zero_mul]; simp [Mtr.delivered]
  | succ n ih => rw [Mtr.delivered, ih, litre_left, bitVec_add_one_add]

/-- The state with `n` litres delivered of the active delivery `a`: the delivered volume is n more, and the remaining volume of the
entry delivered from n less (R19, R31, R163). -/
def State.delivered (s : State) (a : ActiveDelivery) (n : Nat) : State := { s with
  mtr := s.mtr.delivered n
  dsq := { s.dsq with active := some { a with delivered := a.delivered + n } }
  trs := { s.trs with train := changeEntry a.seq (fun e => e.deliver n) s.trs.train } }

/-- A close is not due with the next `n` litres: it was requested, or the ordered volume lies beyond them (R163). -/
def CloseNotDue (s : State) (a : ActiveDelivery) (n : Nat) : Prop :=
  s.dsq.state = .closing ∨ a.atCloseRequest.isSome = true ∨ a.delivered + n < a.ordered

theorem delivered_zero {s : State} {a : ActiveDelivery} (ha : s.dsq.active = some a) : s.delivered a 0 = s := by
  have h : changeEntry a.seq (fun e => e.deliver 0) s.trs.train = s.trs.train := changeEntry_id _ _
  have hd : { s.dsq with active := some a } = s.dsq := by rw [← ha]
  simp only [State.delivered, h, Mtr.delivered, Nat.add_zero, hd]

theorem delivered_delivered (s : State) (a : ActiveDelivery) (m n : Nat) :
    (s.delivered a m).delivered { a with delivered := a.delivered + m } n = s.delivered a (m + n) := by
  have hd (e : Entry) : (e.deliver m).deliver n = e.deliver (m + n) := by simp [Entry.deliver, Nat.sub_sub]
  simp only [State.delivered, changeEntry_comp _ (fun e => e.deliver n) (fun e => e.deliver m) (fun _ => rfl), hd, Mtr.delivered_add,
    Nat.add_assoc]

/-- Litres counted on after DSQ and VLD have moved: they are still those of one entry. -/
theorem delivered_from (s : State) {a b : ActiveDelivery} (m n : Nat) (x : Dsq) (v : Vld) (hb : b.seq = a.seq) :
    ({ s.delivered a m with dsq := x, vld := v } : State).delivered b n
      = { s.delivered a (m + n) with dsq := { x with active := some { b with delivered := b.delivered + n } }, vld := v } := by
  have hd (e : Entry) : (e.deliver m).deliver n = e.deliver (m + n) := by simp [Entry.deliver, Nat.sub_sub]
  simp only [State.delivered, hb, changeEntry_comp _ (fun e => e.deliver n) (fun e => e.deliver m) (fun _ => rfl), hd, Mtr.delivered_add]

/-- One litre at DSQ: the delivered and the remaining volume are counted, then the done test is made (R163). -/
theorem emitDelivered_eq {s : State} {a : ActiveDelivery} (ha : s.dsq.active = some a) (hi : s.dsq.state ≠ .idle)
    (hb : a.delivered + 1 ≤ highestCount) : emitDelivered s = afterDelivery (doneTest (s.delivered a 1)) := by
  have hmin : min highestCount (a.delivered + 1) = a.delivered + 1 := Nat.min_eq_right hb
  simp only [emitDelivered, countDelivered, putMtr_dsq, ha, hi, if_false]
  rw [updateEntry_same (f := fun e => e.deliver 1) (fun _ => ⟨rfl, rfl⟩)]
  simp only [modifyActive, putDsq, putMtr, ha, Option.map_some, hmin, State.delivered, Mtr.delivered]

theorem doneTest_notDue {s : State} {a : ActiveDelivery} {n : Nat} (h : CloseNotDue s a (n + 1)) :
    doneTest (s.delivered a 1) = (s.delivered a 1, false) := by
  unfold doneTest
  refine if_neg ?_
  rintro ⟨h1, h2, h3⟩
  simp only [State.delivered] at h1 h2 h3
  rcases h with h | h | h
  · simp [h] at h3
  · simp [h2] at h
  · omega

/-- Litres that complete no ordered volume are counted (R163). -/
theorem emitDeliveries_notDue (n : Nat) {s : State} {a : ActiveDelivery} (ha : s.dsq.active = some a) (hi : s.dsq.state ≠ .idle)
    (hd : CloseNotDue s a n) (hb : a.delivered + n ≤ highestCount) : emitDeliveries n s = s.delivered a n := by
  induction n generalizing s a with
  | zero => exact (delivered_zero ha).symm
  | succ n ih =>
    have h1 : emitDelivered s = s.delivered a 1 := by
      rw [emitDelivered_eq ha hi (by omega), doneTest_notDue hd]; rfl
    have hd' : CloseNotDue (s.delivered a 1) { a with delivered := a.delivered + 1 } n := by
      rcases hd with h | h | h
      · exact .inl h
      · exact .inr (.inl h)
      · exact .inr (.inr (by simp only; omega))
    rw [emitDeliveries, h1, ih (s := s.delivered a 1) rfl hi hd' (by simp only; omega), delivered_delivered, Nat.add_comm]

theorem emitDeliveries_add (m n : Nat) (s : State) : emitDeliveries (m + n) s = emitDeliveries n (emitDeliveries m s) := by
  induction m generalizing s with
  | zero => rw [Nat.zero_add]; rfl
  | succ m ih => rw [Nat.succ_add]; exact ih _

theorem emitDeliveries_none (n : Nat) {s : State} (ha : s.dsq.active = none) :
    emitDeliveries n s = { s with mtr := s.mtr.delivered n } := by
  induction n generalizing s with
  | zero => rfl
  | succ n ih =>
    have h1 : emitDelivered s = putMtr (fun m =>
        { m with deliveryFine := lessLitre m.deliveryFine, deliveryCount := m.deliveryCount + 1 }) s := by
      simp [emitDelivered, countDelivered, ha]
    rw [emitDeliveries, h1, ih (s := putMtr _ s) ha]
    rfl

/-! ### Close requests (R164) -/

/-- The CLOSE of a route, its limit not yet showing it, is in travel (R173). -/
def State.closingRoute (s : State) (r : Route) : State := { s with
  vld := { s.vld with routes := routeSet s.vld.routes r { routeState s r with
    latch := .closed, faultMark := false, startupClose := false, travel := some (s.now + s.cfg.travelTimeout * 1000) } } }

theorem commandRoute_close (s : State) {r : Route} (h : (routeState s r).closeLimit = false) :
    commandRoute r .closed false s = (s.closingRoute r, none) := by
  simp [commandRoute, RouteState.shows, h, State.closingRoute, putRoute, latchOf]

/-- The first close request of a delivery (R164). -/
def ActiveDelivery.closeRequested (a : ActiveDelivery) (f : DeliveryFlags → DeliveryFlags) : ActiveDelivery :=
  { a with flags := f a.flags, atCloseRequest := some a.delivered }

section Closing
variable {s : State} {a : ActiveDelivery} (f : DeliveryFlags → DeliveryFlags) (ha : s.dsq.active = some a) (hc : a.atCloseRequest = none)
include ha hc

theorem requestClose_delivering (ho : s.dsq.state = .delivering) (hr : (routeState s a.route).closeLimit = false) :
    requestClose f s = ({ s.closingRoute a.route with
      dsq := { s.dsq with state := .closing, active := some (a.closeRequested f) } }, false) := by
  have hn : noteCloseRequest (flagActive f s) = { s with dsq := { s.dsq with active := some (a.closeRequested f) } } := by
    simp [noteCloseRequest, flagActive, modifyActive, putDsq, ha, hc, ActiveDelivery.closeRequested]
  simp only [requestClose, ha, hc, Option.isSome_none, Bool.false_eq_true, if_false, ho, hn, handClose]
  rw [commandRoute_close]
  · rfl
  · exact hr

theorem requestClose_opening (ho : s.dsq.state = .opening) :
    requestClose f s = ({ s with dsq := { s.dsq with active := some { a.closeRequested f with closePending := true } } }, false) := by
  have hn : noteCloseRequest (flagActive f s) = { s with dsq := { s.dsq with active := some (a.closeRequested f) } } := by
    simp [noteCloseRequest, flagActive, modifyActive, putDsq, ha, hc, ActiveDelivery.closeRequested]
  simp only [requestClose, ha, hc, Option.isSome_none, Bool.false_eq_true, if_false, ho, hn]
  rfl

end Closing

/-! ### The litre that completes the ordered volume -/

section Completing
variable {s : State} {a : ActiveDelivery} (ha : s.dsq.active = some a) (hlt : a.delivered < a.ordered) (hb : a.ordered ≤ highestCount)
include ha hlt hb

theorem emitDeliveries_completing (hi : s.dsq.state ≠ .idle) : emitDeliveries (a.ordered - a.delivered) s
    = afterDelivery (doneTest (s.delivered a (a.ordered - a.delivered))) := by
  obtain ⟨k, hk⟩ : ∃ k, a.ordered - a.delivered = k + 1 := ⟨a.ordered - a.delivered - 1, by omega⟩
  have h1 := emitDeliveries_notDue k ha hi (.inr (.inr (by omega))) (by omega)
  rw [hk, emitDeliveries_add, h1]
  simp only [emitDeliveries]
  rw [emitDelivered_eq (s := s.delivered a k) (a := { a with delivered := a.delivered + k }) rfl hi (by simp only; omega), delivered_delivered]

omit ha hb in
/-- The done test at the completed ordered volume. -/
theorem doneTest_completed (hc : a.atCloseRequest = none) (ho : s.dsq.state = .opening ∨ s.dsq.state = .delivering) :
    doneTest (s.delivered a (a.ordered - a.delivered)) = requestClose (fun f => f) (s.delivered a (a.ordered - a.delivered)) := by
  refine if_pos ⟨?_, hc, ho⟩
  simp only
  omega

end Completing

/-- The active delivery with `n` litres more, its close requested at the ordered volume (R163, R164). -/
def ActiveDelivery.completedBy (a : ActiveDelivery) (n : Nat) : ActiveDelivery :=
  { a with delivered := a.delivered + n, atCloseRequest := some a.ordered }

section Completed
variable {s : State} {a : ActiveDelivery} {n : Nat} (ha : s.dsq.active = some a) (hlt : a.delivered < a.ordered)
  (hn : a.ordered ≤ a.delivered + n) (hb : a.delivered + n ≤ highestCount) (hc : a.atCloseRequest = none)
include ha hlt hn hb hc

/-- The litres after the completing one count on: `x` and `v` are DSQ and VLD as the close request leaves them, with the delivery `b`. -/
theorem emitDeliveries_completed {x : Dsq} {v : Vld} {b : ActiveDelivery} (ho : s.dsq.state = .opening ∨ s.dsq.state = .delivering)
    (hr : requestClose (fun f => f) (s.delivered a (a.ordered - a.delivered))
      = ({ s.delivered a (a.ordered - a.delivered) with dsq := x, vld := v }, false))
    (hx : x.active = some b) (hi : x.state ≠ .idle) (hs : b.seq = a.seq) (hd : b.delivered = a.ordered) (hq : b.atCloseRequest.isSome = true) :
    emitDeliveries n s
      = { s.delivered a n with dsq := { x with active := some { b with delivered := a.delivered + n } }, vld := v } := by
  obtain ⟨k, rfl⟩ : ∃ k, n = (a.ordered - a.delivered) + k := ⟨n - (a.ordered - a.delivered), by omega⟩
  have hsum : a.ordered + k = a.delivered + (a.ordered - a.delivered + k) := by omega
  have hi0 : s.dsq.state ≠ .idle := by rcases ho with h | h <;> simp [h]
  rw [emitDeliveries_add, emitDeliveries_completing ha hlt (by omega) hi0, doneTest_completed hlt hc ho, hr]
  simp only [afterDelivery, Bool.false_eq_true, if_false]
  rw [emitDeliveries_notDue k hx hi (.inr (.inl hq)) (by omega), delivered_from _ _ _ _ _ hs, hd, hsum]

theorem emitDeliveries_opening (ho : s.dsq.state = .opening) :
    emitDeliveries n s
      = { s.delivered a n with dsq := { s.dsq with active := some { a.completedBy n with closePending := true } } } := by
  have hd : a.delivered + (a.ordered - a.delivered) = a.ordered := by omega
  have hr := requestClose_opening (s := s.delivered a (a.ordered - a.delivered)) (fun f => f) rfl hc ho
  rw [emitDeliveries_completed ha hlt hn hb hc (.inl ho) hr rfl (by simp [State.delivered, ho]) rfl hd rfl]
  simp only [ActiveDelivery.closeRequested, ActiveDelivery.completedBy, State.delivered, hd]

theorem emitDeliveries_delivering (ho : s.dsq.state = .delivering) (hl : (routeState s a.route).closeLimit = false) :
    emitDeliveries n s
      = { s.delivered a n with
          dsq := { s.dsq with state := .closing, active := some (a.completedBy n) }
          vld := (s.closingRoute a.route).vld } := by
  have hd : a.delivered + (a.ordered - a.delivered) = a.ordered := by omega
  have hr := requestClose_delivering (s := s.delivered a (a.ordered - a.delivered)) (fun f => f) rfl hc ho hl
  rw [emitDeliveries_completed ha hlt hn hb hc (.inr ho) hr rfl (by simp) rfl hd rfl]
  simp only [ActiveDelivery.closeRequested, ActiveDelivery.completedBy, State.delivered, hd]
  rfl

end Completed

/-! ### The pulse (R30, R31) -/

/-- The litres of a pulse, with FD's rest below a litre and D modulo 2^32 (R31). -/
theorem Mtr.delivered_div (x : Nat) (m : Mtr) : Mtr.delivered (x / litre) { m with deliveryFine := x } = { m with
    deliveryFine := x % litre, deliveryCount := BitVec.ofNat 32 (m.deliveryCount.toNat + x / litre) } := by
  have h : x - x / litre * litre = x % litre := by rw [Nat.mod_eq_sub_mul_div, Nat.mul_comm]
  rw [Mtr.delivered_eq, h, BitVec.ofNat_add, BitVec.ofNat_toNat, BitVec.setWidth_eq]

/-! The litres counted from a given MTR `m`, which they leave at `m'`: what they do to the other blocks does not depend on MTR. -/

section Pulse
variable {s : State} {n : Nat} {m m' : Mtr} (hm : m.delivered n = m')
include hm

theorem pulse_none (ha : s.dsq.active = none) : emitDeliveries n (putMtr (fun _ => m) s) = { s with mtr := m' } := by
  rw [emitDeliveries_none (s := putMtr _ s) _ ha]
  simp only [putMtr, hm]

variable {a : ActiveDelivery} (ha : s.dsq.active = some a)
include ha

theorem pulse_notDue (hi : s.dsq.state ≠ .idle) (hd : CloseNotDue s a n) (hb : a.delivered + n ≤ highestCount) :
    emitDeliveries n (putMtr (fun _ => m) s) = { s with
      mtr := m'
      dsq := { s.dsq with active := some { a with delivered := a.delivered + n } }
      trs := { s.trs with train := changeEntry a.seq (fun e => { e with remaining := e.remaining - n }) s.trs.train } } := by
  rw [emitDeliveries_notDue (s := putMtr _ s) _ ha hi hd hb]
  simp only [State.delivered, putMtr, hm, Entry.deliver]

variable (hlt : a.delivered < a.ordered) (hn : a.ordered ≤ a.delivered + n) (hb : a.delivered + n ≤ highestCount)
  (hc : a.atCloseRequest = none)
include hlt hn hb hc

theorem pulse_opening (ho : s.dsq.state = .opening) : emitDeliveries n (putMtr (fun _ => m) s)
    = { s with
        mtr := m'
        dsq := { s.dsq with active := some { a with delivered := a.delivered + n, atCloseRequest := some a.ordered, closePending := true } }
        trs := { s.trs with train := changeEntry a.seq (fun e => { e with remaining := e.remaining - n }) s.trs.train } } := by
  rw [emitDeliveries_opening (s := putMtr _ s) ha hlt hn hb hc ho]
  simp only [State.delivered, putMtr, hm, Entry.deliver, ActiveDelivery.completedBy]

theorem pulse_delivering (ho : s.dsq.state = .delivering) (hl : (routeState s a.route).closeLimit = false) :
    emitDeliveries n (putMtr (fun _ => m) s)
      = { s with
          mtr := m'
          trs := { s.trs with train := changeEntry a.seq (fun e => { e with remaining := e.remaining - n }) s.trs.train }
          dsq := { s.dsq with state := .closing, active := some { a with delivered := a.delivered + n, atCloseRequest := some a.ordered } }
          vld := { s.vld with routes := routeSet s.vld.routes a.route { routeState s a.route with
            latch := .closed, faultMark := false, startupClose := false, travel := some (s.now + s.cfg.travelTimeout * 1000) } } } := by
  rw [emitDeliveries_delivering (s := putMtr _ s) ha hlt hn hb hc ho hl]
  simp only [State.delivered, putMtr, hm, State.closingRoute]
  rfl

end Pulse

/-- Settles O12: the litres of a pulse go one by one to the active delivery, and the completing one requests the close. -/
theorem deliveryPulseCountsLitres : Obligations.DeliveryPulseCountsLitres := by
  intro s
  have hx : s.mtr.deliveryFine + s.cfg.deliveryPulseWeight * 1000000 = pulsedDelivery s := rfl
  have hlit : (1000000000 : Nat) = litre := rfl
  have hm := Mtr.delivered_div (pulsedDelivery s) s.mtr
  have he (hr : s.hasRole .delivery = true) : exec .deliveryPulse s = .next
      (emitDeliveries (pulsedDelivery s / litre) (putMtr (fun _ => { s.mtr with deliveryFine := pulsedDelivery s }) s)) := by
    simp only [exec, execDeliveryPulse, hr, if_true, takeDelivery, putMtr]
  simp only [hx, hlit]
  refine ⟨fun hr => by simp [exec, execDeliveryPulse, hr], fun hr ha => ?_, fun a hr ha hi hd hb => ?_, fun a hr ha hlt hn hb hc =>
    ⟨fun ho => ?_, fun ho hl => ?_⟩⟩
  · rw [he hr, pulse_none hm ha]
  · exact (he hr).trans (congrArg _ (pulse_notDue hm ha hi hd hb))
  · exact (he hr).trans (congrArg _ (pulse_opening hm ha hlt hn hb hc ho))
  · exact (he hr).trans (congrArg _ (pulse_delivering hm ha hlt hn hb hc ho hl))

end Sys2Proof.Machine
end

