-- ==== Sys2Proof/Proofs/Payloads.lean ====
section
/-! SUPPORT. Numbers and lists in the payloads of telegrams (R103): settled O27 and O28. -/

namespace Sys2Proof.Machine

/-! ### Numbers in bytes -/

theorem natOfBytes_append_singleton (l : List Byte) (b : Byte) : natOfBytes (l ++ [b]) = natOfBytes l * 256 + b.toNat := by
  simp [natOfBytes]

/-- The last byte of a number holds its remainder, the others its quotient. -/
theorem natBytes_succ {size value : Nat} (h : value < 2 ^ (8 * (size + 1))) :
    natBytes (size + 1) value = natBytes size (value / 256) ++ [BitVec.ofNat 8 value] := by
  have h2 : value / 256 < 2 ^ (8 * size) := by
    rw [Nat.div_lt_iff_lt_mul (by decide)]
    calc value < 2 ^ (8 * (size + 1)) := h
      _ = 2 ^ (8 * size) * 256 := by rw [Nat.mul_succ, Nat.pow_add]
  simp only [natBytes, h, h2, if_true, List.range_succ, List.map_append, List.map_cons, List.map_nil, Nat.add_sub_cancel, Nat.sub_self,
    Nat.mul_zero, Nat.pow_zero, Nat.div_one]
  congr 1
  refine List.map_congr_left fun i hi => ?_
  have hi := List.mem_range.mp hi
  rw [Nat.div_div_eq_div_mul, show (256 : Nat) = 2 ^ 8 from rfl, ← Nat.pow_add]
  congr 3
  omega

theorem natOfBytes_natBytes {size value : Nat} (h : value < 2 ^ (8 * size)) : natOfBytes (natBytes size value) = value := by
  induction size generalizing value with
  | zero =>
    have : value = 0 := by simpa using h
    subst this
    rfl
  | succ size ih =>
    have h2 : value / 256 < 2 ^ (8 * size) := by
      rw [Nat.div_lt_iff_lt_mul (by decide)]
      calc value < 2 ^ (8 * (size + 1)) := h
        _ = 2 ^ (8 * size) * 256 := by rw [Nat.mul_succ, Nat.pow_add]
    rw [natBytes_succ h, natOfBytes_append_singleton, ih h2, BitVec.toNat_ofNat]
    omega

/-! ### Fields of a payload -/

/-- A field after `l` is a field of what follows `l`. -/
theorem natAt_append (l r : List Byte) (offset size : Nat) : natAt (l ++ r) (l.length + offset) size = natAt r offset size := by
  simp only [natAt, List.drop_append]
  congr 2
  simp

theorem natAt_skip {l r : List Byte} {offset size : Nat} (h : l.length ≤ offset) :
    natAt (l ++ r) offset size = natAt r (offset - l.length) size := by
  obtain ⟨k, rfl⟩ := Nat.exists_eq_add_of_le h
  rw [natAt_append, Nat.add_sub_cancel_left]

/-- A number is read back from its field. -/
theorem natAt_natBytes {size value : Nat} (r : List Byte) (h : value < 2 ^ (8 * size)) : natAt (natBytes size value ++ r) 0 size = value := by
  simp only [natAt, List.drop_zero]
  rw [List.take_append_of_le_length (by simp), List.take_of_length_le (by simp), natOfBytes_natBytes h]

theorem natAt_natBytes_last {size value : Nat} (h : value < 2 ^ (8 * size)) : natAt (natBytes size value) 0 size = value := by
  simpa using natAt_natBytes [] h

theorem seqAt_seqBytes (n : SeqNo) (r : List Byte) : BitVec.ofNat 16 (natAt (seqBytes n ++ r) 0 2) = n := by
  rw [seqBytes, natAt_natBytes _ (by exact n.isLt), BitVec.ofNat_toNat, BitVec.setWidth_eq]

@[simp] theorem seqBytes_length (n : SeqNo) : (seqBytes n).length = 2 := natBytes_length _ _

theorem getD_eq_natAt (p : List Byte) (i : Nat) : p.getD i 0 = BitVec.ofNat 8 (natAt p i 1) := by
  simp only [natAt, natOfBytes, List.getD_eq_getElem?_getD, ← List.head?_drop]
  cases List.drop i p <;> simp

/-! ### Delivery lists -/

@[simp] theorem deliveryBytes_length (d : DeliveryRec) : (deliveryBytes d).length = 5 := by simp [deliveryBytes]

@[simp] theorem deliveries_length (l : List DeliveryRec) : (l.flatMap deliveryBytes).length = 5 * l.length := by
  induction l with
  | nil => rfl
  | cons d rest ih => simp [ih]; omega

theorem deliveriesAt_succ (p : List Byte) (offset k : Nat) :
    deliveriesAt p offset (k + 1) = ⟨natAt p offset 1, natAt p (offset + 1) 4⟩ :: deliveriesAt p (offset + 5) k := by
  simp only [deliveriesAt, List.range_succ_eq_map, List.map_cons, List.map_map, Nat.mul_zero, Nat.add_zero]
  congr 1
  refine List.map_congr_left fun i _ => ?_
  simp only [Function.comp_apply, Nat.succ_eq_add_one]
  congr 2 <;> omega

/-- A delivery record fits its five bytes (R103). -/
def DeliveryRec.fits (d : DeliveryRec) : Prop := d.station < 256 ∧ d.volume < 2 ^ 32

/-- A delivery list is read back from where it stands. -/
theorem deliveriesAt_flatMap (l : List DeliveryRec) (pre post : List Byte) (h : ∀ d ∈ l, d.fits) :
    deliveriesAt (pre ++ (l.flatMap deliveryBytes ++ post)) pre.length l.length = l := by
  induction l generalizing pre with
  | nil => rfl
  | cons d rest ih =>
    obtain ⟨hs, hv⟩ := h d List.mem_cons_self
    have h1 : natAt (pre ++ ((d :: rest).flatMap deliveryBytes ++ post)) pre.length 1 = d.station := by
      rw [← Nat.add_zero pre.length, natAt_append, List.flatMap_cons, deliveryBytes]
      simp only [List.append_assoc]
      exact natAt_natBytes _ hs
    have h4 : natAt (pre ++ ((d :: rest).flatMap deliveryBytes ++ post)) (pre.length + 1) 4 = d.volume := by
      rw [natAt_append, List.flatMap_cons, deliveryBytes]
      simp only [List.append_assoc]
      rw [natAt_skip (by simp)]
      simpa using natAt_natBytes _ hv
    have hr := ih (pre ++ deliveryBytes d) fun x hx => h x (List.mem_cons_of_mem _ hx)
    rw [List.length_cons, deliveriesAt_succ, h1, h4]
    simp only [List.length_append, deliveryBytes_length, List.append_assoc] at hr
    rw [List.flatMap_cons, List.append_assoc, hr]

theorem fits_of_deliveriesValid {l : List DeliveryRec} (h : deliveriesValid l = true) : l.length ≤ 6 ∧ ∀ d ∈ l, d.fits := by
  simp only [deliveriesValid, Bool.and_eq_true, decide_eq_true_eq, List.all_eq_true] at h
  obtain ⟨⟨hl, hd⟩, -⟩ := h
  refine ⟨hl, fun d hm => ?_⟩
  have := hd d hm
  exact ⟨by omega, by omega⟩

/-! ### LAUNCH -/

/-- The part of a LAUNCH payload before its delivery records, 10 bytes. -/
def launchHead (m : LaunchMsg) : List Byte :=
  seqBytes m.seq ++ (natBytes 1 m.product ++ (natBytes 2 m.density ++ (natBytes 4 m.nominal ++ natBytes 1 m.deliveries.length)))

/-- The prior fields of a LAUNCH payload. -/
def launchPrior : Option (SeqNo × Nat) → List Byte
  | some (n, v) => natBytes 1 1 ++ (seqBytes n ++ natBytes 4 v)
  | none => natBytes 1 0

theorem launchPayload_eq (m : LaunchMsg) :
    launchPayload m = launchHead m ++ (m.deliveries.flatMap deliveryBytes ++ launchPrior m.prior) := by
  cases m with | mk seq product density nominal deliveries prior =>
  cases prior <;> simp [launchPayload, launchHead, launchPrior, listBytes]

theorem launchHead_length (m : LaunchMsg) : (launchHead m).length = 10 := by simp [launchHead]

theorem launchPayload_count {m : LaunchMsg} (h : m.deliveries.length ≤ 6) : natAt (launchPayload m) 9 1 = m.deliveries.length := by
  have hlt : m.deliveries.length < 2 ^ (8 * 1) := by omega
  simp [launchPayload_eq, launchHead, natAt_skip, natAt_natBytes _ hlt]

/-- What follows the delivery records of a LAUNCH is its prior fields. -/
theorem launchPayload_prior (m : LaunchMsg) (j size : Nat) :
    natAt (launchPayload m) (10 + 5 * m.deliveries.length + j) size = natAt (launchPrior m.prior) j size := by
  have hl : (launchHead m ++ m.deliveries.flatMap deliveryBytes).length = 10 + 5 * m.deliveries.length := by
    simp [launchHead_length, Nat.mul_comm]
  rw [launchPayload_eq, ← List.append_assoc, ← hl, natAt_append]

theorem launchPayload_length (m : LaunchMsg) :
    (launchPayload m).length = (if m.prior.isSome then 17 else 11) + 5 * m.deliveries.length := by
  rw [launchPayload_eq]
  cases m.prior <;> simp [launchHead_length, launchPrior] <;> omega

theorem natAt_launchPrior_present (o : Option (SeqNo × Nat)) : natAt (launchPrior o) 0 1 = if o.isSome then 1 else 0 := by
  cases o with
  | none => exact natAt_natBytes_last (by decide)
  | some x => exact natAt_natBytes _ (by decide)

theorem payloadLength_launch {m : LaunchMsg} (h : m.deliveries.length ≤ 6) :
    payloadLength .launch (launchPayload m) = some (launchPayload m).length := by
  have hlen := launchPayload_length m
  have hp : (launchPayload m)[10 + 5 * m.deliveries.length]? = some (if m.prior.isSome then 1 else 0) := by
    have hlt : 10 + 5 * m.deliveries.length < (launchPayload m).length := by rw [hlen]; split <;> omega
    have hg := getD_eq_natAt (launchPayload m) (10 + 5 * m.deliveries.length)
    have h0 := launchPayload_prior m 0 1
    rw [Nat.add_zero, natAt_launchPrior_present] at h0
    rw [List.getD_eq_getElem _ _ hlt, h0] at hg
    rw [List.getElem?_eq_getElem hlt, hg]
    cases m.prior <;> rfl
  have h10 : ¬ (launchPayload m).length < 10 := by rw [hlen]; split <;> omega
  simp only [payloadLength, h10, if_false, launchPayload_count h, hp]
  rw [hlen]
  cases m.prior <;> simp

/-- The LAUNCH that a payload's fields spell, given that they fit their widths. -/
theorem readLaunch_launchPayload {m : LaunchMsg} (hp : m.product < 256) (hd : m.density < 65536) (hn : m.nominal < 2 ^ 32)
    (hl : m.deliveries.length ≤ 6) (hf : ∀ d ∈ m.deliveries, d.fits) (hv : ∀ n v, m.prior = some (n, v) → v < 2 ^ 32) :
    readLaunch (launchPayload m) = m := by
  have hc := launchPayload_count hl
  have hdel : deliveriesAt (launchPayload m) 10 m.deliveries.length = m.deliveries := by
    rw [launchPayload_eq, ← launchHead_length m]
    exact deliveriesAt_flatMap _ _ _ hf
  have hseq : seqAt (launchPayload m) 0 = m.seq := by
    simp only [seqAt, launchPayload_eq, launchHead, List.append_assoc]
    exact seqAt_seqBytes _ _
  have hprod : natAt (launchPayload m) 2 1 = m.product := by
    simp [launchPayload_eq, launchHead, natAt_skip, natAt_natBytes _ (show m.product < 2 ^ (8 * 1) by omega)]
  have hdens : natAt (launchPayload m) 3 2 = m.density := by
    simp [launchPayload_eq, launchHead, natAt_skip, natAt_natBytes _ (show m.density < 2 ^ (8 * 2) by omega)]
  have hnom : natAt (launchPayload m) 5 4 = m.nominal := by
    simp [launchPayload_eq, launchHead, natAt_skip, natAt_natBytes _ (show m.nominal < 2 ^ (8 * 4) by omega)]
  have h0 := launchPayload_prior m 0 1
  have h1 : seqAt (launchPayload m) (11 + 5 * m.deliveries.length) = BitVec.ofNat 16 (natAt (launchPrior m.prior) 1 2) := by
    rw [seqAt, ← launchPayload_prior m 1 2]; congr 2; omega
  have h3 : natAt (launchPayload m) (13 + 5 * m.deliveries.length) 4 = natAt (launchPrior m.prior) 3 4 := by
    rw [← launchPayload_prior m 3 4]; congr 1; omega
  rw [Nat.add_zero, natAt_launchPrior_present] at h0
  simp only [readLaunch, hc, hdel, hseq, hprod, hdens, hnom, h0, h1, h3]
  cases m with | mk seq product density nominal deliveries prior =>
  cases prior with
  | none => simp
  | some x =>
    have hx : x.2 < 2 ^ (8 * 4) := hv x.1 x.2 rfl
    simp [launchPrior, natAt_skip, seqAt_seqBytes, natAt_natBytes_last hx]

/-- Settles O27: a LAUNCH that passes R11's checks fits the fields of its payload. -/
theorem launchPayloadReadsBack : Obligations.LaunchPayloadReadsBack := by
  intro m hv
  simp only [launchValid, Bool.and_eq_true, decide_eq_true_eq] at hv
  obtain ⟨⟨⟨⟨⟨⟨⟨-, p2⟩, -⟩, d2⟩, -⟩, n2⟩, hd⟩, hp⟩ := hv
  obtain ⟨hl, hf⟩ := fits_of_deliveriesValid hd
  refine ⟨payloadLength_launch hl, readLaunch_launchPayload (by omega) (by omega) (by omega) hl hf fun n v h => ?_⟩
  simp only [h, decide_eq_true_eq] at hp
  omega

/-! ### BEACON -/

theorem beaconPayload_length (b : BeaconMsg) : (beaconPayload b).length = 14 := by simp [beaconPayload]

/-- Four flags are read back from their byte, bit 0 first. -/
theorem flagNat_getLsbD (a b c d : Bool) :
    flagNat [a, b, c, d] < 256 ∧ (BitVec.ofNat 8 (flagNat [a, b, c, d])).getLsbD 0 = a
      ∧ (BitVec.ofNat 8 (flagNat [a, b, c, d])).getLsbD 1 = b ∧ (BitVec.ofNat 8 (flagNat [a, b, c, d])).getLsbD 2 = c
      ∧ (BitVec.ofNat 8 (flagNat [a, b, c, d])).getLsbD 3 = d := by
  revert a b c d
  decide

theorem readBeacon_beaconPayload {b : BeaconMsg} (hr : b.role < 256) (hm : b.mark < 2 ^ 32) (hp : b.period < 256)
    (he : b.entryCount < 256) : readBeacon (beaconPayload b) = b := by
  obtain ⟨hf, f0, f1, f2, f3⟩ := flagNat_getLsbD b.synced b.densityHealthy b.restarted b.newestPresent
  have hflags : natAt (beaconPayload b) 6 1 = flagNat [b.synced, b.densityHealthy, b.restarted, b.newestPresent] := by
    simp [beaconPayload, natAt_skip, natAt_natBytes _ (show flagNat _ < 2 ^ (8 * 1) from hf)]
  have hrole : natAt (beaconPayload b) 0 1 = b.role := by
    simp [beaconPayload, natAt_natBytes _ (show b.role < 2 ^ (8 * 1) by omega)]
  have hmark : natAt (beaconPayload b) 1 4 = b.mark := by
    simp [beaconPayload, natAt_skip, natAt_natBytes _ (show b.mark < 2 ^ (8 * 4) by omega)]
  have hper : natAt (beaconPayload b) 5 1 = b.period := by
    simp [beaconPayload, natAt_skip, natAt_natBytes _ (show b.period < 2 ^ (8 * 1) by omega)]
  have hcount : natAt (beaconPayload b) 7 4 = b.count.toNat := by
    simp [beaconPayload, natAt_skip, natAt_natBytes _ (show b.count.toNat < 2 ^ (8 * 4) from b.count.isLt)]
  have hnew : BitVec.ofNat 16 (natAt (beaconPayload b) 11 2) = b.newest := by
    simp [beaconPayload, natAt_skip, seqAt_seqBytes]
  have hent : natAt (beaconPayload b) 13 1 = b.entryCount := by
    simp [beaconPayload, natAt_skip, natAt_natBytes_last (show b.entryCount < 2 ^ (8 * 1) by omega)]
  simp only [readBeacon, getD_eq_natAt, hflags, hrole, hmark, hper, hcount, seqAt, hnew, hent, f0, f1, f2, f3]
  simp

/-! ### ITEM -/

theorem optNat_eq (size : Nat) (o : Option Nat) : optNat size o = natBytes 1 (if o.isSome then 1 else 0) ++ natBytes size (o.getD 0) := by
  cases o with
  | none =>
    have hz : natBytes size 0 = zeroBytes size := by
      have h : (0 : Nat) < 2 ^ (8 * size) := Nat.two_pow_pos _
      simp only [natBytes, h, if_true, Nat.zero_div, zeroBytes]
      exact List.eq_replicate_iff.mpr ⟨by simp, by simp⟩
    rw [Option.getD_none, hz, show natBytes 1 (if (none : Option Nat).isSome then 1 else 0) = [0] by decide]
    rfl
  | some v =>
    rw [Option.isSome_some, if_pos rfl, show natBytes 1 1 = [1] by decide]
    rfl

/-- The part of an ITEM payload before its delivery records, 22 bytes. -/
def itemHead (addressee index count : Nat) (e : Entry) : List Byte :=
  natBytes 1 addressee ++ (natBytes 1 index ++ (natBytes 1 count ++ (seqBytes e.seq ++ (natBytes 1 e.product ++ (natBytes 2 e.density
    ++ (natBytes 4 e.nominal ++ (natBytes 1 (if e.launched.isSome then 1 else 0) ++ (natBytes 4 (e.launched.getD 0)
    ++ (natBytes 4 e.remaining ++ natBytes 1 e.deliveries.length)))))))))

theorem itemPayload_eq (addressee index count : Nat) (e : Entry) (position : Int) : itemPayload addressee index count e position
    = itemHead addressee index count e ++ (e.deliveries.flatMap deliveryBytes ++ intBytes 4 (clampPosition position)) := by
  simp [itemPayload, itemHead, optNat_eq, listBytes]

theorem itemHead_length (addressee index count : Nat) (e : Entry) : (itemHead addressee index count e).length = 22 := by simp [itemHead]

/-- A signed number of 32 bits is read back. -/
theorem intAt_intBytes {v : Int} (h1 : -2147483648 ≤ v) (h2 : v ≤ 2147483647) (l : List Byte) :
    intAt (l ++ intBytes 4 v) l.length 4 = v := by
  have hlt : (v % 2 ^ (8 * 4)).toNat < 2 ^ (8 * 4) := by omega
  have hn : natAt (l ++ intBytes 4 v) l.length 4 = (v % 2 ^ (8 * 4)).toNat := by
    have := natAt_append l (intBytes 4 v) 0 4
    rw [Nat.add_zero] at this
    rw [this]
    exact natAt_natBytes_last hlt
  simp only [intAt, hn]
  split <;> omega

section Item
variable {addressee index count : Nat} {e : Entry} (position : Int) (hn : e.deliveries.length ≤ 6)
include hn

theorem itemPayload_deliveryCount : natAt (itemPayload addressee index count e position) 21 1 = e.deliveries.length := by
  simp [itemPayload_eq, itemHead, natAt_skip, natAt_natBytes _ (show e.deliveries.length < 2 ^ (8 * 1) by omega)]

variable (hc1 : 1 ≤ count) (hc : count < 256)
include hc1 hc

omit hc1 hn in
theorem itemPayload_count : natAt (itemPayload addressee index count e position) 2 1 = count := by
  simp [itemPayload_eq, itemHead, natAt_skip, natAt_natBytes _ (show count < 2 ^ (8 * 1) by omega)]

theorem payloadLength_item : payloadLength .item (itemPayload addressee index count e position)
    = some (itemPayload addressee index count e position).length := by
  have hlen : (itemPayload addressee index count e position).length = 26 + 5 * e.deliveries.length := by
    rw [itemPayload_eq]
    simp [itemHead_length, intBytes]
    omega
  have h3 : ¬ (itemPayload addressee index count e position).length < 3 := by omega
  have h22 : ¬ (itemPayload addressee index count e position).length < 22 := by omega
  have h0 : ¬ count = 0 := by omega
  simp only [payloadLength, h3, h22, if_false, itemPayload_count position hc, h0, itemPayload_deliveryCount position hn]
  rw [hlen]

theorem readItem_itemPayload (ha : addressee < 256) (hi : index < 256) (hp : e.product < 256) (hd : e.density < 65536)
    (hnom : e.nominal < 2 ^ 32) (hl : ∀ v, e.launched = some v → v < 2 ^ 32) (hr : e.remaining < 2 ^ 32) (hf : ∀ d ∈ e.deliveries, d.fits) :
    readItem (itemPayload addressee index count e position) = ⟨addressee, index, count, some {
      seq := e.seq
      product := e.product
      density := e.density
      nominal := e.nominal
      launchedPresent := if e.launched = none then 0 else 1
      launchedField := e.launched.getD 0
      remaining := e.remaining
      deliveries := e.deliveries
      position := clampPosition position }⟩ := by
  have hlv : e.launched.getD 0 < 2 ^ (8 * 4) := by
    cases h : e.launched with
    | none => decide
    | some v => exact hl v h
  have hpr : (if e.launched.isSome = true then 1 else 0) < 2 ^ (8 * 1) := by split <;> decide
  have hdel : deliveriesAt (itemPayload addressee index count e position) 22 e.deliveries.length = e.deliveries := by
    rw [itemPayload_eq, ← itemHead_length addressee index count e]
    exact deliveriesAt_flatMap _ _ _ hf
  have hpos : intAt (itemPayload addressee index count e position) (22 + 5 * e.deliveries.length) 4 = clampPosition position := by
    have hb := clampInt_bounds (lo := lowestRlv) (hi := 2147483647) position (by decide)
    have hl : (itemHead addressee index count e ++ e.deliveries.flatMap deliveryBytes).length = 22 + 5 * e.deliveries.length := by
      simp [itemHead_length, Nat.mul_comm]
    rw [itemPayload_eq, ← List.append_assoc, ← hl]
    exact intAt_intBytes hb.1 hb.2 _
  have f0 : natAt (itemPayload addressee index count e position) 0 1 = addressee := by
    simp [itemPayload_eq, itemHead, natAt_natBytes _ (show addressee < 2 ^ (8 * 1) by omega)]
  have f1 : natAt (itemPayload addressee index count e position) 1 1 = index := by
    simp [itemPayload_eq, itemHead, natAt_skip, natAt_natBytes _ (show index < 2 ^ (8 * 1) by omega)]
  have f3 : BitVec.ofNat 16 (natAt (itemPayload addressee index count e position) 3 2) = e.seq := by
    simp [itemPayload_eq, itemHead, natAt_skip, seqAt_seqBytes]
  have f5 : natAt (itemPayload addressee index count e position) 5 1 = e.product := by
    simp [itemPayload_eq, itemHead, natAt_skip, natAt_natBytes _ (show e.product < 2 ^ (8 * 1) by omega)]
  have f6 : natAt (itemPayload addressee index count e position) 6 2 = e.density := by
    simp [itemPayload_eq, itemHead, natAt_skip, natAt_natBytes _ (show e.density < 2 ^ (8 * 2) by omega)]
  have f8 : natAt (itemPayload addressee index count e position) 8 4 = e.nominal := by
    simp [itemPayload_eq, itemHead, natAt_skip, natAt_natBytes _ (show e.nominal < 2 ^ (8 * 4) by omega)]
  have f12 : natAt (itemPayload addressee index count e position) 12 1 = if e.launched.isSome = true then 1 else 0 := by
    simp [itemPayload_eq, itemHead, natAt_skip, natAt_natBytes _ hpr]
  have f13 : natAt (itemPayload addressee index count e position) 13 4 = e.launched.getD 0 := by
    simp [itemPayload_eq, itemHead, natAt_skip, natAt_natBytes _ hlv]
  have f17 : natAt (itemPayload addressee index count e position) 17 4 = e.remaining := by
    simp [itemPayload_eq, itemHead, natAt_skip, natAt_natBytes _ (show e.remaining < 2 ^ (8 * 4) by omega)]
  have h0 : ¬ count = 0 := by omega
  simp only [readItem, itemPayload_count position hc, h0, if_false, itemPayload_deliveryCount position hn, hdel, hpos, f0, f1, seqAt, f3, f5,
    f6, f8, f12, f13, f17]
  cases e.launched <;> rfl

end Item

/-- Settles O28: every field fits its width, and the delivery records end where the position stands. -/
theorem beaconAndItemPayloadsReadBack : Obligations.BeaconAndItemPayloadsReadBack := by
  refine ⟨fun b hr hm hp he => ⟨by rw [beaconPayload_length]; rfl, readBeacon_beaconPayload hr hm hp he⟩, ?_⟩
  intro addressee index count e position ha hi hc1 hc hp hd hnom hl hr hn hf
  exact ⟨payloadLength_item position hn hc1 hc, readItem_itemPayload position hn hc1 hc ha hi hp hd hnom hl hr hf⟩

end Sys2Proof.Machine
end

