-- ==== Sys2Proof/Proofs/RelayTelegrams.lean ====
section
/-! SUPPORT. Telegrams taken at a RELAY: a window evaluation that finds nothing to do, and with it the obligations O34 and O37. -/

namespace Sys2Proof.Machine

/-! ### The role, the head of the receive queue, and where an entry stands -/

theorem hasRole_iff (s : State) (r : Role) : s.hasRole r = true ↔ s.running = true ∧ s.cfg.role = some r := by
  simp [State.hasRole, State.cfg]

theorem running_of_hasRole {s : State} {r : Role} (h : s.hasRole r = true) : s.running = true := ((hasRole_iff s r).mp h).1

theorem hasRole_other {s : State} {r : Role} (h : s.hasRole r = true) {r' : Role} (hr : r ≠ r') : s.hasRole r' = false := by
  have ⟨_, hc⟩ := (hasRole_iff s r).mp h
  rw [Bool.eq_false_iff]
  intro h'
  exact hr (Option.some.inj (hc.symm.trans ((hasRole_iff s r').mp h').2))

theorem nonOrigin_of_hasRole {s : State} {r : Role} (h : s.hasRole r = true) (hr : r ≠ .origin) : s.nonOrigin = true := by
  have ⟨h1, h2⟩ := (hasRole_iff s r).mp h
  have hc : s.cfl.published.role = some r := h2
  simp [State.nonOrigin, h1, hc, hr]

theorem headFrame_cons {k : Kind} {s : State} {f : RxFrame} {rest : List RxFrame} (hr : s.running = true)
    (hq : s.tlc.rxQueue = f :: rest) (hk : f.frame.kindOf = some k) : headFrame k s = some f := by
  simp [headFrame, hr, hq, hk]

theorem dropReceived_cons {s : State} {f : RxFrame} {rest : List RxFrame} (hq : s.tlc.rxQueue = f :: rest) :
    dropReceived s = { s with tlc := { s.tlc with rxQueue := rest } } := by
  simp [dropReceived, hq]

theorem findEntry_append_cons {before after : List Entry} {e : Entry} (h : ∀ x ∈ before, x.seq ≠ e.seq) :
    findEntry (before ++ e :: after) e.seq = some e := by
  unfold findEntry
  rw [List.find?_append, List.find?_eq_none.mpr (by simpa using h)]
  simp

theorem changeEntry_append_cons {before after : List Entry} {e : Entry} (f : Entry → Entry) (h : ∀ x ∈ before, x.seq ≠ e.seq) :
    changeEntry e.seq f (before ++ e :: after) = before ++ f e :: after := by
  induction before with
  | nil => simp [changeEntry]
  | cons x rest ih =>
    have hx : (x.seq == e.seq) = false := by simpa using h x List.mem_cons_self
    simp [changeEntry, hx, ih fun y hy => h y (List.mem_cons_of_mem _ hy)]

theorem seq_ne_of_nodup {before after : List Entry} {e : Entry} (h : ((before ++ e :: after).map (·.seq)).Nodup) :
    ∀ x ∈ before, x.seq ≠ e.seq := by
  intro x hx he
  rw [List.map_append, List.nodup_append] at h
  exact h.2.2 x.seq (List.mem_map_of_mem hx) e.seq (by simp) he

/-- A replaced entry that is PASSED neither before nor after leaves the batch at the station. -/
theorem batchAtStation_replace {before after : List Entry} {e f : Entry} (he : e.track ≠ .passed) (hf : f.track ≠ .passed) :
    batchAtStation (before ++ e :: after) = batchAtStation (before ++ f :: after) := by
  have h1 : (e.track == Track.passed) = false := by simpa using he
  have h2 : (f.track == Track.passed) = false := by simpa using hf
  simp [batchAtStation, List.filter_append, h1, h2]

/-! ### Events and alarms change SPC alone (R203, R205) -/

/-- The station port's state with an event offered at a time (R203). -/
def Spc.offered (x : Spc) (time : Nat) (e : Event) : Spc :=
  if x.events.length < 64 then { x with events := x.events ++ [⟨time, e⟩] }
  else { x with lostCount := min 65535 (x.lostCount + 1), alarms := setAlarmBit x.alarms .eventsLost, lostOwed := true }

/-- The station port's state with an alarm raised at a time (R205). -/
def Spc.alarmed (x : Spc) (time : Nat) (a : Alarm) (detail : Nat) : Spc :=
  { x with alarms := setAlarmBit x.alarms a }.offered time (.alarm a.bit detail none)

theorem offerEvent_offered (e : Event) (s : State) : offerEvent e s = { s with spc := s.spc.offered s.now e } := by
  unfold offerEvent Spc.offered
  split <;> rfl

theorem raiseAlarm_alarmed (a : Alarm) (d : Nat) (s : State) : raiseAlarm a d s = { s with spc := s.spc.alarmed s.now a d } := by
  rw [raiseAlarm, offerEvent_offered]
  rfl

/-! ### An evaluation that finds nothing to do (R40) -/

/-- No test of a window evaluation applies to the entry: it is PASSED, it is INBOUND beyond its window, or it is in its window short of RLV 0
without a working densitometer. -/
def Quiet (s : State) (e : Entry) : Prop :=
  e.track = .passed ∨ (e.track = .inbound ∧ (halfWidth s e.sinceSnap : Int) < e.rlv)
    ∨ (e.track = .window ∧ 0 < e.rlv ∧ (s.cfg.densitometer = false ∨ s.dsu.healthy = false))

theorem pairFraction_dead {s : State} (h : s.cfg.densitometer = false ∨ s.dsu.healthy = false) (n : SeqNo) : pairFraction s n = none := by
  unfold pairFraction
  rcases h with h | h
  · simp [h]
  · have hm : ∀ a b, mixFraction s a b = none := fun a b => by simp [mixFraction, h]
    split
    · split
      · exact hm _ _
      · rfl
    · rfl

theorem halfWidth_zero_le (s : State) : halfWidth s 0 ≤ s.tke.halfMix + s.cfg.uncFloor := by
  unfold halfWidth uncertainty
  omega

theorem testWindow_quiet {s : State} {e : Entry} (point : Bool) (hr : 0 < e.rlv)
    (hd : s.cfg.densitometer = false ∨ s.dsu.healthy = false) : testWindow point e s = s := by
  have hp := pairFraction_dead hd e.seq
  have h0 : ¬ e.rlv ≤ 0 := by omega
  have hm : ¬ e.rlv ≤ -(halfWidth s e.sinceSnap : Int) := by omega
  simp [testWindow, densityUsable, hp, h0, hm]

theorem visitEntry_quiet (average : Bool) (before : Option SeqNo) {s : State} (k : Tracker) (n : SeqNo)
    (hq : ∀ e ∈ s.trs.train, Quiet s e) : (visitEntry average before (s, k) n).1 = s := by
  unfold visitEntry
  cases hf : findEntry s.trs.train n with
  | none => rfl
  | some e =>
    obtain ⟨hm, hn⟩ := findEntry_some hf
    rcases hq e hm with h | ⟨h, hb⟩ | ⟨h, hr, hu⟩
    · simp [h]
    · have hin : ¬ e.rlv ≤ (halfWidth s e.sinceSnap : Int) := by omega
      simp [h, hin, hf]
    · simp [h, hf, testWindow_quiet _ hr hu]

theorem visits_quiet (average : Bool) (before : Option SeqNo) {s : State} (hq : ∀ e ∈ s.trs.train, Quiet s e) (l : List SeqNo) (k : Tracker) :
    (l.foldl (visitEntry average before) (s, k)).1 = s := by
  induction l generalizing k with
  | nil => rfl
  | cons n l ih =>
    rw [List.foldl_cons, ← Prod.mk.eta (p := visitEntry average before (s, k) n), visitEntry_quiet average before k n hq]
    exact ih _

theorem evaluate_quiet (average : Bool) (before : Option SeqNo) {s : State} (hd : s.hasRole .delivery = false)
    (hq : ∀ e ∈ s.trs.train, Quiet s e) : evaluate average before s = s := by
  have hr : ∀ n, evaluateRemovals n s.trs.train.length s = s := fun n => by cases n <;> simp [evaluateRemovals]
  simp [evaluate, evaluateOnce, hd, visits_quiet average before hq, hr]

theorem afterMove_quiet (before : Option SeqNo) {s : State} (hd : s.hasRole .delivery = false) (ht : s.hasRole .terminus = false)
    (hq : ∀ e ∈ s.trs.train, Quiet s e) : afterMove before s = s := by
  simp [afterMove, ht, evaluate_quiet false before hd hq]

theorem evaluateIfRemoved_quiet (t : State) {s : State} (hd : s.hasRole .delivery = false) (hq : ∀ e ∈ s.trs.train, Quiet s e) :
    evaluateIfRemoved t s = s := by
  simp [evaluateIfRemoved, evaluate_quiet _ _ hd hq]

/-! ### PASSAGE (R20, R54, R55) -/

theorem findPeer_eq {l : List Peer} (ha : l.Pairwise (fun p q => p.station < q.station)) {p : Peer} (hp : p ∈ l) :
    findPeer l p.station = some p := by
  induction l with
  | nil => cases hp
  | cons q rest ih =>
    obtain ⟨h1, h2⟩ := List.pairwise_cons.mp ha
    rcases List.mem_cons.mp hp with rfl | hp
    · simp [findPeer]
    · have hne : ¬ q.station = p.station := by have := h1 p hp; omega
      simpa [findPeer, hne] using ih h2 hp

/-- A sender that is not upstream snaps nothing (R54). -/
theorem takeSnap_downstream {s : State} {p : Peer} {station : Nat} (hf : findPeer s.prt.peers station = some p) (hm : s.cfg.mark ≤ p.mark)
    (n : SeqNo) (k : PassageKind) : takeSnap station n k s = s := by
  have hs : ∀ e, snapAllowed s.cfg.mark p e = false := fun e => by simp [snapAllowed, Nat.not_lt.mpr hm]
  unfold takeSnap
  split
  · next p' e hp he =>
    cases hf.symm.trans hp
    simp [hs]
  · rfl

/-- A sender that is not downstream removes nothing (R20). -/
theorem takeRemoval_upstream {s : State} {p : Peer} {station : Nat} (hf : findPeer s.prt.peers station = some p) (hm : p.mark ≤ s.cfg.mark)
    (n : SeqNo) : takeRemoval station n s = s := by
  simp [takeRemoval, hf, Nat.not_lt.mpr hm]

theorem removeBefore_noPassed (n : SeqNo) {l : List Entry} (h : ∀ e ∈ l, e.track ≠ .passed) : removeBefore n l = l := by
  induction l with
  | nil => rfl
  | cons a l ih =>
    cases l with
    | nil => rfl
    | cons b l =>
      have ha : (a.track == Track.passed) = false := by simpa using h a List.mem_cons_self
      simp [removeBefore, ha, ih fun e he => h e (List.mem_cons_of_mem _ he)]

/-- Of the PASSED entries at the head the newest stays, and the others stay when they are not before `n` (R20). -/
theorem removeBefore_append (n : SeqNo) {passed coming : List Entry} (hp : ∀ e ∈ passed, e.track = .passed) (hc : ∀ e ∈ coming, e.track ≠ .passed) :
    removeBefore n (passed ++ coming) = passed.dropLast.filter (fun e => !seqAfter n e.seq) ++ passed.getLast?.toList ++ coming := by
  induction passed with
  | nil => simpa using removeBefore_noPassed n hc
  | cons a rest ih =>
    have ih := ih fun e he => hp e (List.mem_cons_of_mem _ he)
    cases rest with
    | nil =>
      cases coming with
      | nil => rfl
      | cons c coming =>
        have hb : (c.track == Track.passed) = false := by simpa using hc c List.mem_cons_self
        have := removeBefore_noPassed n hc
        simp [removeBefore, hb, this]
    | cons b rest =>
      have ha : (a.track == Track.passed) = true := by simpa using hp a (by simp)
      have hb : (b.track == Track.passed) = true := by simpa using hp b (by simp)
      rw [List.dropLast_cons_cons, List.getLast?_cons_cons, List.filter_cons]
      simp only [List.cons_append] at ih ⊢
      by_cases hn : seqAfter n a.seq = true
      · simp [removeBefore, hn, ha, hb, ih]
      · simp only [Bool.not_eq_true] at hn
        simp [removeBefore, hn, ih]

theorem batchAtStation_passed {passed coming : List Entry} (hp : ∀ e ∈ passed, e.track = .passed) (hc : ∀ e ∈ coming, e.track ≠ .passed) :
    batchAtStation (passed ++ coming) = passed.getLast? := by
  have h1 : passed.filter (fun e => e.track == .passed) = passed := List.filter_eq_self.mpr (by simpa using hp)
  have h2 : coming.filter (fun e => e.track == .passed) = [] := List.filter_eq_nil_iff.mpr (by simpa using hc)
  simp [batchAtStation, h1, h2]

section Passage
variable {s : State} {p : Peer} {station : Nat} (hr : s.hasRole .relay = true) (hf : findPeer s.prt.peers station = some p)
include hr hf

/-- The snap of R55 where no other entry stands in a window. -/
theorem takeSnap_beyond {before after : List Entry} {e : Entry} (ht : s.trs.train = before ++ e :: after)
    (hn : (s.trs.train.map (·.seq)).Nodup) (he : e.track ≠ .passed)
    (hb : ∀ x ∈ before, Quiet s x) (ha : ∀ x ∈ after, Quiet s x) (hg : p.standing = .good) (hm : p.mark < s.cfg.mark)
    (hs : e.snapMark.all (· < p.mark) = true) (hw : s.tke.halfMix + s.cfg.uncFloor < s.cfg.mark - p.mark) :
    takeSnap station e.seq .detected s = { s with trs := { s.trs with train := before ++ { e with
      rlv := (s.cfg.mark : Int) - p.mark
      sinceSnap := 0
      snapMark := some p.mark
      snappedByReference := s.prt.reference == some station
      track := .inbound } :: after } } := by
  have hne := seq_ne_of_nodup (ht ▸ hn)
  have hfe : findEntry s.trs.train e.seq = some e := by rw [ht]; exact findEntry_append_cons hne
  have hallow : snapAllowed s.cfg.mark p e = true := by simp [snapAllowed, hg, hm, hs, he]
  have hwide : ((halfWidth s 0 : Nat) : Int) < (s.cfg.mark : Int) - p.mark := by
    have := halfWidth_zero_le s
    omega
  have hsnap : updateEntry e.seq (fun x => x.snapped s.cfg.mark p.mark (s.prt.reference == some station) (halfWidth s 0)) s
      = { s with trs := { s.trs with train := before ++ { e with
          rlv := (s.cfg.mark : Int) - p.mark
          sinceSnap := 0
          snapMark := some p.mark
          snappedByReference := s.prt.reference == some station
          track := .inbound } :: after } } := by
    have hto : e.snapped s.cfg.mark p.mark (s.prt.reference == some station) (halfWidth s 0) = { e with
        rlv := (s.cfg.mark : Int) - p.mark
        sinceSnap := 0
        snapMark := some p.mark
        snappedByReference := s.prt.reference == some station
        track := .inbound } := by simp [Entry.snapped, hwide]
    rw [updateEntry, ht, changeEntry_append_cons _ hne, hto]
    exact putTrain_same (by rw [ht]; exact congrArg _ (batchAtStation_replace (by simp) he))
  simp only [takeSnap, hf, hfe, hallow, if_true, hsnap]
  refine afterMove_quiet _ (hasRole_other hr (by decide)) (hasRole_other hr (by decide)) fun x hx => ?_
  rcases List.mem_append.mp hx with hx | hx
  · exact hb x hx
  · rcases List.mem_cons.mp hx with rfl | hx
    · exact .inr (.inl ⟨rfl, hwide⟩)
    · exact ha x hx

/-- The removals of R20, no window evaluation finding anything to do. -/
theorem takeRemoval_downstream {passed coming : List Entry} (n : SeqNo) (hm : s.cfg.mark < p.mark) (ht : s.trs.train = passed ++ coming)
    (hp : ∀ e ∈ passed, e.track = .passed) (hc : ∀ e ∈ coming, e.track ≠ .passed) (hq : ∀ e ∈ coming, Quiet s e) :
    takeRemoval station n s = { s with trs := { s.trs with
      train := passed.dropLast.filter (fun e => !seqAfter n e.seq) ++ passed.getLast?.toList ++ coming } } := by
  have hleft : ∀ e ∈ passed.dropLast.filter (fun e => !seqAfter n e.seq) ++ passed.getLast?.toList, e.track = .passed := by
    intro e he
    rcases List.mem_append.mp he with he | he
    · exact hp e (List.mem_of_mem_dropLast (List.mem_filter.mp he).1)
    · exact hp e (List.mem_of_getLast? (by simpa using he))
  have hput : putTrain (removeBefore n s.trs.train) s = { s with trs := { s.trs with
      train := passed.dropLast.filter (fun e => !seqAfter n e.seq) ++ passed.getLast?.toList ++ coming } } := by
    rw [ht, removeBefore_append n hp hc]
    refine putTrain_same (congrArg _ ?_)
    rw [ht, batchAtStation_passed hleft hc, batchAtStation_passed hp hc]
    cases h : passed.getLast? <;> simp_all
  simp only [takeRemoval, hf, hasRole_other hr (show Role.relay ≠ .terminus by decide), hm, hput]
  refine evaluateIfRemoved_quiet _ (hasRole_other hr (by decide)) fun e he => ?_
  rcases List.mem_append.mp he with he | he
  · exact .inl (hleft e he)
  · exact hq e he

end Passage

/-- Settles O34: the sender's mark decides between snap and removal, and the evaluation finds nothing to do. -/
theorem passageSnapsOrRemoves : Obligations.PassageSnapsOrRemoves := by
  intro s f rest p hr hs hq hk hp hst
  have hf : findPeer s.prt.peers f.sender = some p := (congrArg _ hst.symm).trans (findPeer_eq hs.ascending hp)
  have hexec : exec .passageTaken s = .next (dropReceived (receivePassage f s)) := by
    show execPassageTaken s = _
    rw [execPassageTaken, headFrame_cons (running_of_hasRole hr) hq hk]
  refine ⟨fun before after e hc ht hn hes he hb ha hg hm hsn hw => ?_, fun passed coming h1 h3 hm ht hpa hn hc => ?_⟩
  · have hsnap := takeSnap_beyond hr hf ht hn he (fun x hx => (hb x hx).imp id .inl) (fun x hx => .inr (.inl (ha x hx))) hg hm hsn hw
    have hrec : receivePassage f s = takeSnap f.sender e.seq .detected s := by
      have hcode : passageKindOfCode (natAt f.frame.payload 2 1) = some .detected := by rw [hc]; rfl
      have hseq : seqAt f.frame.payload 0 = e.seq := hes.symm
      simp only [receivePassage, hcode, hseq]
      rw [hsnap]
      exact takeRemoval_upstream (p := p) (by exact hf) (by exact Nat.le_of_lt hm) _
    rw [hexec, hrec, hsnap, hst]
    exact congrArg Host.Outcome.next (dropReceived_cons hq)
  · have hseen : ∃ k, passageKindOfCode (natAt f.frame.payload 2 1) = some k := by
      generalize natAt f.frame.payload 2 1 = code at h1 h3
      interval_cases code <;> exact ⟨_, rfl⟩
    obtain ⟨k, hcode⟩ := hseen
    have hnp : ∀ e ∈ coming, e.track ≠ .passed := fun e he => by rcases hc e he with h | h <;> simp [h.1]
    have hrec : receivePassage f s = takeRemoval f.sender (seqAt f.frame.payload 0) s := by
      simp only [receivePassage, hcode, takeSnap_downstream hf (Nat.le_of_lt hm)]
    rw [hexec, hrec, takeRemoval_downstream hr hf _ hm ht hpa hnp fun e he => .inr (hc e he)]
    exact congrArg Host.Outcome.next (dropReceived_cons hq)

/-! ### ITEM (R16, R124, R125) -/

theorem dropReceived_offerEvent (e : Event) (s : State) : dropReceived (offerEvent e s) = offerEvent e (dropReceived s) := by
  rw [offerEvent_offered, offerEvent_offered]
  rfl

theorem allHeld_one {n : Nat} (h : 2 ≤ n) : allHeld n [1] = false := by
  rw [Bool.eq_false_iff]
  simp only [allHeld, ne_eq, List.all_eq_true, List.mem_range, not_forall]
  exact ⟨1, by omega, by decide⟩

/-- The first item of an answer, into an empty train at a RELAY (R15, R16). -/
theorem insertItem_empty {s : State} {b : ItemBody} (hr : s.hasRole .relay = true) (ht : s.trs.train = [])
    (hw : (entryOfItem s.cfg.mark b).rlv ≤ 0 ∨ ((s.tke.halfMix + s.cfg.uncFloor : Nat) : Int) < (entryOfItem s.cfg.mark b).rlv) :
    insertItem b s = (putTrain [entryOfItem s.cfg.mark b] s, true) := by
  have hroom : makeRoom s = some s := by simp [makeRoom, roomFor, ht]
  have hquiet : ∀ e ∈ (putTrain [entryOfItem s.cfg.mark b] s).trs.train, Quiet (putTrain [entryOfItem s.cfg.mark b] s) e := by
    intro e he
    rw [putTrain_train, List.mem_singleton] at he
    subst he
    rcases hw with h | h
    · exact .inl (if_pos h)
    · have hle := halfWidth_zero_le s
      have hn : ¬ rlvOfPosition s.cfg.mark b.position ≤ 0 := by
        have : ((s.tke.halfMix + s.cfg.uncFloor : Nat) : Int) < rlvOfPosition s.cfg.mark b.position := h
        omega
      refine .inr (.inl ⟨if_neg hn, ?_⟩)
      have : (halfWidth (putTrain [entryOfItem s.cfg.mark b] s) (entryOfItem s.cfg.mark b).sinceSnap) = halfWidth s 0 := rfl
      omega
  have hev : ∀ c, evaluate false c (putTrain [entryOfItem s.cfg.mark b] s) = putTrain [entryOfItem s.cfg.mark b] s :=
    fun c => evaluate_quiet false c (hasRole_other (s := putTrain _ s) hr (by decide)) hquiet
  simp [insertItem, ht, findEntry, placeEntry, newestEntry, hroom, hev]

/-- The batch at the station of a train with one entry from an ITEM (R7, R16). -/
theorem batchAtStation_entryOfItem (mark : Nat) (b : ItemBody) :
    (batchAtStation [entryOfItem mark b]).map (·.seq) = if rlvOfPosition mark b.position ≤ 0 then some b.seq else none := by
  by_cases h : rlvOfPosition mark b.position ≤ 0 <;> simp [batchAtStation, entryOfItem, h]

/-- The first of several items adopted, into an empty train at a RELAY (R125). -/
theorem takeAdopted_first {s : State} {m : ItemMsg} {b : ItemBody} (hr : s.hasRole .relay = true) (ht : s.trs.train = [])
    (hh : s.trs.held = []) (hi : m.index = 1) (hc : 2 ≤ m.count) (hb : m.body = some b)
    (hw : (entryOfItem s.cfg.mark b).rlv ≤ 0 ∨ ((s.tke.halfMix + s.cfg.uncFloor : Nat) : Int) < (entryOfItem s.cfg.mark b).rlv) :
    takeAdopted m s = { s with
      dsu := { s.dsu with departureRun := if (entryOfItem s.cfg.mark b).rlv ≤ 0 then 0 else s.dsu.departureRun }
      trs := { s.trs with held := [1], transferTimer := some (s.now + 5000), train := [entryOfItem s.cfg.mark b] } } := by
  have hins := insertItem_empty (s := putTrs (fun t => { t with transferTimer := some (s.now + 5000) }) s) hr ht hw
  have hput : putTrs (fun t => { t with held := [1] })
      (putTrain [entryOfItem s.cfg.mark b] (putTrs (fun t => { t with transferTimer := some (s.now + 5000) }) s)) = { s with
        dsu := { s.dsu with departureRun := if (entryOfItem s.cfg.mark b).rlv ≤ 0 then 0 else s.dsu.departureRun }
        trs := { s.trs with held := [1], transferTimer := some (s.now + 5000), train := [entryOfItem s.cfg.mark b] } } := by
    have hrlv : (entryOfItem s.cfg.mark b).rlv = rlvOfPosition s.cfg.mark b.position := rfl
    have hnone : (batchAtStation s.trs.train).map (·.seq) = none := by simp [ht, batchAtStation]
    rw [hrlv, putTrain, batchAtStation_entryOfItem]
    by_cases h : rlvOfPosition s.cfg.mark b.position ≤ 0 <;> simp [h, hnone, putTrs]
  have hall : allHeld m.count [1] = false := allHeld_one hc
  have hgo : takeAdopted m s = putTrs (fun t => { t with held := [1] })
      (putTrain [entryOfItem s.cfg.mark b] (putTrs (fun t => { t with transferTimer := some (s.now + 5000) }) s)) := by
    simp only [takeAdopted, hb]
    rw [hins]
    simp [hall, hh, hi, putTrs, putTrain, State.cfg]
  rw [hgo, hput]

/-- Settles O37: each item is judged by R124, and the entry it inserts gives the evaluation nothing to do. -/
theorem itemsFillTheTrain : Obligations.ItemsFillTheTrain := by
  intro s f rest hr hq hk hsync hadopt
  have hexec : exec .itemTaken s = .next (dropReceived (takeItem f.sender (readItem f.frame.payload) s)) := by
    show execItemTaken s = _
    rw [execItemTaken, headFrame_cons (running_of_hasRole hr) hq hk]
  refine ⟨fun hne => ?_, fun ha hi hc => ?_, fun b ha hi hc hv hb ht hh hw => ?_⟩
  · have : takeItem f.sender (readItem f.frame.payload) s = s := by
      unfold takeItem
      split
      · next h => simp [judgeItem, hadopt, hne.resolve_left (fun hn => hn h.1)]
      · rfl
    rw [hexec, this, dropReceived_cons hq]
  · have hbody : (readItem f.frame.payload).body = none := if_pos hc
    have hv : itemValid (readItem f.frame.payload) = true := by simp [itemValid, hbody, hc, hi]
    have htake : takeItem f.sender (readItem f.frame.payload) s = offerEvent .trainSynced { s with trs := { s.trs with
        sync := .synced, adopted := none, held := [], transferTimer := none, attempts := 0 } } := by
      have hterm : ∀ x : Trs, (offerEvent .trainSynced { s with trs := x }).hasRole .terminus = false := fun x =>
        hasRole_other (r := .relay) (by simpa [State.hasRole, State.running] using hr) (by decide)
      simp only [takeItem, ha, hsync, hv, and_self, if_true, judgeItem, hadopt, hi, takeAdopted, hbody, transferComplete, putTrs,
        Trs.clearAnswer, hterm]
      rfl
    rw [hexec, htake, dropReceived_offerEvent]
    refine congrArg (fun x => Host.Outcome.next (offerEvent .trainSynced x)) (dropReceived_cons (f := f) (rest := rest) ?_)
    exact hq
  · have htake : takeItem f.sender (readItem f.frame.payload) s
        = takeAdopted (readItem f.frame.payload) (putTrs (fun t => { t with adopted := some (f.sender, (readItem f.frame.payload).count) }) s) := by
      simp [takeItem, ha, hsync, hv, judgeItem, hadopt, hi]
    have hfirst := takeAdopted_first (s := putTrs (fun t => { t with adopted := some (f.sender, (readItem f.frame.payload).count) }) s)
      hr ht hh hi hc hb hw
    rw [hexec, htake, hfirst]
    exact congrArg Host.Outcome.next (dropReceived_cons (f := f) (rest := rest) (by exact hq))

end Sys2Proof.Machine
end

