-- ==== Sys2Proof/Proofs/LaunchTaken.lean ====
section
/-! SUPPORT. What an own telegram, a gap and a window evaluation at a RELAY leave as they are; with it LAUNCH_TAKEN, the obligations O32
and O33. -/

namespace Sys2Proof.Machine

/-! ### Latched alarms (R205) -/

theorem Alarm.bit_lt (a : Alarm) : a.bit < 32 := by cases a <;> decide

theorem Alarm.bit_inj {a b : Alarm} : a.bit = b.bit ↔ a = b := by
  constructor
  · cases a <;> cases b <;> decide
  · rintro rfl; rfl

theorem setAlarmBit_getLsbD (x : BitVec 32) (a b : Alarm) : (setAlarmBit x a).getLsbD b.bit = (x.getLsbD b.bit || decide (a = b)) := by
  have hb := b.bit_lt
  by_cases h : a = b
  · subst h
    simp [setAlarmBit, hb]
  · have hne : a.bit ≠ b.bit := fun he => h (Alarm.bit_inj.mp he)
    simp only [setAlarmBit, BitVec.getLsbD_or, BitVec.getLsbD_shiftLeft, BitVec.getLsbD_one, h, decide_false]
    by_cases hl : b.bit < a.bit
    · simp [hl]
    · have : ¬ b.bit - a.bit = 0 := by omega
      simp [this]

theorem alarmLatched_offerEvent (e : Event) (s : State) {a : Alarm} (ha : a ≠ .eventsLost) :
    alarmLatched (offerEvent e s) a = alarmLatched s a := by
  rw [offerEvent_offered]
  unfold Spc.offered alarmLatched
  split
  · rfl
  · simp [setAlarmBit_getLsbD, ha.symm]

theorem alarmLatched_raiseAlarm (b : Alarm) (d : Nat) (s : State) {a : Alarm} (ha : a ≠ .eventsLost) :
    alarmLatched (raiseAlarm b d s) a = (alarmLatched s a || decide (b = a)) := by
  rw [raiseAlarm, alarmLatched_offerEvent _ _ ha]
  exact setAlarmBit_getLsbD _ _ _

/-! ### Own telegrams (R109) -/

/-- Only the choices, the ports and SPC differ, no port's link does, and of the alarms only TX_OVERFLOW and EVENTS_LOST. -/
structure SentFrom (s t : State) : Prop where
  eq : t = { s with choices := t.choices, tlc := t.tlc, spc := t.spc }
  base_eq : base t = base s
  latched : ∀ a : Alarm, a ≠ .txOverflow → a ≠ .eventsLost → alarmLatched t a = alarmLatched s a

theorem SentFrom.refl (s : State) : SentFrom s s := ⟨rfl, rfl, fun _ _ _ => rfl⟩

theorem SentFrom.trans {s t u : State} (h : SentFrom s t) (h' : SentFrom t u) : SentFrom s u where
  eq := by rw [h'.eq, h.eq]
  base_eq := h'.base_eq.trans h.base_eq
  latched a h1 h2 := (h'.latched a h1 h2).trans (h.latched a h1 h2)

theorem sentFrom_placeOwn (c : QueueClass) (f : Frame) (p : Port) (s : State) : SentFrom s (placeOwn c f p s) where
  eq := by
    rcases placeOwn_cases c f p s with ⟨-, h⟩ | ⟨-, h⟩
    · rw [h]
    · rcases placeFrame_cases .txOverflow p c f s with ⟨-, h'⟩ | ⟨-, h'⟩
      · rw [h, h', raiseAlarm_alarmed]
      · rw [h, h']
  base_eq := base_placeOwn c f p s
  latched a h1 h2 := by
    rcases placeOwn_cases c f p s with ⟨-, h⟩ | ⟨-, h⟩
    · rw [h]
    · rcases placeFrame_cases .txOverflow p c f s with ⟨-, h'⟩ | ⟨-, h'⟩
      · rw [h, h', alarmLatched_raiseAlarm _ _ _ h2]
        simp [h1.symm]
      · rw [h, h']
        rfl

theorem sentFrom_sendOwn (k : Kind) (p : List Byte) (s : State) : SentFrom s (sendOwn k p s) :=
  sendOwn_keeps (SentFrom s) k p (fun _ _ _ h => h.trans (sentFrom_placeOwn _ _ _ _))
    (fun _ h => h.trans ⟨rfl, rfl, fun _ _ _ => rfl⟩) (SentFrom.refl s)

/-! ### A gap (R12, R22, R118) -/

theorem anyPortUp_iff (s : State) : anyPortUp s = true ↔ s.tlc.upPort.link = .up ∨ s.tlc.downPort.link = .up := by
  simp [anyPortUp, portUp, portGet]

/-- The train and every block but TRS, TLC and SPC stay, and so do the alarms other than TX_OVERFLOW and EVENTS_LOST but for `b`. -/
structure AskedFrom (b : Option Alarm) (s t : State) : Prop where
  eq : t = { s with choices := t.choices, trs := t.trs, tlc := t.tlc, spc := t.spc }
  base_eq : base t = base s
  train : t.trs.train = s.trs.train
  latched : ∀ a : Alarm, a ≠ .txOverflow → a ≠ .eventsLost → alarmLatched t a = (alarmLatched s a || decide (b = some a))

theorem askedFrom_sendAsk (n : Nat) (s : State) : AskedFrom none s (sendAsk n s) ∧ (sendAsk n s).trs.sync = .asking := by
  have h : SentFrom _ (sendAsk n s) := sentFrom_sendOwn .ask _ _
  exact ⟨⟨by rw [h.eq], base_sendAsk n s, by rw [h.eq], fun a h1 h2 => (h.latched a h1 h2).trans (by simp [alarmLatched])⟩, by rw [h.eq]⟩

theorem sendAskIfDue_due {s : State} (hn : s.nonOrigin = true) (hs : s.trs.sync = .unsynced) (hd : s.trs.askDue = true) :
    sendAskIfDue s = if anyPortUp s = true then sendAsk 1 s else s := by
  simp [sendAskIfDue, askReady, hn, hs, hd]

/-- A gap latches TRAIN_GAP, and a SYNCED chip leaves SYNCED (R12, R22, R118). -/
theorem askedFrom_raiseGap {s : State} (hn : s.nonOrigin = true) : AskedFrom (some .trainGap) s (raiseGap s)
    ∧ (raiseGap s).trs.sync = if s.trs.sync = .synced then (if anyPortUp s = true then .asking else .unsynced) else s.trs.sync := by
  have halarm : AskedFrom (some .trainGap) s (raiseAlarm .trainGap 0 s) :=
    ⟨by rw [raiseAlarm_alarmed], base_raiseAlarm _ _ _, by rw [raiseAlarm_alarmed], fun a _ h => by
      simp [alarmLatched_raiseAlarm _ _ _ h]⟩
  by_cases hs : s.trs.sync = .synced
  · obtain ⟨u, hu⟩ : ∃ u, u = { raiseAlarm .trainGap 0 s with
        trs := { (raiseAlarm .trainGap 0 s).trs with sync := .unsynced, askDue := true } } := ⟨_, rfl⟩
    have hpart : AskedFrom (some .trainGap) s u := by
      rw [hu]
      exact ⟨by rw [raiseAlarm_alarmed], halarm.base_eq, by rw [raiseAlarm_alarmed], fun a h1 h2 => halarm.latched a h1 h2⟩
    have hup : anyPortUp u = anyPortUp s := by rw [hu, raiseAlarm_alarmed]; rfl
    have hleave : raiseGap s = if anyPortUp s = true then sendAsk 1 u else u := by
      have hnu : u.nonOrigin = true := by rw [hu, raiseAlarm_alarmed]; exact hn
      rw [← hup, ← sendAskIfDue_due hnu (by rw [hu]) (by rw [hu]), hu, raiseGap, leaveSynced, raiseAlarm_alarmed]
      simp [hs, show ({ s with spc := s.spc.alarmed s.now .trainGap 0 } : State).nonOrigin = true from hn]
    by_cases h : anyPortUp s = true
    · rw [if_pos h] at hleave
      obtain ⟨hask, hsync⟩ := askedFrom_sendAsk 1 u
      rw [hleave]
      refine ⟨⟨by rw [hask.eq, hpart.eq], hask.base_eq.trans hpart.base_eq, hask.train.trans hpart.train, fun a h1 h2 => ?_⟩, by simp [hs, h, hsync]⟩
      rw [hask.latched a h1 h2, hpart.latched a h1 h2]
      simp
    · rw [if_neg h] at hleave
      rw [hleave]
      exact ⟨hpart, by rw [hu]; simp [hs, h]⟩
  · have hstay : raiseGap s = raiseAlarm .trainGap 0 s := by
      rw [raiseGap, leaveSynced, raiseAlarm_alarmed]
      simp [hs]
    rw [hstay]
    exact ⟨halarm, by rw [raiseAlarm_alarmed]; simp [hs]⟩

/-! ### A window evaluation at a RELAY (R40, R49 to R51) -/

/-- What a window evaluation can make of an entry: it stays; or, in its window, it is in WINDOW or declared passed. -/
def Visited (s : State) (e x : Entry) : Prop :=
  x = e ∨ ((e.track = .window ∨ (e.track = .inbound ∧ e.rlv ≤ (halfWidth s e.sinceSnap : Int)))
    ∧ (x = { e with track := .window } ∨ ∃ k, x = e.declared k))

theorem Entry.declared_track (e : Entry) (k : PassageKind) : (e.declared k).track = .passed := by cases k <;> rfl

theorem Entry.declared_window (e : Entry) (k : PassageKind) : ({ e with track := .window } : Entry).declared k = e.declared k := by cases k <;> rfl

theorem Visited.trans {s t : State} (hb : base t = base s) {e x y : Entry} (h : Visited s e x) (h' : Visited t x y) : Visited s e y := by
  have hw : ∀ n, halfWidth t n = halfWidth s n := fun n => by
    simp only [halfWidth, State.cfg, base_tke_eq hb, base_cfl_eq hb]
  rcases h with rfl | ⟨hin, rfl | ⟨k, rfl⟩⟩
  · simpa only [Visited, hw] using h'
  · rcases h' with rfl | ⟨-, rfl | ⟨k, rfl⟩⟩
    · exact .inr ⟨hin, .inl rfl⟩
    · exact .inr ⟨hin, .inl rfl⟩
    · exact .inr ⟨hin, .inr ⟨k, e.declared_window k⟩⟩
  · rcases h' with rfl | ⟨h, -⟩
    · exact .inr ⟨hin, .inr ⟨k, rfl⟩⟩
    · simp [Entry.declared_track] at h

theorem Visited.seq {s : State} {e x : Entry} (h : Visited s e x) : x.seq = e.seq := by
  rcases h with rfl | ⟨-, rfl | ⟨k, rfl⟩⟩
  · rfl
  · rfl
  · cases k <;> rfl

theorem Visited.volumes {s : State} {e x : Entry} (h : Visited s e x) :
    x.nominal = e.nominal ∧ x.launched = e.launched ∧ x.remaining = e.remaining := by
  rcases h with rfl | ⟨-, rfl | ⟨k, rfl⟩⟩
  · simp
  · simp
  · cases k <;> simp [Entry.declared]

/-- A change of the entry that `findEntry` finds relates the entries one by one. -/
theorem forall₂_changeEntry {R : Entry → Entry → Prop} (hr : ∀ e, R e e) {t : List Entry} {n : SeqNo} {f : Entry → Entry} {e : Entry}
    (hf : findEntry t n = some e) (h : R e (f e)) : List.Forall₂ R t (changeEntry n f t) := by
  induction t with
  | nil => exact .nil
  | cons x rest ih =>
    by_cases hx : (x.seq == n) = true
    · have he : x = e := by simpa [findEntry, hx] using hf
      simp only [changeEntry, hx, if_true]
      exact .cons (he ▸ h) (List.forall₂_same.mpr fun y _ => hr y)
    · simp only [changeEntry, hx]
      exact .cons (hr x) (ih (by simpa [findEntry, hx] using hf))

/-- What a window evaluation at a RELAY changes: entries of the train one by one, the departure run, the nudges, the ports and SPC, and of the
alarms MISSED_INTERFACE, TX_OVERFLOW and EVENTS_LOST. -/
structure EvaluatedFrom (s t : State) : Prop where
  eq : t = { s with choices := t.choices, mtr := t.mtr, trs := { s.trs with train := t.trs.train }, dsu := t.dsu, tlc := t.tlc, spc := t.spc }
  base_eq : base t = base s
  train : List.Forall₂ (Visited s) s.trs.train t.trs.train
  gap : alarmLatched t .trainGap = alarmLatched s .trainGap

theorem EvaluatedFrom.refl (s : State) : EvaluatedFrom s s := ⟨rfl, rfl, List.forall₂_same.mpr fun _ _ => .inl rfl, rfl⟩

theorem forall₂_trans {α : Type} {R S T : α → α → Prop} (h : ∀ a b c, R a b → S b c → T a c) {l m n : List α} (hr : List.Forall₂ R l m)
    (hs : List.Forall₂ S m n) : List.Forall₂ T l n := by
  induction hr generalizing n with
  | nil => cases hs; exact .nil
  | cons hab _ ih =>
    cases hs with
    | cons hbc hs => exact .cons (h _ _ _ hab hbc) (ih hs)

theorem EvaluatedFrom.trans {s t u : State} (h : EvaluatedFrom s t) (h' : EvaluatedFrom t u) : EvaluatedFrom s u where
  eq := by rw [h'.eq, h.eq]
  base_eq := h'.base_eq.trans h.base_eq
  train := forall₂_trans (fun _ _ _ h1 h2 => h1.trans h.base_eq h2) h.train h'.train
  gap := h'.gap.trans h.gap

theorem evaluatedFrom_updateEntry {s : State} {n : SeqNo} {f : Entry → Entry} {e : Entry} (he : findEntry s.trs.train n = some e)
    (hv : Visited s e (f e)) : EvaluatedFrom s (updateEntry n f s) :=
  ⟨rfl, base_updateEntry s n f, forall₂_changeEntry (fun _ => .inl rfl) he hv, rfl⟩

theorem evaluatedFrom_sent {s t u : State} (h : EvaluatedFrom s t) (h' : SentFrom t u) : EvaluatedFrom s u where
  eq := by rw [h'.eq, h.eq]
  base_eq := h'.base_eq.trans h.base_eq
  train := by rw [h'.eq]; exact h.train
  gap := (h'.latched .trainGap (by decide) (by decide)).trans h.gap

theorem hasRole_base {s t : State} (h : base t = base s) (r : Role) : t.hasRole r = s.hasRole r := by
  simp only [State.hasRole, State.running, base_cfl_eq h]

theorem evaluatedFrom_judgeNudge (e : Entry) (s : State) : EvaluatedFrom s (judgeNudge e s) ∧ (judgeNudge e s).trs = s.trs := by
  unfold judgeNudge
  split
  · exact ⟨⟨rfl, rfl, List.forall₂_same.mpr fun _ _ => .inl rfl, rfl⟩, rfl⟩
  · exact ⟨.refl s, rfl⟩

theorem evaluatedFrom_missedInterface (s : State) : EvaluatedFrom s (raiseAlarm .missedInterface 0 s) where
  eq := by rw [raiseAlarm_alarmed]
  base_eq := base_raiseAlarm _ _ _
  train := by rw [raiseAlarm_alarmed]; exact List.forall₂_same.mpr fun _ _ => .inl rfl
  gap := by simp [alarmLatched_raiseAlarm _ _ _ (show Alarm.trainGap ≠ .eventsLost by decide)]

section Relay
variable {s : State} (hr : s.hasRole .relay = true)
include hr

theorem handDeclaration_relay (k : PassageKind) (e : Entry) : handDeclaration k e s = s := by
  simp [handDeclaration, hasRole_other hr (show Role.relay ≠ .terminus by decide), hasRole_other hr (show Role.relay ≠ .delivery by decide)]

theorem evaluatedFrom_declare (k : PassageKind) {e : Entry} (he : findEntry s.trs.train e.seq = some e) (hw : e.track = .window) :
    EvaluatedFrom s (declare k e s) := by
  have hnudge : EvaluatedFrom s (if k = .detected then judgeNudge e s else s) ∧ (if k = .detected then judgeNudge e s else s).trs = s.trs := by
    split
    · exact evaluatedFrom_judgeNudge e s
    · exact ⟨.refl s, rfl⟩
  obtain ⟨hnudge, htrs⟩ := hnudge
  have hupd := hnudge.trans (evaluatedFrom_updateEntry (f := fun x => x.declared k) (by rw [htrs]; exact he) (.inr ⟨.inl hw, .inr ⟨k, rfl⟩⟩))
  have hall : ∀ t : State, EvaluatedFrom s t → EvaluatedFrom s
      (handDeclaration k e (sendOwn .passage (passagePayload e.seq k) (if k = .missed then raiseAlarm .missedInterface 0 t else t))) := by
    intro t ht
    have hmiss : EvaluatedFrom s (if k = .missed then raiseAlarm .missedInterface 0 t else t) := by
      split
      · exact ht.trans (evaluatedFrom_missedInterface t)
      · exact ht
    have hsent := evaluatedFrom_sent hmiss (sentFrom_sendOwn .passage (passagePayload e.seq k) _)
    rw [handDeclaration_relay (by rw [hasRole_base hsent.base_eq]; exact hr)]
    exact hsent
  exact hall _ hupd

theorem evaluatedFrom_testWindow (point : Bool) {e : Entry} (he : findEntry s.trs.train e.seq = some e) (hw : e.track = .window) :
    EvaluatedFrom s (testWindow point e s) := by
  unfold testWindow
  split
  · exact evaluatedFrom_declare hr .detected he hw
  · split
    · exact evaluatedFrom_declare hr .estimated he hw
    · split
      · exact evaluatedFrom_declare hr .missed he hw
      · exact .refl s

theorem evaluatedFrom_openWindow {e : Entry} {n : SeqNo} (he : findEntry s.trs.train n = some e) (hin : e.track = .inbound)
    (hb : e.rlv ≤ (halfWidth s e.sinceSnap : Int)) : EvaluatedFrom s (openWindow n s) := by
  have hupd := evaluatedFrom_updateEntry (f := fun e => { e with track := .window }) he (.inr ⟨.inr ⟨hin, hb⟩, .inl rfl⟩)
  simpa only [openWindow, hasRole_base hupd.base_eq, hasRole_other hr (show Role.relay ≠ .terminus by decide), Bool.false_eq_true, if_false]
    using hupd

theorem evaluatedFrom_visitEntry (average : Bool) (before : Option SeqNo) (k : Tracker) (n : SeqNo) :
    EvaluatedFrom s (visitEntry average before (s, k) n).1 := by
  unfold visitEntry
  cases hf : findEntry s.trs.train n with
  | none => exact .refl s
  | some e =>
    by_cases hp : e.track = .passed
    · simpa [hp] using EvaluatedFrom.refl s
    · simp only [hp, if_false]
      have hopen : EvaluatedFrom s (if e.track = .inbound ∧ e.rlv ≤ (halfWidth s e.sinceSnap : Int) then openWindow n s else s) := by
        split
        · next h => exact evaluatedFrom_openWindow hr hf h.1 h.2
        · exact .refl s
      generalize (if e.track = .inbound ∧ e.rlv ≤ (halfWidth s e.sinceSnap : Int) then openWindow n s else s) = s1 at hopen ⊢
      refine hopen.trans ?_
      cases hf1 : findEntry s1.trs.train n with
      | none => exact .refl s1
      | some e1 =>
        have hn := (findEntry_some hf1).2
        by_cases hw : e1.track = .window
        · simp only [hw, if_true]
          exact evaluatedFrom_testWindow (by rw [hasRole_base hopen.base_eq]; exact hr) _ (hn ▸ hf1) hw
        · simpa only [hw, if_false] using EvaluatedFrom.refl s1

theorem evaluatedFrom_visits (average : Bool) (before : Option SeqNo) (l : List SeqNo) (k : Tracker) :
    EvaluatedFrom s (l.foldl (visitEntry average before) (s, k)).1 := by
  induction l generalizing s k with
  | nil => exact .refl s
  | cons n l ih =>
    have hv := evaluatedFrom_visitEntry hr average before k n
    exact hv.trans (ih (by rw [hasRole_base hv.base_eq]; exact hr) _)

/-- A window evaluation at a RELAY (R40): no entry leaves the train, so it brings no other one. -/
theorem evaluatedFrom_evaluate (average : Bool) (before : Option SeqNo) : EvaluatedFrom s (evaluate average before s) := by
  have hv := evaluatedFrom_visits hr average before (s.trs.train.map (·.seq)) (Tracker.update ⟨before, false⟩ s.trs.train)
  have honce : evaluateOnce average before s
      = ((s.trs.train.map (·.seq)).foldl (visitEntry average before) (s, Tracker.update ⟨before, false⟩ s.trs.train)).1 := by
    simp only [evaluateOnce, hasRole_other hr (show Role.relay ≠ .delivery by decide), Bool.false_eq_true, if_false]
  have hnone : ∀ n t, EvaluatedFrom s t → evaluateRemovals n s.trs.train.length t = t := by
    intro n t ht
    have hlen := ht.train.length_eq
    cases n with
    | zero => rfl
    | succ n => simp [evaluateRemovals, hlen]
  unfold evaluate
  split
  · rw [honce, hnone _ _ hv]
    exact hv
  · exact .refl s

end Relay

/-! ### LAUNCH (R11 to R13) -/

/-- The train with the prior fields of a LAUNCH applied (R13, R18). -/
def LaunchMsg.applied (m : LaunchMsg) (t : List Entry) : List Entry :=
  match m.prior with
  | none => t
  | some (n, v) => changeEntry n (fun e => e.fillLaunched v) t

theorem fillLaunched_seq_track (e : Entry) (v : Nat) : (e.fillLaunched v).seq = e.seq ∧ (e.fillLaunched v).track = e.track := by
  unfold Entry.fillLaunched
  split <;> exact ⟨rfl, rfl⟩

theorem applyPrior_eq (m : LaunchMsg) (s : State) : applyPrior m s = { s with trs := { s.trs with train := m.applied s.trs.train } } := by
  cases h : m.prior with
  | none => simp [applyPrior, LaunchMsg.applied, h]
  | some x =>
    simp only [applyPrior, LaunchMsg.applied, h]
    exact updateEntry_same (fun e => fillLaunched_seq_track e x.2) s

theorem applied_seqs (m : LaunchMsg) (t : List Entry) : (m.applied t).map (·.seq) = t.map (·.seq) := by
  unfold LaunchMsg.applied
  split
  · rfl
  · exact changeEntry_seqs _ _ (fun e => (fillLaunched_seq_track e _).1) t

theorem applied_length (m : LaunchMsg) (t : List Entry) : (m.applied t).length = t.length := by
  simpa using congrArg List.length (applied_seqs m t)

theorem batchAtStation_append {e : Entry} (he : e.track ≠ .passed) (t : List Entry) : batchAtStation (t ++ [e]) = batchAtStation t := by
  have h : (e.track == Track.passed) = false := by simpa using he
  simp [batchAtStation, List.filter_append, h]

theorem makeRoom_below {s : State} (h : s.trs.train.length < 40) : makeRoom s = some s := by
  simp [makeRoom, roomFor, h]

/-- The state with the entry of a LAUNCH appended, before a gap is judged and the evaluation made (R12, R13). -/
def State.launched (s : State) (m : LaunchMsg) : State :=
  { s with trs := { s.trs with train := m.applied s.trs.train ++ [entryOfLaunch s.cfg.mark m] } }

theorem appendLaunch_eq {s : State} {m : LaunchMsg} (gap : Bool) (h : s.trs.train.length < 40) :
    appendLaunch m gap (applyPrior m s)
      = evaluate false (candidateOf (m.applied s.trs.train)) (if gap = true then raiseGap (s.launched m) else s.launched m) := by
  have hput : putTrain (m.applied s.trs.train ++ [entryOfLaunch s.cfg.mark m]) { s with trs := { s.trs with train := m.applied s.trs.train } }
      = s.launched m := putTrain_same (by rw [batchAtStation_append (by simp [entryOfLaunch])])
  rw [appendLaunch, applyPrior_eq, makeRoom_below (by simpa [applied_length] using h)]
  exact congrArg (fun u => evaluate false (candidateOf (m.applied s.trs.train)) (if gap = true then raiseGap u else u)) hput

theorem seqAfter_seqNext (n : SeqNo) : seqAfter (seqNext n) n = true := by
  have h : seqNext n - n = 1 := by rw [seqNext, BitVec.add_comm]; exact BitVec.add_sub_cancel 1 n
  simp [seqAfter, h]

theorem placeLaunch_after {s : State} {m : LaunchMsg} {e : Entry} (hl : s.trs.train.getLast? = some e) (ha : seqAfter m.seq e.seq = true)
    (h : s.trs.train.length < 40) : placeLaunch m s
      = evaluate false (candidateOf (m.applied s.trs.train)) (if m.seq = seqNext e.seq then s.launched m else raiseGap (s.launched m)) := by
  have hn : newestEntry s.trs.train = some e := hl
  by_cases hx : m.seq = seqNext e.seq
  · simp only [placeLaunch, hn, hx, if_true]
    exact appendLaunch_eq false h
  · simp only [placeLaunch, hn, hx, if_false, ha, if_true]
    exact appendLaunch_eq true h

theorem placeLaunch_before {s : State} {m : LaunchMsg} {e : Entry} (hl : s.trs.train.getLast? = some e) (ha : seqAfter m.seq e.seq = false) :
    placeLaunch m s = s := by
  have hn : newestEntry s.trs.train = some e := hl
  have hx : ¬ m.seq = seqNext e.seq := fun h => by simp [h, seqAfter_seqNext] at ha
  simp [placeLaunch, hn, hx, ha]

theorem placeLaunch_empty {s : State} {m : LaunchMsg} (hr : s.hasRole .relay = true) (ht : s.trs.train = [])
    (hw : s.tke.halfMix + s.cfg.uncFloor < s.cfg.mark) :
    placeLaunch m s = { s with trs := { s.trs with train := [entryOfLaunch s.cfg.mark m] } } := by
  have happ : m.applied [] = [] := by unfold LaunchMsg.applied; split <;> rfl
  have hlaunched : s.launched m = { s with trs := { s.trs with train := [entryOfLaunch s.cfg.mark m] } } := by
    rw [State.launched, ht, happ]
    rfl
  have hgo : placeLaunch m s = appendLaunch m false (applyPrior m s) := by simp [placeLaunch, newestEntry, ht]
  rw [hgo, appendLaunch_eq false (by simp [ht])]
  simp only [Bool.false_eq_true, if_false, hlaunched]
  refine evaluate_quiet false _ (hasRole_other (r := .relay) hr (by decide)) fun e he => ?_
  rw [List.mem_singleton.mp he]
  refine .inr (.inl ⟨rfl, ?_⟩)
  have hle := halfWidth_zero_le s
  show ((halfWidth s 0 : Nat) : Int) < (s.cfg.mark : Int)
  omega

theorem forall₂_append_singleton {R : Entry → Entry → Prop} {l m : List Entry} {e : Entry} (h : List.Forall₂ R (l ++ [e]) m) :
    ∃ kept x, m = kept ++ [x] ∧ List.Forall₂ R l kept ∧ R e x := by
  induction l generalizing m with
  | nil =>
    cases h with
    | cons hx hm =>
      cases hm
      exact ⟨[], _, rfl, .nil, hx⟩
  | cons a l ih =>
    cases h with
    | cons ha hm =>
      obtain ⟨kept, x, rfl, hk, hx⟩ := ih hm
      exact ⟨_ :: kept, x, rfl, .cons ha hk, hx⟩

theorem map_eq_of_forall₂ {α : Type} {R : Entry → Entry → Prop} {f : Entry → α} (hf : ∀ e x, R e x → f x = f e) {l m : List Entry}
    (h : List.Forall₂ R l m) : m.map f = l.map f := by
  induction h with
  | nil => rfl
  | cons hx _ ih => simp [hf _ _ hx, ih]

section Append
variable {s : State} {m : LaunchMsg} {e : Entry} (hr : s.hasRole .relay = true) (hl : s.trs.train.getLast? = some e)
  (ha : seqAfter m.seq e.seq = true) (hn : s.trs.train.length < 40)
include hr hl ha hn

/-- The state that is evaluated after a LAUNCH that is after the newest entry: the entry appended and the gap judged (R12). -/
theorem placeLaunch_judged : ∃ u c, placeLaunch m s = evaluate false c u ∧ base u = base s
    ∧ u = { s with choices := u.choices, trs := u.trs, tlc := u.tlc, spc := u.spc }
    ∧ u.trs.train = m.applied s.trs.train ++ [entryOfLaunch s.cfg.mark m]
    ∧ (m.seq = seqNext e.seq → alarmLatched u .trainGap = alarmLatched s .trainGap ∧ u.trs.sync = s.trs.sync)
    ∧ (m.seq ≠ seqNext e.seq → alarmLatched u .trainGap = true ∧ u.trs.sync ≠ .synced) := by
  refine ⟨_, _, placeLaunch_after hl ha hn, ?_⟩
  split
  · next hx => exact ⟨rfl, rfl, rfl, fun _ => ⟨rfl, rfl⟩, fun h => absurd hx h⟩
  · next hx =>
    obtain ⟨hg, hsync⟩ := askedFrom_raiseGap (s := s.launched m) (nonOrigin_of_hasRole (s := s) hr (by decide))
    refine ⟨hg.base_eq, by rw [hg.eq]; rfl, hg.train, fun h => absurd h hx, fun _ => ⟨?_, ?_⟩⟩
    · rw [hg.latched _ (by decide) (by decide)]
      simp
    · rw [hsync]
      by_cases hs : (s.launched m).trs.sync = .synced
      · rw [if_pos hs]
        split <;> decide
      · rwa [if_neg hs]

/-- The train after a LAUNCH that is after the newest entry: each old entry visited, and the new one. -/
theorem placeLaunch_train : base (placeLaunch m s) = base s ∧ ∃ kept x, (placeLaunch m s).trs.train = kept ++ [x]
    ∧ List.Forall₂ (Visited s) (m.applied s.trs.train) kept ∧ Visited s (entryOfLaunch s.cfg.mark m) x := by
  obtain ⟨u, c, hgo, hb, -, ht, -⟩ := placeLaunch_judged hr hl ha hn
  have hev := evaluatedFrom_evaluate (s := u) (by rw [hasRole_base hb]; exact hr) false c
  rw [hgo]
  have hvis : Visited u = Visited s := by
    funext e x
    simp only [Visited, halfWidth, State.cfg, base_tke_eq hb, base_cfl_eq hb]
  exact ⟨hev.base_eq.trans hb, forall₂_append_singleton (by rw [← ht, ← hvis]; exact hev.train)⟩

/-- What a LAUNCH that is after the newest entry leaves, and the gap it shows (R12). -/
theorem placeLaunch_rest : placeLaunch m s = { s with
      choices := (placeLaunch m s).choices
      mtr := (placeLaunch m s).mtr
      trs := (placeLaunch m s).trs
      dsu := (placeLaunch m s).dsu
      tlc := (placeLaunch m s).tlc
      spc := (placeLaunch m s).spc }
    ∧ (m.seq = seqNext e.seq → alarmLatched (placeLaunch m s) .trainGap = alarmLatched s .trainGap ∧ (placeLaunch m s).trs.sync = s.trs.sync)
    ∧ (m.seq ≠ seqNext e.seq → alarmLatched (placeLaunch m s) .trainGap = true ∧ (placeLaunch m s).trs.sync ≠ .synced) := by
  obtain ⟨u, c, hgo, hb, hu, -, hnext, hgap⟩ := placeLaunch_judged hr hl ha hn
  have hev := evaluatedFrom_evaluate (s := u) (by rw [hasRole_base hb]; exact hr) false c
  have hsync : (evaluate false c u).trs.sync = u.trs.sync := by rw [hev.eq]
  rw [hgo]
  exact ⟨by rw [hev.eq, hu], fun h => ⟨hev.gap.trans (hnext h).1, hsync.trans (hnext h).2⟩,
    fun h => ⟨hev.gap.trans (hgap h).1, by rw [hsync]; exact (hgap h).2⟩⟩

end Append

theorem exec_launchTaken {s : State} {f : RxFrame} {rest : List RxFrame} (hr : s.running = true) (hq : s.tlc.rxQueue = f :: rest)
    (hk : f.frame.kindOf = some .launch) : exec .launchTaken s = .next (dropReceived (receiveLaunch f s)) := by
  show execLaunchTaken s = _
  rw [execLaunchTaken, headFrame_cons hr hq hk]

theorem receiveLaunch_valid {s : State} {f : RxFrame} (hr : s.hasRole .relay = true) (hv : launchValid (readLaunch f.frame.payload) = true) :
    receiveLaunch f s = placeLaunch (readLaunch f.frame.payload) s := by
  simp [receiveLaunch, nonOrigin_of_hasRole hr, hv]

/-- Settles O32: the entry is appended, the gap judged, and the evaluation relates the trains entry by entry. -/
theorem launchIsAppended : Obligations.LaunchIsAppended := by
  intro s f rest hrun hq hk
  have hdrop : ∀ u : State, receiveLaunch f s = u → u = s → exec .launchTaken s = .next { s with tlc := { s.tlc with rxQueue := rest } } := by
    rintro u hu rfl
    rw [exec_launchTaken hrun hq hk, hu, dropReceived_cons hq]
  refine ⟨fun ho => hdrop _ rfl ?_, fun hv => hdrop _ rfl ?_, fun e hl ha => hdrop _ rfl ?_, fun hr hv ht hw => ?_,
    fun e hr hv hl ha hn _ _ => ?_⟩
  · have hno : s.nonOrigin = false := by simp [State.nonOrigin, show s.cfl.published.role = some .origin from ((hasRole_iff s _).mp ho).2]
    simp [receiveLaunch, hno]
  · simp [receiveLaunch, hv]
  · simp [receiveLaunch, placeLaunch_before hl ha]
  · rw [exec_launchTaken hrun hq hk, receiveLaunch_valid hr hv, placeLaunch_empty hr ht hw]
    exact congrArg Host.Outcome.next (dropReceived_cons (f := f) (rest := rest) (by exact hq))
  · obtain ⟨hb, kept, x, ht, hkept, hx⟩ := placeLaunch_train hr hl ha hn
    obtain ⟨hrest, hnext, hgap⟩ := placeLaunch_rest hr hl ha hn
    have hrx : (dropReceived (placeLaunch (readLaunch f.frame.payload) s)).tlc.rxQueue = rest := by
      simp [dropReceived, base_rxQueue_eq hb, hq]
    have hseqs : kept.map (·.seq) = s.trs.train.map (·.seq) := by
      rw [map_eq_of_forall₂ (fun _ _ h => Visited.seq h) hkept, applied_seqs]
    have hp := base_pending_eq hb
    have hc := base_clock_eq hb
    have hcfl := base_cfl_eq hb
    have hprt := base_prt_eq hb
    have hhlu := base_hlu_eq hb
    have hcsq := congrArg State.csq hrest
    have hdsq := congrArg State.dsq hrest
    have hvld := congrArg State.vld hrest
    have hlsc := congrArg State.lsc hrest
    refine ⟨dropReceived (placeLaunch (readLaunch f.frame.payload) s), x, by rw [exec_launchTaken hrun hq hk, receiveLaunch_valid hr hv],
      ⟨kept, ht, hseqs⟩, ?_, ?_, hrx, hp, hc, hcfl, hprt, hcsq, hdsq, hvld, hlsc, hhlu, hnext, hgap⟩
    · intro hw
      rcases hx with h | ⟨h | ⟨-, h⟩, -⟩
      · exact h
      · cases h
      · have hle := halfWidth_zero_le s
        have : (s.cfg.mark : Int) ≤ (halfWidth s 0 : Int) := h
        omega
    · rcases hx with h | ⟨-, h | ⟨k, h⟩⟩
      · exact .inl h
      · exact .inr (.inl h)
      · cases k with
        | detected => exact .inr (.inr (.inl h))
        | estimated => exact .inr (.inr (.inr (.inl h)))
        | missed => exact .inr (.inr (.inr (.inr h)))

/-! ### The prior volume (R13, R18) -/

/-- What a delivery, a fill or an insertion changes of an entry's volumes. -/
def Entry.volumes (e : Entry) : SeqNo × Nat × Option Nat × Nat := (e.seq, e.nominal, e.launched, e.remaining)

theorem Visited.volumes_eq {s : State} {e x : Entry} (h : Visited s e x) : x.volumes = e.volumes := by
  obtain ⟨h1, h2, h3⟩ := h.volumes
  simp [Entry.volumes, h.seq, h1, h2, h3]

theorem changeEntry_eq_map {t : List Entry} (h : (t.map (·.seq)).Nodup) (n : SeqNo) (f : Entry → Entry) :
    changeEntry n f t = t.map fun e => if e.seq = n then f e else e := by
  induction t with
  | nil => rfl
  | cons x rest ih =>
    rw [List.map_cons, List.nodup_cons] at h
    by_cases hx : x.seq = n
    · have hrest : rest.map (fun e => if e.seq = n then f e else e) = rest.map id :=
        List.map_congr_left fun e he => if_neg fun hn => h.1 (by rw [hx, ← hn]; exact List.mem_map_of_mem he)
      simp [changeEntry, hx, hrest]
    · simp [changeEntry, hx, ih h.2]

theorem fillLaunched_volumes (e : Entry) (v : Nat) : (e.fillLaunched v).volumes
    = if e.launched = none then (e.seq, e.nominal, some v, e.remaining + v - e.nominal) else e.volumes := by
  cases h : e.launched with
  | none =>
    have hmax : (max 0 ((e.remaining : Int) + v - e.nominal)).toNat = e.remaining + v - e.nominal := by omega
    simp [Entry.fillLaunched, Entry.volumes, h, hmax]
  | some w => simp [Entry.fillLaunched, Entry.volumes, h]

/-- Settles O33: the prior fields are applied once, and neither the insertion nor the evaluation touches a volume. -/
theorem launchSetsThePriorVolume : Obligations.LaunchSetsThePriorVolume := by
  intro s f rest e n v hr hq hk hnd m hv hl ha hn hp
  obtain ⟨-, kept, x, ht, hkept, hx⟩ := placeLaunch_train hr hl ha hn
  refine ⟨dropReceived (placeLaunch m s), by rw [exec_launchTaken (running_of_hasRole hr) hq hk, receiveLaunch_valid hr hv], ?_⟩
  have hmap : (m.applied s.trs.train).map Entry.volumes = s.trs.train.map (fun x => if x.seq = n ∧ x.launched = none
      then (x.seq, x.nominal, some v, x.remaining + v - x.nominal) else x.volumes) := by
    rw [LaunchMsg.applied, hp]
    simp only [changeEntry_eq_map hnd, List.map_map]
    refine List.map_congr_left fun y _ => ?_
    by_cases hy : y.seq = n <;> simp [hy, fillLaunched_volumes]
  calc (placeLaunch m s).trs.train.map Entry.volumes
      = kept.map Entry.volumes ++ [x.volumes] := by rw [ht, List.map_append]; rfl
    _ = (m.applied s.trs.train).map Entry.volumes ++ [(entryOfLaunch s.cfg.mark m).volumes] := by
        rw [map_eq_of_forall₂ (fun _ _ h => Visited.volumes_eq h) hkept, hx.volumes_eq]
    _ = _ := by rw [hmap]; rfl

end Sys2Proof.Machine
end

