-- ==== Sys2Proof/Proofs/BeaconTaken.lean ====
section
/-! SUPPORT. A beacon at PRT, TKE and TRS (chapter 5), and with it the obligation O30. -/

namespace Sys2Proof.Machine

/-! ### The table and the reference (R78, R90, R91) -/

theorem placePeer_present {l : List Peer} (ha : l.Pairwise (fun p q => p.station < q.station)) {p q : Peer} (hp : p ∈ l) (hq : q.station = p.station) :
    placePeer q l = l.map fun x => if x.station = p.station then q else x := by
  induction l with
  | nil => cases hp
  | cons x rest ih =>
    obtain ⟨h1, h2⟩ := List.pairwise_cons.mp ha
    rcases List.mem_cons.mp hp with rfl | hp
    · have hrest : rest.map (fun x => if x.station = p.station then q else x) = rest.map id :=
        List.map_congr_left fun y hy => if_neg (by have := h1 y hy; omega)
      simp [placePeer, hq, hrest]
    · have hlt := h1 p hp
      have hne : ¬ x.station = p.station := by omega
      have hgt : ¬ p.station < x.station := by omega
      simp [placePeer, hq, hgt, hne, Ne.symm hne, ih h2 hp]

theorem findPeer_placePeer (q : Peer) (l : List Peer) : findPeer (placePeer q l) q.station = some q := by
  induction l with
  | nil => simp [placePeer, findPeer]
  | cons x rest ih =>
    unfold placePeer
    split
    · simp [findPeer]
    · split
      · simp [findPeer]
      · next h =>
        have hne : ¬ x.station = q.station := fun he => h he.symm
        simpa [findPeer, hne] using ih

/-- An entry put in the table and the reference recomputed: only PRT and SPC differ, events are only added, and of the alarms only EVENTS_LOST
can be. -/
structure TableFrom (q : Peer) (s t : State) : Prop where
  eq : t = { s with prt := t.prt, spc := t.spc }
  peers : t.prt.peers = placePeer q s.prt.peers
  latched : ∀ a : Alarm, a ≠ .eventsLost → alarmLatched t a = alarmLatched s a
  events : s.spc.events <+: t.spc.events

theorem Spc.events_offered (x : Spc) (time : Nat) (e : Event) : x.events <+: (x.offered time e).events := by
  unfold Spc.offered
  split
  · exact List.prefix_append _ _
  · exact List.prefix_refl _

theorem tableFrom_recompute (q : Peer) (s : State) : TableFrom q s (recomputeReference (putPeers (placePeer q s.prt.peers) s)) := by
  simp only [recomputeReference]
  split
  · exact ⟨rfl, rfl, fun _ _ => rfl, List.prefix_refl _⟩
  · exact ⟨by rw [offerEvent_offered]; rfl, by rw [offerEvent_offered]; rfl, fun a ha => alarmLatched_offerEvent _ _ ha,
      by rw [offerEvent_offered]; exact Spc.events_offered _ _ _⟩

/-! ### A beacon at its sender's entry (R82 to R84, R87 to R89, R92, R93) -/

/-- The entry after a beacon: steps 3 to 5 of R82. -/
def Peer.heardFrom (p : Peer) (b : BeaconMsg) (role : Role) (port : Port) (own now : Nat) : Peer :=
  ((p.takeFields b role port now).rebased b.count).moveStanding (b.mark != p.mark || portConflict own b.mark port) (p.timely now) b now

/-- The count judgement of step 4 of R82. -/
def Peer.judged (p : Peer) (b : BeaconMsg) : CountJudgement :=
  judgeCount (p.standing == .silent || b.restarted || b.mark != p.mark) p.baseline b.count

theorem heardFrom_station (p : Peer) (b : BeaconMsg) (role : Role) (port : Port) (own now : Nat) :
    (p.heardFrom b role port own now).station = p.station ∧ (p.heardFrom b role port own now).baseline = b.count := by
  unfold Peer.heardFrom Peer.moveStanding
  split <;> exact ⟨rfl, rfl⟩

theorem heardFrom_conflict {p : Peer} {b : BeaconMsg} {port : Port} {own : Nat} (hc : (b.mark != p.mark || portConflict own b.mark port) = true)
    (role : Role) (now : Nat) : p.heardFrom b role port own now = { p.takeFields b role port now with
      baseline := b.count, standing := .suspect, goodCount := 0, conflictHold := some (now + 10 * b.period * 100) } := by
  simp [Peer.heardFrom, Peer.moveStanding, hc, Peer.rebased]

theorem heardFrom_calm {p : Peer} {b : BeaconMsg} {port : Port} {own : Nat} (hc : (b.mark != p.mark || portConflict own b.mark port) = false)
    (hh : p.conflictHold = none) (role : Role) (now : Nat) : p.heardFrom b role port own now = { p.takeFields b role port now with
      baseline := b.count
      standing := (standingAfter p.standing p.goodCount (p.timely now) b.synced).1
      goodCount := (standingAfter p.standing p.goodCount (p.timely now) b.synced).2 } := by
  simp [Peer.heardFrom, Peer.moveStanding, hc, hh, Peer.rebased, Peer.takeFields]

section Apply
variable {s : State} {p : Peer} {b : BeaconMsg} (role : Role) (port : Port)

/-- A count that brings neither a delta nor a jump. -/
theorem applyBeacon_still (hj : p.judged b = .rebaseline ∨ p.judged b = .zero) : applyBeacon p b role port s
    = (recomputeReference (putPeers (placePeer (p.heardFrom b role port s.cfg.mark s.now) s.prt.peers)
        (if (b.mark != p.mark || portConflict s.cfg.mark b.mark port) = true then raiseAlarm .stationConflict 0 s else s)), none) := by
  have hprt : (if (b.mark != p.mark || portConflict s.cfg.mark b.mark port) = true then raiseAlarm .stationConflict 0 s else s).prt = s.prt := by
    split <;> simp
  unfold Peer.judged at hj
  rcases hj with hj | hj <;> simp only [applyBeacon, hj, hprt] <;> rfl

theorem applyBeacon_delta {v : Nat} (hc : (b.mark != p.mark || portConflict s.cfg.mark b.mark port) = false) (hj : p.judged b = .delta v) :
    applyBeacon p b role port s
      = (recomputeReference (putPeers (placePeer (p.heardFrom b role port s.cfg.mark s.now) s.prt.peers) s), some v) := by
  unfold Peer.judged at hj
  unfold Peer.heardFrom
  simp only [applyBeacon, hj, hc, Bool.false_eq_true, if_false]

theorem applyBeacon_jump {v : Count32} (hc : (b.mark != p.mark || portConflict s.cfg.mark b.mark port) = false) (hj : p.judged b = .jump v) :
    applyBeacon p b role port s
      = (recomputeReference (putPeers (placePeer (p.heardFrom b role port s.cfg.mark s.now) s.prt.peers)
          (offerEvent (.deliveryJump p.station p.baseline b.count v) s)), none) := by
  unfold Peer.judged at hj
  unfold Peer.heardFrom
  simp only [applyBeacon, hj, hc, Bool.false_eq_true, if_false, offerEvent_prt]

end Apply

theorem judged_same {p : Peer} {b : BeaconMsg} (h : b.count = p.baseline) : p.judged b = .rebaseline ∨ p.judged b = .zero := by
  unfold Peer.judged judgeCount
  split
  · exact .inl rfl
  · simp [h]

theorem judged_marked {p : Peer} {b : BeaconMsg} (h : b.mark ≠ p.mark) : p.judged b = .rebaseline ∨ p.judged b = .zero := by
  simp [Peer.judged, judgeCount, h]

section Judged
variable {p : Peer} {b : BeaconMsg} (hm : b.mark = p.mark) (hs : p.standing ≠ .silent) (hr : b.restarted = false)
include hm hs hr

theorem judged_delta (h1 : 1 ≤ (b.count - p.baseline).toNat) (h2 : (b.count - p.baseline).toNat ≤ 2000000) :
    p.judged b = .delta (b.count - p.baseline).toNat := by
  have h0 : ¬ (b.count - p.baseline).toNat = 0 := by omega
  have hreb : (p.standing == .silent || b.restarted || b.mark != p.mark) = false := by simp [hm, hs, hr]
  simp only [Peer.judged, judgeCount, hreb, h0, h2, if_true, if_false, Bool.false_eq_true]

theorem judged_jump (h : 2000000 < (b.count - p.baseline).toNat) : p.judged b = .jump (b.count - p.baseline) := by
  have h0 : ¬ (b.count - p.baseline).toNat = 0 := by omega
  have h1 : ¬ (b.count - p.baseline).toNat ≤ 2000000 := by omega
  have hreb : (p.standing == .silent || b.restarted || b.mark != p.mark) = false := by simp [hm, hs, hr]
  simp only [Peer.judged, judgeCount, hreb, h0, h1, if_false, Bool.false_eq_true]

end Judged

theorem portConflict_iff (own mark : Nat) (p : Port) : portConflict own mark p = true ↔ (mark < own ∧ p = .down) ∨ (own < mark ∧ p = .up) := by
  simp [portConflict]

/-! ### The beacon taken (R79, R82) -/

theorem roleOfCode_code (r : Role) : roleOfCode r.code = some r := by cases r <;> rfl

theorem beaconValid_of {station : Nat} {b : BeaconMsg} {role : Role} (hr : b.role = role.code) (hm : b.mark ≤ 2000000000)
    (h0 : b.role = 1 → b.mark = 0) (h1 : 10 ≤ b.period) (h2 : b.period ≤ 100) (h3 : 1 ≤ station) (h4 : station ≤ 250) :
    beaconValid station b = true := by
  have hz : (b.role != 1 || b.mark == 0) = true := by
    by_cases h : b.role = 1
    · simp [h0 h]
    · simp [h]
  simp [beaconValid, hr ▸ roleOfCode_code role, hm, h1, h2, h3, h4, hz]

theorem recomputeReference_cfl (s : State) : (recomputeReference s).cfl = s.cfl := by
  simp only [recomputeReference]
  split <;> simp

theorem applyBeacon_cfl (p : Peer) (b : BeaconMsg) (role : Role) (port : Port) (s : State) : (applyBeacon p b role port s).1.cfl = s.cfl := by
  simp only [applyBeacon, recomputeReference_cfl, putPeers_cfl]
  split <;> split <;> simp

section Taken
variable {s : State} {p : Peer} {b : BeaconMsg} {station : Nat} (hf : findPeer s.prt.peers station = some p) (role : Role) (port : Port)
include hf

theorem takeBeacon_none (h : (applyBeacon p b role port s).2 = none) :
    takeBeacon station b role port s = judgeBeaconGap station (applyBeacon p b role port s).1 := by
  simp only [takeBeacon, hf]
  generalize applyBeacon p b role port s = x at h ⊢
  obtain ⟨s1, o⟩ := x
  simp only at h
  subst h
  rfl

theorem takeBeacon_some {v : Nat} (h : (applyBeacon p b role port s).2 = some v) :
    takeBeacon station b role port s = inEitherOrder (trackDelta v b.mark) (judgeBeaconGap station) (applyBeacon p b role port s).1 := by
  simp only [takeBeacon, hf]
  generalize applyBeacon p b role port s = x at h ⊢
  obtain ⟨s1, o⟩ := x
  simp only at h
  subst h
  rfl

theorem takeBeacon_base : base (takeBeacon station b role port s) = base (applyBeacon p b role port s).1 := by
  cases h : (applyBeacon p b role port s).2 with
  | none => rw [takeBeacon_none hf role port h, base_judgeBeaconGap]
  | some v => rw [takeBeacon_some hf role port h, base_inEitherOrder (by simp) (by simp)]

end Taken

/-- A valid beacon from a station with an entry, at a chip that is not the ORIGIN. -/
theorem exec_beaconTaken {s : State} {f : RxFrame} {rest : List RxFrame} {p : Peer} {role : Role} (hn : s.nonOrigin = true) (hs : PeersSafe s)
    (hq : s.tlc.rxQueue = f :: rest) (hk : f.frame.kindOf = some .beacon) (hp : p ∈ s.prt.peers) (hst : p.station = f.frame.station.toNat)
    (hr : (readBeacon f.frame.payload).role = role.code) (hv : beaconValid f.sender (readBeacon f.frame.payload) = true) :
    exec .beaconTaken s = .next (dropReceived (takeBeacon p.station (readBeacon f.frame.payload) role f.port s)) := by
  have hf := findPeer_eq hs.ascending hp
  have hrun : s.running = true := ((Bool.and_eq_true _ _).mp hn).1
  have horigin : ∀ u : State, u.cfl = s.cfl → u.hasRole .origin = false := by
    intro u hu
    have hno : s.cfl.published.role ≠ some .origin := by simpa using ((Bool.and_eq_true _ _).mp hn).2
    simp [State.hasRole, hu, hno]
  have hlearn : learnSequence (readBeacon f.frame.payload) s = s := by simp [learnSequence, horigin s rfl]
  have hend := horigin _ ((base_cfl_eq (takeBeacon_base (b := readBeacon f.frame.payload) hf role f.port)).trans (applyBeacon_cfl _ _ _ _ _))
  have hrec : receiveBeacon f s = takeBeacon p.station (readBeacon f.frame.payload) role f.port s := by
    have hsend : f.sender = p.station := hst.symm
    rw [hsend] at hv
    simp only [receiveBeacon, hr, roleOfCode_code, hsend, hv, if_true, judgePeerChange, hlearn, hend, Bool.false_and, Bool.false_eq_true, if_false]
  show execBeaconTaken s = _
  rw [execBeaconTaken, headFrame_cons hrun hq hk]
  exact congrArg (fun u => Host.Outcome.next (dropReceived u)) hrec

/-! ### The gap that a beacon shows (R22) -/

theorem askedFrom_judgeBeaconGap {s : State} (hn : s.nonOrigin = true) (n : Nat) : ∃ a, AskedFrom a s (judgeBeaconGap n s) := by
  unfold judgeBeaconGap
  split
  · exact ⟨_, (askedFrom_raiseGap hn).1⟩
  · exact ⟨none, rfl, rfl, rfl, fun a _ _ => by simp⟩

theorem judgeBeaconGap_unsynced {s : State} (h : s.trs.sync ≠ .synced) (n : Nat) : judgeBeaconGap n s = s := by
  simp [judgeBeaconGap, h]

theorem judgeBeaconGap_suspect {s : State} {q : Peer} {n : Nat} (hf : findPeer s.prt.peers n = some q) (h : q.standing = .suspect) :
    judgeBeaconGap n s = s := by
  simp [judgeBeaconGap, beaconShowsGap, hf, h]

/-! ### A delta at TKE (R45, R46) -/

theorem attributedTo_below {own mark : Nat} {l : List Entry} (h : ∀ e ∈ l, (own : Int) - e.rlv < (mark : Int)) : attributedTo own mark l = none := by
  induction l with
  | nil => rfl
  | cons e rest ih =>
    have he := h e List.mem_cons_self
    have hrest := ih fun x hx => h x (List.mem_cons_of_mem _ hx)
    have hn : ¬ (mark : Int) ≤ (own : Int) - e.rlv := by omega
    cases rest with
    | nil => simp only [attributedTo, hn, if_false]
    | cons f rest => simp only [attributedTo, hrest, hn, false_and, if_false]

/-- A delta is attributed to the newest entry at or above the peer's mark (R46). -/
theorem attributedTo_newest {own mark : Nat} {before after : List Entry} {c : Entry} (hc : (mark : Int) ≤ (own : Int) - c.rlv)
    (ha : ∀ e ∈ after, (own : Int) - e.rlv < (mark : Int)) : attributedTo own mark (before ++ c :: after) = some c.seq := by
  induction before with
  | nil =>
    cases after with
    | nil => simp only [List.nil_append, attributedTo, hc, if_true]
    | cons f after =>
      simp only [List.nil_append, attributedTo, attributedTo_below ha, hc, ha f List.mem_cons_self, and_self, if_true]
  | cons e before ih =>
    obtain ⟨f, rest, hx⟩ : ∃ f rest, before ++ c :: after = f :: rest := by cases before <;> exact ⟨_, _, rfl⟩
    rw [List.cons_append, hx]
    rw [hx] at ih
    simp only [attributedTo, ih]

section Delta
variable {s : State} {v mark : Nat} {before after : List Entry} {c : Entry} (hnd : (s.trs.train.map (·.seq)).Nodup)
  (ht : s.trs.train = before ++ c :: after)
  (hc : (mark : Int) ≤ (s.cfg.mark : Int) - c.rlv) (ha : ∀ e ∈ after, (s.cfg.mark : Int) - e.rlv < (mark : Int))

/-- An entry that is not the chosen one, under a delta: advanced when its position is below the peer's mark (R45). -/
def Entry.moved (e : Entry) (own mark v : Nat) : Entry := if (own : Int) - e.rlv < (mark : Int) then e.advance v else e

theorem moved_seq_track (e : Entry) (own mark v : Nat) : (e.moved own mark v).seq = e.seq ∧ (e.moved own mark v).track = e.track := by
  unfold Entry.moved
  split <;> exact ⟨rfl, rfl⟩

include hnd ht hc ha in
theorem map_deltaEntry : s.trs.train.map (deltaEntry s.cfg.mark mark v (attributedTo s.cfg.mark mark s.trs.train))
    = before.map (fun e => e.moved s.cfg.mark mark v)
      ++ { c.moved s.cfg.mark mark v with remaining := c.remaining - v } :: after.map (fun e => e.moved s.cfg.mark mark v) := by
  rw [ht] at hnd
  have hne := seq_ne_of_nodup hnd
  have hne' : ∀ x ∈ after, x.seq ≠ c.seq := by
    intro x hx he
    rw [List.map_append, List.nodup_append, List.map_cons, List.nodup_cons] at hnd
    exact hnd.2.1.1 (he ▸ List.mem_map_of_mem hx)
  have hother : ∀ e : Entry, e.seq ≠ c.seq → deltaEntry s.cfg.mark mark v (some c.seq) e = e.moved s.cfg.mark mark v := by
    intro e he
    have : ¬ (some c.seq = some e.seq) := fun h => he (Option.some.inj h).symm
    simp only [deltaEntry, this, if_false, Entry.moved]
  have hself : deltaEntry s.cfg.mark mark v (some c.seq) c = { c.moved s.cfg.mark mark v with remaining := c.remaining - v } := by
    have hn : ¬ (s.cfg.mark : Int) - c.rlv < (mark : Int) := by omega
    simp only [deltaEntry, hn, if_true, if_false, Entry.moved, Entry.deliver]
  rw [ht, attributedTo_newest hc ha, List.map_append, List.map_cons, hself, List.map_congr_left fun e he => hother e (hne e he),
    List.map_congr_left fun e he => hother e (hne' e he)]

include hnd ht hc ha in
/-- A delta at a RELAY where no entry comes within its window (R45). -/
theorem trackDelta_quiet (hr : s.hasRole .relay = true)
    (hq : ∀ e ∈ s.trs.train, Quiet s (e.moved s.cfg.mark mark v)) :
    trackDelta v mark s = { s with trs := { s.trs with train := before.map (fun e => e.moved s.cfg.mark mark v)
      ++ { c.moved s.cfg.mark mark v with remaining := c.remaining - v } :: after.map (fun e => e.moved s.cfg.mark mark v) } } := by
  have hbatch : (batchAtStation (s.trs.train.map (deltaEntry s.cfg.mark mark v (attributedTo s.cfg.mark mark s.trs.train)))).map (·.seq)
      = (batchAtStation s.trs.train).map (·.seq) := by
    refine batchAtStation_congr ?_
    rw [List.map_map]
    refine List.map_congr_left fun e _ => ?_
    simp only [Function.comp, deltaEntry]
    split <;> split <;> rfl
  rw [trackDelta, putTrain_same hbatch, map_deltaEntry hnd ht hc ha]
  refine afterMove_quiet _ (hasRole_other (r := .relay) hr (by decide)) (hasRole_other (r := .relay) hr (by decide)) fun x hx => ?_
  rw [ht] at hq
  rcases List.mem_append.mp hx with hx | hx
  · obtain ⟨e, he, rfl⟩ := List.mem_map.mp hx
    exact hq e (List.mem_append_left _ he)
  · rcases List.mem_cons.mp hx with rfl | hx
    · exact hq c (by simp)
    · obtain ⟨e, he, rfl⟩ := List.mem_map.mp hx
      exact hq e (List.mem_append_right _ (List.mem_cons_of_mem _ he))

end Delta

/-! ### The obligation -/

/-- A beacon whose count brings neither a delta nor a jump: the entry takes it, and then the gap is judged. -/
theorem takeBeacon_still {s : State} {p : Peer} {b : BeaconMsg} (hs : PeersSafe s) (hp : p ∈ s.prt.peers) (role : Role) (port : Port)
    (hj : p.judged b = .rebaseline ∨ p.judged b = .zero) :
    ∃ u, TableFrom (p.heardFrom b role port s.cfg.mark s.now)
        (if (b.mark != p.mark || portConflict s.cfg.mark b.mark port) = true then raiseAlarm .stationConflict 0 s else s) u
      ∧ takeBeacon p.station b role port s = judgeBeaconGap p.station u := by
  have happ := applyBeacon_still (s := s) role port hj
  have hprt : (if (b.mark != p.mark || portConflict s.cfg.mark b.mark port) = true then raiseAlarm .stationConflict 0 s else s).prt = s.prt := by
    split <;> simp
  refine ⟨_, tableFrom_recompute _ _, ?_⟩
  rw [takeBeacon_none (findPeer_eq hs.ascending hp) role port (by rw [happ]), happ, hprt]

theorem table_map {s : State} {p q : Peer} (hs : PeersSafe s) (hp : p ∈ s.prt.peers) (hq : q.station = p.station) :
    placePeer q s.prt.peers = s.prt.peers.map fun x => if x.station = p.station then q else x := placePeer_present hs.ascending hp hq

/-- The standing table of R84, as its rows. -/
theorem standingAfter_rows (before : Standing) (n : Nat) (timely synced : Bool) (hn : before = .heard → n < 3) :
    (before = .silent → standingAfter before n timely synced = (.heard, if synced = true then 1 else 0))
    ∧ (before = .heard → timely = true → synced = true → standingAfter before n timely synced = (if n + 1 = 3 then .good else .heard, n + 1))
    ∧ (before = .good ∨ before = .suspect → timely = true → synced = true → standingAfter before n timely synced = (.good, n))
    ∧ (before ≠ .silent → synced = false → standingAfter before n timely synced = (if before = .heard then .heard else .suspect, 0))
    ∧ (before = .suspect → timely = false → standingAfter before n timely synced = (.suspect, 0)) := by
  cases before with
  | silent => simp [standingAfter]
  | good => simp +contextual [standingAfter]
  | suspect => simp +contextual [standingAfter]
  | heard =>
    have h3 : (if n + 1 < 3 then Standing.heard else Standing.good) = if n + 1 = 3 then .good else .heard := by
      have := hn rfl
      by_cases h : n + 1 = 3
      · simp [h]
      · have : n + 1 < 3 := by omega
        simp [h, this]
    simp +contextual [standingAfter, h3]

section Clauses
variable {s : State} {f : RxFrame} {rest : List RxFrame} {p : Peer} {b : BeaconMsg}

/-- A beacon without a conflict, a hold or a new volume (R82 to R84). -/
theorem takeBeacon_calm (hn : s.nonOrigin = true) (hs : PeersSafe s) (hp : p ∈ s.prt.peers) (port : Port) (role : Role)
    (hm : b.mark = p.mark) (hport : portConflict s.cfg.mark b.mark port = false) (hh : p.conflictHold = none) (hcount : b.count = p.baseline) :
    ∃ u a, TableFrom { p with
        role := role, period := b.period, synced := b.synced, densityHealthy := b.densityHealthy, restarted := b.restarted, newest := b.newestSeq
        arrival := port, lastBeacon := s.now
        standing := (standingAfter p.standing p.goodCount (p.timely s.now) b.synced).1
        goodCount := (standingAfter p.standing p.goodCount (p.timely s.now) b.synced).2 } s u
      ∧ takeBeacon p.station b role port s = judgeBeaconGap p.station u ∧ AskedFrom a u (judgeBeaconGap p.station u) := by
  obtain ⟨u, hu, ht⟩ := takeBeacon_still hs hp role port (judged_same hcount)
  have hconf : (b.mark != p.mark || portConflict s.cfg.mark b.mark port) = false := by rw [hport]; simp [hm]
  rw [heardFrom_calm hconf hh, hconf] at hu
  have hun : u.nonOrigin = true := by rw [hu.eq]; exact hn
  obtain ⟨a, ha⟩ := askedFrom_judgeBeaconGap hun p.station
  refine ⟨u, a, ?_, ht, ha⟩
  rw [hcount] at hu
  simpa [Peer.takeFields, hm] using hu

theorem timely_iff (p : Peer) (now : Nat) : p.timely now = true ↔ p.standing ≠ .silent ∧ now ≤ p.lastBeacon + 2 * p.period * 100 := by
  simp [Peer.timely]

/-- A delta moves the train as R45 says, the gap judgement having nothing to do at a chip that is not SYNCED (R93). -/
theorem takeBeacon_delta {before after : List Entry} {c : Entry} (hr : s.hasRole .relay = true) (hs : PeersSafe s) (hp : p ∈ s.prt.peers)
    (port : Port) (role : Role) (hm : b.mark = p.mark) (hport : portConflict s.cfg.mark b.mark port = false) {v : Nat} (hj : p.judged b = .delta v)
    (hsync : s.trs.sync ≠ .synced) (hnd : (s.trs.train.map (·.seq)).Nodup) (ht : s.trs.train = before ++ c :: after)
    (hc : (b.mark : Int) ≤ (s.cfg.mark : Int) - c.rlv) (ha : ∀ e ∈ after, (s.cfg.mark : Int) - e.rlv < (b.mark : Int))
    (hq : ∀ e ∈ s.trs.train, Quiet s (e.moved s.cfg.mark b.mark v)) :
    ∃ u, TableFrom (p.heardFrom b role port s.cfg.mark s.now) s u ∧ takeBeacon p.station b role port s = { u with
      choices := u.choices + 1
      trs := { s.trs with train := before.map (fun e => e.moved s.cfg.mark b.mark v)
        ++ { c.moved s.cfg.mark b.mark v with remaining := c.remaining - v } :: after.map (fun e => e.moved s.cfg.mark b.mark v) } } := by
  have hconf : (b.mark != p.mark || portConflict s.cfg.mark b.mark port) = false := by rw [hport]; simp [hm]
  have happ := applyBeacon_delta role port hconf hj
  have hu := tableFrom_recompute (p.heardFrom b role port s.cfg.mark s.now) s
  refine ⟨_, hu, ?_⟩
  rw [takeBeacon_some (findPeer_eq hs.ascending hp) role port (by rw [happ]), happ]
  generalize recomputeReference (putPeers (placePeer (p.heardFrom b role port s.cfg.mark s.now) s.prt.peers) s) = u at hu
  obtain ⟨a, x, rfl⟩ : ∃ a x, u = { s with prt := a, spc := x } := ⟨_, _, hu.eq⟩
  have htrack := trackDelta_quiet (s := { s with prt := a, spc := x, choices := s.choices + 1 }) (v := v) (mark := b.mark) hnd ht hc ha hr hq
  rcases inEitherOrder_cases (trackDelta v b.mark) (judgeBeaconGap p.station) { s with prt := a, spc := x } with h | h
  · rw [h, htrack]
    exact judgeBeaconGap_unsynced (by exact hsync) _
  · rw [h, judgeBeaconGap_unsynced (by exact hsync)]
    exact htrack

/-- A beacon in conflict leaves its sender SUSPECT under a hold, so it shows no gap (R87 to R89). -/
theorem takeBeacon_conflict (hs : PeersSafe s) (hp : p ∈ s.prt.peers) (port : Port) (role : Role)
    (hc : (b.mark != p.mark || portConflict s.cfg.mark b.mark port) = true) (hj : p.judged b = .rebaseline ∨ p.judged b = .zero) :
    TableFrom { p.takeFields b role port s.now with
      baseline := b.count, standing := .suspect, goodCount := 0, conflictHold := some (s.now + 10 * b.period * 100) }
      (raiseAlarm .stationConflict 0 s) (takeBeacon p.station b role port s) := by
  obtain ⟨u, hu, ht⟩ := takeBeacon_still hs hp role port hj
  rw [heardFrom_conflict hc, if_pos hc] at hu
  have hf := findPeer_placePeer { p.takeFields b role port s.now with
    baseline := b.count, standing := .suspect, goodCount := 0, conflictHold := some (s.now + 10 * b.period * 100) } (raiseAlarm .stationConflict 0 s).prt.peers
  rw [← hu.peers] at hf
  rw [ht, judgeBeaconGap_suspect (by exact hf) rfl]
  exact hu

/-- A delivery jump moves nothing but the entry's baseline (R93). -/
theorem takeBeacon_jump (hs : PeersSafe s) (hp : p ∈ s.prt.peers) (port : Port) (role : Role) (hm : b.mark = p.mark)
    (hport : portConflict s.cfg.mark b.mark port = false) {v : Count32} (hj : p.judged b = .jump v) (hsync : s.trs.sync ≠ .synced) :
    TableFrom (p.heardFrom b role port s.cfg.mark s.now) (offerEvent (.deliveryJump p.station p.baseline b.count v) s)
      (takeBeacon p.station b role port s) := by
  have hconf : (b.mark != p.mark || portConflict s.cfg.mark b.mark port) = false := by rw [hport]; simp [hm]
  have happ := applyBeacon_jump role port hconf hj
  have hu := tableFrom_recompute (p.heardFrom b role port s.cfg.mark s.now) (offerEvent (.deliveryJump p.station p.baseline b.count v) s)
  rw [offerEvent_prt] at hu
  rw [takeBeacon_none (findPeer_eq hs.ascending hp) role port (by rw [happ]), happ]
  rw [judgeBeaconGap_unsynced]
  · exact hu
  · rw [hu.eq, offerEvent_trs]
    exact hsync

/-- A GOOD peer upstream shows a gap by a newest sequence after the own newest (R22). -/
theorem judgeBeaconGap_good {s : State} {q : Peer} {n : Nat} (hn : s.nonOrigin = true) (hs : s.trs.sync = .synced) (hf : findPeer s.prt.peers n = some q)
    (hg : q.standing = .good) (hm : q.mark < s.cfg.mark) (hnew : q.newest = b.newestSeq) :
    ((b.newestPresent = true ∧ s.trs.train.getLast?.all (fun e => seqAfter b.newest e.seq) = true) → judgeBeaconGap n s = raiseGap s)
    ∧ (¬ (b.newestPresent = true ∧ s.trs.train.getLast?.all (fun e => seqAfter b.newest e.seq) = true) → judgeBeaconGap n s = s) := by
  have hshow : beaconShowsGap s n = (b.newestPresent && s.trs.train.getLast?.all (fun e => seqAfter b.newest e.seq)) := by
    unfold beaconShowsGap BeaconMsg.newestSeq at *
    cases hb : b.newestPresent <;> simp [hf, hg, hm, hnew, hb, newestEntry]
  constructor <;> intro h <;> simp [judgeBeaconGap, hn, hs, hshow, h]

end Clauses

theorem TableFrom.find {q : Peer} {s u : State} (h : TableFrom q s u) {n : Nat} (hq : q.station = n) : findPeer u.prt.peers n = some q := by
  rw [h.peers, ← hq]
  exact findPeer_placePeer q _

theorem portConflict_false {own mark : Nat} {p : Port} (h1 : ¬ (mark < own ∧ p = .down)) (h2 : ¬ (own < mark ∧ p = .up)) :
    portConflict own mark p = false := by
  rw [Bool.eq_false_iff, ne_eq, portConflict_iff]
  exact not_or.mpr ⟨h1, h2⟩

/-- Settles O30: the entry takes the beacon by R82 to R84; then the delta moves the train or the gap is judged, at most one of them with an effect. -/
theorem beaconIsAppliedToItsPeer : Obligations.BeaconIsAppliedToItsPeer := by
  constructor
  · intro s f rest p hn hs hq hk hp hst b hrole hm hm2 hz h10 h100 hs1 hs2 hdown hup hh hcount
    have hsend : f.sender = p.station := hst.symm
    have hexec := exec_beaconTaken hn hs hq hk hp hst hrole (beaconValid_of hrole hm2 hz h10 h100 (by omega) (by omega))
    obtain ⟨u, a, hu, ht, hg⟩ := takeBeacon_calm hn hs hp f.port p.role hm (portConflict_false hdown hup) hh hcount
    obtain ⟨hsilent, hheard, hgood, hunsync, hlate⟩ :=
      standingAfter_rows p.standing p.goodCount (p.timely s.now) b.synced (hs.entries p hp).heard
    have hrx := base_rxQueue_eq hg.base_eq
    have hprt := base_prt_eq hg.base_eq
    have htrain := hg.train
    refine ⟨_, hexec, ⟨(standingAfter p.standing p.goodCount (p.timely s.now) b.synced).1,
      (standingAfter p.standing p.goodCount (p.timely s.now) b.synced).2, ?_, ?_, ?_, ?_, ?_⟩, ?_⟩
    · show (takeBeacon p.station b p.role f.port s).prt.peers = _
      rw [ht, hprt]
      exact hu.peers.trans (table_map hs hp rfl)
    · intro h
      rw [hsilent h]
      exact ⟨rfl, rfl⟩
    · intro hns hnow hsync
      have htm := (timely_iff p s.now).mpr ⟨hns, hnow⟩
      refine ⟨fun h => ?_, fun h => ?_, fun h => ?_⟩
      · rw [hheard h htm hsync]
        exact ⟨rfl, rfl⟩
      · rw [hgood (.inl h) htm hsync]
        exact ⟨rfl, rfl⟩
      · rw [hgood (.inr h) htm hsync]
        exact ⟨rfl, rfl⟩
    · intro hns hsync
      rw [hunsync hns hsync]
      exact ⟨rfl, rfl⟩
    · intro h hnow
      have htm : p.timely s.now = false := by
        rw [Bool.eq_false_iff, ne_eq, timely_iff]
        omega
      rw [hlate h htm]
      exact ⟨rfl, rfl⟩
    · have hall : takeBeacon p.station b p.role f.port s = { s with
          choices := (judgeBeaconGap p.station u).choices, trs := (judgeBeaconGap p.station u).trs, prt := u.prt
          tlc := (judgeBeaconGap p.station u).tlc, spc := (judgeBeaconGap p.station u).spc } := by
        rw [ht, hg.eq, hu.eq]
      have hqueue : (judgeBeaconGap p.station u).tlc.rxQueue = f :: rest := by rw [hrx, hu.eq]; exact hq
      have htr : (judgeBeaconGap p.station u).trs.train = s.trs.train := by rw [htrain, hu.eq]
      rw [show readBeacon f.frame.payload = b from rfl, hall]
      exact ⟨htr, rfl, rfl, rfl, rfl, rfl, rfl, rfl, rfl, rfl, rfl, rfl, by simp [dropReceived, hqueue]⟩
  · intro s f rest p role hr hs hq hk hp hst b hrole hm2 hz h10 h100 hs1 hs2 volume misplaced entry
    have hn := nonOrigin_of_hasRole hr (by decide)
    have hsend : f.sender = p.station := hst.symm
    have hexec := exec_beaconTaken hn hs hq hk hp hst hrole (beaconValid_of hrole hm2 hz h10 h100 (by omega) (by omega))
    refine ⟨?_, ?_, ?_, ?_, ?_⟩
    · intro before after c hm hmis hns hre h1 h2 hsync hnd ht place advanced moved hc ha hq'
      have hport := portConflict_false (fun h => hmis (.inl h)) (fun h => hmis (.inr h))
      have hmoved : ∀ e, moved e = e.moved s.cfg.mark b.mark volume := fun e => by rw [hm]; rfl
      have hquiet : ∀ e ∈ s.trs.train, Quiet s (e.moved s.cfg.mark b.mark volume) := fun e he => by
        have htrack := (moved_seq_track e s.cfg.mark b.mark volume).2
        rcases hq' e he with h | ⟨h, hw⟩
        · exact .inl (htrack.trans h)
        · exact .inr (.inl ⟨htrack.trans h, by rw [← hmoved]; exact hw⟩)
      obtain ⟨u, hu, htk⟩ := takeBeacon_delta hr hs hp f.port role hm hport (judged_delta hm hns hre h1 h2) hsync hnd ht (by rw [hm]; exact hc)
        (by rw [hm]; exact ha) hquiet
      have hst' := heardFrom_station p b role f.port s.cfg.mark s.now
      refine ⟨_, hexec, ?_⟩
      rw [show readBeacon f.frame.payload = b from rfl, htk]
      refine ⟨?_, ?_, ?_, ?_, ?_⟩
      · rw [show moved = fun e => e.moved s.cfg.mark b.mark volume from funext hmoved]
        rfl
      · show (findPeer u.prt.peers p.station).map (·.baseline) = _
        rw [hu.find hst'.1]
        exact congrArg some hst'.2
      · show ({ u.tlc with rxQueue := u.tlc.rxQueue.drop 1 } : Tlc) = _
        rw [hu.eq]
        simp [hq]
      · show u.dsu = _
        rw [hu.eq]
      · show u.mtr = _
        rw [hu.eq]
    · intro hm hmis hns hre h2 hsync hev
      have hport := portConflict_false (fun h => hmis (.inl h)) (fun h => hmis (.inr h))
      have hu := takeBeacon_jump hs hp f.port role hm hport (judged_jump hm hns hre h2) hsync
      have hst' := heardFrom_station p b role f.port s.cfg.mark s.now
      refine ⟨_, hexec, ?_, ?_, ?_⟩
      · show (takeBeacon p.station b role f.port s).trs = s.trs
        rw [hu.eq, offerEvent_trs]
      · show (findPeer (takeBeacon p.station b role f.port s).prt.peers p.station).map (·.baseline) = _
        rw [hu.find hst'.1]
        exact congrArg some hst'.2
      · have hoffer : (offerEvent (.deliveryJump p.station p.baseline b.count (b.count - p.baseline)) s).spc.events
            = s.spc.events ++ [⟨s.now, .deliveryJump p.station p.baseline b.count (b.count - p.baseline)⟩] := by
          rw [offerEvent_offered]
          simp only [Spc.offered, hev, if_true]
        have hpre := hu.events
        rw [hoffer] at hpre
        have htake := (List.prefix_iff_eq_take.mp hpre).symm
        rwa [List.length_append] at htake
    · intro hm
      have hc : (b.mark != p.mark || portConflict s.cfg.mark b.mark f.port) = true := by simp [hm]
      have hu := takeBeacon_conflict hs hp f.port role hc (judged_marked hm)
      refine ⟨_, hexec, ?_, ?_, ?_⟩
      · show (takeBeacon p.station b role f.port s).trs = s.trs
        rw [hu.eq, raiseAlarm_trs]
      · refine (hu.latched _ (by decide)).trans ?_
        rw [alarmLatched_raiseAlarm _ _ _ (by decide)]
        simp
      · refine hu.peers.trans ?_
        rw [raiseAlarm_prt]
        exact table_map hs hp rfl
    · intro hmis hm hcount
      have hc : (b.mark != p.mark || portConflict s.cfg.mark b.mark f.port) = true := by
        rw [(portConflict_iff s.cfg.mark b.mark f.port).mpr hmis, Bool.or_true]
      have hu := takeBeacon_conflict hs hp f.port role hc (judged_same hcount)
      refine ⟨_, hexec, ?_, ?_, ?_⟩
      · show (takeBeacon p.station b role f.port s).trs = s.trs
        rw [hu.eq, raiseAlarm_trs]
      · refine (hu.latched _ (by decide)).trans ?_
        rw [alarmLatched_raiseAlarm _ _ _ (by decide)]
        simp
      · show (findPeer (takeBeacon p.station b role f.port s).prt.peers p.station).map _ = _
        rw [hu.find (n := p.station) rfl]
        rfl
    · intro hm hlt hup hg hnow hsynced hh hcount hsync shows
      have hport : portConflict s.cfg.mark b.mark f.port = false := portConflict_false (fun h => by simp [hup] at h) (fun h => by omega)
      obtain ⟨u, -, hu, ht, -⟩ := takeBeacon_calm hn hs hp f.port role hm hport hh hcount
      have hgood : (standingAfter p.standing p.goodCount (p.timely s.now) b.synced).1 = .good := by
        rw [hg, (timely_iff p s.now).mpr ⟨by rw [hg]; decide, hnow⟩, hsynced]
        rfl
      have hun : u.nonOrigin = true := by rw [hu.eq]; exact hn
      have htrs : u.trs = s.trs := by rw [hu.eq]
      have hcfg : u.cfg = s.cfg := by rw [hu.eq]; rfl
      have htlc : u.tlc = s.tlc := by rw [hu.eq]
      have hgap := judgeBeaconGap_good (b := b) hun (by rw [htrs]; exact hsync) (hu.find rfl) hgood (by rw [hcfg]; show p.mark < _; omega) rfl
      rw [htrs] at hgap
      obtain ⟨hask, hasync⟩ := askedFrom_raiseGap hun
      refine ⟨fun h => ⟨_, hexec, ?_⟩, fun h => ⟨_, hexec, ?_⟩⟩
      · rw [show readBeacon f.frame.payload = b from rfl, ht, hgap.1 h]
        refine ⟨?_, ?_, ?_⟩
        · refine (hask.latched _ (by decide) (by decide)).trans ?_
          simp
        · show (raiseGap u).trs.train = _
          rw [hask.train, htrs]
        · show (raiseGap u).trs.sync = _
          rw [hasync, htrs, if_pos hsync]
          simp only [anyPortUp_iff, htlc]
      · rw [show readBeacon f.frame.payload = b from rfl, ht, hgap.2 h]
        exact ⟨htrs, hu.latched _ (by decide)⟩

end Sys2Proof.Machine
end

