-- ==== Sys2Proof/Proofs/Resync.lean ====
section
/-! SUPPORT. RESYNC at the four sequencers (R24, R157, R169, R202), the obligation O52. -/

namespace Sys2Proof.Machine

/-- The train emptied, the transfer abandoned and an ASK due (R24). -/
def State.resynced (s : State) : State := { s with
  dsu := { s.dsu with departureRun := 0 }
  trs := { s.trs with
    train := [], sync := .unsynced, attempts := 0, adopted := none, held := [], transferTimer := none, reAskTimer := none, askDue := true
    answer := [] } }

theorem putTrain_ended (t : List Entry) {s : State} (h : s.dsu.departureRun = 0) :
    putTrain t s = { s with trs := { s.trs with train := t } } := by
  cases s with | mk pending clock choices cfl mtr trs tke dsu prt tlc csq dsq vld lsc hlu spc =>
  cases dsu
  subst h
  simp [putTrain]

theorem trainResync_eq (s : State) : trainResync (putDsu (fun d => { d with departureRun := 0 }) s) = sendAskIfDue s.resynced := by
  have hput := putTrain_ended [] (s := putDsu (fun d => { d with departureRun := 0 }) s) rfl
  rw [trainResync, hput]
  rfl

/-- With no port UP the ASK waits (R118). -/
theorem sendAskIfDue_dark {s : State} (hu : s.tlc.upPort.link ≠ .up) (hd : s.tlc.downPort.link ≠ .up) : sendAskIfDue s = s := by
  have h : ¬ anyPortUp s = true := by
    rw [anyPortUp_iff]
    exact not_or.mpr ⟨hu, hd⟩
  simp [sendAskIfDue, askReady, h]

/-- With a port UP the ASK is sent at once, an absent newest sequence as 0 (R118, log 45). -/
theorem sendAskIfDue_resynced {s : State} (hn : s.nonOrigin = true) (hup : s.tlc.upPort.link = .up ∨ s.tlc.downPort.link = .up) :
    sendAskIfDue s.resynced = sendOwn .ask (natBytes 4 s.cfg.mark ++ [0, 0, 0]) { s.resynced with trs := { s.resynced.trs with
      sync := .asking, attempts := 1, transferTimer := some (s.now + 5000), askDue := false } } := by
  have h : anyPortUp s.resynced = true := (anyPortUp_iff s.resynced).mpr hup
  rw [sendAskIfDue_due (s := s.resynced) hn rfl rfl, if_pos h]
  rfl

/-- RESYNC in RUN at a role other than ORIGIN. -/
theorem exec_resync {s : State} (hn : s.nonOrigin = true) : exec .resync s = .next (respond .ok [] (resync s)) := by
  obtain ⟨hr, ho⟩ := (Bool.and_eq_true _ _).mp hn
  have ho' : s.hasRole .origin = false := by
    have : s.cfl.published.role ≠ some .origin := by simpa using ho
    simp [State.hasRole, this]
  show execResync s = _
  simp [execResync, whenRunning, hr, ho']

theorem hasRole_offerEvent (e : Event) (s : State) (r : Role) : (offerEvent e s).hasRole r = s.hasRole r := by
  rw [offerEvent_offered]
  rfl

section Sequencers
variable {s : State}

theorem resync_relay (hr : s.hasRole .relay = true) : resync s = sendAskIfDue (offerEvent .resync s).resynced := by
  simp only [resync, hasRole_offerEvent, hasRole_other hr (show Role.relay ≠ .terminus by decide),
    hasRole_other hr (show Role.relay ≠ .delivery by decide), Bool.false_eq_true, if_false, trainResync_eq]

theorem resync_terminus (hr : s.hasRole .terminus = true) : resync s = sendAskIfDue (cutResync (offerEvent .resync s)).resynced := by
  simp only [resync, hasRole_offerEvent, hr, if_true, trainResync_eq]

theorem resync_delivery (hr : s.hasRole .delivery = true) : resync s = sendAskIfDue (deliveryResync (offerEvent .resync s)).resynced := by
  simp only [resync, hasRole_offerEvent, hr, hasRole_other hr (show Role.delivery ≠ .terminus by decide), if_true, Bool.false_eq_true, if_false,
    trainResync_eq]

/-- CSQ after RESYNC (R157): no record, no queue, STEADY unless UNKNOWN. -/
def Csq.resynced (q : Csq) : Csq := { q with
  state := if q.state = .unknown then .unknown else .steady
  cutThrough := none
  record := none
  queue := []
  settleRemaining := 0 }

theorem cutResync_shut (hc : s.csq.record = none) (h0 : s.csq.settleRemaining = 0) : cutResync s = { s with csq := s.csq.resynced } := by
  cases hq : s.csq
  simp_all [cutResync, flagRecord, modifyRecord, closeRecord, putCsq, Csq.resynced]

theorem cutResync_open {r : OpenCut} (hc : s.csq.record = some r) (hu : s.csq.state ≠ .unknown) :
    cutResync s = { offerEvent (.cutClosed r.first r.last (({ r.flags with abandoned := true } : CutFlags).handedOn (logFull s)))
      (appendToLog (.cut (({ r with flags := { r.flags with abandoned := true } } : OpenCut).closed s.mtr.count s.mtr.trim)) s) with
        csq := s.csq.resynced } := by
  have hflag : flagRecord (fun f => { f with abandoned := true }) s
      = { s with csq := { s.csq with record := some { r with flags := { r.flags with abandoned := true } } } } := by
    simp [flagRecord, modifyRecord, putCsq, hc]
  have hclose : closeRecord false .steady (flagRecord (fun f => { f with abandoned := true }) s)
      = { offerEvent (.cutClosed r.first r.last (({ r.flags with abandoned := true } : CutFlags).handedOn (logFull s)))
          (appendToLog (.cut (({ r with flags := { r.flags with abandoned := true } } : OpenCut).closed s.mtr.count s.mtr.trim)) s) with
        csq := { s.csq with record := none, queue := [], settleRemaining := 0, state := .steady } } := by
    rw [hflag]
    simp only [closeRecord, Bool.false_eq_true, if_false, putCsq, appendToLog, offerEvent_offered]
    split <;> rfl
  rw [cutResync, hclose]
  simp [putCsq, Csq.resynced, hu]

theorem deliveryResync_none (ha : s.dsq.active = none) : deliveryResync s = { s with dsq := { s.dsq with note := none, candidate := none } } := by
  simp [deliveryResync, requestClose, ha, afterDelivery, putDsq]

theorem deliveryResync_delivering {a : ActiveDelivery} (ha : s.dsq.active = some a) (ho : s.dsq.state = .delivering)
    (hc : a.atCloseRequest = none) (hl : (routeState s a.route).closeLimit = false) :
    deliveryResync s = { s.closingRoute a.route with dsq := { s.dsq with
      note := none, candidate := none, state := .closing
      active := some (a.closeRequested fun f => { f with abandoned := true }) } } := by
  simp [deliveryResync, requestClose_delivering _ ha hc ho hl, afterDelivery, putDsq]

end Sequencers

theorem respond_resync_dark {s : State} (hn : s.nonOrigin = true) {u v : State} (h : resync s = sendAskIfDue u.resynced) (huv : u.resynced = v)
    (hu : v.tlc.upPort.link ≠ .up) (hd : v.tlc.downPort.link ≠ .up) : exec .resync s = .next (respond .ok [] v) := by
  rw [exec_resync hn, h, huv, sendAskIfDue_dark hu hd]

/-- Settles O52: the sequencer of the role closes what it finds open, and TRS is emptied after it. -/
theorem resyncEmptiesTheTrain : Obligations.ResyncEmptiesTheTrain := by
  constructor
  · intro s hr emptied
    have hn := nonOrigin_of_hasRole hr (by decide)
    have hemptied : (offerEvent .resync s).resynced = emptied := by
      rw [State.resynced, offerEvent_dsu, offerEvent_trs]
    have htlc : (offerEvent .resync s).tlc = s.tlc := offerEvent_tlc _ _
    refine ⟨fun hu hd => respond_resync_dark hn (resync_relay hr) hemptied ?_ ?_, fun hup => ?_⟩
    · show (offerEvent .resync s).tlc.upPort.link ≠ .up
      rwa [htlc]
    · show (offerEvent .resync s).tlc.downPort.link ≠ .up
      rwa [htlc]
    · have hnow : (offerEvent .resync s).now = s.now := by rw [offerEvent_offered]; rfl
      have hmark : (offerEvent .resync s).cfg = s.cfg := by rw [offerEvent_offered]; rfl
      rw [exec_resync hn, resync_relay hr, sendAskIfDue_resynced (by rw [offerEvent_offered]; exact hn) (by rw [htlc]; exact hup), hemptied, hnow, hmark]
  · intro s hu hd emptied steady
    have hdark : ∀ t : State, t.tlc = s.tlc → (emptied t).tlc.upPort.link ≠ .up ∧ (emptied t).tlc.downPort.link ≠ .up := fun t ht => by
      show t.tlc.upPort.link ≠ .up ∧ t.tlc.downPort.link ≠ .up
      rw [ht]
      exact ⟨hu, hd⟩
    have hemptied : ∀ t : State, t.dsu = s.dsu → t.trs = s.trs → t.resynced = emptied t := fun t h1 h2 => by
      rw [State.resynced, h1, h2]
    refine ⟨fun hr hs hc => ?_, fun r hr hs hc => ?_, fun hr ha => ?_, fun a hr ha ho hc hl => ?_⟩
    · have hcut := cutResync_shut (s := offerEvent .resync s) (by rw [offerEvent_csq]; exact hc) (by rw [offerEvent_csq]; exact (hs.rest hc).2)
      rw [offerEvent_csq] at hcut
      refine respond_resync_dark (nonOrigin_of_hasRole hr (by decide)) (resync_terminus hr) ?_ (hdark _ ?_).1 (hdark _ ?_).2
      · rw [hcut]
        exact hemptied _ (offerEvent_dsu _ _) (offerEvent_trs _ _)
      · exact offerEvent_tlc _ _
      · exact offerEvent_tlc _ _
    · have hu : s.csq.state ≠ .unknown := fun h => by
        have hrec := hs.record
        simp [hc, h] at hrec
      have hcut := cutResync_open (s := offerEvent .resync s) (by rw [offerEvent_csq]; exact hc) (by rw [offerEvent_csq]; exact hu)
      have hfull : logFull (offerEvent .resync s) = logFull s := by
        rw [offerEvent_offered]
        unfold logFull Spc.offered
        dsimp only
        split <;> rfl
      rw [offerEvent_csq, offerEvent_mtr, hfull] at hcut
      intro flags logged
      refine respond_resync_dark (nonOrigin_of_hasRole hr (by decide)) (resync_terminus hr) ?_ (hdark _ ?_).1 (hdark _ ?_).2
      · rw [hcut]
        exact hemptied _ (by simp) (by simp)
      · simp
      · simp
    · have hdel := deliveryResync_none (s := offerEvent .resync s) (by rw [offerEvent_dsq]; exact ha)
      rw [offerEvent_dsq] at hdel
      refine respond_resync_dark (nonOrigin_of_hasRole hr (by decide)) (resync_delivery hr) ?_ (hdark _ ?_).1 (hdark _ ?_).2
      · rw [hdel]
        exact hemptied _ (offerEvent_dsu _ _) (offerEvent_trs _ _)
      · exact offerEvent_tlc _ _
      · exact offerEvent_tlc _ _
    · have hroute : routeState (offerEvent .resync s) a.route = routeState s a.route := by rw [offerEvent_offered]; rfl
      have hnow : (offerEvent .resync s).now = s.now := by rw [offerEvent_offered]; rfl
      have hcfg : (offerEvent .resync s).cfg = s.cfg := by rw [offerEvent_offered]; rfl
      have hdel := deliveryResync_delivering (s := offerEvent .resync s) (by rw [offerEvent_dsq]; exact ha) (by rw [offerEvent_dsq]; exact ho) hc
        (by rw [hroute]; exact hl)
      rw [State.closingRoute, offerEvent_dsq, offerEvent_vld, hroute, hnow, hcfg] at hdel
      refine respond_resync_dark (nonOrigin_of_hasRole hr (by decide)) (resync_delivery hr) ?_ (hdark _ ?_).1 (hdark _ ?_).2
      · rw [hdel]
        exact hemptied _ (offerEvent_dsu _ _) (offerEvent_trs _ _)
      · exact offerEvent_tlc _ _
      · exact offerEvent_tlc _ _

end Sys2Proof.Machine
end

