-- ==== Sys2Proof/Proofs/SwitchEnds.lean ====
section
/-! SUPPORT. How a command in travel ends a switch (R173, R176 to R178), and what the ORIGIN and the TERMINUS make of it, the obligation O43. -/

namespace Sys2Proof.Machine

/-! ### The routes -/

theorem routeSet_routeSet {α : Type} (t : PerRoute α) (r : Route) (x y : α) : routeSet (routeSet t r x) r y = routeSet t r y := by
  cases r <;> rfl

theorem putRoute_putRoute (r : Route) (x y : RouteState) (s : State) : putRoute r y (putRoute r x s) = putRoute r y s := by
  simp [putRoute, routeSet_routeSet]

theorem routeState_putRoute (r : Route) (x : RouteState) (s : State) : routeState (putRoute r x s) r = x :=
  routeGet_routeSet_same _ _ _

theorem routeState_putRoute_other {r o : Route} (h : o ≠ r) (x : RouteState) (s : State) : routeState (putRoute r x s) o = routeState s o :=
  routeGet_routeSet_other _ _ h

/-! ### A command in travel ends (R173) -/

section Ends
variable {s : State} {r : Route} {limit : Limit}

/-- A limit that confirms the command of its route. -/
theorem exec_limitChange_confirmed (hr : s.running = true) (he : ((routeState s r).withLimit limit true).travelEnd = some .confirmed) :
    exec (.limitChange r limit true) s = .next (commandEnded r (routeState s r).startupClose .confirmed
      (putRoute r ((routeState s r).withLimit limit true).confirmedNow s)) := by
  show execLimitChange r limit true s = _
  simp only [execLimitChange, hr, if_true, limitSettled, routeState_putRoute, he, putRoute_putRoute]

/-- A limit that faults the command of its route. -/
theorem exec_limitChange_fault (hr : s.running = true) (he : ((routeState s r).withLimit limit true).travelEnd = some .fault) :
    exec (.limitChange r limit true) s = .next (commandEnded r (routeState s r).startupClose .fault
      (raiseAlarm .valveFault (routeNumber r) (putRoute r ((routeState s r).withLimit limit true).faulted s))) := by
  show execLimitChange r limit true s = _
  simp only [execLimitChange, hr, if_true, limitSettled, routeState_putRoute, he, faultRoute, putRoute_putRoute]

theorem exec_travelTimerExpiry {due : Nat} (hr : s.running = true) (ht : (routeState s r).travel = some due) :
    exec (.travelTimerExpiry r) s = .next (commandEnded r (routeState s r).startupClose .fault
      (raiseAlarm .valveFault (routeNumber r) (putRoute r (routeState s r).faulted (s.advanceTo due)))) := by
  show execTravelTimerExpiry r s = _
  simp only [execTravelTimerExpiry, hr, ht]
  rfl

end Ends

/-! ### The switch takes the end (R176 to R178) -/

section Switch
variable {s : State} {x : InFlight} {r : Route} (hf : s.vld.inFlight = some x) (hd : x.drives r = true) (e : CommandEnd)
include hf hd

theorem commandEnded_origin (ho : s.hasRole .origin = true) : commandEnded r false e s
    = changeoverOutcomes (switchCommandEnded x r e s).2 (switchCommandEnded x r e s).1 := by
  simp [commandEnded, hf, hd, ho, hasRole_other ho (show Role.origin ≠ .terminus by decide)]

theorem commandEnded_terminus (ht : s.hasRole .terminus = true) : commandEnded r false e s
    = evaluateIfRemoved s (cutOutcomes (switchCommandEnded x r e s).2 (switchCommandEnded x r e s).1) := by
  simp [commandEnded, hf, hd, ht]

end Switch

/-- The target of a switch is confirmed open: it is current, and the old route's close is in travel (R176). -/
theorem switchCommandEnded_made {s : State} (q : SwitchRequest) {o : Route} (hl : (routeState s o).closeLimit = false) :
    switchCommandEnded ⟨q, some o, .making, [], false⟩ q.target .confirmed s
      = (putInFlight (some ⟨q, some o, .breaking, [o], false⟩) (State.closingRoute (putCurrent (some q.target) s) o), []) := by
  have hclose : commandRoute o .closed false (putCurrent (some q.target) s) = (State.closingRoute (putCurrent (some q.target) s) o, none) :=
    commandRoute_close _ hl
  simp [switchCommandEnded, makeConfirmed, commandCloses, hclose]

/-- The target of a switch faults in MAKE: the switch is abandoned on its old route (R177). -/
theorem switchCommandEnded_abandoned {s : State} (q : SwitchRequest) (old : Option Route) (r : Route) (hw : s.vld.waiting = []) :
    switchCommandEnded ⟨q, old, .making, [], false⟩ r .fault s = (putInFlight none s, [⟨q, .abandoned old⟩]) := by
  have hw' : (putInFlight none s).vld.waiting = [] := hw
  simp [switchCommandEnded, makeFaulted, hw', startWaiting]

/-- The last close of BREAK ends, and with it the switch (R176, R178). -/
theorem switchCommandEnded_ended {s : State} (q : SwitchRequest) (old : Option Route) (o : Route) (e : CommandEnd) (hw : s.vld.waiting = []) :
    switchCommandEnded ⟨q, old, .breaking, [o], false⟩ o e s
      = (putInFlight none s, [⟨q, if e = .fault then .bothOpen else .completed⟩]) := by
  have hw' : (putInFlight none s).vld.waiting = [] := hw
  cases e <;> simp [switchCommandEnded, InFlight.closeEnded, InFlight.result, hw', startWaiting]

/-! ### The changeover completes at the ORIGIN (R190, R191) -/

theorem judgeChangeover_idle {s : State} (h : changeoverDue s = false ∨ s.lsc.faultMark = true) : judgeChangeover s = s := by
  have honce : judgeChangeoverOnce s = (s, []) := by
    rcases h with h | h <;> simp [judgeChangeoverOnce, h]
  simp [judgeChangeover, judgeChangeovers, honce]

/-- The train with the launched volume of the running batch taken (R14, R190). -/
def State.closedTrain (s : State) : List Entry :=
  match s.lsc.running.seq with
  | some m => changeEntry m (fun e => e.fillLaunched s.lsc.running.launched) s.trs.train
  | none => s.trs.train

theorem closeRunningEntry_eq (s : State) : closeRunningEntry s = { s with trs := { s.trs with train := s.closedTrain } } := by
  cases h : s.lsc.running.seq with
  | none => simp [closeRunningEntry, State.closedTrain, h]
  | some m =>
    simp only [closeRunningEntry, State.closedTrain, h]
    exact updateEntry_same (fun e => fillLaunched_seq_track e _) s

theorem closedTrain_length (s : State) : s.closedTrain.length = s.trs.train.length := by
  unfold State.closedTrain
  split <;> simp

section Changeover
variable {s : State} {o : Order} {rest : List Order} {n : SeqNo} (ho : s.lsc.orders = o :: rest) (hn : s.lsc.nextSeq = some n)
  (hl : s.trs.train.length < 40) (hd : s.dsu.departureRun = 0) (source : Route) (result : SwitchResult)
include ho hn hl hd

/-- A changeover completes: the running batch's entry is closed, the order's entry joins, its LAUNCH is sent, and LSC goes on (R190). -/
theorem completeChangeover_eq : completeChangeover source result s = offerEvent (.launched n o.product s.lsc.running.prior s.mtr.count result)
    { sendOwn .launch (launchPayload (launchOf n o s.lsc.running.prior))
        { s with trs := { s.trs with train := s.closedTrain ++ [entryOfOrder n o] } } with
      lsc := s.lsc.advanced n o rest source result } := by
  have happend : appendOrderEntry n o (closeRunningEntry s) = { s with trs := { s.trs with train := s.closedTrain ++ [entryOfOrder n o] } } := by
    rw [closeRunningEntry_eq]
    have hroom : roomFor s.closedTrain = some s.closedTrain := by simp [roomFor, closedTrain_length, hl]
    simp only [appendOrderEntry, hroom]
    exact putTrain_ended _ hd
  have hsent := sentFrom_sendOwn .launch (launchPayload (launchOf n o s.lsc.running.prior))
    { s with trs := { s.trs with train := s.closedTrain ++ [entryOfOrder n o] } }
  simp only [completeChangeover, ho, hn, Option.getD_some, happend, putLsc]
  rw [show (sendOwn .launch (launchPayload (launchOf n o s.lsc.running.prior))
    { s with trs := { s.trs with train := s.closedTrain ++ [entryOfOrder n o] } }).lsc = s.lsc by rw [hsent.eq]]

/-- A batch that has launched nothing yet is not followed at once (R187). -/
theorem changeoverOutcomes_completed (h1 : 1 ≤ o.nominal) (q : SwitchRequest) (hres : result = .completed ∨ result = .bothOpen) :
    changeoverOutcomes [⟨q, result⟩] s = completeChangeover q.target result s := by
  have hone : changeoverOutcome ⟨q, result⟩ s = completeChangeover q.target result s := by
    rcases hres with rfl | rfl <;> rfl
  have hidle : judgeChangeover (completeChangeover q.target result s) = completeChangeover q.target result s := by
    refine judgeChangeover_idle (.inl ?_)
    rw [completeChangeover_eq ho hn hl hd, changeoverDue, offerEvent_lsc]
    have : ¬ o.nominal ≤ 0 := by omega
    simp [Lsc.advanced, Order.runs, this]
  simp only [changeoverOutcomes, List.foldl_cons, List.foldl_nil, hone, hidle]

end Changeover

/-- An abandoned source switch leaves the order, and the changeover waits under the fault mark (R191). -/
theorem changeoverOutcomes_abandoned (s : State) (q : SwitchRequest) (old : Option Route) :
    changeoverOutcomes [⟨q, .abandoned old⟩] s = { s with lsc := { s.lsc with switching := false, faultMark := true } } :=
  judgeChangeover_idle (.inr rfl)

/-! ### The record takes the outcome at a TERMINUS (R144) -/

theorem evaluateIfRemoved_same {s t : State} (h : t.trs.train.length = s.trs.train.length) : evaluateIfRemoved s t = t := by
  simp [evaluateIfRemoved, h]

theorem removeBefore_after (n : SeqNo) {l : List Entry} (h : ∀ e ∈ l, seqAfter n e.seq = false) : removeBefore n l = l := by
  induction l with
  | nil => rfl
  | cons a l ih =>
    cases l with
    | nil => rfl
    | cons b l => simp [removeBefore, h a List.mem_cons_self, ih fun e he => h e (List.mem_cons_of_mem _ he)]

section Record
variable {s : State} {q : SwitchRequest} {r : OpenCut} (hrec : s.csq.record = some r) (htag : q.tag.record = some r.number)
include hrec htag

theorem concernsOpenRecord_own : concernsOpenRecord q.tag s = true := by simp [concernsOpenRecord, hrec, htag]

theorem cutOutcome_bothOpen : cutOutcome ⟨q, .bothOpen⟩ s
    = { s with csq := { s.csq with record := some { r with flags := { r.flags with valveFault := true } } } } := by
  simp only [cutOutcome, concernsOpenRecord_own hrec htag, if_true]
  simp [flagRecord, modifyRecord, putCsq, hrec]

variable (hu : q.tag.fromUnknown = false) (old : Option Route)
include hu

/-- An abandoned HEAD: back on the old route the stage is LEAD again, unless the final has executed (R144). -/
theorem cutOutcome_head (hk : q.tag.kind = .head) : cutOutcome ⟨q, .abandoned old⟩ s = { s with csq := { s.csq with
    routeInUse := if s.csq.routeInUse = some q.target then old else s.csq.routeInUse
    record := some { r with
      flags := { r.flags with valveFault := true }
      stage := if r.finalExecuted = true then r.stage else .lead } } } := by
  have hc := concernsOpenRecord_own hrec htag
  by_cases hin : s.csq.routeInUse = some q.target <;> by_cases hfin : r.finalExecuted = true <;>
    simp [cutOutcome, cutAbandoned, hc, htag, hu, hk, hin, hfin, flagRecord, modifyRecord, putCsq, hrec]

/-- An abandoned FINAL: the record closes with VALVE_FAULT and the state is HELD, here with no entry before the cut entry (R21, R144, R146). -/
theorem cutOutcome_final (hk : q.tag.kind = .final) (hb : ∀ e ∈ s.trs.train, seqAfter r.cutEntry e.seq = false) :
    cutOutcome ⟨q, .abandoned old⟩ s = { offerEvent
        (.cutClosed r.first r.last (({ r.flags with valveFault := true } : CutFlags).handedOn (logFull s)))
        (appendToLog (.cut (({ r with flags := { r.flags with valveFault := true } } : OpenCut).closed s.mtr.count s.mtr.trim)) s) with
      csq := { s.csq with
        state := .held
        routeInUse := if s.csq.routeInUse = some q.target then old else s.csq.routeInUse
        record := none
        queue := []
        settleRemaining := 0 } } := by
  obtain ⟨u, hu'⟩ : ∃ u : State, u = { s with csq := { s.csq with
      routeInUse := if s.csq.routeInUse = some q.target then old else s.csq.routeInUse
      record := some { r with flags := { r.flags with valveFault := true } } } } := ⟨_, rfl⟩
  have hflag : flagRecord (fun f => { f with valveFault := true })
      (if s.csq.routeInUse = some q.target then putCsq (fun c => { c with routeInUse := old }) s else s) = u := by
    rw [hu']
    split <;> simp [flagRecord, modifyRecord, putCsq, hrec]
  have hout : cutOutcome ⟨q, .abandoned old⟩ s = closeRecord true .held u := by
    simp only [cutOutcome, cutAbandoned, concernsOpenRecord_own hrec htag, if_true, htag, hu, hk, Option.isSome_some, Bool.and_self,
      Bool.false_and, Bool.false_eq_true, if_false, hflag]
  have hput : ∀ v : State, v.trs = s.trs → putTrain (removeBefore r.cutEntry v.trs.train) v = v := fun v hv => by
    rw [hv, removeBefore_after _ hb, ← hv]
    exact putTrain_same rfl
  rw [hout, hu', closeRecord]
  simp only [if_true]
  rw [hput _ (by rw [offerEvent_trs, appendToLog_trs])]
  simp only [putCsq, appendToLog, offerEvent_offered]
  split <;> rfl

end Record

/-! ### The obligation -/

section Limits
variable {x : RouteState} (hs : x.startupClose = false)
include hs

theorem confirmedNow_opened : (x.withLimit .opened true).confirmedNow = { x with openLimit := true, travel := none } := by
  simp only [RouteState.withLimit, RouteState.confirmedNow, hs]

theorem confirmedNow_closed : (x.withLimit .closed true).confirmedNow = { x with closeLimit := true, travel := none } := by
  simp only [RouteState.withLimit, RouteState.confirmedNow, hs]

theorem faulted_closed : (x.withLimit .closed true).faulted = { x with closeLimit := true, travel := none, latch := .none, faultMark := true } := by
  simp only [RouteState.withLimit, RouteState.faulted, hs]

theorem faulted_travel : x.faulted = { x with travel := none, latch := .none, faultMark := true } := by
  simp only [RouteState.faulted, hs]

end Limits

/-- A CLOSE in travel whose limit shows: confirmed, or a fault when both limits show (R173). -/
theorem travelEnd_closed {x : RouteState} (hl : x.latch = .closed) (ht : x.travel.isSome = true) :
    (x.withLimit .closed true).travelEnd = some (if x.openLimit = true then .fault else .confirmed) := by
  obtain ⟨due, hd⟩ := Option.isSome_iff_exists.mp ht
  cases hx : x.openLimit <;> simp [RouteState.withLimit, RouteState.travelEnd, RouteState.shows, latchPosition, hl, hd, hx]

/-- The last close of BREAK ends at its limit, before the requester takes the outcome (R173, R176, R178). -/
def State.closeShown (s : State) (o : Route) : State :=
  if (routeState s o).openLimit = true then raiseAlarm .valveFault (routeNumber o) { s with vld := { s.vld with
    inFlight := none
    routes := routeSet s.vld.routes o { routeState s o with closeLimit := true, travel := none, latch := .none, faultMark := true } } }
  else { s with vld := { s.vld with
    inFlight := none
    routes := routeSet s.vld.routes o { routeState s o with closeLimit := true, travel := none } } }

theorem closeShown_eq (s : State) (o : Route) : s.closeShown o = { s with vld := (s.closeShown o).vld, spc := (s.closeShown o).spc } := by
  unfold State.closeShown
  split
  · rw [raiseAlarm_alarmed]
  · rfl

section LastClose
variable {s : State} (q : SwitchRequest) (old : Option Route) {o : Route} (hw : s.vld.waiting = []) (hl : (routeState s o).latch = .closed) (ht : (routeState s o).travel.isSome = true)
  (hst : (routeState s o).startupClose = false)
include hw hl ht hst

/-- The state in which the switch takes the end of its last close. -/
theorem exec_limitChange_lastClose (hr : s.running = true) : ∃ u : State,
    exec (.limitChange o .closed true) s
      = .next (commandEnded o false (if (routeState s o).openLimit = true then .fault else .confirmed) u)
    ∧ u.cfl = s.cfl ∧ u.trs = s.trs ∧ u.vld.inFlight = s.vld.inFlight
    ∧ switchCommandEnded ⟨q, old, .breaking, [o], false⟩ o (if (routeState s o).openLimit = true then .fault else .confirmed) u
      = (s.closeShown o, [⟨q, if (routeState s o).openLimit = true then .bothOpen else .completed⟩]) := by
  have hend := travelEnd_closed hl ht
  by_cases hx : (routeState s o).openLimit = true
  · rw [if_pos hx] at hend
    refine ⟨raiseAlarm .valveFault (routeNumber o) (putRoute o ((routeState s o).withLimit .closed true).faulted s), ?_, ?_, ?_, ?_, ?_⟩
    · rw [exec_limitChange_fault hr hend, hst, if_pos hx]
    · rw [raiseAlarm_cfl]; rfl
    · rw [raiseAlarm_trs]; rfl
    · rw [raiseAlarm_vld]; rfl
    · rw [if_pos hx, switchCommandEnded_ended q old o .fault (by rw [raiseAlarm_vld]; exact hw), faulted_closed hst, State.closeShown, if_pos hx,
        raiseAlarm_alarmed, raiseAlarm_alarmed, if_pos hx]
      rfl
  · rw [if_neg hx] at hend
    refine ⟨putRoute o ((routeState s o).withLimit .closed true).confirmedNow s, ?_, rfl, rfl, rfl, ?_⟩
    · rw [exec_limitChange_confirmed hr hend, hst, if_neg hx]
    · rw [if_neg hx, switchCommandEnded_ended q old o .confirmed (by exact hw), confirmedNow_closed hst, State.closeShown, if_neg hx, if_neg hx]
      rfl

end LastClose

theorem fillLaunched_eq (e : Entry) (v : Nat) : e.fillLaunched v
    = if e.launched = none then { e with launched := some v, remaining := e.remaining + v - e.nominal } else e := by
  cases h : e.launched with
  | none =>
    have hmax : (max 0 ((e.remaining : Int) + v - e.nominal)).toNat = e.remaining + v - e.nominal := by omega
    simp [Entry.fillLaunched, h, hmax]
  | some w => simp [Entry.fillLaunched, h]

/-- A target that times out in MAKE: the state in which the requester takes the abandoned switch (R173, R177). -/
def State.makeExpired (s : State) (target : Route) (due : Nat) : State :=
  raiseAlarm .valveFault (routeNumber target) { s.advanceTo due with vld := { s.vld with
    inFlight := none
    routes := routeSet s.vld.routes target { routeState s target with travel := none, latch := .none, faultMark := true } } }

theorem makeExpired_eq (s : State) (target : Route) (due : Nat) : s.makeExpired target due
    = { s with clock := max s.clock (due * 1000), vld := (s.makeExpired target due).vld, spc := (s.makeExpired target due).spc } := by
  rw [State.makeExpired, raiseAlarm_alarmed]
  rfl

/-- The cut log is not touched by an alarm (R204, R205). -/
theorem logFull_makeExpired (s : State) (target : Route) (due : Nat) : logFull (s.makeExpired target due) = logFull s := by
  rw [State.makeExpired, raiseAlarm_alarmed]
  unfold logFull Spc.alarmed Spc.offered
  dsimp only
  split <;> rfl

theorem loggedWithCsq (e : Event) (r : LogRecord) (c : Csq) (s : State) :
    offerEvent e (appendToLog r { s with csq := c }) = { offerEvent e (appendToLog r s) with csq := c } := by
  simp only [appendToLog, offerEvent_offered]
  split <;> rfl

section Expired
variable {s : State} {q : SwitchRequest} (old : Option Route) {due : Nat} (hw : s.vld.waiting = [])
  (ht : (routeState s q.target).travel = some due) (hst : (routeState s q.target).startupClose = false)
include hw ht hst

/-- The state in which the switch takes the expiry of its target. -/
theorem exec_travelTimerExpiry_make (hr : s.running = true) : ∃ u : State,
    exec (.travelTimerExpiry q.target) s = .next (commandEnded q.target false .fault u)
    ∧ u.cfl = s.cfl ∧ u.trs = s.trs ∧ u.vld.inFlight = s.vld.inFlight
    ∧ switchCommandEnded ⟨q, old, .making, [], false⟩ q.target .fault u = (s.makeExpired q.target due, [⟨q, .abandoned old⟩]) := by
  refine ⟨raiseAlarm .valveFault (routeNumber q.target) (putRoute q.target (routeState s q.target).faulted (s.advanceTo due)), ?_, ?_, ?_, ?_, ?_⟩
  · rw [exec_travelTimerExpiry hr ht, hst]
  · rw [raiseAlarm_cfl]; rfl
  · rw [raiseAlarm_trs]; rfl
  · rw [raiseAlarm_vld]; rfl
  · rw [switchCommandEnded_abandoned q old _ (by rw [raiseAlarm_vld]; exact hw), faulted_travel hst, State.makeExpired, raiseAlarm_alarmed,
      raiseAlarm_alarmed]
    rfl

end Expired

/-- Settles O43: the end of a command goes to the switch in flight, and the outcome that this brings to LSC or CSQ. -/
theorem switchMakesBreaksAndLaunches : Obligations.SwitchMakesBreaksAndLaunches := by
  refine ⟨?_, ?_, ?_, ?_⟩
  · intro s q o due ho hne hf hlatch htravel hcl hst hocl
    have hend : ((routeState s q.target).withLimit .opened true).travelEnd = some .confirmed := by
      simp [RouteState.withLimit, RouteState.travelEnd, RouteState.shows, latchPosition, hlatch, htravel, hcl]
    have hold : ∀ x, routeState (putCurrent (some q.target) (putRoute q.target x s)) o = routeState s o := fun x =>
      routeState_putRoute_other hne.symm x s
    rw [exec_limitChange_confirmed (running_of_hasRole ho) hend, hst,
      commandEnded_origin (s := putRoute _ _ s) (by exact hf) (by simp [InFlight.drives]) _ (by exact ho),
      switchCommandEnded_made q (by rw [routeState_putRoute_other hne.symm]; exact hocl), State.closingRoute, hold, confirmedNow_opened hst]
    rfl
  · intro s q o n order rest ho hf hw x hlatch htravel hst horders hnext hlen hds hnom prior closed ended entered told
    obtain ⟨u, hexec, hcfl, htrs, hfl, hend⟩ := exec_limitChange_lastClose q (some o) hw hlatch htravel hst (running_of_hasRole ho)
    have hclosed : s.closedTrain = closed := by
      have hfill : (fun e : Entry => e.fillLaunched s.lsc.running.launched) = fun e => if e.launched = none then { e with
          launched := some s.lsc.running.launched
          remaining := e.remaining + s.lsc.running.launched - e.nominal } else e := funext fun e => fillLaunched_eq e _
      cases hseq : s.lsc.running.seq with
      | none => simp only [State.closedTrain, closed, hseq]
      | some m => simp only [State.closedTrain, closed, hseq, hfill]
    have hrole : u.hasRole .origin = true := by simpa [State.hasRole, State.running, hcfl] using ho
    have hlsc : (s.closeShown o).lsc = s.lsc := by rw [closeShown_eq]
    have hmtr : (s.closeShown o).mtr = s.mtr := by rw [closeShown_eq]
    have hshown : (s.closeShown o).trs = s.trs := by rw [closeShown_eq]
    have hrun : (s.closeShown o).dsu.departureRun = 0 := by
      rw [closeShown_eq]
      exact hds.uncounted (by simp [State.nonOrigin, show s.cfl.published.role = some .origin from ((hasRole_iff s _).mp ho).2])
    have htrain : (s.closeShown o).closedTrain = closed := by
      rw [← hclosed]
      unfold State.closedTrain
      rw [hlsc, hshown]
    have hmark : ((if (routeState s o).openLimit = true then SwitchResult.bothOpen else .completed) == .bothOpen) = (routeState s o).openLimit := by
      cases (routeState s o).openLimit <;> rfl
    have hdone := completeChangeover_eq (s := s.closeShown o) (by rw [hlsc]; exact horders) (by rw [hlsc]; exact hnext) (by rw [hshown]; exact hlen) hrun
      q.target (if (routeState s o).openLimit = true then .bothOpen else .completed)
    have hentered : ({ s.closeShown o with trs := { (s.closeShown o).trs with
        train := (s.closeShown o).closedTrain ++ [entryOfOrder n order] } } : State) = entered := by
      rw [hshown, htrain]
      rfl
    rw [hentered, hlsc, hmtr, Lsc.advanced, hmark] at hdone
    rw [hexec, commandEnded_origin (hfl.trans hf) (by simp [InFlight.drives]) _ hrole, hend,
      changeoverOutcomes_completed (s := s.closeShown o) (by rw [hlsc]; exact horders) (by rw [hlsc]; exact hnext) (by rw [hshown]; exact hlen) hrun
        _ hnom q (by split <;> simp), hdone]
    rfl
  · intro s q old due hr hf hw ht hst left route
    obtain ⟨u, hexec, hcfl, htrs, hfl, hend⟩ := exec_travelTimerExpiry_make old hw ht hst hr
    have hrole : ∀ r, u.hasRole r = s.hasRole r := fun r => by simp [State.hasRole, State.running, hcfl]
    have hcsq : (s.makeExpired q.target due).csq = s.csq := by rw [makeExpired_eq]
    have hlsc : (s.makeExpired q.target due).lsc = s.lsc := by rw [makeExpired_eq]
    have hmtr : (s.makeExpired q.target due).mtr = s.mtr := by rw [makeExpired_eq]
    have hleft : (s.makeExpired q.target due).trs = s.trs := by rw [makeExpired_eq]
    refine ⟨fun ho => ?_, fun r hterm hrec htag hu => ⟨fun hk => ?_, fun hk hb => ?_⟩⟩
    · rw [hexec, commandEnded_origin (hfl.trans hf) (by simp [InFlight.drives]) _ (by rw [hrole]; exact ho), hend, changeoverOutcomes_abandoned, hlsc]
      rfl
    · have hcut := cutOutcome_head (s := s.makeExpired q.target due) (by rw [hcsq]; exact hrec) htag hu old hk
      rw [hexec, commandEnded_terminus (hfl.trans hf) (by simp [InFlight.drives]) _ (by rw [hrole]; exact hterm), hend]
      simp only [cutOutcomes, List.foldl_cons, List.foldl_nil, hcut]
      rw [evaluateIfRemoved_same (by rw [htrs, hleft]), hcsq]
      rfl
    · have hcut := cutOutcome_final (s := s.makeExpired q.target due) (by rw [hcsq]; exact hrec) htag hu old hk (by rw [hleft]; exact hb)
      rw [hexec, commandEnded_terminus (hfl.trans hf) (by simp [InFlight.drives]) _ (by rw [hrole]; exact hterm), hend]
      simp only [cutOutcomes, List.foldl_cons, List.foldl_nil, hcut]
      rw [evaluateIfRemoved_same (by simp [htrs, hleft]), hcsq, hmtr, logFull_makeExpired]
      exact congrArg Host.Outcome.next (loggedWithCsq _ _ _ _).symm
  · intro s q o r ht hf hw x hlatch htravel hopen hst hrec htag
    obtain ⟨u, hexec, hcfl, htrs, hfl, hend⟩ := exec_limitChange_lastClose q (some o) hw hlatch htravel hst (running_of_hasRole ht)
    have hshown : s.closeShown o = raiseAlarm .valveFault (routeNumber o) { s with vld := { s.vld with
        inFlight := none
        routes := routeSet s.vld.routes o { routeState s o with closeLimit := true, travel := none, latch := .none, faultMark := true } } } :=
      if_pos hopen
    have hcut := cutOutcome_bothOpen (s := s.closeShown o) (q := q) (r := r) (by rw [closeShown_eq]; exact hrec) htag
    rw [hexec, commandEnded_terminus (hfl.trans hf) (by simp [InFlight.drives]) _ (by simpa [State.hasRole, State.running, hcfl] using ht), hend]
    simp only [if_pos (show (routeState s o).openLimit = true from hopen), cutOutcomes, List.foldl_cons, List.foldl_nil, hcut]
    rw [evaluateIfRemoved_same (by rw [hshown, raiseAlarm_trs, htrs]), hshown, raiseAlarm_csq, raiseAlarm_alarmed, raiseAlarm_alarmed]
    rfl

end Sys2Proof.Machine
end

