-- ==== Sys2Proof/Proofs/PulseCounts.lean ====
section
/-! SUPPORT. The mainline pulse's count, the trim nudge and the reset of every block: settled O2, O8 and O11. -/

namespace Sys2Proof.Machine

/-- Settles O2: POWER_ON_RESET is its own definition, block by block. -/
theorem powerOnResetRestoresEveryBlock : Obligations.PowerOnResetRestoresEveryBlock := fun _ => rfl

/-! ### The mainline pulse (R25 to R27) -/

theorem exec_mainlinePulse_refused {s : State} (h : s.running = false ∨ lastTakenCount < s.mtr.count) : exec .mainlinePulse s = .next s := by
  have hn : ¬ (s.running = true ∧ s.mtr.count ≤ lastTakenCount) := by
    rintro ⟨hr, hc⟩
    rcases h with h | h
    · simp [h] at hr
    · omega
  exact congrArg _ (if_neg hn)

theorem exec_mainlinePulse_taken {s : State} (hr : s.running = true) (hc : s.mtr.count ≤ lastTakenCount) :
    exec .mainlinePulse s = .next (takeMainline s) :=
  congrArg _ (if_pos ⟨hr, hc⟩)

/-- With T at −1,000,000 or above a pulse takes nothing from F (R26). -/
theorem pulsedFine_cast {s : State} (ht : -1000000 ≤ s.mtr.trim) :
    (pulsedFine s : Int) = s.mtr.fine + s.cfg.pulseWeight * (1000000 + s.mtr.trim) := by
  have h : (0 : Int) ≤ s.cfg.pulseWeight * (1000000 + s.mtr.trim) := Int.mul_nonneg (Int.natCast_nonneg _) (by omega)
  rw [pulsedFine, Int.natCast_add, Int.toNat_of_nonneg h]

theorem Dsu.eq_of_ended {a b : Dsu} (h : { a with departureRun := 0 } = { b with departureRun := 0 }) :
    { a with departureRun := b.departureRun } = b :=
  congrArg (fun d : Dsu => { d with departureRun := b.departureRun }) h

/-- Settles O8: the pulse's whole litres and rest, read off the base of the state. -/
theorem mainlinePulseCountsLitres : Obligations.MainlinePulseCountsLitres := by
  intro s
  refine ⟨exec_mainlinePulse_refused, fun hr hc ht => ⟨takeMainline s, exec_mainlinePulse_taken hr hc, ?_⟩⟩
  have hl : (1000000000 : Int) = ((litre : Nat) : Int) := rfl
  have hb := takeMainline_base s
  rw [hl, ← pulsedFine_cast ht, ← Int.natCast_emod, ← Int.natCast_ediv, ← Int.natCast_add]
  exact ⟨congrArg Nat.cast (congrArg Base.fine hb), congrArg Nat.cast (congrArg Base.count hb), congrArg Base.trim hb,
    congrArg Base.deliveryFine hb, congrArg Base.deliveryCount hb, congrArg Base.pending hb, congrArg Base.clock hb,
    congrArg Base.cfl hb, congrArg Base.tke hb, congrArg Base.prt hb, congrArg Base.hlu hb, congrArg Base.rxQueue hb,
    congrArg Base.beaconTimer hb, congrArg Base.restartCount hb, Dsu.eq_of_ended (congrArg Base.dsu hb)⟩

/-! ### The trim nudge (R34) -/

theorem exec_trimNudge {s : State} {q : Nudge} {rest : List Nudge} (h : s.mtr.nudges = q :: rest) :
    exec .trimNudge s = .next (takeNudge q rest s) := by
  simp [exec, execTrimNudge, h]

/-- An event that joins concerns SPC alone, and of the other blocks only the time stamps it (R203). -/
theorem offerEvent_putMtr (e : Event) (f : Mtr → Mtr) (s : State) :
    offerEvent e (putMtr f s) = { s with mtr := f s.mtr, spc := (offerEvent e s).spc } := by
  unfold offerEvent putMtr
  split <;> rfl

theorem offerEvent_joins {e : Event} {s : State} (h : s.spc.events.length < 64) :
    (offerEvent e s).spc = { s.spc with events := s.spc.events ++ [⟨s.now, e⟩] } := by
  simp [offerEvent, h]

theorem offerEvent_lost {e : Event} {s : State} (h : 64 ≤ s.spc.events.length) : (offerEvent e s).spc = { s.spc with
    lostCount := min 65535 (s.spc.lostCount + 1), alarms := s.spc.alarms ||| (1#32 <<< 21), lostOwed := true } := by
  simp [offerEvent, Nat.not_lt.mpr h, setAlarmBit, Alarm.bit]

/-- Settles O11: the nudge is one clamped step and one event offered. -/
theorem trimNudgeAppliesOneStep : Obligations.TrimNudgeAppliesOneStep := by
  intro s q rest hq
  refine ⟨takeNudge q rest s, exec_trimNudge hq, ?_⟩
  rw [takeNudge, offerEvent_putMtr]
  exact ⟨rfl, rfl, offerEvent_joins, offerEvent_lost⟩

end Sys2Proof.Machine
end

