-- ==== Sys2Proof/Proofs/Measured.lean ====
section
/-! SUPPORT. What the operations leave of the measured values: the configuration, the counts and T of MTR, M and Mh, and DSU. The operations
that leave the train alone leave all of them; those on the train may end the departure run as well (R75). -/

namespace Sys2Proof.Machine

/-- DSU as it was, or with the departure run ended (R75). -/
def Dsu.KeptFrom (old new : Dsu) : Prop := new = old ∨ new = { old with departureRun := 0 }

theorem Dsu.KeptFrom.refl (d : Dsu) : d.KeptFrom d := .inl rfl

theorem Dsu.KeptFrom.ended {old new : Dsu} (h : old.KeptFrom new) : old.KeptFrom { new with departureRun := 0 } := by
  rcases h with rfl | rfl
  · exact .inr rfl
  · exact .inr rfl

theorem Dsu.KeptFrom.trans {a b c : Dsu} (h : a.KeptFrom b) (h' : b.KeptFrom c) : a.KeptFrom c := by
  rcases h' with rfl | rfl
  · exact h
  · exact h.ended

/-- The configuration, the accumulators and counts, T, and M with its half. -/
def measures (s : State) : Cfl × Nat × Nat × Nat × Count32 × Int × Tke :=
  (s.cfl, s.mtr.fine, s.mtr.count, s.mtr.deliveryFine, s.mtr.deliveryCount, s.mtr.trim, s.tke)

/-- The state `s` has the measured values of `o`, the departure run perhaps ended. -/
structure MeasuredFrom (o s : State) : Prop where
  measures : measures s = measures o
  density : o.dsu.KeptFrom s.dsu

theorem MeasuredFrom.refl (s : State) : MeasuredFrom s s := ⟨rfl, .refl _⟩

theorem measuredFrom_congr {o s t : State} (hm : measures t = measures s) (hd : t.dsu = s.dsu) : MeasuredFrom o t ↔ MeasuredFrom o s :=
  ⟨fun h => ⟨hm.symm.trans h.measures, hd ▸ h.density⟩, fun h => ⟨hm.trans h.measures, hd ▸ h.density⟩⟩

/-! ### Single updates -/

section Updates
variable {o : State} (s : State)

@[simp] theorem measuredFrom_pending (l : List Instr) : MeasuredFrom o { s with pending := l } ↔ MeasuredFrom o s := measuredFrom_congr rfl rfl
@[simp] theorem measuredFrom_choices (n : Nat) : MeasuredFrom o { s with choices := n } ↔ MeasuredFrom o s := measuredFrom_congr rfl rfl
@[simp] theorem measuredFrom_clock (n : Nat) : MeasuredFrom o { s with clock := n } ↔ MeasuredFrom o s := measuredFrom_congr rfl rfl
@[simp] theorem measuredFrom_trs (x : Trs) : MeasuredFrom o { s with trs := x } ↔ MeasuredFrom o s := measuredFrom_congr rfl rfl
@[simp] theorem measuredFrom_prt (x : Prt) : MeasuredFrom o { s with prt := x } ↔ MeasuredFrom o s := measuredFrom_congr rfl rfl
@[simp] theorem measuredFrom_tlc (x : Tlc) : MeasuredFrom o { s with tlc := x } ↔ MeasuredFrom o s := measuredFrom_congr rfl rfl
@[simp] theorem measuredFrom_csq (x : Csq) : MeasuredFrom o { s with csq := x } ↔ MeasuredFrom o s := measuredFrom_congr rfl rfl
@[simp] theorem measuredFrom_dsq (x : Dsq) : MeasuredFrom o { s with dsq := x } ↔ MeasuredFrom o s := measuredFrom_congr rfl rfl
@[simp] theorem measuredFrom_vld (x : Vld) : MeasuredFrom o { s with vld := x } ↔ MeasuredFrom o s := measuredFrom_congr rfl rfl
@[simp] theorem measuredFrom_lsc (x : Lsc) : MeasuredFrom o { s with lsc := x } ↔ MeasuredFrom o s := measuredFrom_congr rfl rfl
@[simp] theorem measuredFrom_hlu (x : Hlu) : MeasuredFrom o { s with hlu := x } ↔ MeasuredFrom o s := measuredFrom_congr rfl rfl
@[simp] theorem measuredFrom_spc (x : Spc) : MeasuredFrom o { s with spc := x } ↔ MeasuredFrom o s := measuredFrom_congr rfl rfl
@[simp] theorem measuredFrom_nudges (l : List Nudge) : MeasuredFrom o { s with mtr := { s.mtr with nudges := l } } ↔ MeasuredFrom o s :=
  measuredFrom_congr rfl rfl
@[simp] theorem measuredFrom_putTrs (f : Trs → Trs) : MeasuredFrom o (putTrs f s) ↔ MeasuredFrom o s := measuredFrom_congr rfl rfl
@[simp] theorem measuredFrom_putCsq (f : Csq → Csq) : MeasuredFrom o (putCsq f s) ↔ MeasuredFrom o s := measuredFrom_congr rfl rfl
@[simp] theorem measuredFrom_putDsq (f : Dsq → Dsq) : MeasuredFrom o (putDsq f s) ↔ MeasuredFrom o s := measuredFrom_congr rfl rfl
@[simp] theorem measuredFrom_putLsc (f : Lsc → Lsc) : MeasuredFrom o (putLsc f s) ↔ MeasuredFrom o s := measuredFrom_congr rfl rfl
@[simp] theorem measuredFrom_putSpc (f : Spc → Spc) : MeasuredFrom o (putSpc f s) ↔ MeasuredFrom o s := measuredFrom_congr rfl rfl
@[simp] theorem measuredFrom_putHlu (f : Hlu → Hlu) : MeasuredFrom o (putHlu f s) ↔ MeasuredFrom o s := measuredFrom_congr rfl rfl
@[simp] theorem measuredFrom_putPeers (l : List Peer) : MeasuredFrom o (putPeers l s) ↔ MeasuredFrom o s := measuredFrom_congr rfl rfl
@[simp] theorem measuredFrom_putRoute (r : Route) (x : RouteState) : MeasuredFrom o (putRoute r x s) ↔ MeasuredFrom o s := measuredFrom_congr rfl rfl
@[simp] theorem measuredFrom_putInFlight (x : Option InFlight) : MeasuredFrom o (putInFlight x s) ↔ MeasuredFrom o s := measuredFrom_congr rfl rfl
@[simp] theorem measuredFrom_putCurrent (x : Option Route) : MeasuredFrom o (putCurrent x s) ↔ MeasuredFrom o s := measuredFrom_congr rfl rfl
@[simp] theorem measuredFrom_modifyRecord (f : OpenCut → OpenCut) : MeasuredFrom o (modifyRecord f s) ↔ MeasuredFrom o s := measuredFrom_congr rfl rfl
@[simp] theorem measuredFrom_flagRecord (f : CutFlags → CutFlags) : MeasuredFrom o (flagRecord f s) ↔ MeasuredFrom o s := measuredFrom_congr rfl rfl
@[simp] theorem measuredFrom_respond (k : RespStatus) (p : List Byte) : MeasuredFrom o (respond k p s) ↔ MeasuredFrom o s :=
  measuredFrom_congr rfl rfl
@[simp] theorem measuredFrom_refuse (w : Reason) : MeasuredFrom o (refuse w s) ↔ MeasuredFrom o s := measuredFrom_congr rfl rfl
@[simp] theorem measuredFrom_dropReceived : MeasuredFrom o (dropReceived s) ↔ MeasuredFrom o s := measuredFrom_congr rfl rfl
@[simp] theorem measuredFrom_advanceTo (n : Nat) : MeasuredFrom o (s.advanceTo n) ↔ MeasuredFrom o s := measuredFrom_congr rfl rfl
@[simp] theorem measuredFrom_modifyPort (p : Port) (f : PortState → PortState) : MeasuredFrom o (modifyPort p f s) ↔ MeasuredFrom o s := by
  cases p <;> exact measuredFrom_congr rfl rfl
@[simp] theorem measuredFrom_offerEvent (e : Event) : MeasuredFrom o (offerEvent e s) ↔ MeasuredFrom o s := by
  rw [offerEvent_eq, measuredFrom_spc]
@[simp] theorem measuredFrom_raiseAlarm (a : Alarm) (d : Nat) : MeasuredFrom o (raiseAlarm a d s) ↔ MeasuredFrom o s := by
  rw [raiseAlarm_eq, measuredFrom_spc]
@[simp] theorem measuredFrom_appendToLog (r : LogRecord) : MeasuredFrom o (appendToLog r s) ↔ MeasuredFrom o s := by
  unfold appendToLog; (repeat' split) <;> simp
@[simp] theorem measuredFrom_placeFrame (a : Alarm) (p : Port) (c : QueueClass) (f : Frame) :
    MeasuredFrom o (placeFrame a p c f s) ↔ MeasuredFrom o s := by
  rcases placeFrame_cases a p c f s with ⟨-, h⟩ | ⟨-, h⟩ <;> simp [h]

end Updates

/-! ### Operations that leave the train alone -/

section Alone
variable {o : State} (s : State)

@[simp] theorem measuredFrom_queueLostNotice : MeasuredFrom o (queueLostNotice s) ↔ MeasuredFrom o s := by unfold queueLostNotice; split <;> simp

@[simp] theorem measuredFrom_placeOwn (c : QueueClass) (f : Frame) (p : Port) : MeasuredFrom o (placeOwn c f p s) ↔ MeasuredFrom o s := by
  rw [(sentFrom_placeOwn c f p s).eq]
  exact measuredFrom_congr rfl rfl

@[simp] theorem measuredFrom_sendOwn (k : Kind) (p : List Byte) : MeasuredFrom o (sendOwn k p s) ↔ MeasuredFrom o s := by
  rw [(sentFrom_sendOwn k p s).eq]
  exact measuredFrom_congr rfl rfl

@[simp] theorem measuredFrom_sendAsk (n : Nat) : MeasuredFrom o (sendAsk n s) ↔ MeasuredFrom o s := by
  rw [(askedFrom_sendAsk n s).1.eq]
  exact measuredFrom_congr rfl rfl

@[simp] theorem measuredFrom_sendAskIfDue : MeasuredFrom o (sendAskIfDue s) ↔ MeasuredFrom o s := by unfold sendAskIfDue; split <;> simp

@[simp] theorem measuredFrom_leaveSynced : MeasuredFrom o (leaveSynced s) ↔ MeasuredFrom o s := by unfold leaveSynced; split <;> simp

@[simp] theorem measuredFrom_raiseGap : MeasuredFrom o (raiseGap s) ↔ MeasuredFrom o s := by simp [raiseGap]

@[simp] theorem measuredFrom_refuseInsertion : MeasuredFrom o (refuseInsertion s) ↔ MeasuredFrom o s := by simp [refuseInsertion]

@[simp] theorem measuredFrom_faultRoute (r : Route) : MeasuredFrom o (faultRoute r s) ↔ MeasuredFrom o s := by simp [faultRoute]

@[simp] theorem measuredFrom_commandRoute (r : Route) (p : Limit) (b : Bool) : MeasuredFrom o (commandRoute r p b s).1 ↔ MeasuredFrom o s := by
  rcases commandRoute_cases r p b s with ⟨-, x, h⟩ | ⟨-, x, h⟩ | ⟨-, x, h⟩ <;> simp [h]

end Alone

@[simp] theorem measuredFrom_commandCloses {o : State} (l : List Route) (x : InFlight) (s : State) :
    MeasuredFrom o (commandCloses l x s).1 ↔ MeasuredFrom o s := by
  induction l generalizing x s with
  | nil => rfl
  | cons r rest ih => simp only [commandCloses]; split <;> simp [ih]

section Switching
variable {o : State} (s : State)

@[simp] theorem measuredFrom_makeConfirmed (x : InFlight) : MeasuredFrom o (makeConfirmed x s).1 ↔ MeasuredFrom o s := by
  simp only [makeConfirmed]; (repeat' split) <;> simp

@[simp] theorem measuredFrom_startSwitch (q : SwitchRequest) : MeasuredFrom o (startSwitch q s).1 ↔ MeasuredFrom o s := by
  simp only [startSwitch]; (repeat' split) <;> simp [makeFaulted]

end Switching

@[simp] theorem measuredFrom_startWaiting {o : State} (n : Nat) (s : State) : MeasuredFrom o (startWaiting n s).1 ↔ MeasuredFrom o s := by
  induction n generalizing s with
  | zero => rfl
  | succ n ih =>
    simp only [startWaiting]
    split
    · split <;> simp [ih]
    · rfl

section Deciding
variable {o : State} (s : State)

@[simp] theorem measuredFrom_requestSwitch (q : SwitchRequest) : MeasuredFrom o (requestSwitch q s).1 ↔ MeasuredFrom o s := by
  rcases requestSwitch_cases q s with ⟨-, h⟩ | ⟨-, h⟩ | ⟨-, -, h⟩ <;> simp [h]

@[simp] theorem measuredFrom_switchCommandEnded (x : InFlight) (r : Route) (e : CommandEnd) :
    MeasuredFrom o (switchCommandEnded x r e s).1 ↔ MeasuredFrom o s := by
  simp only [switchCommandEnded]; (repeat' split) <;> simp [makeFaulted]

@[simp] theorem measuredFrom_resolveProduct (p : Nat) : MeasuredFrom o (resolveProduct p s).1 ↔ MeasuredFrom o s := by
  unfold resolveProduct; split <;> simp

@[simp] theorem measuredFrom_thresholdTarget (k : ActionKind) (r : OpenCut) : MeasuredFrom o (thresholdTarget k r s).1 ↔ MeasuredFrom o s := by
  unfold thresholdTarget; split <;> simp

@[simp] theorem measuredFrom_markReached (k : ActionKind) (t : Option Route) : MeasuredFrom o (markReached k t s) ↔ MeasuredFrom o s := by
  unfold markReached; split <;> simp

@[simp] theorem measuredFrom_reachThreshold (k : ActionKind) (x : Source) : MeasuredFrom o (reachThreshold k x s) ↔ MeasuredFrom o s := by
  simp only [reachThreshold]; (repeat' split) <;> simp

@[simp] theorem measuredFrom_judgeWith (f : Nat → Bool) (x : Source) : MeasuredFrom o (judgeWith f x s) ↔ MeasuredFrom o s := by
  simp only [judgeWith]; (repeat' split) <;> simp

@[simp] theorem measuredFrom_judgeVolume : MeasuredFrom o (judgeVolume s) ↔ MeasuredFrom o s := by unfold judgeVolume; split <;> simp

@[simp] theorem measuredFrom_judgeDensity : MeasuredFrom o (judgeDensity s) ↔ MeasuredFrom o s := by
  unfold judgeDensity changeToVolume; (repeat' split) <;> simp

@[simp] theorem measuredFrom_judgeThresholds : MeasuredFrom o (judgeThresholds s) ↔ MeasuredFrom o s := by
  unfold judgeThresholds; (repeat' split) <;> simp

@[simp] theorem measuredFrom_cutRlvChanged : MeasuredFrom o (cutRlvChanged s) ↔ MeasuredFrom o s := by unfold cutRlvChanged; (repeat' split) <;> simp

@[simp] theorem measuredFrom_cutDensityNotice : MeasuredFrom o (cutDensityNotice s) ↔ MeasuredFrom o s := by
  unfold cutDensityNotice; (repeat' split) <;> simp

@[simp] theorem measuredFrom_openDue : MeasuredFrom o (openDue s) ↔ MeasuredFrom o s := by unfold openDue openCut; (repeat' split) <;> simp

@[simp] theorem measuredFrom_leaveUnknown : MeasuredFrom o (leaveUnknown s) ↔ MeasuredFrom o s := by unfold leaveUnknown enterSteady; split <;> simp

@[simp] theorem measuredFrom_takeStream (t : Route) (x : Source) (k : ActionKind) : MeasuredFrom o (takeStream t x k s) ↔ MeasuredFrom o s := by
  simp [takeStream]

@[simp] theorem measuredFrom_countLitre : MeasuredFrom o (countLitre s) ↔ MeasuredFrom o s := by unfold countLitre; (repeat' split) <;> simp

@[simp] theorem measuredFrom_mergeActions (b : Bool) : MeasuredFrom o (mergeActions b s) ↔ MeasuredFrom o s := by
  unfold mergeActions; (repeat' split) <;> simp

@[simp] theorem measuredFrom_closeEnded (e : CommandEnd) : MeasuredFrom o (closeEnded e s) ↔ MeasuredFrom o s := by
  unfold closeEnded endDelivery flagActive modifyActive; (repeat' split) <;> simp

@[simp] theorem measuredFrom_handClose : MeasuredFrom o (handClose s).1 ↔ MeasuredFrom o s := by simp only [handClose]; (repeat' split) <;> simp

@[simp] theorem measuredFrom_requestClose (f : DeliveryFlags → DeliveryFlags) : MeasuredFrom o (requestClose f s).1 ↔ MeasuredFrom o s := by
  unfold requestClose noteCloseRequest flagActive modifyActive; (repeat' split) <;> simp

@[simp] theorem measuredFrom_doneTest : MeasuredFrom o (doneTest s).1 ↔ MeasuredFrom o s := by unfold doneTest; (repeat' split) <;> simp

@[simp] theorem measuredFrom_openEnded (e : CommandEnd) : MeasuredFrom o (openEnded e s).1 ↔ MeasuredFrom o s := by
  unfold openEnded noteCloseRequest flagActive modifyActive; (repeat' split) <;> simp

@[simp] theorem measuredFrom_openDelivery (c : Candidate) : MeasuredFrom o (openDelivery c s).1 ↔ MeasuredFrom o s := by
  simp only [openDelivery]; (repeat' split) <;> simp

@[simp] theorem measuredFrom_skipPassed : MeasuredFrom o (skipPassed s) ↔ MeasuredFrom o s := by unfold skipPassed; (repeat' split) <;> simp

@[simp] theorem measuredFrom_chooseCandidate : MeasuredFrom o (chooseCandidate s) ↔ MeasuredFrom o s := by
  unfold chooseCandidate; (repeat' split) <;> simp

@[simp] theorem measuredFrom_judgeCandidateOnce : MeasuredFrom o (judgeCandidateOnce s).1 ↔ MeasuredFrom o s := by
  simp only [judgeCandidateOnce]; (repeat' split) <;> simp

@[simp] theorem measuredFrom_judgeCandidate : MeasuredFrom o (judgeCandidate s) ↔ MeasuredFrom o s := by unfold judgeCandidate; split <;> simp

@[simp] theorem measuredFrom_afterDelivery (y : State × Bool) : MeasuredFrom o (afterDelivery y) ↔ MeasuredFrom o y.1 := by
  unfold afterDelivery; split <;> simp

@[simp] theorem measuredFrom_trailingTest : MeasuredFrom o (trailingTest s) ↔ MeasuredFrom o s := by unfold trailingTest; split <;> simp

@[simp] theorem measuredFrom_deliveryAfterEvaluation : MeasuredFrom o (deliveryAfterEvaluation s) ↔ MeasuredFrom o s := by
  unfold deliveryAfterEvaluation inEitherOrder; split <;> simp

@[simp] theorem measuredFrom_plainOutcome (r : Route) (e : CommandEnd) : MeasuredFrom o (plainOutcome r e s) ↔ MeasuredFrom o s := by
  unfold plainOutcome; (repeat' split) <;> simp

@[simp] theorem measuredFrom_deliveryResync : MeasuredFrom o (deliveryResync s) ↔ MeasuredFrom o s := by simp [deliveryResync]

@[simp] theorem measuredFrom_judgeNudge (e : Entry) : MeasuredFrom o (judgeNudge e s) ↔ MeasuredFrom o s := by unfold judgeNudge; split <;> simp

@[simp] theorem measuredFrom_transferComplete : MeasuredFrom o (transferComplete s) ↔ MeasuredFrom o s := by
  simp only [transferComplete]; split <;> simp

end Deciding

/-! ### Operations on the train -/

section Train
variable {o : State} {s : State} (h : MeasuredFrom o s)
include h

@[simp] theorem measuredFrom_putTrain (t : List Entry) : MeasuredFrom o (putTrain t s) := by
  by_cases hb : (batchAtStation t).map (·.seq) = (batchAtStation s.trs.train).map (·.seq)
  · rwa [putTrain_same hb, measuredFrom_trs]
  · exact ⟨h.measures, by simpa [putTrain, hb] using h.density.ended⟩

@[simp] theorem measuredFrom_updateEntry (n : SeqNo) (f : Entry → Entry) : MeasuredFrom o (updateEntry n f s) := measuredFrom_putTrain h _

@[simp] theorem measuredFrom_closeRecord (b : Bool) (x : CutState) : MeasuredFrom o (closeRecord b x s) := by
  unfold closeRecord; (repeat' split) <;> simp [h]

@[simp] theorem measuredFrom_cutAbandoned (q : SwitchRequest) (r : Option Route) : MeasuredFrom o (cutAbandoned q r s) := by
  simp only [cutAbandoned]; (repeat' split) <;> simp [h]

@[simp] theorem measuredFrom_cutOutcome (x : SwitchOutcome) : MeasuredFrom o (cutOutcome x s) := by
  unfold cutOutcome; (repeat' split) <;> simp [h]

end Train

@[simp] theorem measuredFrom_cutOutcomes {o : State} (l : List SwitchOutcome) {s : State} (h : MeasuredFrom o s) :
    MeasuredFrom o (cutOutcomes l s) := by
  unfold cutOutcomes
  induction l generalizing s with
  | nil => exact h
  | cons x rest ih => exact ih (measuredFrom_cutOutcome h x)

@[simp] theorem measuredFrom_executeSwitch {o : State} {s : State} (h : MeasuredFrom o s) (t : Route) (x : Source) (k : ActionKind) (b : Bool) :
    MeasuredFrom o (executeSwitch t x k b s) := by
  unfold executeSwitch; split <;> simp [h]

@[simp] theorem measuredFrom_executeDue {o : State} (n : Nat) {s : State} (h : MeasuredFrom o s) : MeasuredFrom o (executeDue n s) := by
  induction n generalizing s with
  | zero => exact h
  | succ n ih =>
    simp only [executeDue]
    split
    · split
      · exact ih (by simp [h])
      · exact h
    · exact h

section Cutting
variable {o : State} {s : State} (h : MeasuredFrom o s)
include h

@[simp] theorem measuredFrom_switchToTransmix : MeasuredFrom o (switchToTransmix s) := by unfold switchToTransmix; split <;> simp [h]

@[simp] theorem measuredFrom_checkProduct : MeasuredFrom o (checkProduct s) := by
  simp only [checkProduct]
  split
  · exact h
  · split
    · exact measuredFrom_switchToTransmix (by simp [h])
    · simp [h]
    · simp [h]

@[simp] theorem measuredFrom_executeAndSettle : MeasuredFrom o (executeAndSettle s) := by
  simp only [executeAndSettle]; split <;> simp [h]

@[simp] theorem measuredFrom_mergeCut (e : Entry) : MeasuredFrom o (mergeCut e s) := by
  unfold mergeCut withholdFinal; split <;> simp [h]

@[simp] theorem measuredFrom_cutEntered (n : SeqNo) : MeasuredFrom o (cutEntered n s) := by
  unfold cutEntered; (repeat' split) <;> simp [h]

@[simp] theorem measuredFrom_cutMissed (r : OpenCut) : MeasuredFrom o (cutMissed r s) := by
  simp only [cutMissed]; (repeat' split) <;> simp [h]

@[simp] theorem measuredFrom_cutDeclared (k : PassageKind) (n : SeqNo) (x : Int) : MeasuredFrom o (cutDeclared k n x s) := by
  unfold cutDeclared; (repeat' split) <;> simp [h]

@[simp] theorem measuredFrom_cutUntracked : MeasuredFrom o (cutUntracked s) := by unfold cutUntracked; split <;> simp [h]

@[simp] theorem measuredFrom_cutReleaseTo (r : Route) : MeasuredFrom o (cutReleaseTo r s) := by simp [cutReleaseTo, h]

@[simp] theorem measuredFrom_cutResync : MeasuredFrom o (cutResync s) := by simp [cutResync, h]

theorem measuredFrom_cutForceAdvance {t : State} (ht : cutForceAdvance s = some t) : MeasuredFrom o t := by
  unfold cutForceAdvance at ht
  split at ht
  · cases ht
  · next r _ =>
    generalize (if r.headPending = true then ActionKind.head else if r.finalPending = true then .final else .none) = k at ht
    split at ht
    · cases ht
    · simp only at ht
      split at ht
      · obtain rfl := Option.some.inj ht; simp [h]
      · split at ht
        · cases ht
        · obtain rfl := Option.some.inj ht; split <;> simp [h]

theorem measuredFrom_cutForceTransmix {t : State} (ht : cutForceTransmix s = some t) : MeasuredFrom o t := by
  unfold cutForceTransmix at ht
  split at ht
  · cases ht
  · obtain rfl := Option.some.inj ht; simp [h]

theorem measuredFrom_closeCommanded {t : State} (ht : closeCommanded s = some t) : MeasuredFrom o t := by
  unfold closeCommanded at ht
  split at ht
  · cases ht
  · split at ht
    · obtain rfl := Option.some.inj ht; simp [h]
    · cases ht

@[simp] theorem measuredFrom_countDelivered : MeasuredFrom o (countDelivered s) := by
  unfold countDelivered modifyActive; (repeat' split) <;> simp [h]

/-! ### Tracking -/

@[simp] theorem measuredFrom_handDeclaration (k : PassageKind) (e : Entry) : MeasuredFrom o (handDeclaration k e s) := by
  unfold handDeclaration noteDetection; (repeat' split) <;> simp [h]

@[simp] theorem measuredFrom_declare (k : PassageKind) (e : Entry) : MeasuredFrom o (declare k e s) := by
  simp only [declare]; (repeat' split) <;> simp [h]

@[simp] theorem measuredFrom_testWindow (b : Bool) (e : Entry) : MeasuredFrom o (testWindow b e s) := by
  unfold testWindow; (repeat' split) <;> simp [h]

@[simp] theorem measuredFrom_openWindow (n : SeqNo) : MeasuredFrom o (openWindow n s) := by
  simp only [openWindow]; split <;> simp [h]

end Cutting

theorem measuredFrom_visitEntry {o : State} (a : Bool) (b : Option SeqNo) {x : State × Tracker} (h : MeasuredFrom o x.1) (n : SeqNo) :
    MeasuredFrom o (visitEntry a b x n).1 := by
  simp only [visitEntry]
  (repeat' split) <;> simp [h]

theorem measuredFrom_visits {o : State} (a : Bool) (b : Option SeqNo) (l : List SeqNo) {x : State × Tracker} (h : MeasuredFrom o x.1) :
    MeasuredFrom o (l.foldl (visitEntry a b) x).1 := by
  induction l generalizing x with
  | nil => exact h
  | cons n rest ih => exact ih (measuredFrom_visitEntry a b h n)

@[simp] theorem measuredFrom_evaluateOnce {o : State} (a : Bool) (b : Option SeqNo) {s : State} (h : MeasuredFrom o s) :
    MeasuredFrom o (evaluateOnce a b s) := by
  simp only [evaluateOnce]
  split <;> simp [measuredFrom_visits, h]

theorem measuredFrom_evaluateRemovals {o : State} (n m : Nat) {s : State} (h : MeasuredFrom o s) : MeasuredFrom o (evaluateRemovals n m s) := by
  induction n generalizing m s with
  | zero => exact h
  | succ n ih =>
    simp only [evaluateRemovals]
    split
    · exact ih _ (measuredFrom_evaluateOnce _ _ h)
    · exact h

section Moves
variable {o : State} {s : State} (h : MeasuredFrom o s)
include h

@[simp] theorem measuredFrom_evaluate (a : Bool) (b : Option SeqNo) : MeasuredFrom o (evaluate a b s) := by
  unfold evaluate
  split
  · exact measuredFrom_evaluateRemovals _ _ (measuredFrom_evaluateOnce a b h)
  · exact h

@[simp] theorem measuredFrom_evaluateIfRemoved (t : State) : MeasuredFrom o (evaluateIfRemoved t s) := by
  unfold evaluateIfRemoved; split <;> simp [h]

@[simp] theorem measuredFrom_afterMove (b : Option SeqNo) : MeasuredFrom o (afterMove b s) := by
  unfold afterMove inEitherOrder; (repeat' split) <;> simp [h]

@[simp] theorem measuredFrom_trackLitre : MeasuredFrom o (trackLitre s) := by simp [trackLitre, h]

@[simp] theorem measuredFrom_trackDelta (n m : Nat) : MeasuredFrom o (trackDelta n m s) := by simp [trackDelta, h]

theorem measuredFrom_takeSnap (x : Nat) (n : SeqNo) (k : PassageKind) : MeasuredFrom o (takeSnap x n k s) := by
  unfold takeSnap; (repeat' split) <;> simp [h]

theorem measuredFrom_takeRemoval (x : Nat) (n : SeqNo) : MeasuredFrom o (takeRemoval x n s) := by
  unfold takeRemoval; (repeat' split) <;> simp [h]

/-! ### Launching and joining -/

theorem measuredFrom_completeChangeover (r : Route) (x : SwitchResult) : MeasuredFrom o (completeChangeover r x s) := by
  unfold completeChangeover appendOrderEntry closeRunningEntry; (repeat' split) <;> simp [h]

@[simp] theorem measuredFrom_changeoverOutcome (x : SwitchOutcome) : MeasuredFrom o (changeoverOutcome x s) := by
  unfold changeoverOutcome; split <;> simp [h, measuredFrom_completeChangeover]

end Moves

theorem measuredFrom_changeovers {o : State} (l : List SwitchOutcome) {s : State} (h : MeasuredFrom o s) :
    MeasuredFrom o (l.foldl (fun s o => changeoverOutcome o s) s) := by
  induction l generalizing s with
  | nil => exact h
  | cons x rest ih => exact ih (measuredFrom_changeoverOutcome h x)

@[simp] theorem measuredFrom_startWithConflict {o : State} (x : Order) (s : State) : MeasuredFrom o (startWithConflict x s).1 ↔ MeasuredFrom o s := by
  unfold startWithConflict startChangeover; (repeat' split) <;> simp

theorem measuredFrom_judgeChangeoverOnce {o : State} (s : State) : MeasuredFrom o (judgeChangeoverOnce s).1 ↔ MeasuredFrom o s := by
  unfold judgeChangeoverOnce; (repeat' split) <;> simp

theorem measuredFrom_judgeChangeovers {o : State} (n : Nat) {s : State} (h : MeasuredFrom o s) : MeasuredFrom o (judgeChangeovers n s) := by
  induction n generalizing s with
  | zero => exact h
  | succ n ih =>
    have h1 : MeasuredFrom o (judgeChangeoverOnce s).1 := (measuredFrom_judgeChangeoverOnce s).mpr h
    simp only [judgeChangeovers]
    split
    · next he => rwa [he] at h1
    · next he => rw [he] at h1; exact ih (measuredFrom_changeovers _ h1)

section Launching
variable {o : State} {s : State} (h : MeasuredFrom o s)
include h

@[simp] theorem measuredFrom_judgeChangeover : MeasuredFrom o (judgeChangeover s) := measuredFrom_judgeChangeovers _ h

@[simp] theorem measuredFrom_changeoverOutcomes (l : List SwitchOutcome) : MeasuredFrom o (changeoverOutcomes l s) := by
  unfold changeoverOutcomes
  split
  · exact h
  · exact measuredFrom_judgeChangeover (measuredFrom_changeovers _ h)

theorem measuredFrom_launchForceAdvance {t : State} (ht : launchForceAdvance s = some t) : MeasuredFrom o t := by
  unfold launchForceAdvance at ht
  split at ht
  · split at ht
    · cases ht
    · simp only at ht
      split at ht <;> (obtain rfl := Option.some.inj ht; simp [h])
  · cases ht

theorem measuredFrom_takeHold (a b c : Nat) : MeasuredFrom o (takeHold a b c s) := by
  unfold takeHold removeHold setHold putHolds; (repeat' split) <;> simp [h]

theorem measuredFrom_makeRoom {t : State} (ht : makeRoom s = some t) : MeasuredFrom o t := by
  unfold makeRoom at ht
  split at ht
  · cases ht
  · split at ht
    · obtain rfl := Option.some.inj ht
      refine measuredFrom_evaluateIfRemoved ?_ _
      split <;> simp [h]
    · obtain rfl := Option.some.inj ht; exact h

theorem measuredFrom_appendLaunch (m : LaunchMsg) (b : Bool) : MeasuredFrom o (appendLaunch m b s) := by
  simp only [appendLaunch]
  split
  · simpa using h
  · next s1 h1 =>
    refine measuredFrom_evaluate ?_ _ _
    split <;> simp [measuredFrom_makeRoom h h1]

theorem measuredFrom_placeLaunch (m : LaunchMsg) : MeasuredFrom o (placeLaunch m s) := by
  have hp : MeasuredFrom o (applyPrior m s) := by unfold applyPrior; split <;> simp [h]
  unfold placeLaunch
  (repeat' split) <;> simp [measuredFrom_appendLaunch, hp, h]

theorem measuredFrom_insertItem (b : ItemBody) : MeasuredFrom o (insertItem b s).1 := by
  simp only [insertItem]
  split
  · split <;> simp [h]
  · split
    · exact h
    · split
      · exact h
      · split
        · simpa using h
        · next s1 h1 => split <;> simp [measuredFrom_makeRoom h h1]

theorem measuredFrom_takeAdopted (m : ItemMsg) : MeasuredFrom o (takeAdopted m s) := by
  have h1 : MeasuredFrom o (putTrs (fun t => { t with transferTimer := some (s.now + 5000) }) s) := by simpa using h
  simp only [takeAdopted]
  split
  · simpa using h
  · next b _ =>
    have h2 := measuredFrom_insertItem h1 b
    (repeat' split) <;> simpa using h2

theorem measuredFrom_takeItem (x : Nat) (m : ItemMsg) : MeasuredFrom o (takeItem x m s) := by
  have ha : MeasuredFrom o (putTrs (fun t => { t with adopted := some (x, m.count) }) s) := by simpa using h
  unfold takeItem judgeItem
  (repeat' split) <;> simp only [measuredFrom_takeAdopted ha, measuredFrom_takeAdopted h, h]

end Launching

end Sys2Proof.Machine
end

