-- ==== Sys2Proof/Proofs/MeasuredCommands.lean ====
section
/-! SUPPORT. What the commands leave of the measured values: all but the resets, the loading, the pulses, the nudge and the density line leave
them, the departure run perhaps ended. -/

namespace Sys2Proof.Machine

section Ite
variable {o s t : State}

theorem measuredFrom_ite {c : Prop} [Decidable c] (ht : MeasuredFrom o t) (hs : MeasuredFrom o s) : MeasuredFrom o (if c then t else s) := by
  split
  · exact ht
  · exact hs

end Ite

/-! ### Transfers, ports and peers -/

section Transfers
variable {o : State} (s : State)

@[simp] theorem measuredFrom_transferExpired : MeasuredFrom o (transferExpired s) ↔ MeasuredFrom o s := by
  simp only [transferExpired]; (repeat' split) <;> simp

@[simp] theorem measuredFrom_reAskExpired : MeasuredFrom o (reAskExpired s) ↔ MeasuredFrom o s := by
  simp only [reAskExpired]; split <;> simp

@[simp] theorem measuredFrom_takeAsk (x : Nat) (a : AskMsg) : MeasuredFrom o (takeAsk x a s) ↔ MeasuredFrom o s := by
  simp only [takeAsk]; (repeat' split) <;> simp

@[simp] theorem measuredFrom_handItem : MeasuredFrom o (handItem s) ↔ MeasuredFrom o s := by
  unfold handItem; (repeat' split) <;> simp

@[simp] theorem measuredFrom_learnSequence (b : BeaconMsg) : MeasuredFrom o (learnSequence b s) ↔ MeasuredFrom o s := by
  unfold learnSequence; (repeat' split) <;> simp

@[simp] theorem measuredFrom_portBecomesUp (p : Port) : MeasuredFrom o (portBecomesUp p s) ↔ MeasuredFrom o s := by
  simp only [portBecomesUp, startLearning, measuredFrom_sendAskIfDue]; split <;> simp

@[simp] theorem measuredFrom_forwardFrame (p : Port) (k : Kind) (f : Frame) : MeasuredFrom o (forwardFrame p k f s) ↔ MeasuredFrom o s := by
  unfold forwardFrame; split <;> simp

@[simp] theorem measuredFrom_badFrame (p : Port) : MeasuredFrom o (badFrame p s) ↔ MeasuredFrom o s := by
  simp only [badFrame]; split <;> simp

@[simp] theorem measuredFrom_placeReceived (p : Port) (f : Frame) : MeasuredFrom o (placeReceived p f s) ↔ MeasuredFrom o s := by
  unfold placeReceived; split <;> simp

@[simp] theorem measuredFrom_receiveFrame (p : Port) (l : List Byte) : MeasuredFrom o (receiveFrame p l s) ↔ MeasuredFrom o s := by
  unfold receiveFrame receiveGood; (repeat' split) <;> simp

@[simp] theorem measuredFrom_beaconExpired (n : Nat) : MeasuredFrom o (beaconExpired n s) ↔ MeasuredFrom o s := by
  simp only [beaconExpired, sendBeacon]
  split
  · exact (measuredFrom_sendOwn _ _ _).trans (measuredFrom_congr rfl rfl)
  · exact measuredFrom_congr rfl rfl

@[simp] theorem measuredFrom_recomputeReference : MeasuredFrom o (recomputeReference s) ↔ MeasuredFrom o s := by
  simp only [recomputeReference]; split <;> simp

@[simp] theorem measuredFrom_createPeer (n : Nat) (b : BeaconMsg) (r : Role) (p : Port) :
    MeasuredFrom o (createPeer n b r p s) ↔ MeasuredFrom o s := by
  simp only [createPeer]; (repeat' split) <;> simp

@[simp] theorem measuredFrom_applyBeacon (q : Peer) (b : BeaconMsg) (r : Role) (p : Port) :
    MeasuredFrom o (applyBeacon q b r p s).1 ↔ MeasuredFrom o s := by
  simp only [applyBeacon]; (repeat' split) <;> simp

@[simp] theorem measuredFrom_judgeBeaconGap (n : Nat) : MeasuredFrom o (judgeBeaconGap n s) ↔ MeasuredFrom o s := by
  unfold judgeBeaconGap; split <;> simp

@[simp] theorem measuredFrom_peerSuspect (n : Nat) : MeasuredFrom o (peerSuspect n s) ↔ MeasuredFrom o s := by
  simp only [peerSuspect]; (repeat' split) <;> simp

@[simp] theorem measuredFrom_peerSilence (n : Nat) : MeasuredFrom o (peerSilence n s) ↔ MeasuredFrom o s := by
  unfold peerSilence; (repeat' split) <;> simp

@[simp] theorem measuredFrom_peerFree (n : Nat) : MeasuredFrom o (peerFree n s) ↔ MeasuredFrom o s := by
  unfold peerFree; (repeat' split) <;> simp

@[simp] theorem measuredFrom_holdEnds (n : Nat) : MeasuredFrom o (holdEnds n s) ↔ MeasuredFrom o s := by
  unfold holdEnds; (repeat' split) <;> simp

/-! ### Holds, reads and alarms -/

@[simp] theorem measuredFrom_putSlot (p : Nat) (x : HoldSlot) : MeasuredFrom o (putSlot p x s) ↔ MeasuredFrom o s := by simp [putSlot]

@[simp] theorem measuredFrom_judgeHold (r : Route) : MeasuredFrom o (judgeHold s r) ↔ MeasuredFrom o s := by
  unfold judgeHold; (repeat' split) <;> simp

@[simp] theorem measuredFrom_refreshHold (p : Nat) : MeasuredFrom o (refreshHold p s) ↔ MeasuredFrom o s := by
  unfold refreshHold; split <;> simp

@[simp] theorem measuredFrom_statusStale : MeasuredFrom o (statusStale s) ↔ MeasuredFrom o s := by
  unfold statusStale; split <;> simp

@[simp] theorem measuredFrom_readEvent : MeasuredFrom o (readEvent s) ↔ MeasuredFrom o s := by unfold readEvent; split <;> simp

@[simp] theorem measuredFrom_readCut : MeasuredFrom o (readCut s) ↔ MeasuredFrom o s := by unfold readCut; split <;> simp

@[simp] theorem measuredFrom_respondRead (x : Option (List Byte)) : MeasuredFrom o (respondRead x s) ↔ MeasuredFrom o s := by
  unfold respondRead; split <;> simp

@[simp] theorem measuredFrom_ackAlarms (x : BitVec 32) : MeasuredFrom o (ackAlarms x s) ↔ MeasuredFrom o s := by
  unfold ackAlarms; split <;> simp

@[simp] theorem measuredFrom_closeOpenRoutes : MeasuredFrom o (closeOpenRoutes s) ↔ MeasuredFrom o s := by
  unfold closeOpenRoutes
  generalize openRoutes s = l
  induction l generalizing s with
  | nil => rfl
  | cons r rest ih => exact (ih _).trans (measuredFrom_commandRoute s r .closed true)

@[simp] theorem measuredFrom_judgeHolds : MeasuredFrom o (judgeHolds s) ↔ MeasuredFrom o s := by
  unfold judgeHolds
  generalize allRoutes = l
  induction l generalizing s with
  | nil => rfl
  | cons r rest ih => exact (ih _).trans (measuredFrom_judgeHold s r)

@[simp] theorem measuredFrom_setStatus (v : PerRoute (BitVec 32)) : MeasuredFrom o (setStatus v s) ↔ MeasuredFrom o s := by
  unfold setStatus takeStatus restartStaleTimer; split <;> simp

@[simp] theorem measuredFrom_reportRouteToLaunch (r : Option Route) : MeasuredFrom o (reportRouteToLaunch r s) ↔ MeasuredFrom o s := by
  unfold reportRouteToLaunch; split <;> simp

@[simp] theorem measuredFrom_reportRouteToCut (r : Option Route) : MeasuredFrom o (reportRouteToCut r s) ↔ MeasuredFrom o s := by
  simp [reportRouteToCut]

theorem measuredFrom_readCurrentRoute {f : Option Route → State → State} (hf : ∀ r t, MeasuredFrom o (f r t) ↔ MeasuredFrom o t) :
    MeasuredFrom o (readCurrentRoute f s) ↔ MeasuredFrom o s := by
  unfold readCurrentRoute
  split <;> simp [hf]

end Transfers

/-! ### Commands that reach the train -/

section Commands
variable {o s : State} (h : MeasuredFrom o s)
include h

theorem measuredFrom_learningEnds : MeasuredFrom o (learningEnds s) := by
  unfold learningEnds
  split
  · exact h
  · exact measuredFrom_judgeChangeover (by simpa using h)

theorem measuredFrom_takeBeacon (n : Nat) (b : BeaconMsg) (r : Role) (p : Port) : MeasuredFrom o (takeBeacon n b r p s) := by
  unfold takeBeacon
  split
  · simpa using h
  · next q _ =>
    have h1 : MeasuredFrom o (applyBeacon q b r p s).1 := by simpa using h
    split
    · next he =>
      rw [he] at h1
      exact inEitherOrder_keeps (MeasuredFrom o) (fun _ ht => measuredFrom_trackDelta ht _ _) (fun _ ht => by simpa using ht)
        (fun _ ht => by simpa using ht) h1
    · next he =>
      rw [he] at h1
      simpa using h1

theorem measuredFrom_holdExpired (x p : Nat) : MeasuredFrom o (holdExpired x p s) := by
  unfold holdExpired removeHold putHolds
  (repeat' split) <;> simp [h]

theorem measuredFrom_startReading : MeasuredFrom o (startReading s) := by
  unfold startReading
  split
  · refine measuredFrom_evaluateIfRemoved (measuredFrom_cutOutcomes _ ?_) _
    simp [measuredFrom_readCurrentRoute, h]
  · (repeat' split) <;> simp [measuredFrom_readCurrentRoute, h]

theorem measuredFrom_judgePeerChange (t : State) : MeasuredFrom o (judgePeerChange t s) := by
  unfold judgePeerChange; split <;> simp [h]

theorem measuredFrom_commandEnded (r : Route) (b : Bool) (e : CommandEnd) : MeasuredFrom o (commandEnded r b e s) := by
  unfold commandEnded
  (repeat' split) <;> simp [h]

theorem measuredFrom_limitSettled (r : Route) (x : RouteState) : MeasuredFrom o (limitSettled r x s) := by
  unfold limitSettled
  split
  · exact measuredFrom_commandEnded (by simpa using h) _ _ _
  · exact measuredFrom_commandEnded (by simpa using h) _ _ _
  · split <;> simp [h]

theorem measuredFrom_enterOrder (x : Order) (n : Nat) (b : Bool) : MeasuredFrom o (enterOrder x n b s) := by
  unfold enterOrder judgeIfOnly
  (repeat' split) <;> simp [h]

theorem measuredFrom_cancelOrder (n : Nat) : MeasuredFrom o (cancelOrder n s) := by
  unfold cancelOrder
  (repeat' split) <;> simp [h]

theorem measuredFrom_releaseTo (n : Nat) : MeasuredFrom o (releaseTo n s) := by
  simp only [releaseTo]
  (repeat' split) <;> simp [h]

theorem measuredFrom_departureEnded : MeasuredFrom o (putDsu (fun d => { d with departureRun := 0 }) s) := ⟨h.measures, h.density.ended⟩

theorem measuredFrom_trainResync : MeasuredFrom o (trainResync s) := by
  unfold trainResync
  simpa using measuredFrom_putTrain h []

theorem measuredFrom_resync : MeasuredFrom o (resync s) := by
  simp only [resync]
  refine measuredFrom_trainResync (measuredFrom_departureEnded ?_)
  (repeat' split) <;> simp [h]

theorem measuredFrom_whenRunning {f : State → State} (hf : MeasuredFrom o (f s)) : MeasuredFrom o (whenRunning f s) := by
  unfold whenRunning; split
  · exact hf
  · simpa using h

theorem measuredFrom_respondDone {d : Option State} (hd : ∀ t, d = some t → MeasuredFrom o t) : MeasuredFrom o (respondDone d s) := by
  unfold respondDone
  split
  · simpa using hd _ rfl
  · simpa using h

omit h in
theorem measuredFrom_evaluated {d : Option State} {t : State} (hd : ∀ t, d = some t → MeasuredFrom o t)
    (ht : evaluated s d = some t) : MeasuredFrom o t := by
  obtain ⟨x, hx, rfl⟩ := Option.map_eq_some_iff.mp ht
  exact measuredFrom_evaluateIfRemoved (hd x hx) _

theorem measuredFrom_execRequest {c : Instr} {t : State} (ht : execRequest c s = .next t) : MeasuredFrom o t := by
  cases c <;> cases ht
  case readEvent | readCut | readTrain | readPeer | ackAlarms | setStatus => exact measuredFrom_whenRunning h (by simpa using h)
  case enterOrder => exact measuredFrom_whenRunning h (measuredFrom_ite (measuredFrom_enterOrder h _ _ _) (by simpa using h))
  case cancelOrder => exact measuredFrom_whenRunning h (measuredFrom_ite (measuredFrom_cancelOrder h _) (by simpa using h))
  case forceAdvance =>
    refine measuredFrom_whenRunning h ?_
    split
    · exact measuredFrom_respondDone h fun _ => measuredFrom_evaluated fun _ => measuredFrom_cutForceAdvance h
    · split
      · exact measuredFrom_respondDone h fun _ => measuredFrom_launchForceAdvance h
      · simpa using h
  case forceTransmix =>
    refine measuredFrom_whenRunning h ?_
    split
    · exact measuredFrom_respondDone h fun _ => measuredFrom_evaluated fun _ => measuredFrom_cutForceTransmix h
    · simpa using h
  case releaseTo => exact measuredFrom_whenRunning h (measuredFrom_ite (measuredFrom_releaseTo h _) (by simpa using h))
  case closeDelivery =>
    refine measuredFrom_whenRunning h ?_
    split
    · exact measuredFrom_respondDone h fun _ => measuredFrom_closeCommanded h
    · simpa using h
  case resync =>
    refine measuredFrom_whenRunning h ?_
    split
    · simpa using h
    · simpa using measuredFrom_resync h
  all_goals simpa using h

/-- A telegram taken from the receive queue (R107). -/
theorem measuredFrom_taken {k : Kind} {f : RxFrame → State → State} (hf : ∀ x, MeasuredFrom o (f x s)) :
    MeasuredFrom o (match headFrame k s with | some x => dropReceived (f x s) | none => s) := by
  split
  · simpa using hf _
  · exact h

theorem measuredFrom_receiveBeacon (f : RxFrame) : MeasuredFrom o (receiveBeacon f s) := by
  simp only [receiveBeacon]
  split
  · split
    · exact measuredFrom_judgePeerChange (measuredFrom_takeBeacon (by simpa using h) _ _ _ _) _
    · exact h
  · exact h

theorem measuredFrom_receiveLaunch (f : RxFrame) : MeasuredFrom o (receiveLaunch f s) := by
  unfold receiveLaunch
  split
  · exact measuredFrom_placeLaunch h _
  · exact h

theorem measuredFrom_receivePassage (f : RxFrame) : MeasuredFrom o (receivePassage f s) := by
  unfold receivePassage
  split
  · exact measuredFrom_takeRemoval (measuredFrom_takeSnap h _ _ _) _ _
  · exact h

theorem measuredFrom_receiveHold (f : RxFrame) : MeasuredFrom o (receiveHold f s) := by
  unfold receiveHold
  split
  · exact measuredFrom_takeHold h _ _ _
  · exact h

end Commands

/-- The commands that write the measured values: the resets and the loading, the pulses and the nudge, and the density line. -/
def writesMeasures : Instr → Bool
  | .powerOnReset | .resetRelease | .configLoadDone _ | .mainlinePulse | .trimNudge | .deliveryPulse | .densityCharacter _ _
  | .frameCharTimeout | .silenceTimerExpiry => true
  | _ => false

/-- Every other command leaves the measured values as they are, the departure run perhaps ended. -/
theorem measuredFrom_exec {c : Instr} {o s t : State} (hc : writesMeasures c = false) (h : MeasuredFrom o s) (ht : exec c s = .next t) :
    MeasuredFrom o t := by
  by_cases hq : Instr.byRequest c = true
  · exact measuredFrom_execRequest h (exec_byRequest hq s ▸ ht)
  cases c
  case powerOnReset | resetRelease | configLoadDone | mainlinePulse | trimNudge | deliveryPulse | densityCharacter | frameCharTimeout
      | silenceTimerExpiry => cases hc
  case readStatus | readEvent | readCut | readTrain | readPeer | ackAlarms | setStatus | enterOrder | cancelOrder | forceAdvance
      | forceTransmix | releaseTo | closeDelivery | resync => exact absurd rfl hq
  case portSignalDetected | portReachesUp | frameReceived | rxFrameAborted | peerSuspectExpiry | peerSilenceExpiry
      | conflictHoldExpiry | transferTimerExpiry | reAskTimerExpiry | answerItemHanded | holdRefreshExpiry
      | staleTimerExpiry | readEventRetire | readCutRetire => cases ht; exact measuredFrom_ite (by simpa using h) h
  case askSend | spiRequestAborted | lostNoticeQueued => cases ht; simpa using h
  case lossOfSignal =>
    cases ht
    (repeat' split) <;> simp [h]
  case noiseCleanExpiry => cases ht; exact measuredFrom_ite (by simpa [portClean] using h) h
  case beaconTaken => cases ht; exact measuredFrom_taken h fun x => measuredFrom_receiveBeacon h x
  case launchTaken => cases ht; exact measuredFrom_taken h fun x => measuredFrom_receiveLaunch h x
  case passageTaken => cases ht; exact measuredFrom_taken h fun x => measuredFrom_receivePassage h x
  case holdTaken => cases ht; exact measuredFrom_taken h fun x => measuredFrom_receiveHold h x
  case askTaken => cases ht; exact measuredFrom_taken h fun x => by simpa using h
  case itemTaken => cases ht; exact measuredFrom_taken h fun x => measuredFrom_takeItem h _ _
  case peerFreeExpiry => cases ht; exact measuredFrom_ite (measuredFrom_judgePeerChange (by simpa using h) _) h
  case learnTimerExpiry => cases ht; exact measuredFrom_ite (measuredFrom_learningEnds h) h
  case beaconTimerExpiry => cases ht; split <;> simp [h]
  case txPortFree => cases ht; split <;> simp [portFree, h]
  case limitChange => cases ht; exact measuredFrom_ite (measuredFrom_limitSettled (by simpa using h) _ _) (by simpa using h)
  case travelTimerExpiry =>
    cases ht
    split
    · exact measuredFrom_commandEnded (by simpa using h) _ _ _
    · exact h
  case startReading =>
    cases ht
    split
    · exact measuredFrom_startReading ((measuredFrom_vld _ _).mpr ((measuredFrom_advanceTo s _).mpr h))
    · exact h
  case holdEntryExpiry => cases ht; exact measuredFrom_ite (measuredFrom_holdExpired h _ _) h
  case spiBadRequest bytes =>
    rcases execSpiBadRequest_cases bytes s with ⟨-, e⟩ | ⟨-, why, -, e⟩ | ⟨c, -, e⟩ | ⟨-, e⟩ <;> rw [exec, e] at ht
    · cases ht; simpa using h
    · cases ht; simpa using h
    · exact measuredFrom_execRequest h ht
    · cases ht; exact h
  case trainingSymbolReceived p x =>
    cases ht
    refine measuredFrom_ite ?_ h
    cases x <;> simp only [trainingSymbol, measuredFrom_modifyPort, h]
    exact measuredFrom_ite (by simpa using h) (by simpa using h)

end Sys2Proof.Machine
end

