-- ==== Sys2Proof/Proofs/MeasuredSafety.lean ====
section
/-! SUPPORT. What every step keeps of the meter, M and DSU: settled O53 and O55. -/

namespace Sys2Proof.Machine

/-! ### The measured values under the density line -/

theorem measures_of_base {s t : State} (h : base t = base s) : measures t = measures s :=
  congrArg (fun b => (b.cfl, b.fine, b.count, b.deliveryFine, b.deliveryCount, b.trim, b.tke)) h

section Density
variable (s : State)

@[simp] theorem measures_putDsu (f : Dsu → Dsu) : measures (putDsu f s) = measures s := rfl
@[simp] theorem measures_putReceiver (r : Receiver) : measures (putReceiver r s) = measures s := rfl
@[simp] theorem measures_advanceTo (n : Nat) : measures (s.advanceTo n) = measures s := rfl
@[simp] theorem measures_raiseAlarm (a : Alarm) (d : Nat) : measures (raiseAlarm a d s) = measures s := measures_of_base (base_raiseAlarm a d s)
@[simp] theorem measures_densityNotice (b : Bool) : measures (densityNotice b s) = measures s := measures_of_base (base_densityNotice b s)
@[simp] theorem measures_judgeDeparture (n : Nat) : measures (judgeDeparture n s) = measures s := measures_of_base (base_judgeDeparture n s)

@[simp] theorem measures_acceptSample (v : Nat) : measures (acceptSample v s) = measures s := by
  simp only [acceptSample]; (repeat' split) <;> simp

@[simp] theorem measures_restartDensity : measures (restartDensity s) = measures s := by
  simp only [restartDensity]; (repeat' split) <;> simp

@[simp] theorem measures_rejectSample : measures (rejectSample s) = measures s := by
  unfold rejectSample; split <;> simp

@[simp] theorem measures_huntCharacter (v : Byte) (g : Bool) : measures (huntCharacter v g s) = measures s := by
  unfold huntCharacter; split <;> simp

@[simp] theorem measures_takeCharacter (v : Byte) (g : Bool) : measures (takeCharacter v g s) = measures s := by
  unfold takeCharacter frameCharacter judgeSample; (repeat' split) <;> simp

@[simp] theorem measures_abandonSample : measures (abandonSample s) = measures s := by
  unfold abandonSample; split <;> simp

@[simp] theorem measures_silenceExpired : measures (silenceExpired s) = measures s := by
  simp only [silenceExpired]; split <;> simp

end Density

/-! ### DSU within its ranges -/

theorem nonOrigin_congr {s t : State} (h : t.cfl = s.cfl) : t.nonOrigin = s.nonOrigin := by
  simp only [State.nonOrigin, State.running, h]

theorem measures_cfl {s t : State} (h : measures t = measures s) : t.cfl = s.cfl := congrArg (·.1) h

/-- DSU's ranges concern DSU and whether the role counts departures. -/
theorem densitySafe_congr {s t : State} (hn : t.nonOrigin = s.nonOrigin) (hd : t.dsu = s.dsu) (h : DensitySafe s) : DensitySafe t := by
  constructor <;> simp only [hn, hd]
  exacts [h.window, h.fill, h.samples, h.full, h.average, h.rejects, h.goods, h.unhealthy, h.departures, h.uncounted, h.frame]

theorem densitySafe_departureEnded {s : State} (h : DensitySafe s) : DensitySafe (putDsu (fun d => { d with departureRun := 0 }) s) :=
  ⟨h.window, h.fill, h.samples, h.full, h.average, h.rejects, h.goods, h.unhealthy, Nat.zero_le _, fun _ => rfl, h.frame⟩

/-- Where only the departure run may have ended, DSU is still within its ranges. -/
theorem MeasuredFrom.densitySafe {s t : State} (hm : MeasuredFrom s t) (h : DensitySafe s) : DensitySafe t := by
  have hn := nonOrigin_congr (measures_cfl hm.measures)
  rcases hm.density with hd | hd
  · exact densitySafe_congr hn hd h
  · exact densitySafe_congr (s := putDsu (fun d => { d with departureRun := 0 }) s) hn hd (densitySafe_departureEnded h)

theorem measuredFrom_densityNotice {o s : State} (b : Bool) (h : MeasuredFrom o s) : MeasuredFrom o (densityNotice b s) := by
  unfold densityNotice inEitherOrder
  (repeat' split) <;> simp [h]

theorem measuredFrom_declareDeparture {o s : State} (h : MeasuredFrom o s) : MeasuredFrom o (declareDeparture s) := by
  simp only [declareDeparture]
  (repeat' split) <;> simp [h]

section DensitySafe
variable {s : State} (h : DensitySafe s)
include h

theorem densitySafe_densityNotice (b : Bool) : DensitySafe (densityNotice b s) := (measuredFrom_densityNotice b (.refl s)).densitySafe h

theorem densitySafe_judgeDeparture (n : Nat) : DensitySafe (judgeDeparture n s) := by
  unfold judgeDeparture
  split
  · exact h
  · next hn =>
    split
    · split
      · exact ⟨h.window, h.fill, h.samples, h.full, h.average, h.rejects, h.goods, h.unhealthy, by simp only [putDsu]; omega,
          fun hf => absurd (congrArg not hf) hn, h.frame⟩
      · exact (measuredFrom_declareDeparture (.refl _)).densitySafe (densitySafe_departureEnded h)
    · exact densitySafe_departureEnded h

theorem densitySafe_restartDensity : DensitySafe (restartDensity s) := by
  have h1 : DensitySafe (putDsu Dsu.restarted s) := ⟨Nat.zero_le _, rfl, nofun, rfl, nofun, h.rejects, Nat.zero_le _, fun _ => Nat.zero_le _,
    Nat.zero_le _, fun _ => rfl, h.frame⟩
  have h2 : DensitySafe (if s.dsu.healthy = true then raiseAlarm .densityFault 0 (putDsu Dsu.restarted s) else putDsu Dsu.restarted s) := by
    split
    · exact densitySafe_congr (nonOrigin_congr (raiseAlarm_cfl ..)) (raiseAlarm_dsu ..) h1
    · exact h1
  simp only [restartDensity]
  split
  · exact densitySafe_densityNotice h2 false
  · exact h2

theorem densitySafe_rejectSample : DensitySafe (rejectSample s) := by
  unfold rejectSample
  split
  · exact ⟨h.window, h.fill, h.samples, h.full, h.average, by simp only [putDsu]; omega, Nat.zero_le _, fun _ => Nat.zero_le _,
      h.departures, h.uncounted, h.frame⟩
  · exact densitySafe_restartDensity ⟨h.window, h.fill, h.samples, h.full, h.average, Nat.zero_le _, Nat.zero_le _, fun _ => Nat.zero_le _,
      h.departures, h.uncounted, h.frame⟩

theorem densitySafe_putReceiver {r : Receiver} (hr : ∀ bytes last, r = .frame bytes last → 1 ≤ bytes.length ∧ bytes.length ≤ 3) :
    DensitySafe (putReceiver r s) :=
  ⟨h.window, h.fill, h.samples, h.full, h.average, h.rejects, h.goods, h.unhealthy, h.departures, h.uncounted, hr⟩

theorem densitySafe_advanceTo (n : Nat) : DensitySafe (s.advanceTo n) := densitySafe_congr (t := s.advanceTo n) (s := s) rfl rfl h

end DensitySafe

/-! ### An accepted sample (R65 to R69) -/

/-- The average of four samples lies where they lie (R65). -/
theorem averageOf_bounds {l : List Nat} (hl : l.length = 4) (hs : ∀ v ∈ l, 5000 ≤ v ∧ v ≤ 11000) :
    5000 ≤ averageOf l ∧ averageOf l ≤ 11000 := by
  have hlo := List.card_nsmul_le_sum l 5000 fun v hv => (hs v hv).1
  have hhi := List.sum_le_card_nsmul l 11000 fun v hv => (hs v hv).2
  rw [hl, smul_eq_mul] at hlo hhi
  unfold averageOf
  omega

/-- The window after an accepted sample: the newest four. -/
def windowAfter (window : List Nat) (value : Nat) : List Nat := (if window.length < 4 then window else window.drop 1) ++ [value]

theorem windowAfter_length {l : List Nat} (v : Nat) (h : l.length ≤ 4) : (windowAfter l v).length = min 4 (l.length + 1) := by
  unfold windowAfter
  split
  · simp only [List.length_append, List.length_singleton]; omega
  · simp only [List.length_append, List.length_drop, List.length_singleton]; omega

theorem mem_windowAfter {l : List Nat} {v x : Nat} (h : x ∈ windowAfter l v) : x ∈ l ∨ x = v := by
  unfold windowAfter at h
  rcases List.mem_append.mp h with h | h
  · split at h
    · exact .inl h
    · exact .inl (List.mem_of_mem_drop h)
  · exact .inr (List.mem_singleton.mp h)

theorem accept_eq (d : Dsu) (value now : Nat) : d.accept value now = { d with
    window := windowAfter d.window value
    fill := min 4 (d.fill + 1)
    average := if min 4 (d.fill + 1) = 4 then some (averageOf (windowAfter d.window value)) else d.average
    lastSample := some value
    healthy := d.healthy || min 255 (d.goodRun + 1) == 8
    rejectRun := 0
    goodRun := min 255 (d.goodRun + 1)
    silenceTimer := some (now + 1000) } := rfl

theorem densitySafe_accept {s : State} {v : Nat} (n : Nat) (h : DensitySafe s) (hv : 5000 ≤ v ∧ v ≤ 11000) :
    DensitySafe (putDsu (fun d => d.accept v n) s) := by
  have hw := windowAfter_length v h.window
  have hf := h.fill
  have hs : ∀ x ∈ windowAfter s.dsu.window v, 5000 ≤ x ∧ x ≤ 11000 := fun x hx => by
    rcases mem_windowAfter hx with hx | rfl
    · exact h.samples x hx
    · exact hv
  have hfull := h.full
  constructor <;> simp only [putDsu, accept_eq]
  case window => rw [hw]; exact Nat.min_le_left _ _
  case fill => rw [hw, hf]
  case samples => exact hs
  case full =>
    rw [hw, hf]
    split
    · next h4 => simp [h4]
    · next h4 => rw [hfull, beq_eq_false_iff_ne.mpr h4]; exact beq_eq_false_iff_ne.mpr (by omega)
  case average =>
    intro x hx
    split at hx
    · next h4 => cases hx; exact averageOf_bounds (by rw [hw, ← hf, h4]) hs
    · exact h.average x hx
  case rejects => exact Nat.zero_le _
  case goods => exact Nat.min_le_left _ _
  case unhealthy =>
    intro hu
    simp only [Bool.or_eq_false_iff, beq_eq_false_iff_ne] at hu
    have := h.unhealthy hu.1
    omega
  case departures => exact h.departures
  case uncounted => exact h.uncounted
  case frame => exact h.frame

section Samples
variable {s : State} (h : DensitySafe s)
include h

theorem densitySafe_acceptSample {v : Nat} (hv : 5000 ≤ v ∧ v ≤ 11000) : DensitySafe (acceptSample v s) := by
  have h1 := densitySafe_accept s.now h hv
  simp only [acceptSample]
  split
  · exact densitySafe_densityNotice (densitySafe_judgeDeparture h1 _) _
  · split
    · exact densitySafe_densityNotice h1 _
    · exact h1

theorem densitySafe_judgeSample (l : List Byte) : DensitySafe (judgeSample l s) := by
  unfold judgeSample
  split
  · next hc =>
    simp only [Bool.and_eq_true, decide_eq_true_eq] at hc
    exact densitySafe_acceptSample h ⟨hc.1.2, hc.2⟩
  · exact densitySafe_rejectSample h

theorem densitySafe_huntCharacter (v : Byte) (g : Bool) : DensitySafe (huntCharacter v g s) := by
  unfold huntCharacter
  split
  · exact densitySafe_putReceiver h fun _ _ he => by cases he; simp
  · exact h

theorem densitySafe_takeCharacter (v : Byte) (g : Bool) : DensitySafe (takeCharacter v g s) := by
  have hh : DensitySafe (putReceiver .hunt s) := densitySafe_putReceiver h nofun
  unfold takeCharacter
  split
  · exact densitySafe_huntCharacter h v g
  · split
    · unfold frameCharacter
      split
      · exact densitySafe_rejectSample hh
      · split
        · exact densitySafe_putReceiver h fun _ _ he => by cases he; simp only [List.length_append, List.length_singleton]; omega
        · exact densitySafe_judgeSample hh _
    · exact densitySafe_huntCharacter (densitySafe_rejectSample hh) v g

theorem densitySafe_abandonSample : DensitySafe (abandonSample s) := by
  unfold abandonSample
  split
  · exact h
  · exact densitySafe_rejectSample (densitySafe_putReceiver (densitySafe_advanceTo h _) nofun)

theorem densitySafe_silenceExpired : DensitySafe (silenceExpired s) := by
  unfold silenceExpired
  split
  · exact h
  · next due _ =>
    have h1 := densitySafe_advanceTo h due
    exact densitySafe_restartDensity ⟨h1.window, h1.fill, h1.samples, h1.full, h1.average, h1.rejects, h1.goods, h1.unhealthy,
      h1.departures, h1.uncounted, h1.frame⟩

end Samples

/-! ### Litres -/

/-- A litre leaves DSU as it is, or ends the departure run (R75). -/
theorem measuredFrom_cutAfterLitre {o s : State} (h : MeasuredFrom o s) : MeasuredFrom o (cutAfterLitre s) :=
  measuredFrom_evaluateIfRemoved (measuredFrom_executeAndSettle h) _

theorem measuredFrom_countLaunched {o s : State} (h : MeasuredFrom o s) : MeasuredFrom o (countLaunched s) := by
  unfold countLaunched
  exact measuredFrom_judgeChangeover (by simpa using h)

theorem measuredFrom_handLitre {o s : State} (h : MeasuredFrom o s) : MeasuredFrom o (handLitre s) := by
  unfold handLitre
  split
  · exact inEitherOrder_keeps (MeasuredFrom o) (fun _ => measuredFrom_cutAfterLitre) (fun _ => measuredFrom_trackLitre)
      (fun _ ht => by simpa using ht) (by simpa using h)
  · split
    · exact measuredFrom_countLaunched (measuredFrom_trackLitre h)
    · exact measuredFrom_trackLitre h

theorem emitLitres_density (n : Nat) (s : State) : s.dsu.KeptFrom (emitLitres n s).dsu := by
  induction n generalizing s with
  | zero => exact .refl _
  | succ n ih => exact .trans (measuredFrom_handLitre (.refl (putMtr _ s))).density (ih (emitLitre s))

theorem emitDeliveries_density (n : Nat) (s : State) : s.dsu.KeptFrom (emitDeliveries n s).dsu := by
  induction n generalizing s with
  | zero => exact .refl _
  | succ n ih => exact .trans (measuredFrom_countDelivered (.refl (putMtr _ s))).density (ih (emitDelivered s))

/-! ### The meter's and the tracking's values -/

section Ranges
variable {s t : State}

theorem meterSafe_congr (hm : measures t = measures s) (h : MeterSafe s) : MeterSafe t := by
  simp only [measures, Prod.mk.injEq] at hm
  obtain ⟨hc, hf, hn, hdf, -, ht, -⟩ := hm
  exact ⟨hf ▸ h.fine, hdf ▸ h.deliveryFine, hn ▸ h.count, by rw [State.cfg, hc]; exact h.pulseWeight, by rw [State.cfg, hc]; exact h.trimMax,
    by rw [State.cfg, hc, ht]; exact h.lowest, by rw [State.cfg, hc, ht]; exact h.highest⟩

theorem trackingSafe_congr (hc : t.cfl = s.cfl) (hk : t.tke = s.tke) (h : TrackingSafe s) : TrackingSafe t := by
  refine ⟨hk ▸ h.mix, hk ▸ h.halfMix, fun hr => ?_⟩
  rw [State.running, hc] at hr
  rw [State.cfg, hc, hk]
  exact h.running hr

/-- The meter's, the tracking's and the density unit's values kept within their ranges. -/
def MeasuresKept (s t : State) : Prop := (MeterSafe s → MeterSafe t) ∧ (TrackingSafe s → TrackingSafe t) ∧ (DensitySafe s → DensitySafe t)

theorem measuresKept_of_measures (hm : measures t = measures s) (hd : DensitySafe s → DensitySafe t) : MeasuresKept s t :=
  ⟨meterSafe_congr hm, trackingSafe_congr (measures_cfl hm) (congrArg (fun x => x.2.2.2.2.2.2) hm), hd⟩

theorem MeasuredFrom.kept (h : MeasuredFrom s t) : MeasuresKept s t := measuresKept_of_measures h.measures h.densitySafe

theorem measuresKept_ite {c : Prop} [Decidable c] (h : c → MeasuresKept s t) : MeasuresKept s (if c then t else s) := by
  split
  · next hc => exact h hc
  · exact ⟨id, id, id⟩

end Ranges

/-! ### Pulses and the nudge (R26 to R34) -/

section Pulses
variable {s : State}

/-- A mainline pulse of a chip within its ranges leaves F below 67 litres, so that it brings at most 66 of them (R27). -/
theorem pulsedFine_lt (h : MeterSafe s) : pulsedFine s < 67 * litre := by
  obtain ⟨hf, -, -, hp, hm, hlo, hhi⟩ := h
  have hw : (s.cfg.pulseWeight : Int) * (1000000 + s.mtr.trim) ≤ 65535 * 1005000 :=
    Int.mul_le_mul (by omega) (by omega) (by omega) (by omega)
  unfold pulsedFine litre
  omega

theorem takeMainline_density (s : State) : s.dsu.KeptFrom (takeMainline s).dsu := by
  unfold takeMainline
  generalize pulsedFine s / litre = n
  exact emitLitres_density n (putMtr _ s)

theorem emitDeliveries_density_from (x : Nat) (s : State) :
    s.dsu.KeptFrom (emitDeliveries (x / litre) (putMtr (fun m => { m with deliveryFine := x }) s)).dsu :=
  emitDeliveries_density _ (putMtr _ s)

theorem takeDelivery_density (s : State) : s.dsu.KeptFrom (takeDelivery s).dsu := emitDeliveries_density_from _ _

/-- Where CFL stays and the departure run at most ends, DSU stays within its ranges. -/
theorem densitySafe_of_kept {t : State} (hc : t.cfl = s.cfl) (hd : s.dsu.KeptFrom t.dsu) (h : DensitySafe s) : DensitySafe t :=
  have hm : MeasuredFrom s { s with dsu := t.dsu } := ⟨rfl, hd⟩
  have hn : t.nonOrigin = ({ s with dsu := t.dsu } : State).nonOrigin := nonOrigin_congr hc
  densitySafe_congr hn rfl (hm.densitySafe h)

/-- Where CFL and T stay, MTR's ranges are those of its accumulators and of C. -/
theorem meterSafe_of_counts {t : State} (hc : t.cfl = s.cfl) (ht : t.mtr.trim = s.mtr.trim) (hf : t.mtr.fine < litre)
    (hd : t.mtr.deliveryFine < litre) (hn : t.mtr.count ≤ 281474976710655) (h : MeterSafe s) : MeterSafe t := by
  refine ⟨hf, hd, hn, ?_, ?_, ?_, ?_⟩ <;> simp only [State.cfg, hc, ht]
  exacts [h.pulseWeight, h.trimMax, h.lowest, h.highest]

theorem litre_pos : 0 < litre := by decide

theorem measuresKept_takeMainline (hc : s.mtr.count ≤ lastTakenCount) : MeasuresKept s (takeMainline s) := by
  have hb := takeMainline_base s
  have hcfl : (takeMainline s).cfl = s.cfl := congrArg Base.cfl hb
  have hfine : (takeMainline s).mtr.fine = pulsedFine s % litre := congrArg Base.fine hb
  have hcount : (takeMainline s).mtr.count = s.mtr.count + pulsedFine s / litre := congrArg Base.count hb
  have hdel : (takeMainline s).mtr.deliveryFine = s.mtr.deliveryFine := congrArg Base.deliveryFine hb
  refine ⟨fun h => meterSafe_of_counts hcfl (congrArg Base.trim hb) ?_ (hdel ▸ h.deliveryFine) ?_ h,
    trackingSafe_congr hcfl (congrArg Base.tke hb), densitySafe_of_kept hcfl (takeMainline_density s)⟩
  · rw [hfine]; exact Nat.mod_lt _ litre_pos
  · have hn : pulsedFine s / litre < 67 := Nat.div_lt_of_lt_mul (by rw [Nat.mul_comm]; exact pulsedFine_lt h)
    unfold lastTakenCount at hc
    omega

theorem measuresKept_emitDeliveries (x : Nat) (s : State) :
    MeasuresKept s (emitDeliveries (x / litre) (putMtr (fun m => { m with deliveryFine := x }) s)) := by
  have hb := emitDeliveries_from x s
  have hd := emitDeliveries_density_from x s
  generalize emitDeliveries (x / litre) (putMtr (fun m => { m with deliveryFine := x }) s) = t at hb hd ⊢
  have hcfl : t.cfl = s.cfl := congrArg Base.cfl hb
  have hfine : t.mtr.fine = s.mtr.fine := congrArg Base.fine hb
  have hcount : t.mtr.count = s.mtr.count := congrArg Base.count hb
  have hdel : t.mtr.deliveryFine = x % litre := congrArg Base.deliveryFine hb
  refine ⟨fun h => meterSafe_of_counts hcfl (congrArg Base.trim hb) (hfine ▸ h.fine) ?_ (hcount ▸ h.count) h,
    trackingSafe_congr hcfl (congrArg Base.tke hb), densitySafe_of_kept hcfl hd⟩
  rw [hdel]
  exact Nat.mod_lt _ litre_pos

theorem measuresKept_takeDelivery (s : State) : MeasuresKept s (takeDelivery s) := measuresKept_emitDeliveries _ s

theorem takeNudge_eq (q : Nudge) (rest : List Nudge) (s : State) : takeNudge q rest s = { s with
    mtr := { s.mtr with trim := nudgedTrim s.cfg s.mtr.trim q.up, nudges := rest }, spc := (takeNudge q rest s).spc } := by
  rw [takeNudge, offerEvent_putMtr]

theorem measuresKept_takeNudge (q : Nudge) (rest : List Nudge) : MeasuresKept s (takeNudge q rest s) := by
  rw [takeNudge_eq]
  refine ⟨fun h => ?_, trackingSafe_congr rfl rfl, densitySafe_congr rfl rfl⟩
  obtain ⟨hlo, hhi⟩ := clampInt_bounds (lo := -(s.cfg.trimMax : Int)) (hi := s.cfg.trimMax)
    (if q.up then s.mtr.trim + s.cfg.trimStep else s.mtr.trim - s.cfg.trimStep) (by omega)
  exact ⟨h.fine, h.deliveryFine, h.count, h.pulseWeight, h.trimMax, hlo, hhi⟩

end Pulses

/-! ### Reset and loading (R207 to R210) -/

section Loading
variable {s : State}

theorem nonOrigin_loading (h : s.cfl.load = .loading) : s.nonOrigin = false := by simp [State.nonOrigin, State.running, h]

/-- Outside RUN the load state, the fault and the adjusted fields concern none of the values. -/
theorem measuresKept_putLoad {c : Cfl} (hp : c.published = s.cfg) (hr : s.running = false) (hl : c.load ≠ .run) :
    MeasuresKept s { s with cfl := c } := by
  have hn : ({ s with cfl := c } : State).running = false := by simpa [State.running] using hl
  have ho : ({ s with cfl := c } : State).nonOrigin = s.nonOrigin := by simp [State.nonOrigin, hn, hr]
  refine ⟨fun h => ?_, fun h => ⟨h.mix, h.halfMix, fun hf => ?_⟩, densitySafe_congr ho rfl⟩
  · have hc : ({ s with cfl := c } : State).cfg = s.cfg := hp
    exact ⟨h.fine, h.deliveryFine, h.count, hc ▸ h.pulseWeight, hc ▸ h.trimMax, hc ▸ h.lowest, hc ▸ h.highest⟩
  · rw [hn] at hf; cases hf

/-- Each block starts within its ranges: T clamped, M and Mh computed, and DSU with no departure counted (R33, R38, R67). -/
theorem measuresKept_startBlocks {p : Published} (adjusted : List Nat) (hr : s.running = false) (hw : p.pulseWeight ≤ 65535)
    (hm : p.trimMax ≤ 5000) : MeasuresKept s (startBlocks p (putCfl (fun _ => ⟨.run, false, none, p, adjusted⟩) s)) := by
  refine ⟨fun h => ?_, fun _ => ?_, fun h => ?_⟩
  · obtain ⟨hlo, hhi⟩ := clampInt_bounds (lo := -(p.trimMax : Int)) (hi := p.trimMax) p.trimInitial (by omega)
    exact ⟨h.fine, h.deliveryFine, h.count, hw, hm, hlo, hhi⟩
  · exact ⟨Nat.min_le_right _ _, rfl, fun _ => rfl⟩
  · exact ⟨h.window, h.fill, h.samples, h.full, h.average, h.rejects, h.goods, h.unhealthy, h.departures,
      fun _ => h.uncounted (nonOrigin_idle hr), h.frame⟩

theorem MeasuresKept.trans {a b c : State} (h : MeasuresKept a b) (h' : MeasuresKept b c) : MeasuresKept a c :=
  ⟨h'.1 ∘ h.1, h'.2.1 ∘ h.2.1, h'.2.2 ∘ h.2.2⟩

theorem measuresKept_raiseAlarm (a : Alarm) (d : Nat) (s : State) : MeasuresKept s (raiseAlarm a d s) :=
  MeasuredFrom.kept ((measuredFrom_raiseAlarm s a d).mpr (.refl s))

theorem measuresKept_finishLoad (m : MemoryRead) (hr : s.running = false) : MeasuresKept s (finishLoad m s) := by
  unfold finishLoad
  split
  · exact measuresKept_putLoad rfl hr nofun
  · simp only [loadRecord]
    split
    · exact measuresKept_putLoad rfl hr nofun
    · have h1 := measuresKept_startBlocks (p := clampedRecord m.image) (adjustedFields m.image) hr
        (clampNat_bounds _ (by decide)).2 (Nat.min_le_left _ _)
      simp only [publish]
      split
      · exact h1
      · exact h1.trans (measuresKept_raiseAlarm _ _ _)

/-- The loading counts no litres (R210). -/
theorem finishLoad_count (m : MemoryRead) (s : State) : (finishLoad m s).mtr.count = s.mtr.count := by
  unfold finishLoad
  split
  · rfl
  · simp only [loadRecord, publish]
    (repeat' split) <;> simp [enterConfigFault, startBlocks, putCfl]

end Loading

/-! ### Every command -/

theorem measuresKept_reset (s : State) : MeasuresKept s { State.reset with
    pending := s.pending, choices := s.choices, vld := { Vld.reset with routes := resetRoutes s.vld.routes } } :=
  ⟨fun _ => meterSafe_congr (s := State.reset) rfl meterSafe_reset, fun _ => trackingSafe_congr (s := State.reset) rfl rfl trackingSafe_reset,
    fun _ => densitySafe_congr (s := State.reset) rfl rfl densitySafe_reset⟩

theorem running_loading {s : State} (h : s.cfl.load = .loading) : s.running = false := by simp [State.running, h]

/-- Every command keeps the values within their ranges. -/
theorem measuresKept_exec {c : Instr} {s t : State} (ht : exec c s = .next t) : MeasuresKept s t := by
  by_cases hw : writesMeasures c = false
  · exact (measuredFrom_exec hw (.refl s) ht).kept
  cases c
  case powerOnReset => cases ht; exact measuresKept_reset s
  case resetRelease =>
    cases ht
    exact measuresKept_ite fun hl => measuresKept_putLoad rfl (running_loading hl) (by rw [hl]; nofun)
  case configLoadDone m => cases ht; exact measuresKept_ite fun hl => measuresKept_finishLoad m (running_loading hl.1)
  case mainlinePulse => cases ht; exact measuresKept_ite fun hr => measuresKept_takeMainline hr.2
  case trimNudge =>
    cases ht
    split
    · exact ⟨id, id, id⟩
    · exact measuresKept_takeNudge _ _
  case deliveryPulse => cases ht; exact measuresKept_ite fun _ => measuresKept_takeDelivery s
  case densityCharacter =>
    cases ht
    exact measuresKept_ite fun _ => measuresKept_of_measures (measures_takeCharacter s _ _) fun h => densitySafe_takeCharacter h _ _
  case frameCharTimeout =>
    cases ht
    exact measuresKept_ite fun _ => measuresKept_of_measures (measures_abandonSample s) densitySafe_abandonSample
  case silenceTimerExpiry =>
    cases ht
    exact measuresKept_ite fun _ => measuresKept_of_measures (measures_silenceExpired s) densitySafe_silenceExpired
  all_goals exact absurd rfl hw

/-- Settles O55: a step without a command moves the clock alone, and every command keeps the ranges. -/
theorem meterTrackingAndDensityStaySafe : Obligations.MeterTrackingAndDensityStaySafe := by
  intro s t ht
  unfold step at ht
  split at ht
  · cases ht
    exact measuresKept_of_measures rfl (densitySafe_congr rfl rfl)
  · next c rest _ =>
    have h1 : MeasuresKept s { s with pending := rest } := measuresKept_of_measures rfl (densitySafe_congr rfl rfl)
    exact h1.trans (measuresKept_exec ht)

/-! ### The configuration and C (R27, R210) -/

/-- CFL stays and C does not fall. -/
def CountKept (s t : State) : Prop := (s.cfl.load = .run → t.cfl = s.cfl) ∧ s.mtr.count ≤ t.mtr.count

theorem countKept_of_measures {s t : State} (h : measures t = measures s) : CountKept s t :=
  ⟨fun _ => measures_cfl h, (congrArg (fun x => x.2.2.1) h).ge⟩

theorem countKept_ite {s t : State} {c : Prop} [Decidable c] (h : c → CountKept s t) : CountKept s (if c then t else s) := by
  split
  · next hc => exact h hc
  · exact ⟨fun _ => rfl, le_rfl⟩

theorem countKept_takeMainline (s : State) : CountKept s (takeMainline s) := by
  have hb := takeMainline_base s
  have hcount : (takeMainline s).mtr.count = s.mtr.count + pulsedFine s / litre := congrArg Base.count hb
  exact ⟨fun _ => congrArg Base.cfl hb, hcount ▸ Nat.le_add_right _ _⟩

theorem countKept_emitDeliveries (x : Nat) (s : State) :
    CountKept s (emitDeliveries (x / litre) (putMtr (fun m => { m with deliveryFine := x }) s)) := by
  have hb := emitDeliveries_from x s
  generalize emitDeliveries (x / litre) (putMtr (fun m => { m with deliveryFine := x }) s) = t at hb ⊢
  exact ⟨fun _ => congrArg Base.cfl hb, (congrArg Base.count hb).ge⟩

/-- Settles O53: only the loading, which is refused in RUN, writes CFL, and only litres move C. -/
theorem runKeepsConfigurationAndCount : Obligations.RunKeepsConfigurationAndCount := by
  intro c s t hc ht
  change CountKept s t
  by_cases hw : writesMeasures c = false
  · exact countKept_of_measures (measuredFrom_exec hw (.refl s) ht).measures
  cases c
  case powerOnReset => exact absurd rfl hc
  case resetRelease =>
    cases ht
    exact countKept_ite fun hl => ⟨fun hr => absurd (hl.symm.trans hr) nofun, le_rfl⟩
  case configLoadDone m =>
    cases ht
    exact countKept_ite fun hl => ⟨fun hr => absurd (hl.1.symm.trans hr) nofun, (finishLoad_count m s).ge⟩
  case mainlinePulse =>
    cases ht
    exact countKept_ite fun _ => countKept_takeMainline s
  case trimNudge =>
    cases ht
    split
    · exact ⟨fun _ => rfl, le_rfl⟩
    · rw [takeNudge_eq]; exact ⟨fun _ => rfl, le_rfl⟩
  case deliveryPulse =>
    cases ht
    exact countKept_ite fun _ => countKept_emitDeliveries _ s
  case densityCharacter => cases ht; exact countKept_ite fun _ => countKept_of_measures (measures_takeCharacter s _ _)
  case frameCharTimeout => cases ht; exact countKept_ite fun _ => countKept_of_measures (measures_abandonSample s)
  case silenceTimerExpiry => cases ht; exact countKept_ite fun _ => countKept_of_measures (measures_silenceExpired s)
  all_goals exact absurd rfl hw

end Sys2Proof.Machine
end

