-- ==== Sys2Proof/Proofs/WindowVisits.lean ====
section
/-! SUPPORT. A window evaluation in which one entry alone can be opened or declared (R40 to R42, R48 to R51), and the litre of a pulse that
brings one. -/

namespace Sys2Proof.Machine

/-! ### The pair of an entry (R48) -/

theorem predecessorOf_between {before after : List Entry} {x : Entry} (h : ((before ++ x :: after).map (·.seq)).Nodup) :
    predecessorOf x.seq (before ++ x :: after) = before.getLast? := by
  have hlast (l : List Entry) (y : Entry) (hl : ∀ b ∈ l, b.seq ≠ x.seq) : predecessorOf x.seq (y :: l) = none := by
    induction l generalizing y with
    | nil => rfl
    | cons z rest ih =>
      have hz : (z.seq == x.seq) = false := by simpa using hl z List.mem_cons_self
      simp only [predecessorOf, hz, Bool.false_eq_true, if_false]
      exact ih z fun b hb => hl b (List.mem_cons_of_mem _ hb)
  induction before with
  | nil =>
    rw [List.nil_append, List.map_cons, List.nodup_cons] at h
    exact hlast after x fun b hb he => h.1 (he ▸ List.mem_map_of_mem hb)
  | cons a rest ih =>
    rw [List.cons_append, List.map_cons, List.nodup_cons] at h
    cases rest with
    | nil => simp [predecessorOf]
    | cons b rest =>
      have hb : (b.seq == x.seq) = false := by
        rw [List.cons_append, List.map_cons, List.nodup_cons] at h
        simp only [beq_eq_false_iff_ne]
        intro he
        exact h.2.1 (he ▸ List.mem_map_of_mem (by simp))
      have := ih h.2
      simp only [List.cons_append, predecessorOf, hb, Bool.false_eq_true, if_false, List.getLast?_cons_cons] at this ⊢
      exact this

/-- The mix fraction of the pair of an entry `x` whose predecessor is the last of `before` (R48). -/
def fractionBehind (s : State) (before : List Entry) (x : Entry) : Option Nat :=
  if s.cfg.densitometer = true then before.getLast?.bind fun a => mixFraction s a.density x.density else none

theorem pairFraction_between {s : State} {before after : List Entry} {x : Entry} (ht : s.trs.train = before ++ x :: after)
    (hn : (s.trs.train.map (·.seq)).Nodup) : pairFraction s x.seq = fractionBehind s before x := by
  rw [ht] at hn
  unfold pairFraction fractionBehind
  rw [ht, predecessorOf_between hn, findEntry_append_cons (seq_ne_of_nodup hn)]
  cases before.getLast? <;> rfl

/-! ### Visits (R40) -/

/-- No test of a window evaluation applies to the entry of sequence `n`. -/
def QuietAt (s : State) (n : SeqNo) : Prop := ∀ e, findEntry s.trs.train n = some e → Quiet s e

section Visits
variable {s : State} {n : SeqNo} (average : Bool) (before : Option SeqNo)

/-- A visit of such an entry keeps the state; the candidate being the tracker's, it keeps the tracker too. -/
theorem visitEntry_quietAt (k : Tracker) (hq : QuietAt s n) : (visitEntry average before (s, k) n).1 = s := by
  unfold visitEntry
  cases hf : findEntry s.trs.train n with
  | none => rfl
  | some e =>
    rcases hq e hf with h | ⟨h, hb⟩ | ⟨h, hr, hu⟩
    · simp [h]
    · have hin : ¬ e.rlv ≤ (halfWidth s e.sinceSnap : Int) := by omega
      simp [h, hin, hf]
    · simp [h, hf, testWindow_quiet _ hr hu]

theorem visitEntry_tracker {k : Tracker} (hc : candidateOf s.trs.train = k.candidate) (hq : QuietAt s n) :
    visitEntry average before (s, k) n = (s, k) := by
  have hk : k.update s.trs.train = k := if_pos hc
  refine Prod.ext (visitEntry_quietAt average before k hq) ?_
  unfold visitEntry
  cases hf : findEntry s.trs.train n with
  | none => rfl
  | some e =>
    rcases hq e hf with h | ⟨h, hb⟩ | ⟨h, hr, hu⟩
    · simp [h]
    · have hin : ¬ e.rlv ≤ (halfWidth s e.sinceSnap : Int) := by omega
      simp [h, hin, hf, hk]
    · simp [h, hf, testWindow_quiet _ hr hu, hk]

theorem visits_quietAt {l : List SeqNo} (k : Tracker) (hq : ∀ m ∈ l, QuietAt s m) : (l.foldl (visitEntry average before) (s, k)).1 = s := by
  induction l generalizing k with
  | nil => rfl
  | cons m l ih =>
    rw [List.foldl_cons, ← Prod.mk.eta (p := visitEntry average before (s, k) m), visitEntry_quietAt average before k (hq m List.mem_cons_self)]
    exact ih _ fun p hp => hq p (List.mem_cons_of_mem _ hp)

theorem visits_tracker {l : List SeqNo} {k : Tracker} (hc : candidateOf s.trs.train = k.candidate) (hq : ∀ m ∈ l, QuietAt s m) :
    l.foldl (visitEntry average before) (s, k) = (s, k) := by
  induction l with
  | nil => rfl
  | cons m l ih =>
    rw [List.foldl_cons, visitEntry_tracker average before hc (hq m List.mem_cons_self)]
    exact ih fun p hp => hq p (List.mem_cons_of_mem _ hp)

end Visits

/-- An entry in its window is tested; with the candidate unchanged since the event a litre makes no detection point (R42). -/
theorem visitEntry_window {s : State} {e : Entry} (hf : findEntry s.trs.train e.seq = some e) (hw : e.track = .window) :
    (visitEntry false (candidateOf s.trs.train) (s, ⟨candidateOf s.trs.train, false⟩) e.seq).1 = testWindow false e s := by
  have hk : (⟨candidateOf s.trs.train, false⟩ : Tracker).update s.trs.train = ⟨candidateOf s.trs.train, false⟩ := if_pos rfl
  simp [visitEntry, hf, hw, hk, Tracker.detectionPoint]

/-- An entry that enters its window is opened and then tested, at a detection point when it has become the candidate (R41, R42). -/
theorem visitEntry_opened {s : State} {e f : Entry} {b : Option SeqNo} (hf : findEntry s.trs.train e.seq = some e) (hi : e.track = .inbound)
    (hr : e.rlv ≤ (halfWidth s e.sinceSnap : Int)) (hg : findEntry (openWindow e.seq s).trs.train e.seq = some f) (hw : f.track = .window) :
    (visitEntry false b (s, ⟨b, false⟩) e.seq).1
      = testWindow (candidateOf (openWindow e.seq s).trs.train == some e.seq && candidateOf (openWindow e.seq s).trs.train != b) f
          (openWindow e.seq s) := by
  have hp : Tracker.detectionPoint (Tracker.update ⟨b, false⟩ (openWindow e.seq s).trs.train) false b e.seq
      = (candidateOf (openWindow e.seq s).trs.train == some e.seq && candidateOf (openWindow e.seq s).trs.train != b) := by
    unfold Tracker.update
    split
    · next h => simp [Tracker.detectionPoint, h]
    · next h => simp [Tracker.detectionPoint, bne_iff_ne.mpr h]
  simp only [visitEntry, hf, hi, hr, and_self, if_true, hg, hw, hp, reduceCtorEq, if_false]

theorem evaluateOnce_quiet (average : Bool) (before : Option SeqNo) {s : State} (hd : s.hasRole .delivery = false)
    (hq : ∀ e ∈ s.trs.train, Quiet s e) : evaluateOnce average before s = s := by
  simp [evaluateOnce, hd, visits_quiet average before hq]

/-- Quietness rests on the base of the state. -/
theorem quiet_base {s t : State} {e : Entry} (h : base t = base s) (hq : Quiet s e) : Quiet t e := by
  have hc : t.cfg = s.cfg := congrArg Cfl.published (base_cfl_eq h)
  have hk := base_tke_eq h
  have hd : t.dsu.healthy = s.dsu.healthy := congrArg (fun b => b.dsu.healthy) h
  simpa only [Quiet, halfWidth, hc, hk, hd] using hq

theorem halfWidth_base {s t : State} (h : base t = base s) (n : Nat) : halfWidth t n = halfWidth s n := by
  simp only [halfWidth, State.cfg, base_cfl_eq h, base_tke_eq h]

theorem quietAt_of_ne {s : State} {m n : SeqNo} (hq : ∀ e ∈ s.trs.train, e.seq ≠ n → Quiet s e) (hm : m ≠ n) : QuietAt s m := fun e he => by
  obtain ⟨hmem, hseq⟩ := findEntry_some he
  exact hq e hmem (hseq ▸ hm)

/-- An evaluation in which one entry alone, `x`, is not quiet: it does what that entry's visit does (R40). -/
theorem evaluate_one {s t : State} {before after : List Entry} {x : Entry} (ho : s.nonOrigin = true) (hd : s.hasRole .delivery = false)
    (hs : s.trs.train = before ++ x :: after) (hn : (s.trs.train.map (·.seq)).Nodup)
    (hq : ∀ e ∈ s.trs.train, e.seq ≠ x.seq → Quiet s e)
    (hv : (visitEntry false (candidateOf s.trs.train) (s, ⟨candidateOf s.trs.train, false⟩) x.seq).1 = t)
    (hqt : ∀ e ∈ t.trs.train, e.seq ≠ x.seq → Quiet t e)
    (hr : t.trs.train.length = s.trs.train.length ∨ ∀ e ∈ t.trs.train, Quiet t e) :
    evaluate false (candidateOf s.trs.train) s = t := by
  have hk : (⟨candidateOf s.trs.train, false⟩ : Tracker).update s.trs.train = ⟨candidateOf s.trs.train, false⟩ := if_pos rfl
  have hseqs : s.trs.train.map (·.seq) = before.map (·.seq) ++ x.seq :: after.map (·.seq) := by rw [hs, List.map_append, List.map_cons]
  obtain ⟨-, hna, hnb⟩ := List.nodup_append.mp (hseqs ▸ hn)
  have h1 : ∀ m ∈ before.map (·.seq), QuietAt s m := fun m hm => quietAt_of_ne hq (hnb m hm _ List.mem_cons_self)
  have h2 : ∀ m ∈ after.map (·.seq), QuietAt t m := fun m hm =>
    quietAt_of_ne hqt fun he => (List.nodup_cons.mp hna).1 (he ▸ hm)
  have honce : evaluateOnce false (candidateOf s.trs.train) s = t := by
    have hfold : ((s.trs.train.map (·.seq)).foldl (visitEntry false (candidateOf s.trs.train))
        (s, ⟨candidateOf s.trs.train, false⟩)).1 = t := by
      rw [hseqs, List.foldl_append, visits_tracker _ _ rfl h1, List.foldl_cons,
        ← Prod.mk.eta (p := visitEntry false (candidateOf s.trs.train) (s, ⟨candidateOf s.trs.train, false⟩) x.seq), hv]
      exact visits_quietAt _ _ _ h2
    simp only [evaluateOnce, hk, hfold, hd, Bool.false_eq_true, if_false]
  have hrem (i : Nat) : evaluateRemovals i s.trs.train.length t = t := by
    rcases hr with hr | hr
    · cases i <;> simp [evaluateRemovals, hr]
    · have hdt : t.hasRole .delivery = false := by rw [← hv, hasRole_base (base_visitEntry ..)]; exact hd
      have hq := evaluateOnce_quiet false (candidateOf t.trs.train) hdt hr
      cases i with
      | zero => rfl
      | succ i =>
        simp only [evaluateRemovals, hq]
        split
        · cases i <;> simp [evaluateRemovals]
        · rfl
  simp only [evaluate, ho, if_true, honce, hrem]

/-! ### Tests of an entry in its window (R40, R49 to R51) -/

section Tests
variable {s : State} {e : Entry} {point : Bool}

theorem testWindow_rests (hp : (point && (pairFraction s e.seq).any (500 ≤ ·)) = false)
    (hz : pairFraction s e.seq = none → 0 < e.rlv) (hm : -(halfWidth s e.sinceSnap : Int) < e.rlv) : testWindow point e s = s := by
  have hu : ¬ ((!densityUsable s e.seq && decide (e.rlv ≤ 0)) = true) := by
    simp only [densityUsable, Bool.and_eq_true, Bool.not_eq_true', Option.isSome_eq_false_iff, Option.isNone_iff_eq_none, decide_eq_true_eq,
      not_and, Int.not_le]
    exact hz
  simp only [testWindow, hp, Bool.false_eq_true, if_false, hu, Int.not_le.mpr hm]

theorem testWindow_detected (hp : (pairFraction s e.seq).any (500 ≤ ·) = true) : testWindow true e s = declare .detected e s := by
  simp only [testWindow, hp, Bool.and_self, if_true]

theorem testWindow_estimated (hf : pairFraction s e.seq = none) (hz : e.rlv ≤ 0) : testWindow point e s = declare .estimated e s := by
  simp [testWindow, densityUsable, hf, hz]

theorem testWindow_missed (hp : (point && (pairFraction s e.seq).any (500 ≤ ·)) = false) (hf : (pairFraction s e.seq).isSome = true)
    (hm : e.rlv ≤ -(halfWidth s e.sinceSnap : Int)) : testWindow point e s = declare .missed e s := by
  simp [testWindow, densityUsable, hp, hf, hm]

end Tests

/-- The state with the train replaced and nothing else changed. -/
def State.withTrain (s : State) (t : List Entry) : State := { s with trs := { s.trs with train := t } }

/-! ### A train whose one entry not yet PASSED may be in its window -/

theorem find?_window_none {l : List Entry} (h : ∀ a ∈ l, a.track ≠ .window) : l.find? (fun e => e.track == .window) = none :=
  List.find?_eq_none.mpr fun a ha => by simpa using h a ha

theorem candidateOf_between {before after : List Entry} {x : Entry} (hb : ∀ a ∈ before, a.track ≠ .window)
    (ha : ∀ a ∈ after, a.track ≠ .window) :
    candidateOf (before ++ x :: after) = if x.track = .window then some x.seq else none := by
  unfold candidateOf
  rw [List.find?_append, find?_window_none hb, Option.none_or, List.find?_cons]
  by_cases hx : x.track = .window
  · simp [hx]
  · have hf : (x.track == Track.window) = false := by simpa using hx
    simp [hf, hx, find?_window_none ha]

/-- The train around an entry `x`: PASSED before it, INBOUND beyond the window after it. -/
structure Around (s : State) (before : List Entry) (x : Entry) (after : List Entry) : Prop where
  train : s.trs.train = before ++ x :: after
  nodup : ((before ++ x :: after).map (·.seq)).Nodup
  passed : ∀ a ∈ before, a.track = .passed
  beyond : ∀ a ∈ after, a.track = .inbound ∧ (halfWidth s a.sinceSnap : Int) < a.rlv

section Around
variable {s : State} {before after : List Entry} {x : Entry} (h : Around s before x after)
include h

theorem Around.before_ne : ∀ a ∈ before, a.seq ≠ x.seq := seq_ne_of_nodup h.nodup

theorem Around.find : findEntry s.trs.train x.seq = some x := by rw [h.train, findEntry_append_cons h.before_ne]

theorem Around.candidate : candidateOf s.trs.train = if x.track = .window then some x.seq else none := by
  rw [h.train, candidateOf_between (fun a ha => by simp [h.passed a ha]) (fun a ha => by simp [(h.beyond a ha).1])]

theorem Around.fraction : pairFraction s x.seq = fractionBehind s before x :=
  pairFraction_between h.train (by rw [h.train]; exact h.nodup)

theorem Around.quiet : ∀ a ∈ s.trs.train, a.seq ≠ x.seq → Quiet s a := fun a ha hne => by
  rw [h.train] at ha
  rcases List.mem_append.mp ha with ha | ha
  · exact .inl (h.passed a ha)
  · rcases List.mem_cons.mp ha with rfl | ha
    · exact absurd rfl hne
    · exact .inr (.inl (h.beyond a ha))

/-- The entry replaced by one of its sequence, in a state of the same base. -/
theorem Around.replace {t : State} {y : Entry} (hb : base t = base s) (ht : t.trs.train = before ++ y :: after) (hy : y.seq = x.seq) :
    Around t before y after := by
  refine ⟨ht, ?_, h.passed, fun a ha => ?_⟩
  · have hn := h.nodup
    rw [List.map_append, List.map_cons, ← hy] at hn
    rw [List.map_append, List.map_cons]
    exact hn
  · rw [halfWidth_base hb]; exact h.beyond a ha

/-- An evaluation does what the visit of the one entry does, where this leaves the others in place. -/
theorem Around.evaluate {t : State} {y : Entry} (ho : s.nonOrigin = true) (hd : s.hasRole .delivery = false)
    (hv : (visitEntry false (candidateOf s.trs.train) (s, ⟨candidateOf s.trs.train, false⟩) x.seq).1 = t)
    (ht : t.trs.train = before ++ y :: after) (hy : y.seq = x.seq) :
    Machine.evaluate false (candidateOf s.trs.train) s = t := by
  have hb : base t = base s := by rw [← hv]; exact base_visitEntry ..
  have hta := h.replace hb ht hy
  exact evaluate_one ho hd h.train (by rw [h.train]; exact h.nodup) h.quiet hv (fun a ha hne => hta.quiet a ha (hy ▸ hne))
    (.inl (by rw [ht, h.train]; simp))

/-- A change of the entry that leaves it not PASSED writes the train alone. -/
theorem Around.update {f : Entry → Entry} (hx : x.track ≠ .passed) (hf : (f x).track ≠ .passed) :
    updateEntry x.seq f s = s.withTrain (before ++ f x :: after) := by
  have hc : changeEntry x.seq f s.trs.train = before ++ f x :: after := by rw [h.train, changeEntry_append_cons f h.before_ne]
  unfold updateEntry
  rw [hc, putTrain_same (by rw [h.train, batchAtStation_replace hx hf])]
  rfl

/-- A change that makes the entry PASSED makes it the batch at the station, which ends the departure run (R75). -/
theorem Around.pass {f : Entry → Entry} (hx : x.track ≠ .passed) (hf : (f x).track = .passed) (hs : (f x).seq = x.seq) :
    updateEntry x.seq f s = { s.withTrain (before ++ f x :: after) with dsu := { s.dsu with departureRun := 0 } } := by
  have hc : changeEntry x.seq f s.trs.train = before ++ f x :: after := by rw [h.train, changeEntry_append_cons f h.before_ne]
  have hafter : ∀ a ∈ after, a.track ≠ .passed := fun a ha => by simp [(h.beyond a ha).1]
  have hnew : batchAtStation (before ++ f x :: after) = some (f x) := by
    rw [List.append_cons, batchAtStation_passed (passed := before ++ [f x]) (fun a ha => ?_) hafter, List.getLast?_concat]
    rcases List.mem_append.mp ha with ha | ha
    · exact h.passed a ha
    · rw [List.mem_singleton.mp ha]; exact hf
  have hold : batchAtStation (before ++ x :: after) = before.getLast? :=
    batchAtStation_passed h.passed fun a ha => by
      rcases List.mem_cons.mp ha with rfl | ha
      · exact hx
      · exact hafter a ha
  have hne : ¬ (batchAtStation (before ++ f x :: after)).map (·.seq) = (batchAtStation s.trs.train).map (·.seq) := by
    rw [hnew, h.train, hold]
    intro he
    cases hl : before.getLast? with
    | none => rw [hl] at he; cases he
    | some a =>
      rw [hl] at he
      exact h.before_ne a (List.mem_of_getLast? hl) ((Option.some.inj he).symm.trans hs)
  unfold updateEntry
  rw [hc]
  simp only [putTrain, hne, if_false]
  rfl

end Around

end Sys2Proof.Machine
end

