-- ==== Sys2Proof/Proofs/PulseAdvances.lean ====
section
/-! SUPPORT. The litres of a mainline pulse at the ORIGIN and the one litre of a pulse at a RELAY (R43, R44, R48 to R52): settled O9. -/

namespace Sys2Proof.Machine

/-! ### Advanced entries (R43) -/

@[simp] theorem advance_track (e : Entry) (n : Nat) : (e.advance n).track = e.track := rfl
@[simp] theorem advance_seq (e : Entry) (n : Nat) : (e.advance n).seq = e.seq := rfl

theorem advance_advance (e : Entry) (m n : Nat) : (e.advance m).advance n = e.advance (m + n) := by
  have hr : lowerRlv (lowerRlv e.rlv m) n = lowerRlv e.rlv (m + n) := by unfold lowerRlv; omega
  have hs : raiseS (raiseS e.sinceSnap m) n = raiseS e.sinceSnap (m + n) := by unfold raiseS; omega
  unfold Entry.advance
  by_cases h : e.track = .passed
  · simp only [hr, h, if_true]
  · simp only [hr, hs, h, if_false]

theorem advance_zero {e : Entry} (hr : lowestRlv ≤ e.rlv) (hs : e.sinceSnap ≤ highestCount) : e.advance 0 = e := by
  have h1 : lowerRlv e.rlv 0 = e.rlv := by unfold lowerRlv; omega
  have h2 : raiseS e.sinceSnap 0 = e.sinceSnap := Nat.min_eq_right hs
  simp only [Entry.advance, h1, h2, ite_self]

/-- A moved train keeps the batch at the station, so that only the train is written. -/
theorem putTrain_advance (n : Nat) (s : State) :
    putTrain (s.trs.train.map fun e => e.advance n) s = s.withTrain (s.trs.train.map fun e => e.advance n) :=
  putTrain_same (batchAtStation_congr (by rw [List.map_map]; rfl))

theorem trackLitre_eq (s : State) :
    trackLitre s = afterMove (candidateOf s.trs.train) (s.withTrain (s.trs.train.map fun e => e.advance 1)) := by
  rw [trackLitre, putTrain_advance]

theorem candidateOf_advance (n : Nat) (t : List Entry) : candidateOf (t.map fun e => e.advance n) = candidateOf t := by
  simp only [candidateOf, List.find?_map, Option.map_map]
  rfl

/-! ### Litres at the ORIGIN (R44, R186) -/

theorem nonOrigin_origin {s : State} (h : s.hasRole .origin = true) : s.nonOrigin = false := by
  have hc : s.cfl.published.role = some .origin := ((hasRole_iff s .origin).mp h).2
  simp [State.nonOrigin, hc]

/-- No window evaluation is made at the ORIGIN (R44). -/
theorem afterMove_origin {s : State} (h : s.hasRole .origin = true) (before : Option SeqNo) : afterMove before s = s := by
  simp [afterMove, evaluate, hasRole_other h (show Role.origin ≠ .terminus by decide), nonOrigin_origin h]

/-- MTR with `n` litres taken from F into C (R26, R27). -/
def Mtr.less (m : Mtr) (n : Nat) : Mtr := { m with fine := m.fine - litre * n, count := m.count + n }

theorem Mtr.less_less (m : Mtr) (i j : Nat) : (m.less i).less j = m.less (i + j) := by
  unfold Mtr.less
  generalize litre = x
  simp only [Nat.sub_sub, Nat.add_assoc, Nat.mul_add]

theorem Mtr.less_zero (m : Mtr) : m.less 0 = m := by
  simp only [Mtr.less, Nat.mul_zero, Nat.sub_zero, Nat.add_zero]

/-- LSC with `n` litres more launched, saturating at 2,000,000,000 (R186). -/
def Lsc.launch (l : Lsc) (n : Nat) : Lsc := { l with running := { l.running with launched := min 2000000000 (l.running.launched + n) } }

theorem Lsc.launch_le (l : Lsc) (n : Nat) : (l.launch n).running.launched ≤ 2000000000 := by
  simp only [Lsc.launch]
  omega

theorem Lsc.launch_launch (l : Lsc) (i j : Nat) : (l.launch i).launch j = l.launch (i + j) := by
  have h : min 2000000000 (min 2000000000 (l.running.launched + i) + j) = min 2000000000 (l.running.launched + (i + j)) := by omega
  simp only [Lsc.launch, h]

theorem Lsc.launch_zero {l : Lsc} (h : l.running.launched ≤ 2000000000) : l.launch 0 = l := by
  simp only [Lsc.launch, Nat.add_zero, Nat.min_eq_right h]

/-- The state with `n` litres more at an ORIGIN without orders. -/
def State.originLitres (s : State) (n : Nat) : State :=
  { s with mtr := s.mtr.less n, trs := { s.trs with train := s.trs.train.map fun e => e.advance n }, lsc := s.lsc.launch n }

theorem emitLitre_origin {s : State} (hr : s.hasRole .origin = true) (ho : s.lsc.orders = []) : emitLitre s = s.originLitres 1 := by
  have ht : s.hasRole .terminus = false := hasRole_other hr (by decide)
  have hm (u : State) (hu : u.hasRole .origin = true) : trackLitre u = u.withTrain (u.trs.train.map fun e => e.advance 1) :=
    by
    rw [trackLitre_eq]
    exact afterMove_origin (s := u.withTrain (u.trs.train.map fun e => e.advance 1)) hu _
  unfold emitLitre
  generalize hu : putMtr (fun m => { m with fine := lessLitre m.fine, count := m.count + 1 }) s = u
  have hru : u.hasRole .origin = true := by rw [← hu]; exact hr
  have htu : u.hasRole .terminus = false := by rw [← hu]; exact ht
  have hou : u.lsc.orders = [] := by rw [← hu]; exact ho
  simp only [handLitre, htu, hru, Bool.false_eq_true, if_false, if_true, hm u hru, countLaunched]
  rw [judgeChangeover_idle (.inl (by simp [changeoverDue, putLsc, State.withTrain, hou]))]
  rw [← hu]
  simp only [State.originLitres, State.withTrain, putLsc, putMtr, lessLitre_eq, Mtr.less, Lsc.launch, Nat.mul_one]

theorem originLitres_hasRole (s : State) (n : Nat) (r : Role) : (s.originLitres n).hasRole r = s.hasRole r := by
  simp only [State.hasRole, State.running, State.originLitres]

theorem originLitres_originLitres (s : State) (m n : Nat) : (s.originLitres m).originLitres n = s.originLitres (m + n) := by
  have ht : (fun e : Entry => e.advance n) ∘ (fun e : Entry => e.advance m) = fun e => e.advance (m + n) :=
    funext fun e => advance_advance e m n
  calc (s.originLitres m).originLitres n
      = { s with
          mtr := (s.mtr.less m).less n
          trs := { s.trs with train := (s.trs.train.map fun e => e.advance m).map fun e => e.advance n }
          lsc := (s.lsc.launch m).launch n } := rfl
    _ = s.originLitres (m + n) := by rw [Mtr.less_less, Lsc.launch_launch, List.map_map, ht]; rfl

theorem originLitres_zero {s : State} (hl : s.lsc.running.launched ≤ 2000000000)
    (ht : ∀ e ∈ s.trs.train, lowestRlv ≤ e.rlv ∧ e.sinceSnap ≤ highestCount) : s.originLitres 0 = s := by
  have hm : s.trs.train.map (fun e => e.advance 0) = s.trs.train :=
    (List.map_congr_left fun e he => advance_zero (ht e he).1 (ht e he).2).trans (List.map_id _)
  simp only [State.originLitres, hm, Mtr.less_zero, Lsc.launch_zero hl]

theorem emitLitres_origin (n : Nat) {s : State} (hr : s.hasRole .origin = true) (ho : s.lsc.orders = [])
    (hl : s.lsc.running.launched ≤ 2000000000) (ht : ∀ e ∈ s.trs.train, lowestRlv ≤ e.rlv ∧ e.sinceSnap ≤ highestCount) :
    emitLitres n s = s.originLitres n := by
  induction n generalizing s with
  | zero => exact (originLitres_zero hl ht).symm
  | succ n ih =>
    have ht1 : ∀ e ∈ (s.originLitres 1).trs.train, lowestRlv ≤ e.rlv ∧ e.sinceSnap ≤ highestCount := fun e he => by
      obtain ⟨a, ha, rfl⟩ := List.mem_map.mp he
      refine ⟨Int.le_max_left _ _, ?_⟩
      simp only [Entry.advance]
      split
      · exact (ht a ha).2
      · exact Nat.min_le_left _ _
    have hl1 : (s.originLitres 1).lsc.running.launched ≤ 2000000000 := by
      rw [show (s.originLitres 1).lsc = s.lsc.launch 1 from rfl]
      exact Lsc.launch_le _ _
    rw [emitLitres, emitLitre_origin hr ho, ih (s := s.originLitres 1) ((originLitres_hasRole s 1 _).trans hr) ho hl1 ht1, originLitres_originLitres,
      Nat.add_comm]

/-! ### One litre (R26, R28) -/

/-- MTR after a pulse that leaves `x` in F and brings `n` litres of it (R26, R27). -/
def Mtr.metered (m : Mtr) (x n : Nat) : Mtr := { m with fine := x % litre, count := m.count + n }

theorem emitLitres_one {x : Nat} (h : x / litre = 1) (s : State) :
    emitLitres (x / litre) (putMtr (fun m => { m with fine := x }) s) = handLitre { s with mtr := s.mtr.metered x 1 } := by
  have hx : lessLitre x = x % litre := by rw [lessLitre_eq, Nat.mod_eq_sub_mul_div, h, Nat.mul_one]
  simp only [h, emitLitres, emitLitre, putMtr, hx, Mtr.metered]

theorem takeMainline_one {s : State} (h : pulsedFine s / litre = 1) :
    takeMainline s = handLitre { s with mtr := s.mtr.metered (pulsedFine s) 1 } := emitLitres_one h s

theorem takeMainline_origin {s : State} (hr : s.hasRole .origin = true) (ho : s.lsc.orders = [])
    (hl : s.lsc.running.launched ≤ 2000000000) (ht : TrainSafe s) : takeMainline s = { s with
      mtr := s.mtr.metered (pulsedFine s) (pulsedFine s / litre)
      trs := { s.trs with train := s.trs.train.map fun e => e.advance (pulsedFine s / litre) }
      lsc := s.lsc.launch (pulsedFine s / litre) } := by
  unfold takeMainline
  generalize pulsedFine s = x
  have h : x - litre * (x / litre) = x % litre := (Nat.mod_eq_sub_mul_div ..).symm
  rw [emitLitres_origin (s := putMtr _ s) _ hr ho hl fun e he => ⟨(ht.entries e he).lowest, (ht.entries e he).since⟩]
  simp only [State.originLitres, putMtr, Mtr.metered, Mtr.less, h]

/-! ### The evaluation at a RELAY around one entry (R40 to R42, R49 to R52) -/

theorem withTrain_self {s : State} {t : List Entry} (h : s.trs.train = t) : s.withTrain t = s := by subst h; rfl

/-- The state with a train in which an entry has become the batch at the station (R75). -/
def State.passes (s : State) (t : List Entry) : State := { s.withTrain t with dsu := { s.dsu with departureRun := 0 } }

@[simp] theorem withTrain_hasRole (s : State) (t : List Entry) (r : Role) : (s.withTrain t).hasRole r = s.hasRole r := by
  simp only [State.hasRole, State.running, State.withTrain]

@[simp] theorem passes_hasRole (s : State) (t : List Entry) (r : Role) : (s.passes t).hasRole r = s.hasRole r := by
  simp only [State.hasRole, State.running, State.passes, State.withTrain]

/-- An entry in its window. -/
def Entry.inWindow (e : Entry) : Entry := { e with track := .window }

/-- The entry is in its window at a visit: it was, or it has come within H (R41). -/
def Entered (s : State) (x : Entry) : Prop := x.track = .window ∨ (x.track = .inbound ∧ x.rlv ≤ (halfWidth s x.sinceSnap : Int))

theorem sendOwn_train (k : Kind) (p : List Byte) (s : State) : (sendOwn k p s).trs.train = s.trs.train := by
  rw [(sentFrom_sendOwn k p s).eq]

/-- A declaration at a RELAY sends its PASSAGE and does nothing more (R52). -/
theorem handDeclaration_sent {s : State} (hr : s.hasRole .relay = true) (k : PassageKind) (e : Entry) (p : List Byte) :
    handDeclaration k e (sendOwn .passage p s) = sendOwn .passage p s :=
  handDeclaration_relay ((hasRole_base (base_sendOwn ..) _).trans hr) k e

section Relay
variable {s : State} {before after : List Entry} {x : Entry} (h : Around s before x after)
include h

theorem Around.opened : Around (s.withTrain (before ++ x.inWindow :: after)) before x.inWindow after :=
  h.replace rfl rfl rfl

/-- The fraction of the pair is the same whatever state the entry itself is in. -/
theorem Around.fraction_opened :
    pairFraction (s.withTrain (before ++ x.inWindow :: after)) x.inWindow.seq = fractionBehind s before x := h.opened.fraction

/-- A declaration makes the entry in its window the batch at the station. -/
theorem Around.update_declared (hx : x.track = .window) (k : PassageKind) :
    updateEntry x.seq (fun e => e.declared k) s = s.passes (before ++ x.declared k :: after) :=
  h.pass (f := fun e => e.declared k) (by simp [hx]) (by cases k <;> rfl) (by cases k <;> rfl)

variable (hr : s.hasRole .relay = true)
include hr

theorem Around.visit (he : Entered s x) :
    (visitEntry false (candidateOf s.trs.train) (s, ⟨candidateOf s.trs.train, false⟩) x.seq).1
      = testWindow (x.track == .inbound) x.inWindow (s.withTrain (before ++ x.inWindow :: after)) := by
  rcases he with hw | ⟨hi, hle⟩
  · have hx : x.inWindow = x := by rw [Entry.inWindow, ← hw]
    rw [visitEntry_window h.find hw, hx, withTrain_self h.train, hw]
    rfl
  · have ho : openWindow x.seq s = s.withTrain (before ++ x.inWindow :: after) := by
      have hu : updateEntry x.seq (fun e => { e with track := .window }) s = s.withTrain (before ++ x.inWindow :: after) :=
        h.update (f := fun e => { e with track := .window }) (by simp [hi]) (by simp)
      have hnt : s.hasRole .terminus = false := hasRole_other hr (by decide)
      simp only [openWindow, hu, hnt, Bool.false_eq_true, if_false]
    rw [visitEntry_opened h.find hi hle (by rw [ho]; exact h.opened.find) rfl, ho, h.opened.candidate, h.candidate]
    have hne : (some x.seq != none) = true := rfl
    simp [hi, Entry.inWindow, hne]

theorem Around.evaluate_tested {t : State} {y : Entry} (he : Entered s x)
    (hv : testWindow (x.track == .inbound) x.inWindow (s.withTrain (before ++ x.inWindow :: after)) = t)
    (ht : t.trs.train = before ++ y :: after) (hy : y.seq = x.seq) : Machine.evaluate false (candidateOf s.trs.train) s = t :=
  h.evaluate (nonOrigin_of_hasRole hr (by decide)) (hasRole_other hr (by decide)) ((h.visit hr he).trans hv) ht hy

/-- Beyond H the entry stays INBOUND. -/
theorem Around.evaluate_beyond (hi : x.track = .inbound) (hb : (halfWidth s x.sinceSnap : Int) < x.rlv) :
    Machine.evaluate false (candidateOf s.trs.train) s = s :=
  evaluate_quiet _ _ (hasRole_other hr (by decide)) fun a ha => by
    rw [h.train] at ha
    rcases List.mem_append.mp ha with ha | ha
    · exact .inl (h.passed a ha)
    · rcases List.mem_cons.mp ha with rfl | ha
      · exact .inr (.inl ⟨hi, hb⟩)
      · exact .inr (.inl (h.beyond a ha))

theorem Around.evaluate_inWindow (he : Entered s x)
    (hp : ((x.track == .inbound) && (fractionBehind s before x).any (500 ≤ ·)) = false)
    (hz : fractionBehind s before x = none → 0 < x.rlv) (hm : -(halfWidth s x.sinceSnap : Int) < x.rlv) :
    Machine.evaluate false (candidateOf s.trs.train) s = s.withTrain (before ++ x.inWindow :: after) :=
  h.evaluate_tested hr he (testWindow_rests (by rw [h.fraction_opened]; exact hp) (by rw [h.fraction_opened]; exact hz) hm) rfl rfl

theorem Around.declare_estimated (hx : x.track = .window) : declare .estimated x s
    = sendOwn .passage (passagePayload x.seq .estimated) (s.passes (before ++ x.declared .estimated :: after)) := by
  simp only [declare, reduceCtorEq, if_false]
  rw [h.update_declared hx]
  exact handDeclaration_sent ((passes_hasRole ..).trans hr) _ _ _

theorem Around.declare_missed (hx : x.track = .window) : declare .missed x s
    = sendOwn .passage (passagePayload x.seq .missed) (raiseAlarm .missedInterface 0 (s.passes (before ++ x.declared .missed :: after))) := by
  simp only [declare, reduceCtorEq, if_false, if_true]
  rw [h.update_declared hx]
  exact handDeclaration_sent ((hasRole_base (base_raiseAlarm ..) _).trans ((passes_hasRole ..).trans hr)) _ _ _

theorem Around.evaluate_estimated (he : Entered s x) (hf : fractionBehind s before x = none) (hz : x.rlv ≤ 0) :
    Machine.evaluate false (candidateOf s.trs.train) s = sendOwn .passage (passagePayload x.seq .estimated)
      (s.passes (before ++ x.inWindow.declared .estimated :: after)) := by
  have hv := testWindow_estimated (point := x.track == .inbound) (h.fraction_opened.trans hf) hz
  exact h.evaluate_tested hr he (hv.trans (h.opened.declare_estimated ((withTrain_hasRole ..).trans hr) rfl)) (sendOwn_train ..) rfl

theorem Around.evaluate_missed (he : Entered s x) (hp : ((x.track == .inbound) && (fractionBehind s before x).any (500 ≤ ·)) = false)
    (hf : (fractionBehind s before x).isSome = true) (hm : x.rlv ≤ -(halfWidth s x.sinceSnap : Int)) :
    Machine.evaluate false (candidateOf s.trs.train) s = sendOwn .passage (passagePayload x.seq .missed)
      (raiseAlarm .missedInterface 0 (s.passes (before ++ x.inWindow.declared .missed :: after))) := by
  rw [← h.fraction_opened] at hp hf
  have hv := testWindow_missed (s := s.withTrain (before ++ x.inWindow :: after)) (e := x.inWindow) hp hf hm
  exact h.evaluate_tested hr he (hv.trans (h.opened.declare_missed ((withTrain_hasRole ..).trans hr) rfl))
    ((sendOwn_train ..).trans (by rw [raiseAlarm_trs]; rfl))
    (y := x.inWindow.declared .missed) rfl

/-- The trim nudge that a DETECTED declaration of `x` hands on (R57). -/
def nudgeOf (s : State) (x : Entry) : List Nudge :=
  if x.snappedByReference = true ∧ s.cfg.deadband < x.rlv.natAbs then [⟨decide (0 < x.rlv), x.rlv⟩] else []

omit h hr in
theorem judgeNudge_eq (e : Entry) (s : State) : judgeNudge e s = { s with mtr := { s.mtr with nudges := s.mtr.nudges ++ nudgeOf s e } } := by
  unfold judgeNudge nudgeOf
  by_cases hc : e.snappedByReference = true ∧ s.cfg.deadband < e.rlv.natAbs
  · simp [hc]
  · rw [if_neg (by simpa using hc), if_neg hc, List.append_nil]

theorem Around.declare_detected (hx : x.track = .window) : declare .detected x s
    = sendOwn .passage (passagePayload x.seq .detected) { s.passes (before ++ x.declared .detected :: after) with
        mtr := { s.mtr with nudges := s.mtr.nudges ++ nudgeOf s x } } := by
  simp only [declare, reduceCtorEq, if_false, if_true, judgeNudge_eq]
  generalize hu : ({ s with mtr := { s.mtr with nudges := s.mtr.nudges ++ nudgeOf s x } } : State) = u
  have hb : base u = base s := by rw [← hu]; rfl
  have hn : Around u before x after := h.replace hb (by rw [← hu]; exact h.train) rfl
  rw [hn.update_declared hx, handDeclaration_sent ((passes_hasRole ..).trans ((hasRole_base hb _).trans hr)), ← hu]
  simp only [State.passes, State.withTrain]

theorem Around.evaluate_detected (hi : x.track = .inbound) (hb : x.rlv ≤ (halfWidth s x.sinceSnap : Int))
    (hf : (fractionBehind s before x).any (500 ≤ ·) = true) :
    Machine.evaluate false (candidateOf s.trs.train) s = sendOwn .passage (passagePayload x.seq .detected)
      { s.passes (before ++ x.inWindow.declared .detected :: after) with
        mtr := { s.mtr with nudges := s.mtr.nudges ++ nudgeOf s x } } := by
  rw [← h.fraction_opened] at hf
  have hv : testWindow (x.track == .inbound) x.inWindow (s.withTrain (before ++ x.inWindow :: after))
      = declare .detected x.inWindow (s.withTrain (before ++ x.inWindow :: after)) := by rw [hi]; exact testWindow_detected hf
  exact h.evaluate_tested hr (.inr ⟨hi, hb⟩) (hv.trans (h.opened.declare_detected ((withTrain_hasRole ..).trans hr) rfl)) (sendOwn_train ..) rfl

end Relay

/-- The litre at a RELAY is the move and the evaluation (R28, R43). -/
theorem handLitre_relay {s : State} (hr : s.hasRole .relay = true) :
    handLitre s = evaluate false (candidateOf (s.withTrain (s.trs.train.map fun e => e.advance 1)).trs.train)
      (s.withTrain (s.trs.train.map fun e => e.advance 1)) := by
  have h1 : s.hasRole .terminus = false := hasRole_other hr (by decide)
  have h2 : s.hasRole .origin = false := hasRole_other hr (by decide)
  have h3 : (s.withTrain (s.trs.train.map fun e => e.advance 1)).hasRole .terminus = false := h1
  have hc : candidateOf (s.withTrain (s.trs.train.map fun e => e.advance 1)).trs.train = candidateOf s.trs.train :=
    candidateOf_advance 1 s.trs.train
  simp only [handLitre, h1, h2, Bool.false_eq_true, if_false, trackLitre_eq, afterMove, h3, hc]

/-! ### The pulse (O9) -/

/-- The state after a litre has moved the train, with `x` left in F by the pulse. -/
def State.movedOn (s : State) (x : Nat) : State :=
  ({ s with mtr := s.mtr.metered x 1 } : State).withTrain (s.trs.train.map fun e => e.advance 1)

theorem exec_pulse_relay {s : State} (hr : s.hasRole .relay = true) (hc : s.mtr.count ≤ lastTakenCount) (h1 : pulsedFine s / litre = 1) :
    exec .mainlinePulse s = .next (evaluate false (candidateOf (s.movedOn (pulsedFine s)).trs.train) (s.movedOn (pulsedFine s))) := by
  have hu : ({ s with mtr := s.mtr.metered (pulsedFine s) 1 } : State).hasRole .relay = true := hr
  rw [exec_mainlinePulse_taken (running_of_hasRole hr) hc, takeMainline_one h1, handLitre_relay hu]
  rfl

theorem movedOn_around {s : State} {before after : List Entry} {e : Entry} (x : Nat) (ht : s.trs.train = before ++ e :: after)
    (hn : (s.trs.train.map (·.seq)).Nodup) (hb : ∀ a ∈ before, a.track = .passed)
    (ha : ∀ a ∈ after, a.track = .inbound ∧ (halfWidth s (a.advance 1).sinceSnap : Int) < (a.advance 1).rlv) :
    Around (s.movedOn x) (before.map fun a => a.advance 1) (e.advance 1) (after.map fun a => a.advance 1) := by
  have hmap : (before.map fun a => a.advance 1) ++ e.advance 1 :: (after.map fun a => a.advance 1)
      = s.trs.train.map fun a => a.advance 1 := by rw [ht, List.map_append, List.map_cons]
  refine ⟨hmap.symm, ?_, fun a hm => ?_, fun a hm => ?_⟩
  · rw [hmap, List.map_map]; exact hn
  · obtain ⟨a, ham, rfl⟩ := List.mem_map.mp hm
    exact hb a ham
  · obtain ⟨a, ham, rfl⟩ := List.mem_map.mp hm
    exact ha a ham

theorem movedOn_fraction (s : State) (x : Nat) (before : List Entry) (e : Entry) :
    fractionBehind (s.movedOn x) (before.map fun a => a.advance 1) (e.advance 1) = fractionBehind s before e := by
  unfold fractionBehind
  rw [List.getLast?_map]
  cases before.getLast? <;> rfl

/-- An entry not PASSED that was in its window or has come within H is in its window at its visit. -/
theorem entered_of_not_passed {s : State} {x : Entry} (hx : x.track ≠ .passed)
    (h : x.track = .window ∨ x.rlv ≤ (halfWidth s x.sinceSnap : Int)) : Entered s x := by
  cases hc : x.track with
  | window => exact .inl hc
  | passed => exact absurd hc hx
  | inbound => exact .inr ⟨hc, h.resolve_left (by simp [hc])⟩

/-- Where no detection is due, an entry that was in its window meets no detection point, and another has a fraction below 500 (R42, R49). -/
theorem no_detection {e : Entry} {fraction : Option Nat} (h : fraction = none ∨ fraction.any (fun f => e.track = .window ∨ f < 500) = true) :
    ((e.track == .inbound) && fraction.any (500 ≤ ·)) = false := by
  cases fraction with
  | none => exact Bool.and_false _
  | some f =>
    rcases h with h | h
    · cases h
    · simp only [Option.any_some, decide_eq_true_eq] at h
      rcases h with hw | hf
      · rw [hw]; rfl
      · simp [Nat.not_le.mpr hf]

/-- Settles O9: at the ORIGIN litre by litre, at a RELAY by the visit of the one entry that may be in its window. -/
theorem pulseAdvancesAndDeclares : Obligations.PulseAdvancesAndDeclares := by
  intro s hc hts
  have hx : s.mtr.fine + ((s.cfg.pulseWeight : Int) * (1000000 + s.mtr.trim)).toNat = pulsedFine s := rfl
  have hlit : (1000000000 : Nat) = litre := rfl
  simp only [hx, hlit]
  refine ⟨fun hr ho hl => ?_, fun before after e hr h1 ht hn hb he ha => ?_⟩
  · rw [exec_mainlinePulse_taken (running_of_hasRole hr) hc, takeMainline_origin hr ho hl hts]
    rfl
  simp only [h1] at ha ⊢
  have hw := movedOn_around (pulsedFine s) ht hn hb ha
  have hrw : (s.movedOn (pulsedFine s)).hasRole .relay = true := hr
  have hfr := movedOn_fraction s (pulsedFine s) before e
  rw [exec_pulse_relay hr hc h1]
  refine ⟨fun hi hb => ?_, fun hent hm hf => ?_, fun hent hf hz => ?_, fun hm hf => ?_, fun hi hle hf => ?_⟩
  · rw [hw.evaluate_beyond hrw hi hb, State.movedOn, ht, List.map_append, List.map_cons]
    rfl
  · have hno := no_detection (hf.imp_left And.left)
    have hpos : (if s.cfg.densitometer = true then before.getLast?.bind fun a => mixFraction s a.density e.density else none) = none →
        0 < (e.advance 1).rlv := fun h0 => hf.elim And.right fun h => by rw [h0] at h; cases h
    have hen : Entered (s.movedOn (pulsedFine s)) (e.advance 1) := entered_of_not_passed he hent
    exact congrArg _ (hw.evaluate_inWindow hrw hen (by rw [hfr]; exact hno) (by rw [hfr]; exact hpos) hm)
  · have hen : Entered (s.movedOn (pulsedFine s)) (e.advance 1) := entered_of_not_passed he hent
    exact congrArg _ (hw.evaluate_estimated hrw hen (hfr.trans hf) hz)
  · have hen : Entered (s.movedOn (pulsedFine s)) (e.advance 1) := entered_of_not_passed he (.inr (hm.trans (by omega)))
    exact congrArg _ (hw.evaluate_missed hrw hen (by rw [hfr]; exact no_detection (.inr hf)) (by rw [hfr]; exact Option.isSome_of_any hf) hm)
  · exact congrArg _ (hw.evaluate_detected hrw hi hle (by rw [hfr]; exact hf))

end Sys2Proof.Machine
end


-- ==== Sys2Proof/Proofs/TerminusLitre.lean ====
section
/-! SUPPORT. A litre at a TERMINUS and its free orders (R28, R40, R139, R143): what leaves the cut alone, and what the litre comes to when one of its
parts alone does something. -/

namespace Sys2Proof.Machine

/-! ### The parts of the litre that find nothing to do -/

section Idle
variable {s : State}

theorem executeDue_idle (n : Nat) (hq : ∀ a ∈ s.csq.queue, s.mtr.count < a.due) : executeDue n s = s := by
  cases n with
  | zero => rfl
  | succ n =>
    simp only [executeDue]
    split
    · next a rest hl =>
      have : ¬ a.due ≤ s.mtr.count := Nat.not_le.mpr (hq a (by rw [hl]; exact List.mem_cons_self))
      simp only [this, if_false]
    · rfl

/-- With no action due and the cut not settled, CSQ does nothing with a litre once it is counted (R143, R145). -/
theorem cutAfterLitre_idle (hq : ∀ a ∈ s.csq.queue, s.mtr.count < a.due) (hs : settled s = false) : cutAfterLitre s = s := by
  simp only [cutAfterLitre, executeAndSettle, executeDue_idle _ hq, hs, Bool.false_eq_true, if_false]
  exact evaluateIfRemoved_same rfl

theorem settled_shut (h : s.csq.record = none) : settled s = false := by simp [settled, h]

theorem settled_running {r : OpenCut} (h : s.csq.record = some r) (hf : r.finalExecuted = true → s.csq.settleRemaining ≠ 0) :
    settled s = false := by
  simp only [settled, h]
  cases hx : r.finalExecuted
  · rfl
  · simpa using hf hx

/-- No unreached threshold of the record has a volume point at or above an RLV of `v` (R139). -/
def Ahead (s : State) (r : OpenCut) (v : Int) : Prop :=
  (headThreshold s.cfg r.policy).all (fun t => r.headReached = true ∨ volumePoint s t < v) = true
  ∧ (finalThreshold s.cfg r.policy).all (fun t => r.finalReached = true ∨ volumePoint s t < v) = true

theorem judgeWith_none {reached : Nat → Bool} (source : Source) {r : OpenCut} (hr : s.csq.record = some r)
    (hh : (r.headPending && (headThreshold s.cfg r.policy).any reached) = false)
    (hf : (!r.headPending && r.finalPending && (finalThreshold s.cfg r.policy).any reached) = false) : judgeWith reached source s = s := by
  simp only [judgeWith, hr, hh, hf, Bool.false_eq_true, if_false]

theorem volumeReached_found {n : SeqNo} {e : Entry} (h : findEntry s.trs.train n = some e) :
    volumeReached s n = fun t => decide (e.rlv ≤ volumePoint s t) := by
  funext t
  simp only [volumeReached, h]

theorem any_false_of_all {α : Type} {x : Option α} {p q : α → Bool} (h : x.all p = true) (hpq : ∀ a, p a = true → q a = false) :
    x.any q = false := by
  cases x with
  | none => rfl
  | some a => exact hpq a h

theorem judgeVolume_ahead {r : OpenCut} {e : Entry} (hr : s.csq.record = some r) (he : findEntry s.trs.train r.cutEntry = some e)
    (ha : Ahead s r e.rlv) : judgeVolume s = s := by
  simp only [judgeVolume, hr, volumeReached_found he]
  have key (x : Option Nat) (b : Bool) (h : x.all (fun t => b = true ∨ volumePoint s t < e.rlv) = true) :
      (!b && x.any fun t => decide (e.rlv ≤ volumePoint s t)) = false := by
    cases b with
    | true => rfl
    | false => exact any_false_of_all h fun t ht => by simpa using ht
  have hh := key _ _ ha.1
  have hf := key _ _ ha.2
  refine judgeWith_none .volume hr ?_ ?_
  · rw [OpenCut.headPending, Bool.and_assoc, hh, Bool.and_false]
  · rw [OpenCut.finalPending, Bool.and_assoc, Bool.and_assoc, hf, Bool.and_false, Bool.and_false]

/-- A move leaves the cut alone without a record, under DENSITY, and ahead of every volume point (R139). -/
theorem cutRlvChanged_shut (h : s.csq.record = none) : cutRlvChanged s = s := by simp only [cutRlvChanged, h]

theorem cutRlvChanged_density {r : OpenCut} (hr : s.csq.record = some r) (hm : r.method = .density) : cutRlvChanged s = s := by
  simp only [cutRlvChanged, hr, hm, if_true]

theorem cutRlvChanged_volume {r : OpenCut} (hr : s.csq.record = some r) (hm : r.method ≠ .density) : cutRlvChanged s = judgeVolume s := by
  simp only [cutRlvChanged, hr, hm, if_false]

theorem cutRlvChanged_ahead {r : OpenCut} {e : Entry} (hr : s.csq.record = some r) (he : findEntry s.trs.train r.cutEntry = some e)
    (ha : r.method = .density ∨ Ahead s r e.rlv) : cutRlvChanged s = s := by
  by_cases hm : r.method = .density
  · exact cutRlvChanged_density hr hm
  · rw [cutRlvChanged_volume hr hm, judgeVolume_ahead hr he (ha.resolve_left hm)]

/-- Only TRANSMIX has a head threshold (R132). -/
theorem headThreshold_other (c : Published) {p : Policy} (h : p ≠ .transmix) : headThreshold c p = none := by
  cases p
  case transmix => exact absurd rfl h
  all_goals rfl

/-- Thresholds that are reached, or that the policy does not have, are behind no RLV. -/
theorem ahead_of_reached {r : OpenCut} (v : Int) (hh : r.policy ≠ .transmix ∨ r.headReached = true)
    (hf : r.policy = .none ∨ r.finalReached = true) : Ahead s r v := by
  constructor
  · rcases hh with hp | hr
    · rw [headThreshold_other s.cfg hp]; rfl
    · simp only [hr, true_or, decide_true]
      cases headThreshold s.cfg r.policy <;> rfl
  · rcases hf with hp | hr
    · rw [hp]; rfl
    · simp only [hr, true_or, decide_true]
      cases finalThreshold s.cfg r.policy <;> rfl

end Idle

/-! ### The state after a litre -/

/-- The state with MTR `m`, CSQ `q` and the train `t`, `i` free orders later. -/
def State.onLitre (s : State) (i : Nat) (m : Mtr) (q : Csq) (t : List Entry) : State :=
  { s with choices := s.choices + i, mtr := m, csq := q, trs := { s.trs with train := t } }

section OnLitre
variable (s : State) (i : Nat) (m : Mtr) (q : Csq) (t : List Entry)

@[simp] theorem onLitre_csq : (s.onLitre i m q t).csq = q := rfl
@[simp] theorem onLitre_mtr : (s.onLitre i m q t).mtr = m := rfl
@[simp] theorem onLitre_train : (s.onLitre i m q t).trs.train = t := rfl
@[simp] theorem onLitre_dsu : (s.onLitre i m q t).dsu = s.dsu := rfl

theorem onLitre_hasRole (r : Role) : (s.onLitre i m q t).hasRole r = s.hasRole r := by
  simp only [State.hasRole, State.running, State.onLitre]

/-- CSQ with litre number `c` counted (R137, R145). -/
def Csq.counted (q : Csq) (c : Nat) : Csq :=
  match q.record with
  | none => q
  | some r =>
    if r.start < c then
      { q with record := some r.countLitre, settleRemaining := if r.finalExecuted then q.settleRemaining - 1 else q.settleRemaining }
    else q

theorem countLitre_onLitre : countLitre (s.onLitre i m q t) = s.onLitre i m (q.counted m.count) t := by
  cases hr : q.record with
  | none => simp only [countLitre, onLitre_csq, hr, Csq.counted]
  | some r =>
    by_cases hs : r.start < m.count
    · simp only [countLitre, onLitre_csq, onLitre_mtr, hr, Csq.counted, hs, if_true]
      rfl
    · simp only [countLitre, onLitre_csq, onLitre_mtr, hr, Csq.counted, hs, if_false]

end OnLitre

/-! ### The free orders (logs 8, 9) -/

/-- The state after a litre has moved the train, one free order later. -/
def State.moving (s : State) : State := { s.withTrain (s.trs.train.map fun e => e.advance 1) with choices := s.choices + 1 }

theorem moving_hasRole (s : State) (r : Role) : s.moving.hasRole r = s.hasRole r := by
  simp only [State.hasRole, State.running, State.moving, State.withTrain]

section Orders
variable {s v : State} (hr : s.hasRole .terminus = true)
include hr

/-- A move at a TERMINUS comes to `v` when both orders of the evaluation and the thresholds do. -/
theorem trackLitre_terminus (h1 : evaluate false (candidateOf s.moving.trs.train) (cutRlvChanged s.moving) = v)
    (h2 : cutRlvChanged (evaluate false (candidateOf s.moving.trs.train) s.moving) = v) : trackLitre s = v := by
  have hc : candidateOf s.moving.trs.train = candidateOf s.trs.train := candidateOf_advance 1 s.trs.train
  have hw : (s.withTrain (s.trs.train.map fun e => e.advance 1)).hasRole .terminus = true := (withTrain_hasRole ..).trans hr
  rw [hc] at h1 h2
  rw [trackLitre_eq, afterMove, if_pos hw]
  rcases inEitherOrder_cases cutRlvChanged (evaluate false (candidateOf s.trs.train))
      (s.withTrain (s.trs.train.map fun e => e.advance 1)) with h | h
  · exact h.trans h1
  · exact h.trans h2

theorem trackLitre_idle (h1 : cutRlvChanged s.moving = s.moving) (hq : ∀ e ∈ s.moving.trs.train, Quiet s.moving e) :
    trackLitre s = s.moving := by
  have he : evaluate false (candidateOf s.moving.trs.train) s.moving = s.moving :=
    evaluate_quiet _ _ ((moving_hasRole s .delivery).trans (hasRole_other hr (by decide))) hq
  exact trackLitre_terminus hr (by rw [h1, he]) (by rw [he, h1])

end Orders

theorem moving_onLitre (s : State) (i : Nat) (m : Mtr) (q : Csq) (t : List Entry) :
    (s.onLitre i m q t).moving = s.onLitre (i + 1) m q (t.map fun e => e.advance 1) := rfl

/-- A litre at a TERMINUS comes to `v` when both orders of the cut and the move do. -/
theorem handLitre_terminus {s v : State} {m : Mtr} (hr : s.hasRole .terminus = true)
    (h1 : trackLitre (cutAfterLitre (s.onLitre 1 m (s.csq.counted m.count) s.trs.train)) = v)
    (h2 : cutAfterLitre (trackLitre (s.onLitre 1 m (s.csq.counted m.count) s.trs.train)) = v) : handLitre { s with mtr := m } = v := by
  have hu : ({ s with mtr := m } : State).hasRole .terminus = true := by simpa only [State.hasRole, State.running] using hr
  have hc : countLitre { s with mtr := m } = s.onLitre 0 m (s.csq.counted m.count) s.trs.train :=
    countLitre_onLitre s 0 m s.csq s.trs.train
  rw [handLitre, if_pos hu, hc]
  rcases inEitherOrder_cases cutAfterLitre trackLitre (s.onLitre 0 m (s.csq.counted m.count) s.trs.train) with h | h
  · exact h.trans h1
  · exact h.trans h2

theorem exec_pulse_terminus {s v : State} (hr : s.hasRole .terminus = true) (hc : s.mtr.count ≤ lastTakenCount)
    (h1 : pulsedFine s / litre = 1) (hv : handLitre { s with mtr := s.mtr.metered (pulsedFine s) 1 } = v) :
    exec .mainlinePulse s = .next v := by
  rw [exec_mainlinePulse_taken (running_of_hasRole hr) hc, takeMainline_one h1, hv]

end Sys2Proof.Machine
end

