-- ==== Sys2Proof/Proofs/TerminusCut.lean ====
section
/-! SUPPORT. The litre of a pulse at a TERMINUS while a cut is open: counted, at a threshold and with a due action (R137 to
R143). -/

namespace Sys2Proof.Machine

/-! ### The record with a litre counted (R137) -/

/-- A counted litre writes the record's volumes alone. -/
theorem countLitre_eq (r : OpenCut) : ∃ a x b, r.countLitre = { r with volumeA := a, volumeX := x, volumeB := b } := by
  unfold OpenCut.countLitre
  split
  · exact ⟨_, _, _, rfl⟩
  · exact ⟨_, _, _, rfl⟩
  · exact ⟨_, _, _, rfl⟩

section Fields
variable (r : OpenCut)

@[simp] theorem countLitre_cutEntry : r.countLitre.cutEntry = r.cutEntry := by unfold OpenCut.countLitre; split <;> rfl
@[simp] theorem countLitre_method : r.countLitre.method = r.method := by unfold OpenCut.countLitre; split <;> rfl
@[simp] theorem countLitre_policy : r.countLitre.policy = r.policy := by unfold OpenCut.countLitre; split <;> rfl
@[simp] theorem countLitre_headReached : r.countLitre.headReached = r.headReached := by unfold OpenCut.countLitre; split <;> rfl
@[simp] theorem countLitre_finalReached : r.countLitre.finalReached = r.finalReached := by unfold OpenCut.countLitre; split <;> rfl
@[simp] theorem countLitre_finalExecuted : r.countLitre.finalExecuted = r.finalExecuted := by unfold OpenCut.countLitre; split <;> rfl
@[simp] theorem countLitre_number : r.countLitre.number = r.number := by unfold OpenCut.countLitre; split <;> rfl
@[simp] theorem countLitre_first : r.countLitre.first = r.first := by unfold OpenCut.countLitre; split <;> rfl
@[simp] theorem countLitre_productB : r.countLitre.productB = r.productB := by unfold OpenCut.countLitre; split <;> rfl
@[simp] theorem countLitre_stage : r.countLitre.stage = r.stage := by unfold OpenCut.countLitre; split <;> simp_all
@[simp] theorem countLitre_flags : r.countLitre.flags = r.flags := by unfold OpenCut.countLitre; split <;> rfl

end Fields

/-- CSQ with the next litre counted, a record being open. -/
def Csq.countedIn (q : Csq) (r : OpenCut) : Csq := { q with
  record := some r.countLitre, settleRemaining := if r.finalExecuted = true then q.settleRemaining - 1 else q.settleRemaining }

theorem counted_open {s : State} {r : OpenCut} (hs : CutSafe s) (hrec : s.csq.record = some r) :
    s.csq.counted (s.mtr.count + 1) = s.csq.countedIn r := by
  have hlt : r.start < s.mtr.count + 1 := by have := (hs.counted r hrec).2; omega
  simp only [Csq.counted, hrec, hlt, if_true, Csq.countedIn]

theorem counted_shut {q : Csq} (h : q.record = none) (c : Nat) : q.counted c = q := by simp only [Csq.counted, h]

/-! ### A litre that moves the train and leaves the cut alone -/

/-- The entries of a moved train are quiet when those before the newest were PASSED and the newest is quiet. -/
theorem quiet_moved {s : State} {before : List Entry} {e : Entry} (hb : ∀ a ∈ before, a.track = .passed) (he : Quiet s (e.advance 1)) :
    ∀ x ∈ (before ++ [e]).map (fun a => a.advance 1), Quiet s x := fun x hx => by
  obtain ⟨a, ha, rfl⟩ := List.mem_map.mp hx
  rcases List.mem_append.mp ha with ha | ha
  · exact .inl (hb a ha)
  · rw [List.mem_singleton.mp ha]; exact he

theorem find_moved {before : List Entry} {e : Entry} (hn : ((before ++ [e]).map (·.seq)).Nodup) :
    findEntry ((before ++ [e]).map fun a => a.advance 1) e.seq = some (e.advance 1) := by
  rw [List.map_append, List.map_singleton]
  refine findEntry_append_cons (e := e.advance 1) fun a ha => ?_
  obtain ⟨b, hb, rfl⟩ := List.mem_map.mp ha
  exact seq_ne_of_nodup hn b hb

section Moved
variable {s : State} (hr : s.hasRole .terminus = true) {before : List Entry} {e : Entry} (hb : ∀ a ∈ before, a.track = .passed)
  (he : Quiet s (e.advance 1)) (i : Nat) (m : Mtr) {q : Csq}
include hr hb he

theorem trackLitre_shut (hq : q.record = none) :
    trackLitre (s.onLitre i m q (before ++ [e])) = s.onLitre (i + 1) m q ((before ++ [e]).map fun a => a.advance 1) :=
  trackLitre_idle ((onLitre_hasRole ..).trans hr) (cutRlvChanged_shut hq) (quiet_moved hb he)

theorem trackLitre_ahead {r : OpenCut} (hn : ((before ++ [e]).map (·.seq)).Nodup) (hq : q.record = some r) (hc : r.cutEntry = e.seq)
    (ha : r.method = .density ∨ Ahead s r (e.advance 1).rlv) :
    trackLitre (s.onLitre i m q (before ++ [e])) = s.onLitre (i + 1) m q ((before ++ [e]).map fun a => a.advance 1) :=
  trackLitre_idle ((onLitre_hasRole ..).trans hr) (cutRlvChanged_ahead hq (by rw [hc]; exact find_moved hn) ha) (quiet_moved hb he)

end Moved

theorem ahead_countLitre {s : State} {r : OpenCut} {v : Int} (h : r.method = .density ∨ Ahead s r v) :
    r.countLitre.method = .density ∨ Ahead s r.countLitre v := by
  simpa only [Ahead, countLitre_method, countLitre_policy, countLitre_headReached, countLitre_finalReached] using h

/-! ### Counting (R137) -/

theorem handLitre_counts {s : State} {m : Mtr} {before : List Entry} {e : Entry} {r : OpenCut} (hr : s.hasRole .terminus = true)
    (hs : CutSafe s) (hm : m.count = s.mtr.count + 1) (ht : s.trs.train = before ++ [e]) (hn : (s.trs.train.map (·.seq)).Nodup)
    (hb : ∀ a ∈ before, a.track = .passed) (hrec : s.csq.record = some r) (hc : r.cutEntry = e.seq) (he : Quiet s (e.advance 1))
    (ha : r.method = .density ∨ Ahead s r (e.advance 1).rlv) (hq : ∀ a ∈ s.csq.queue, m.count < a.due)
    (hf : r.finalExecuted = true → 1 < s.csq.settleRemaining) :
    handLitre { s with mtr := m } = s.onLitre 2 m (s.csq.countedIn r) ((before ++ [e]).map fun a => a.advance 1) := by
  have hidle (i : Nat) (t : List Entry) : cutAfterLitre (s.onLitre i m (s.csq.countedIn r) t) = s.onLitre i m (s.csq.countedIn r) t := by
    refine cutAfterLitre_idle hq (settled_running rfl fun hx => ?_)
    rw [countLitre_finalExecuted] at hx
    have := hf hx
    simp only [onLitre_csq, Csq.countedIn, hx, if_true]
    omega
  have hmove := trackLitre_ahead hr hb he 1 m (q := s.csq.countedIn r) (ht ▸ hn) rfl ((countLitre_cutEntry r).trans hc) (ahead_countLitre ha)
  refine handLitre_terminus hr ?_ ?_ <;> rw [hm, counted_open hs hrec, ht]
  · rw [hidle, hmove]
  · rw [hmove, hidle]

/-! ### Thresholds (R138, R139, R141) -/

/-- The action of a threshold reached at C = `c` (R141). -/
def dueAction (p : Published) (c : Nat) (source : Source) (reference : SeqNo) (k : ActionKind) (target : Route) : Action :=
  ⟨target, c + p.lead - p.antic, source, reference, k⟩

/-- CSQ with the head threshold of the record `r` reached. -/
def Csq.headMarked (q : Csq) (r : OpenCut) (a : Action) : Csq :=
  { q with state := .mixing, record := some { r with headReached := true }, queue := q.queue ++ [a] }

/-- CSQ with the final threshold of the record `r` reached. -/
def Csq.finalMarked (q : Csq) (r : OpenCut) (a : Action) : Csq :=
  { q with state := .settling, record := some { r with finalReached := true, routeB := some a.target }, queue := q.queue ++ [a] }

section Thresholds
variable {s : State} {r : OpenCut} {target : Route} (source : Source) (hrec : s.csq.record = some r)
include hrec

theorem reachThreshold_head (ht : transmixRoute s.cfg = some target) : reachThreshold .head source s
    = { s with csq := s.csq.headMarked r (dueAction s.cfg s.mtr.count source r.first .head target) } := by
  simp only [reachThreshold, hrec, thresholdTarget, ht, markReached, modifyRecord, putCsq, Option.map_some]
  rfl

theorem reachThreshold_final (ht : productRoute s.cfg r.productB = some target) : reachThreshold .final source s
    = { s with csq := s.csq.finalMarked r (dueAction s.cfg s.mtr.count source r.first .final target) } := by
  simp only [reachThreshold, hrec, thresholdTarget, resolveProduct, ht, markReached, modifyRecord, putCsq, Option.map_some]
  rfl

variable {reached : Nat → Bool}

/-- With the head threshold reached before, or none, the final threshold alone is judged. -/
theorem judgeWith_final (hh : (r.headPending && (headThreshold s.cfg r.policy).any reached) = false) : judgeWith reached source s
    = if !r.headPending && r.finalPending && (finalThreshold s.cfg r.policy).any reached then reachThreshold .final source s else s := by
  simp only [judgeWith, hrec, hh, Bool.false_eq_true, if_false]

/-- A head threshold reached at this judgement; the final threshold is judged behind it. -/
theorem judgeWith_head (hp : r.policy = .transmix) (hn : r.headReached = false) (hr : reached s.cfg.headFraction = true)
    (ht : transmixRoute s.cfg = some target) : judgeWith reached source s
    = if !r.finalReached && reached s.cfg.tailFraction then
        reachThreshold .final source { s with csq := s.csq.headMarked r (dueAction s.cfg s.mtr.count source r.first .head target) }
      else { s with csq := s.csq.headMarked r (dueAction s.cfg s.mtr.count source r.first .head target) } := by
  have hh : (r.headPending && (headThreshold s.cfg r.policy).any reached) = true := by
    simp [OpenCut.headPending, hp, hn, headThreshold, hr]
  simp only [judgeWith, hrec, hh, if_true, reachThreshold_head source hrec ht]
  simp only [Csq.headMarked, hp, finalThreshold, Option.any_some]
  rfl

end Thresholds

/-- A threshold of the cut is reached at an RLV of `v` by the action `k` to `target` (R139, R141). -/
def ReachedBy (s : State) (r : OpenCut) (v : Int) (k : ActionKind) (target : Route) : Prop :=
  (k = .head ∧ r.policy = .transmix ∧ r.headReached = false ∧ v ≤ volumePoint s s.cfg.headFraction ∧ transmixRoute s.cfg = some target
    ∧ (r.finalReached = true ∨ volumePoint s s.cfg.tailFraction < v))
  ∨ (k = .final ∧ (r.policy ≠ .transmix ∨ r.headReached = true) ∧ r.finalReached = false
    ∧ (∃ t, finalThreshold s.cfg r.policy = some t ∧ v ≤ volumePoint s t) ∧ productRoute s.cfg r.productB = some target)

/-- CSQ after the action `a` of kind HEAD or FINAL is queued. -/
def Csq.marked (q : Csq) (r : OpenCut) (a : Action) : Csq := if a.kind = .head then q.headMarked r a else q.finalMarked r a

theorem judgeVolume_reached {s : State} {r : OpenCut} {e : Entry} {k : ActionKind} {target : Route} (hrec : s.csq.record = some r)
    (he : findEntry s.trs.train r.cutEntry = some e) (hk : ReachedBy s r e.rlv k target) :
    judgeVolume s = { s with csq := s.csq.marked r (dueAction s.cfg s.mtr.count .volume r.first k target) } := by
  simp only [judgeVolume, hrec, volumeReached_found he]
  rcases hk with ⟨rfl, hp, hn, hv, ht, hf⟩ | ⟨rfl, hh, hn, ⟨t, hft, hv⟩, ht⟩
  · have hlater : (!r.finalReached && decide (e.rlv ≤ volumePoint s s.cfg.tailFraction)) = false := by
      rcases hf with hf | hf
      · rw [hf]; rfl
      · rw [decide_eq_false (by omega), Bool.and_false]
    rw [judgeWith_head .volume hrec hp hn (decide_eq_true hv) ht, hlater]
    rfl
  · have hpen : r.headPending = false := by
      rcases hh with hp | hh
      · simp [OpenCut.headPending, hp]
      · simp [OpenCut.headPending, hh]
    have hfin : r.finalPending = true := by
      have : r.policy ≠ .none := fun h => by rw [h] at hft; cases hft
      simp [OpenCut.finalPending, this, hn]
    rw [judgeWith_final .volume hrec (by rw [hpen]; rfl), hpen, hfin, hft]
    simp only [Bool.not_false, Bool.and_self, Option.any_some, hv, decide_true, if_true]
    rw [reachThreshold_final .volume hrec ht]
    rfl

theorem reachedBy_countLitre {s : State} {r : OpenCut} {v : Int} {k : ActionKind} {target : Route} (h : ReachedBy s r v k target) :
    ReachedBy s r.countLitre v k target := by
  simpa only [ReachedBy, countLitre_policy, countLitre_headReached, countLitre_finalReached, countLitre_productB] using h

theorem reachedBy_onLitre (s : State) (i : Nat) (m : Mtr) (q : Csq) (t : List Entry) (r : OpenCut) (v : Int) (k : ActionKind) (target : Route) :
    ReachedBy (s.onLitre i m q t) r v k target ↔ ReachedBy s r v k target := Iff.rfl

theorem evaluate_onLitre_idle {s : State} (hr : s.hasRole .terminus = true) {t : List Entry} (hq : ∀ e ∈ t, Quiet s e) (i : Nat) (m : Mtr)
    (q : Csq) (b : Option SeqNo) : evaluate false b (s.onLitre i m q t) = s.onLitre i m q t :=
  evaluate_quiet _ _ ((onLitre_hasRole ..).trans (hasRole_other hr (by decide))) hq

/-- An action just queued is due behind the litre that queued it, where L_ANTIC lies below L_LEAD (R141). -/
theorem lt_dueAction {p : Published} (h : p.antic < p.lead) (c : Nat) (source : Source) (n : SeqNo) (k : ActionKind) (target : Route) :
    c < (dueAction p c source n k target).due := by
  simp only [dueAction]
  omega

theorem marked_record (q : Csq) (r : OpenCut) (a : Action) :
    ∃ r' : OpenCut, (q.marked r a).record = some r' ∧ r'.finalExecuted = r.finalExecuted := by
  unfold Csq.marked
  split
  · exact ⟨_, rfl, rfl⟩
  · exact ⟨_, rfl, rfl⟩

theorem marked_queue (q : Csq) (r : OpenCut) (a : Action) : (q.marked r a).queue = q.queue ++ [a] := by
  unfold Csq.marked
  split <;> rfl

/-- A threshold reached by the litre (R139, R141). -/
theorem handLitre_reaches {s : State} {m : Mtr} {before : List Entry} {e : Entry} {r : OpenCut} {k : ActionKind} {target : Route}
    (hr : s.hasRole .terminus = true)
    (hs : CutSafe s) (hm : m.count = s.mtr.count + 1) (ht : s.trs.train = before ++ [e]) (hn : (s.trs.train.map (·.seq)).Nodup)
    (hb : ∀ a ∈ before, a.track = .passed) (hrec : s.csq.record = some r) (hc : r.cutEntry = e.seq) (he : Quiet s (e.advance 1))
    (hmeth : r.method ≠ .density) (hx : r.finalExecuted = false) (hk : ReachedBy s r (e.advance 1).rlv k target)
    (hq : s.csq.queue = []) (hl : s.cfg.antic < s.cfg.lead) :
    handLitre { s with mtr := m } = s.onLitre 2 m ((s.csq.countedIn r).marked r.countLitre (dueAction s.cfg m.count .volume r.first k target))
      ((before ++ [e]).map fun a => a.advance 1) := by
  generalize ha : dueAction s.cfg m.count .volume r.first k target = a
  have hquiet := quiet_moved hb he
  have hmarked : cutRlvChanged (s.onLitre 2 m (s.csq.countedIn r) ((before ++ [e]).map fun a => a.advance 1))
      = s.onLitre 2 m ((s.csq.countedIn r).marked r.countLitre a) ((before ++ [e]).map fun a => a.advance 1) := by
    rw [cutRlvChanged_volume (r := r.countLitre) rfl (by rwa [countLitre_method]), judgeVolume_reached (r := r.countLitre) rfl
      (by rw [countLitre_cutEntry, hc]; exact find_moved (ht ▸ hn)) ((reachedBy_onLitre ..).mpr (reachedBy_countLitre hk)),
      countLitre_first, ← ha]
    rfl
  have hmove : trackLitre (s.onLitre 1 m (s.csq.countedIn r) (before ++ [e]))
      = s.onLitre 2 m ((s.csq.countedIn r).marked r.countLitre a) ((before ++ [e]).map fun a => a.advance 1) := by
    refine trackLitre_terminus ((onLitre_hasRole ..).trans hr) ?_ ?_ <;> rw [moving_onLitre]
    · rw [hmarked, evaluate_onLitre_idle hr hquiet]
    · rw [evaluate_onLitre_idle hr hquiet, hmarked]
  have hidle1 : cutAfterLitre (s.onLitre 1 m (s.csq.countedIn r) (before ++ [e])) = s.onLitre 1 m (s.csq.countedIn r) (before ++ [e]) :=
    cutAfterLitre_idle (by simp only [onLitre_csq, Csq.countedIn, hq]; nofun) (settled_running rfl (by rw [countLitre_finalExecuted, hx]; nofun))
  have hidle2 (t : List Entry) : cutAfterLitre (s.onLitre 2 m ((s.csq.countedIn r).marked r.countLitre a) t)
      = s.onLitre 2 m ((s.csq.countedIn r).marked r.countLitre a) t := by
    obtain ⟨r', hr', hx'⟩ := marked_record (s.csq.countedIn r) r.countLitre a
    refine cutAfterLitre_idle (fun b hbq => ?_) (settled_running hr' (by rw [hx', countLitre_finalExecuted, hx]; nofun))
    rw [onLitre_csq, marked_queue, Csq.countedIn, hq, List.nil_append, List.mem_singleton] at hbq
    rw [hbq, ← ha]
    exact lt_dueAction hl ..
  refine handLitre_terminus hr ?_ ?_ <;> rw [hm, counted_open hs hrec, ht]
  · rw [hidle1, hmove]
  · rw [hmove, hidle2]


/-! ### A due action (R143, R176) -/

/-- VLD with the switch of the request `q` in MAKE (R173, R176). -/
def State.making (s : State) (q : SwitchRequest) : Vld := { s.vld with
  inFlight := some ⟨q, s.vld.current, .making, [], false⟩
  routes := routeSet s.vld.routes q.target { routeState s q.target with
    latch := .opened, faultMark := false, startupClose := false, travel := some (s.now + s.cfg.travelTimeout * 1000) } }

/-- VLD takes a request for a route that is not the current one, at once when it is free (R176, R179, R180). -/
theorem requestSwitch_making {s : State} {q : SwitchRequest} (hf : s.vld.inFlight = none) (hs : s.vld.startRead = true)
    (hc : s.vld.current ≠ some q.target) (hl : (routeState s q.target).openLimit = false) :
    requestSwitch q s = ({ s with vld := s.making q }, []) := by
  have hcmd : commandRoute q.target .opened false s = (putRoute q.target { routeState s q.target with
      latch := .opened, faultMark := false, startupClose := false, travel := some (s.now + s.cfg.travelTimeout * 1000) } s, none) := by
    simp [commandRoute, RouteState.shows, hl, latchOf]
  simp only [requestSwitch, hf, hs, Option.isSome_none, Bool.not_true, Bool.or_self, Bool.false_eq_true, if_false, startSwitch, hc, hcmd]
  rfl

/-- CSQ with the action `a` of the record `r` executed and `rest` still queued (R143, R145). -/
def Csq.executed (q : Csq) (r : OpenCut) (a : Action) (rest : List Action) (settle : Nat) : Csq := { q with
  queue := rest
  routeInUse := some a.target
  lastSource := some a.source
  record := some (if a.kind = .head then { r with stage := .middle } else { r with stage := .trail, finalExecuted := true })
  settleRemaining := if a.kind = .head then q.settleRemaining else settle }

/-- The state once VLD has the action's request: unchanged when its target is the route in use, which no switch is asked for (R143). -/
def State.switchedTo (s : State) (inUse : Option Route) (a : Action) (number : Nat) : State :=
  if inUse = some a.target then s else { s with vld := s.making ⟨a.target, ⟨a.kind, some number, false⟩⟩ }

/-- VLD is free for the action's switch, or none is asked for. -/
def SwitchReady (s : State) (inUse : Option Route) (a : Action) : Prop :=
  inUse = some a.target ∨ (s.vld.inFlight = none ∧ s.vld.startRead = true ∧ s.vld.current ≠ some a.target
    ∧ (routeState s a.target).openLimit = false)

section Executing
variable {s : State} {i : Nat} {m : Mtr} {q : Csq} {t : List Entry} {r : OpenCut} {a : Action} {rest : List Action}
  (hk : a.kind = .head ∨ a.kind = .final) (hrec : q.record = some r)
include hk hrec

theorem takeStream_onLitre : takeStream a.target a.source a.kind (s.onLitre i m { q with queue := rest } t)
    = s.onLitre i m (q.executed r a rest s.cfg.settle) t := by
  rcases hk with h | h
  · simp only [takeStream, putCsq, onLitre_csq, hrec, Option.map_some, Csq.executed, h]
    rfl
  · simp only [takeStream, putCsq, onLitre_csq, hrec, Option.map_some, Csq.executed, h]
    rfl

theorem executeSwitch_onLitre (hv : SwitchReady s q.routeInUse a) :
    executeSwitch a.target a.source a.kind false (s.onLitre i m { q with queue := rest } t)
      = (s.switchedTo q.routeInUse a r.number).onLitre i m (q.executed r a rest s.cfg.settle) t := by
  by_cases hu : q.routeInUse = some a.target
  · rw [executeSwitch, if_pos (show (s.onLitre i m { q with queue := rest } t).csq.routeInUse = some a.target from hu), State.switchedTo,
      if_pos hu, takeStream_onLitre hk hrec]
  · obtain ⟨hf, hs, hc, hl⟩ := hv.resolve_left hu
    have hreq := requestSwitch_making (s := s.onLitre i m { q with queue := rest } t)
      (q := ⟨a.target, ⟨a.kind, some r.number, false⟩⟩) hf hs hc hl
    have hnum : (s.onLitre i m { q with queue := rest } t).csq.record.map (·.number) = some r.number := by
      rw [onLitre_csq]
      exact congrArg (Option.map (·.number)) hrec
    rw [executeSwitch, if_neg (show ¬ (s.onLitre i m { q with queue := rest } t).csq.routeInUse = some a.target from hu), State.switchedTo,
      if_neg hu]
    simp only [hnum, hreq, cutOutcomes, List.foldl_nil]
    exact takeStream_onLitre (s := { s with vld := s.making ⟨a.target, ⟨a.kind, some r.number, false⟩⟩ }) hk hrec

/-- The due action executes, the later ones wait, and the cut has not settled (R143, R145). -/
theorem cutAfterLitre_executes (hv : SwitchReady s q.routeInUse a) (hq : q.queue = a :: rest) (hd : a.due ≤ m.count)
    (hr : ∀ b ∈ rest, m.count < b.due) (hx : r.finalExecuted = false) (hs : 1 ≤ s.cfg.settle) :
    cutAfterLitre (s.onLitre i m q t) = (s.switchedTo q.routeInUse a r.number).onLitre i m (q.executed r a rest s.cfg.settle) t := by
  have hex : executeDue (s.onLitre i m q t).csq.queue.length (s.onLitre i m q t)
      = (s.switchedTo q.routeInUse a r.number).onLitre i m (q.executed r a rest s.cfg.settle) t := by
    have hput : putCsq (fun c => { c with queue := rest }) (s.onLitre i m q t) = s.onLitre i m { q with queue := rest } t := rfl
    rw [onLitre_csq, hq, List.length_cons]
    simp only [executeDue, onLitre_csq, hq, onLitre_mtr, hd, if_true, hput]
    rw [executeSwitch_onLitre hk hrec hv]
    exact executeDue_idle _ hr
  have hset : settled ((s.switchedTo q.routeInUse a r.number).onLitre i m (q.executed r a rest s.cfg.settle) t) = false := by
    refine settled_running rfl fun hfin => ?_
    rcases hk with h | h
    · simp [h, hx] at hfin
    · simp only [onLitre_csq, Csq.executed, h, reduceCtorEq, if_false]
      omega
  rw [cutAfterLitre, executeAndSettle]
  simp only [hex, hset, Bool.false_eq_true, if_false]
  exact evaluateIfRemoved_same rfl

end Executing

theorem quiet_switchedTo {s : State} {e : Entry} (inUse : Option Route) (a : Action) (n : Nat) (h : Quiet s e) :
    Quiet (s.switchedTo inUse a n) e := by
  unfold State.switchedTo
  split
  · exact h
  · exact h

theorem switchedTo_hasRole (s : State) (inUse : Option Route) (a : Action) (n : Nat) (r : Role) :
    (s.switchedTo inUse a n).hasRole r = s.hasRole r := by
  unfold State.switchedTo
  split
  · rfl
  · simp only [State.hasRole, State.running]

theorem ahead_switchedTo {s : State} {r : OpenCut} {v : Int} (inUse : Option Route) (a : Action) (n : Nat) (h : Ahead s r v) :
    Ahead (s.switchedTo inUse a n) r v := by
  unfold State.switchedTo
  split
  · exact h
  · exact h

/-- An executed action leaves the pair, the method and the thresholds of the record. -/
theorem executed_record (q : Csq) (r : OpenCut) (a : Action) (rest : List Action) (settle : Nat) : ∃ r' : OpenCut,
    (q.executed r a rest settle).record = some r' ∧ r'.cutEntry = r.cutEntry ∧ r'.method = r.method ∧ r'.policy = r.policy
    ∧ r'.headReached = r.headReached ∧ r'.finalReached = r.finalReached := by
  unfold Csq.executed
  split
  · exact ⟨_, rfl, rfl, rfl, rfl, rfl, rfl⟩
  · exact ⟨_, rfl, rfl, rfl, rfl, rfl, rfl⟩

/-- A due action executes with the litre (R143). -/
theorem handLitre_executes {s : State} {m : Mtr} {before : List Entry} {e : Entry} {r : OpenCut} {a : Action} {rest : List Action}
    (hr : s.hasRole .terminus = true)
    (hs : CutSafe s) (hm : m.count = s.mtr.count + 1) (ht : s.trs.train = before ++ [e]) (hn : (s.trs.train.map (·.seq)).Nodup)
    (hb : ∀ a ∈ before, a.track = .passed) (hrec : s.csq.record = some r) (hc : r.cutEntry = e.seq) (he : Quiet s (e.advance 1))
    (ha : r.method = .density ∨ Ahead s r (e.advance 1).rlv) (hx : r.finalExecuted = false) (hq : s.csq.queue = a :: rest)
    (hd : a.due ≤ m.count) (hlater : ∀ b ∈ rest, m.count < b.due) (hset : 1 ≤ s.cfg.settle) (hv : SwitchReady s s.csq.routeInUse a) :
    handLitre { s with mtr := m } = (s.switchedTo s.csq.routeInUse a r.number).onLitre 2 m
      ((s.csq.countedIn r).executed r.countLitre a rest s.cfg.settle) ((before ++ [e]).map fun a => a.advance 1) := by
  have hk : a.kind = .head ∨ a.kind = .final := hs.kinds a (by rw [hq]; exact List.mem_cons_self)
  have hex (i : Nat) (t : List Entry) : cutAfterLitre (s.onLitre i m (s.csq.countedIn r) t)
      = (s.switchedTo s.csq.routeInUse a r.number).onLitre i m ((s.csq.countedIn r).executed r.countLitre a rest s.cfg.settle) t := by
    have h := cutAfterLitre_executes (s := s) (i := i) (m := m) (q := s.csq.countedIn r) (t := t) (r := r.countLitre) (a := a) (rest := rest)
      hk rfl hv hq hd hlater (by rw [countLitre_finalExecuted, hx]) hset
    rw [h, countLitre_number]
    rfl
  have hmove1 := trackLitre_ahead hr hb he 1 m (q := s.csq.countedIn r) (ht ▸ hn) rfl ((countLitre_cutEntry r).trans hc) (ahead_countLitre ha)
  obtain ⟨r', hr', hcut, hmeth, hpol, hhead, hfin⟩ := executed_record (s.csq.countedIn r) r.countLitre a rest s.cfg.settle
  have ha' : r'.method = .density ∨ Ahead (s.switchedTo s.csq.routeInUse a r.number) r' (e.advance 1).rlv := by
    rw [hmeth]
    refine (ahead_countLitre ha).imp_right fun h => ahead_switchedTo _ _ _ ?_
    simpa only [Ahead, hpol, hhead, hfin] using h
  have hmove2 := trackLitre_ahead ((switchedTo_hasRole ..).trans hr) hb (quiet_switchedTo _ _ _ he) 1 m (ht ▸ hn) hr'
    (hcut.trans ((countLitre_cutEntry r).trans hc)) ha'
  refine handLitre_terminus hr ?_ ?_ <;> rw [hm, counted_open hs hrec, ht]
  · rw [hex, hmove2]
  · rw [hmove1, hex]

end Sys2Proof.Machine
end

