-- ==== Sys2Proof/Proofs/TerminusClose.lean ====
section
/-! SUPPORT. The litre of a pulse at a TERMINUS that ends the settling of a cut (R145, R146). -/

namespace Sys2Proof.Machine

/-! ### A record handed to the cut log (R146, R204) -/

/-- The state with the record `r` in the cut log and its CUT_CLOSED in the event queue. -/
def State.logged (s : State) (r : CutRecord) : State :=
  offerEvent (.cutClosed r.first r.last (r.flags.handedOn (logFull s))) (appendToLog (.cut r) s)

theorem logged_trs (s : State) (r : CutRecord) : (s.logged r).trs = s.trs := by simp only [State.logged, offerEvent_trs, appendToLog_trs]

theorem logged_csq (s : State) (r : CutRecord) : (s.logged r).csq = s.csq := by simp only [State.logged, offerEvent_csq, appendToLog_csq]

/-- The station port's state with the record `r` logged at a time. -/
def Spc.logged (x : Spc) (time : Nat) (r : CutRecord) : Spc :=
  let e : Event := .cutClosed r.first r.last (r.flags.handedOn (decide (16 ≤ x.cutLog.length)))
  if x.cutLog.length < 16 then { x with cutLog := x.cutLog ++ [LogRecord.cut r] }.offered time e
  else { x with cutLog := x.cutLog.drop 1 ++ [(LogRecord.cut r).withOverwrite], readingRecord := false }.offered time e

theorem logged_eq (s : State) (r : CutRecord) : s.logged r = { s with spc := s.spc.logged s.now r } := by
  rw [State.logged, offerEvent_offered]
  unfold appendToLog Spc.logged logFull
  split <;> rfl

theorem logged_hasRole (s : State) (r : CutRecord) (x : Role) : (s.logged r).hasRole x = s.hasRole x := by
  rw [logged_eq]
  simp only [State.hasRole, State.running]

theorem logged_onLitre (s : State) (i : Nat) (m : Mtr) (q : Csq) (t : List Entry) (r : CutRecord) :
    (s.onLitre i m q t).logged r = (s.logged r).onLitre i m q t := by
  rw [logged_eq, logged_eq]
  rfl

/-- CSQ with no record open, in the state `next`. -/
def Csq.shut (q : Csq) (next : CutState) : Csq := { q with record := none, queue := [], settleRemaining := 0, state := next }

theorem removeBefore_older {before : List Entry} {e : Entry} (hb : ∀ a ∈ before, a.track = .passed ∧ seqAfter e.seq a.seq = true)
    (he : e.track = .passed) : removeBefore e.seq (before ++ [e]) = [e] := by
  have hp : ∀ a ∈ before ++ [e], a.track = .passed := fun a ha =>
    (List.mem_append.mp ha).elim (fun h => (hb a h).1) fun h => by rw [List.mem_singleton.mp h]; exact he
  have h := removeBefore_append e.seq (coming := []) hp (by nofun)
  rw [List.append_nil, List.append_nil, List.dropLast_concat, List.getLast?_concat,
    List.filter_eq_nil_iff.mpr fun a ha => by simp [(hb a ha).2]] at h
  exact h

/-- A close behind whose cut entry everything is older leaves that entry alone in the train (R21, R146). -/
theorem closeRecord_alone {s : State} {r : OpenCut} {before : List Entry} {e : Entry} (hrec : s.csq.record = some r)
    (ht : s.trs.train = before ++ [e]) (hb : ∀ a ∈ before, a.track = .passed ∧ seqAfter e.seq a.seq = true) (he : e.track = .passed)
    (hc : r.cutEntry = e.seq) (next : CutState) : closeRecord true next s
      = ({ s with csq := s.csq.shut next, trs := { s.trs with train := [e] } } : State).logged (r.closed s.mtr.count s.mtr.trim) := by
  have hbatch : (batchAtStation [e]).map (·.seq) = (batchAtStation (s.logged (r.closed s.mtr.count s.mtr.trim)).trs.train).map (·.seq) := by
    have h1 : batchAtStation [e] = some e := by simp [batchAtStation, he]
    have h2 : batchAtStation (before ++ [e]) = some e := by
      simp [batchAtStation, List.filter_append, he]
    rw [logged_trs, ht, h1, h2]
  have hremoved : removeBefore r.cutEntry (s.logged (r.closed s.mtr.count s.mtr.trim)).trs.train = [e] := by
    rw [logged_trs, ht, hc, removeBefore_older hb he]
  have hclose : closeRecord true next s = putCsq (fun q => q.shut next)
      (putTrain (removeBefore r.cutEntry (s.logged (r.closed s.mtr.count s.mtr.trim)).trs.train) (s.logged (r.closed s.mtr.count s.mtr.trim))) := by
    simp only [closeRecord, hrec]
    rfl
  rw [hclose, hremoved, putTrain_same hbatch]
  have h := logged_onLitre s 0 s.mtr (s.csq.shut next) [e] (r.closed s.mtr.count s.mtr.trim)
  rw [State.onLitre] at h
  refine Eq.trans ?_ h.symm
  rw [logged_eq]
  rfl

theorem openDue_passed {s : State} (h : ∀ e ∈ s.trs.train, e.track = .passed) : openDue s = s := by
  have hnone : s.trs.train.find? (dueForCut s) = none :=
    List.find?_eq_none.mpr fun e he => by simp [dueForCut, h e he]
  simp only [openDue, hnone, ite_self]

/-- The record with the product check UNJUDGED (R145). -/
def OpenCut.unjudged (r : OpenCut) : OpenCut := { r with check := some .unjudged }

/-- A cut that settles without a healthy densitometer closes UNJUDGED (R74, R145). -/
theorem checkProduct_unjudged {s : State} {r : OpenCut} (hrec : s.csq.record = some r) (hd : s.dsu.healthy = false) : checkProduct s
    = openDue (closeRecord true .steady { s with csq := { s.csq with record := some r.unjudged } }) := by
  have hp : productCheck s r.densityB = .unjudged := by simp [productCheck, hd]
  simp only [checkProduct, hrec, hp, modifyRecord, putCsq, Option.map_some]
  rfl

theorem cutAfterLitre_closes {s : State} {i : Nat} {m : Mtr} {q : Csq} {before : List Entry} {e : Entry} {r : OpenCut}
    (hr : s.hasRole .terminus = true) (hrec : q.record = some r) (hq : q.queue = []) (hx : r.finalExecuted = true)
    (h0 : q.settleRemaining = 0) (hd : s.dsu.healthy = false) (hb : ∀ a ∈ before, a.track = .passed ∧ seqAfter e.seq a.seq = true)
    (he : e.track = .passed) (hc : r.cutEntry = e.seq) : cutAfterLitre (s.onLitre i m q (before ++ [e]))
      = (s.logged (r.unjudged.closed m.count m.trim)).onLitre i m (q.shut .steady) [e] := by
  generalize hl : r.unjudged.closed m.count m.trim = l
  have hclosed : executeAndSettle (s.onLitre i m q (before ++ [e])) = (s.logged l).onLitre i m (q.shut .steady) [e] := by
    have hdue : executeDue (s.onLitre i m q (before ++ [e])).csq.queue.length (s.onLitre i m q (before ++ [e])) = s.onLitre i m q (before ++ [e]) :=
      executeDue_idle _ (by rw [onLitre_csq, hq]; nofun)
    have hset : settled (s.onLitre i m q (before ++ [e])) = true := by simp [settled, hrec, hx, h0]
    have hclose := closeRecord_alone (s := s.onLitre i m { q with record := some r.unjudged } (before ++ [e]))
      (r := r.unjudged) rfl rfl hb he hc .steady
    rw [onLitre_mtr, hl] at hclose
    simp only [executeAndSettle, hdue, hset, if_true]
    rw [checkProduct_unjudged (s := s.onLitre i m q (before ++ [e])) hrec hd]
    refine (congrArg openDue (hclose.trans (logged_onLitre s i m (q.shut .steady) [e] l))).trans ?_
    exact openDue_passed fun a ha => by rw [List.mem_singleton.mp ha]; exact he
  rw [cutAfterLitre, hclosed, evaluateIfRemoved]
  split
  · exact evaluate_onLitre_idle ((logged_hasRole ..).trans hr) (fun a ha => by rw [List.mem_singleton.mp ha]; exact .inl he) ..
  · rfl

/-- The last litre of settling closes the record (R145, R146). -/
theorem handLitre_closes {s : State} {m : Mtr} {before : List Entry} {e : Entry} {r : OpenCut} (hr : s.hasRole .terminus = true)
    (hs : CutSafe s) (hm : m.count = s.mtr.count + 1) (ht : s.trs.train = before ++ [e]) (hn : (s.trs.train.map (·.seq)).Nodup)
    (hb : ∀ a ∈ before, a.track = .passed ∧ seqAfter e.seq a.seq = true) (hrec : s.csq.record = some r) (hc : r.cutEntry = e.seq)
    (he : e.track = .passed) (hd : s.dsu.healthy = false) (hh : r.policy ≠ .transmix ∨ r.headReached = true)
    (hf : r.policy = .none ∨ r.finalReached = true) (hx : r.finalExecuted = true) (h1 : s.csq.settleRemaining = 1) (hq : s.csq.queue = []) :
    handLitre { s with mtr := m }
      = (s.logged (r.countLitre.unjudged.closed m.count m.trim)).onLitre 2 m
        (s.csq.shut .steady) [e.advance 1] := by
  have hx' : r.countLitre.finalExecuted = true := (countLitre_finalExecuted r).trans hx
  have h0 : (s.csq.countedIn r).settleRemaining = 0 := by simp [Csq.countedIn, hx, h1]
  have hpassed : ∀ a ∈ before, a.track = .passed := fun a ha => (hb a ha).1
  have hbm : ∀ a ∈ before.map fun a => a.advance 1, a.track = .passed ∧ seqAfter (e.advance 1).seq a.seq = true := fun a ha => by
    obtain ⟨b, hbm, rfl⟩ := List.mem_map.mp ha
    exact hb b hbm
  have hshut : (s.csq.countedIn r).shut .steady = s.csq.shut .steady := rfl
  have hc' : r.countLitre.cutEntry = e.seq := (countLitre_cutEntry r).trans hc
  have hmove := trackLitre_ahead hr hpassed (.inl he) 1 m (q := s.csq.countedIn r) (ht ▸ hn) rfl hc'
    (ahead_countLitre (.inr (ahead_of_reached _ hh hf)))
  have hcount : s.csq.counted m.count = s.csq.countedIn r := by rw [hm, counted_open hs hrec]
  refine handLitre_terminus hr ?_ ?_ <;> rw [hcount, ht]
  · have hclose := cutAfterLitre_closes (i := 1) (m := m) (q := s.csq.countedIn r) hr rfl hq hx' h0 hd hb he hc'
    have hmove := trackLitre_shut (s := s.logged (r.countLitre.unjudged.closed m.count m.trim)) (before := [])
      (e := e) ((logged_hasRole ..).trans hr) (by nofun) (.inl he) 1 m (q := s.csq.shut .steady) rfl
    rw [hclose, hshut]
    exact hmove
  · have hclose := cutAfterLitre_closes (i := 2) (m := m) (q := s.csq.countedIn r) (e := e.advance 1) hr rfl hq hx' h0 hd hbm he hc'
    rw [hmove, List.map_append, List.map_singleton, hclose, hshut]

end Sys2Proof.Machine
end

