-- ==== Sys2Proof/Proofs/TerminusOpening.lean ====
section
/-! SUPPORT. The litre of a pulse at a TERMINUS that opens a cut, by volume and by density (R135, R138, R139). -/

namespace Sys2Proof.Machine

/-! ### The record that opens (R135, R136) -/

/-- The record of a cut opened for `x` behind `a`. -/
def State.cutFor (s : State) (a x : Entry) (method : CutMethod) : OpenCut where
  number := s.csq.nextNumber
  first := x.seq
  last := none
  productA := a.product
  productB := x.product
  policy := policyOf s.cfg a.product x.product
  method := method
  start := s.mtr.count
  routeA := s.csq.routeInUse
  routeB := none
  volumeA := 0
  volumeX := 0
  volumeB := 0
  rlvAtDetection := none
  check := none
  flags := .clear
  stage := .lead
  cutEntry := x.seq
  densityA := a.density
  densityB := x.density
  headReached := false
  finalReached := false
  finalExecuted := false

/-- CSQ with the record `r` just opened. -/
def Csq.opened (q : Csq) (r : OpenCut) : Csq :=
  { q with state := .armed, cutThrough := some r.first, record := some r, nextNumber := q.nextNumber + 1 }

/-- The method that the mix fraction of a pair gives its cut. -/
def methodOf (fraction : Option Nat) : CutMethod := if fraction.isSome then .density else .volume

theorem openedRecord_behind {s : State} {before after : List Entry} {a x : Entry} (ht : s.trs.train = before ++ x :: after)
    (hn : ((before ++ x :: after).map (·.seq)).Nodup) (ha : before.getLast? = some a) :
    openedRecord s x = s.cutFor a x (methodOf (mixFraction s a.density x.density)) := by
  have hp : predecessorOf x.seq s.trs.train = some a := by rw [ht, predecessorOf_between hn, ha]
  simp only [openedRecord, capturedPair, openingPolicy, openingMethod, hp]
  rfl

section Opens
variable {s : State} {before : List Entry} {a x : Entry} (h : Around s before x [])
include h

/-- In STEADY an entry behind the cut-through sequence that enters WINDOW opens a cut (R135). -/
theorem Around.openWindow_opens (hr : s.hasRole .terminus = true) (hrec : s.csq.record = none) (hst : s.csq.state = .steady)
    (hth : s.csq.cutThrough.all (fun n => seqAfter x.seq n) = true) (hi : x.track = .inbound) (ha : before.getLast? = some a) :
    openWindow x.seq s = judgeThresholds { s.withTrain (before ++ [x.inWindow]) with
      csq := s.csq.opened (s.cutFor a x (methodOf (mixFraction s a.density x.density))) } := by
  have hu : updateEntry x.seq (fun e => { e with track := .window }) s = s.withTrain (before ++ [x.inWindow]) :=
    h.update (f := fun e => { e with track := .window }) (by simp [hi]) (by simp)
  have hdue : (before ++ [x.inWindow]).find? (dueForCut (s.withTrain (before ++ [x.inWindow]))) = some x.inWindow := by
    have hnone : before.find? (dueForCut (s.withTrain (before ++ [x.inWindow]))) = none :=
      List.find?_eq_none.mpr fun e he => by simp [dueForCut, h.passed e he]
    have hx : dueForCut (s.withTrain (before ++ [x.inWindow])) x.inWindow = true := by
      simp only [dueForCut, Entry.inWindow, State.withTrain, hth]
      rfl
    rw [List.find?_append, hnone, Option.none_or, List.find?_cons, hx]
  have hopened := openedRecord_behind (s := s.withTrain (before ++ [x.inWindow])) (x := x.inWindow) rfl h.opened.nodup ha
  have hdueTrain : (s.withTrain (before ++ [x.inWindow])).trs.train.find? (dueForCut (s.withTrain (before ++ [x.inWindow]))) = some x.inWindow := hdue
  simp only [openWindow, hu, hr, if_true, cutEntered]
  rw [show (s.withTrain (before ++ [x.inWindow])).csq.record = none from hrec]
  dsimp only
  rw [openDue, if_pos (show (s.withTrain (before ++ [x.inWindow])).csq.state = .steady from hst), hdueTrain]
  dsimp only
  rw [openCut, hopened]
  rfl

/-- The evaluation that opens a cut, when its thresholds come to the CSQ `q` and no test declares the entry. -/
theorem Around.evaluate_opens (hr : s.hasRole .terminus = true) (hrec : s.csq.record = none) (hst : s.csq.state = .steady)
    (hth : s.csq.cutThrough.all (fun n => seqAfter x.seq n) = true) (hi : x.track = .inbound) (ha : before.getLast? = some a)
    (hle : x.rlv ≤ (halfWidth s x.sinceSnap : Int)) (hp : (fractionBehind s before x).any (500 ≤ ·) = false)
    (hz : fractionBehind s before x = none → 0 < x.rlv) (hm : -(halfWidth s x.sinceSnap : Int) < x.rlv) {q : Csq}
    (hj : judgeThresholds { s.withTrain (before ++ [x.inWindow]) with
      csq := s.csq.opened (s.cutFor a x (methodOf (mixFraction s a.density x.density))) }
      = { s.withTrain (before ++ [x.inWindow]) with csq := q }) :
    Machine.evaluate false (candidateOf s.trs.train) s = { s.withTrain (before ++ [x.inWindow]) with csq := q } := by
  have ho := (h.openWindow_opens hr hrec hst hth hi ha).trans hj
  have hu : Around { s.withTrain (before ++ [x.inWindow]) with csq := q } before x.inWindow [] := h.replace rfl rfl rfl
  have hfr : pairFraction { s.withTrain (before ++ [x.inWindow]) with csq := q } x.inWindow.seq = fractionBehind s before x := hu.fraction
  refine h.evaluate (nonOrigin_of_hasRole hr (by decide)) (hasRole_other hr (by decide)) ?_ rfl (y := x.inWindow) rfl
  rw [visitEntry_opened h.find hi hle (by rw [ho]; exact hu.find) rfl, ho]
  exact testWindow_rests (by rw [hfr, hp, Bool.and_false]) (by rw [hfr]; exact hz) hm

end Opens

/-! ### The litre whose evaluation alone does something -/

theorem handLitre_evaluates {s v : State} {m : Mtr} {q : Csq} (hr : s.hasRole .terminus = true) (hcount : s.csq.counted m.count = q)
    (hidle : cutAfterLitre (s.onLitre 1 m q s.trs.train) = s.onLitre 1 m q s.trs.train)
    (hthr : cutRlvChanged (s.onLitre 2 m q (s.trs.train.map fun e => e.advance 1)) = s.onLitre 2 m q (s.trs.train.map fun e => e.advance 1))
    (he : evaluate false (candidateOf (s.onLitre 2 m q (s.trs.train.map fun e => e.advance 1)).trs.train)
      (s.onLitre 2 m q (s.trs.train.map fun e => e.advance 1)) = v)
    (hc : cutRlvChanged v = v) (ha : cutAfterLitre v = v) : handLitre { s with mtr := m } = v := by
  have hmove : trackLitre (s.onLitre 1 m q s.trs.train) = v := by
    refine trackLitre_terminus ((onLitre_hasRole ..).trans hr) ?_ ?_ <;> rw [moving_onLitre]
    · exact (congrArg _ hthr).trans he
    · exact (congrArg cutRlvChanged he).trans hc
  refine handLitre_terminus hr ?_ ?_ <;> rw [hcount]
  · rw [hidle, hmove]
  · rw [hmove, ha]

theorem onLitre_around {s : State} {before : List Entry} {e : Entry} (ht : s.trs.train = before ++ [e])
    (hn : (s.trs.train.map (·.seq)).Nodup) (hb : ∀ b ∈ before, b.track = .passed) (m : Mtr) (q : Csq) :
    Around (s.onLitre 2 m q (s.trs.train.map fun e => e.advance 1)) (before.map fun e => e.advance 1) (e.advance 1) [] := by
  have hmap : s.trs.train.map (fun e => e.advance 1) = (before.map fun e => e.advance 1) ++ [e.advance 1] := by
    rw [ht, List.map_append, List.map_singleton]
  refine ⟨hmap, ?_, fun b hbm => ?_, nofun⟩
  · rw [← hmap, List.map_map]
    exact hn
  · obtain ⟨c, hc, rfl⟩ := List.mem_map.mp hbm
    exact hb c hc

theorem record_none_of_steady {s : State} (hs : CutSafe s) (hst : s.csq.state = .steady) : s.csq.record = none := by
  have h : s.csq.record.isSome = false := by rw [hs.record, hst]; rfl
  exact Option.not_isSome_iff_eq_none.mp (by rw [h]; exact Bool.false_ne_true)

/-! ### The thresholds of a new record (R138, R139) -/

theorem judgeThresholds_volume {s : State} {r : OpenCut} (hrec : s.csq.record = some r) (hm : r.method ≠ .density) :
    judgeThresholds s = judgeVolume s := by simp only [judgeThresholds, hrec, hm, if_false]

theorem judgeThresholds_density {s : State} {r : OpenCut} {f : Nat} (hrec : s.csq.record = some r) (hm : r.method = .density)
    (hf : mixFraction s r.densityA r.densityB = some f) : judgeThresholds s = judgeWith (fun t => decide (t ≤ f)) .density s := by
  simp only [judgeThresholds, judgeDensity, hrec, hm, hf, if_true]

/-- The head threshold of a policy is reached at the fraction `f`, and then the final one (R138). -/
def headAt (c : Published) (p : Policy) (f : Nat) : Bool := (headThreshold c p).any (· ≤ f)
def finalAt (c : Published) (p : Policy) (f : Nat) : Bool := (p != .transmix || headAt c p f) && (finalThreshold c p).any (· ≤ f)

/-- CSQ with the thresholds of the new record `r` judged: `head` and `final` reached, by the actions `h` and `x`. -/
def Csq.judged (q : Csq) (r : OpenCut) (head final : Bool) (h x : Action) : Csq := { q with
  state := if final = true then .settling else if head = true then .mixing else q.state
  queue := q.queue ++ (if head = true then [h] else []) ++ (if final = true then [x] else [])
  record := some { r with
    routeB := if final = true then some x.target else r.routeB
    headReached := head
    finalReached := final } }

section Judged
variable (q : Csq) {r : OpenCut} (h x : Action)

theorem judged_both : q.judged r true true h x = (q.headMarked r h).finalMarked { r with headReached := true } x := rfl

theorem judged_head (hf : r.finalReached = false) : q.judged r true false h x = q.headMarked r h := by
  cases r
  cases hf
  simp [Csq.judged, Csq.headMarked]

theorem judged_final (hh : r.headReached = false) : q.judged r false true h x = q.finalMarked r x := by
  cases r
  cases hh
  simp [Csq.judged, Csq.finalMarked]

theorem judged_neither {q : Csq} (hrec : q.record = some r) (hh : r.headReached = false) (hf : r.finalReached = false) :
    q.judged r false false h x = q := by
  cases r
  cases hh
  cases hf
  simp [Csq.judged, ← hrec]

end Judged

theorem judgeWith_fresh {s : State} {r : OpenCut} {f : Nat} {transmix product : Route} (hrec : s.csq.record = some r)
    (hh : r.headReached = false) (hf : r.finalReached = false) (ht : transmixRoute s.cfg = some transmix)
    (hp : productRoute s.cfg r.productB = some product) : judgeWith (fun t => decide (t ≤ f)) .density s
      = { s with csq := (s.csq.judged r (headAt s.cfg r.policy f) (finalAt s.cfg r.policy f)
            (dueAction s.cfg s.mtr.count .density r.first .head transmix) (dueAction s.cfg s.mtr.count .density r.first .final product)) } := by
  cases hhead : headAt s.cfg r.policy f with
  | true =>
    have hpol : r.policy = .transmix := by
      by_contra hne
      rw [headAt, headThreshold_other s.cfg hne] at hhead
      cases hhead
    have hreach : s.cfg.headFraction ≤ f := by
      rw [headAt, hpol] at hhead
      exact of_decide_eq_true hhead
    have hfin : finalAt s.cfg r.policy f = decide (s.cfg.tailFraction ≤ f) := by
      rw [finalAt, hhead, Bool.or_true, Bool.true_and, hpol]
      rfl
    rw [judgeWith_head .density hrec hpol hh (decide_eq_true hreach) ht, hf, Bool.not_false, Bool.true_and, hfin]
    split
    · next htail =>
      rw [htail, judged_both]
      exact reachThreshold_final .density (r := { r with headReached := true }) rfl hp
    · next htail => rw [eq_false_of_ne_true htail, judged_head _ _ _ hf]
  | false =>
    have hpend : (r.headPending && (headThreshold s.cfg r.policy).any fun t => decide (t ≤ f)) = false := by
      rw [show ((headThreshold s.cfg r.policy).any fun t => decide (t ≤ f)) = false from hhead, Bool.and_false]
    have hfin : (!r.headPending && r.finalPending && (finalThreshold s.cfg r.policy).any fun t => decide (t ≤ f)) = finalAt s.cfg r.policy f := by
      rw [finalAt, hhead, Bool.or_false, OpenCut.headPending, OpenCut.finalPending, hh, hf]
      cases r.policy <;> rfl
    rw [judgeWith_final .density hrec hpend, hfin]
    split
    · next hfinal => rw [reachThreshold_final .density hrec hp, hfinal, judged_final _ _ _ hh]
    · next hfinal => rw [eq_false_of_ne_true hfinal, judged_neither _ _ hrec hh hf]

/-! ### Opening by volume and by density (R135, R138, R139) -/

section Opening
variable {s : State} {m : Mtr} (hr : s.hasRole .terminus = true) (hs : CutSafe s) (hst : s.csq.state = .steady) {before : List Entry}
  {a e : Entry} (ht : s.trs.train = before ++ [a, e]) (hn : (s.trs.train.map (·.seq)).Nodup) (hb : ∀ b ∈ before ++ [a], b.track = .passed)
  (hth : s.csq.cutThrough.all (fun n => seqAfter e.seq n) = true) (hi : e.track = .inbound)
  (hle : (e.advance 1).rlv ≤ (halfWidth s (e.advance 1).sinceSnap : Int))
include hr hs hst ht hn hb hth hi hle

/-- The litre of an opening, when the thresholds come to a record of the same entry with later actions queued. -/
theorem handLitre_opens {q : Csq} {r : OpenCut}
    (hp : (if s.cfg.densitometer = true then mixFraction s a.density e.density else none).any (500 ≤ ·) = false)
    (hz : (if s.cfg.densitometer = true then mixFraction s a.density e.density else none) = none → 0 < (e.advance 1).rlv)
    (hm : -(halfWidth s (e.advance 1).sinceSnap : Int) < (e.advance 1).rlv)
    (hj : ∀ t, findEntry t e.seq = some (e.advance 1).inWindow →
      judgeThresholds (s.onLitre 2 m (s.csq.opened
          (({ s with mtr := m } : State).cutFor a (e.advance 1) (methodOf (mixFraction s a.density e.density)))) t)
        = s.onLitre 2 m q t)
    (hrec : q.record = some r) (hc : r.cutEntry = e.seq) (hx : r.finalExecuted = false) (hq : ∀ b ∈ q.queue, m.count < b.due)
    (ha : r.method = .density ∨ Ahead s r (e.advance 1).rlv) :
    handLitre { s with mtr := m } = s.onLitre 2 m q (((before ++ [a]).map fun b => b.advance 1) ++ [(e.advance 1).inWindow]) := by
  have hnone := record_none_of_steady hs hst
  have ht' : s.trs.train = (before ++ [a]) ++ [e] := by rw [ht, List.append_assoc]; rfl
  have hw := onLitre_around ht' hn hb m s.csq
  have hlast : ((before ++ [a]).map fun b => b.advance 1).getLast? = some (a.advance 1) := by
    rw [List.map_append, List.map_singleton, List.getLast?_concat]
  have hfr : fractionBehind (s.onLitre 2 m s.csq (s.trs.train.map fun b => b.advance 1)) ((before ++ [a]).map fun b => b.advance 1) (e.advance 1)
      = if s.cfg.densitometer = true then mixFraction s a.density e.density else none := by
    rw [fractionBehind, hlast]
    rfl
  have hfind : findEntry (((before ++ [a]).map fun b => b.advance 1) ++ [(e.advance 1).inWindow]) e.seq = some (e.advance 1).inWindow :=
    findEntry_append_cons (e := (e.advance 1).inWindow) hw.before_ne
  have hev := hw.evaluate_opens (q := q) ((onLitre_hasRole ..).trans hr) hnone hst hth hi hlast hle (by rw [hfr]; exact hp) (by rw [hfr]; exact hz) hm
    (hj _ hfind)
  refine handLitre_evaluates hr (counted_shut hnone _) (cutAfterLitre_idle ?_ (settled_shut hnone)) (cutRlvChanged_shut hnone) hev ?_ ?_
  · rw [onLitre_csq, (hs.rest hnone).1]
    nofun
  · exact cutRlvChanged_ahead (s := s.onLitre 2 m q _) (e := (e.advance 1).inWindow) hrec (by rw [hc]; exact hfind) ha
  · exact cutAfterLitre_idle (s := s.onLitre 2 m q _) hq (settled_running hrec (by rw [hx]; nofun))

/-- A cut that opens by volume ahead of its volume points has reached none of them (R135, R139). -/
theorem handLitre_opens_volume (hd : s.dsu.healthy = false) (h0 : 0 < (e.advance 1).rlv)
    (ha : Ahead s (({ s with mtr := m } : State).cutFor a (e.advance 1) .volume) (e.advance 1).rlv) :
    handLitre { s with mtr := m } = s.onLitre 2 m (s.csq.opened (({ s with mtr := m } : State).cutFor a (e.advance 1) .volume))
      (((before ++ [a]).map fun b => b.advance 1) ++ [(e.advance 1).inWindow]) := by
  have hno : mixFraction s a.density e.density = none := by simp [mixFraction, hd]
  have hif : (if s.cfg.densitometer = true then mixFraction s a.density e.density else none) = none := by rw [hno, ite_self]
  refine handLitre_opens hr hs hst ht hn hb hth hi hle (by rw [hif]; rfl) (fun _ => h0) (by omega) (fun t hfind => ?_) rfl rfl rfl ?_ (.inr ha)
  · rw [hno]
    exact (judgeThresholds_volume (s := s.onLitre 2 m _ t) (r := ({ s with mtr := m } : State).cutFor a (e.advance 1) .volume) rfl
      (show CutMethod.volume ≠ .density by decide)).trans (judgeVolume_ahead (e := (e.advance 1).inWindow) rfl hfind ha)
  · rw [Csq.opened, (hs.rest (record_none_of_steady hs hst)).1]
    nofun

/-- A cut that opens by density at a fraction below that of a detection reaches at once each threshold at or below it (R138, R141). -/
theorem handLitre_opens_density {f : Nat} {transmix product : Route} (hdens : s.cfg.densitometer = true)
    (hf : mixFraction s a.density e.density = some f) (hlow : f < 500) (hl : s.cfg.antic < s.cfg.lead)
    (hm : -(halfWidth s (e.advance 1).sinceSnap : Int) < (e.advance 1).rlv) (htm : transmixRoute s.cfg = some transmix)
    (hpr : productRoute s.cfg e.product = some product) :
    handLitre { s with mtr := m } = s.onLitre 2 m ((s.csq.opened (({ s with mtr := m } : State).cutFor a (e.advance 1) .density)).judged
        (({ s with mtr := m } : State).cutFor a (e.advance 1) .density)
        (headAt s.cfg (policyOf s.cfg a.product e.product) f) (finalAt s.cfg (policyOf s.cfg a.product e.product) f)
        (dueAction s.cfg m.count .density e.seq .head transmix) (dueAction s.cfg m.count .density e.seq .final product))
      (((before ++ [a]).map fun b => b.advance 1) ++ [(e.advance 1).inWindow]) := by
  have hif : (if s.cfg.densitometer = true then mixFraction s a.density e.density else none) = some f := by rw [if_pos hdens, hf]
  refine handLitre_opens hr hs hst ht hn hb hth hi hle (by rw [hif]; simpa using hlow) (by rw [hif]; nofun) hm (fun t _ => ?_)
    rfl rfl rfl ?_ (.inl rfl)
  · rw [hf]
    have hj := judgeThresholds_density (s := s.onLitre 2 m (s.csq.opened (({ s with mtr := m } : State).cutFor a (e.advance 1) .density)) t)
      (r := ({ s with mtr := m } : State).cutFor a (e.advance 1) .density) rfl rfl hf
    exact hj.trans (judgeWith_fresh (r := ({ s with mtr := m } : State).cutFor a (e.advance 1) .density) rfl rfl rfl htm hpr)
  · have hempty := (hs.rest (record_none_of_steady hs hst)).1
    intro b hbq
    simp only [Csq.judged, Csq.opened, hempty, List.nil_append] at hbq
    rcases List.mem_append.mp hbq with hbq | hbq
    · split at hbq
      · rw [List.mem_singleton.mp hbq]
        exact lt_dueAction hl ..
      · cases hbq
    · split at hbq
      · rw [List.mem_singleton.mp hbq]
        exact lt_dueAction hl ..
      · cases hbq

end Opening

end Sys2Proof.Machine
end

