-- ==== Sys2Proof/Proofs/TerminusMissed.lean ====
section
/-! SUPPORT. The litre of a pulse at a TERMINUS that declares the cut entry MISSED (R50 to R52, R151). -/

namespace Sys2Proof.Machine

/-! ### Sending and alarms beside the cut -/

/-- The state with CSQ `q` and the train `t`, and nothing else changed. -/
def State.withCut (s : State) (q : Csq) (t : List Entry) : State := { s with csq := q, trs := { s.trs with train := t } }

section Beside
variable (s : State) (q : Csq) (t : List Entry)

theorem raiseAlarm_withCut (a : Alarm) (d : Nat) : raiseAlarm a d (s.withCut q t) = (raiseAlarm a d s).withCut q t := by
  rw [raiseAlarm_alarmed, raiseAlarm_alarmed]
  rfl

theorem placeOwn_withCut (c : QueueClass) (f : Frame) (p : Port) : placeOwn c f p (s.withCut q t) = (placeOwn c f p s).withCut q t := by
  have hup : portUp (s.withCut q t) p = portUp s p := rfl
  have hfull : queueFull (s.withCut q t) p c = queueFull s p c := rfl
  unfold placeOwn placeFrame
  rw [hup, hfull]
  split
  · split
    · exact raiseAlarm_withCut s q t _ _
    · rfl
  · rfl

theorem inEitherOrder_withCut {f g : State → State} (hf : ∀ s : State, f (s.withCut q t) = (f s).withCut q t)
    (hg : ∀ s : State, g (s.withCut q t) = (g s).withCut q t) : inEitherOrder f g (s.withCut q t) = (inEitherOrder f g s).withCut q t := by
  have hchoices : ({ s.withCut q t with choices := (s.withCut q t).choices + 1 } : State)
      = State.withCut { s with choices := s.choices + 1 } q t := rfl
  unfold inEitherOrder
  simp only [hchoices, hf, hg]
  exact (apply_ite (fun x : State => x.withCut q t) _ _ _).symm

theorem sendOwn_withCut (k : Kind) (p : List Byte) : sendOwn k p (s.withCut q t) = (sendOwn k p s).withCut q t := by
  have hup (x : Port) : portUp (s.withCut q t) x = portUp s x := rfl
  have hfull (x : Port) (c : QueueClass) : queueFull (s.withCut q t) x c = queueFull s x c := rfl
  have hframe : ownFrame (s.withCut q t) k p = ownFrame s k p := rfl
  unfold sendOwn
  simp only [hup, hfull, hframe]
  split
  · exact inEitherOrder_withCut s q t (fun u => placeOwn_withCut u q t ..) fun u => placeOwn_withCut u q t ..
  · rw [placeOwn_withCut, placeOwn_withCut]

end Beside

/-! ### The cut log beside sending and alarms -/

theorem raiseAlarm_cutLog (a : Alarm) (d : Nat) (s : State) : (raiseAlarm a d s).spc.cutLog = s.spc.cutLog := by
  rw [raiseAlarm_alarmed]
  unfold Spc.alarmed Spc.offered
  dsimp only
  split <;> rfl

theorem sendOwn_cutLog (k : Kind) (p : List Byte) (s : State) : (sendOwn k p s).spc.cutLog = s.spc.cutLog := by
  refine sendOwn_keeps (fun t => t.spc.cutLog = s.spc.cutLog) k p (fun port f t h => ?_) (fun _ h => h) rfl
  rcases placeOwn_cases k.queueClass f port t with ⟨-, hp⟩ | ⟨-, hp⟩
  · rw [hp, h]
  · rw [hp]
    rcases placeFrame_cases .txOverflow port k.queueClass f t with ⟨-, hf⟩ | ⟨-, hf⟩
    · rw [hf, raiseAlarm_cutLog, h]
    · rw [hf, h]

/-! ### The MISSED cut entry (R151) -/

/-- The record with the cut entry MISSED. -/
def OpenCut.missed (r : OpenCut) : OpenCut := { r with stage := .trail, flags := { r.flags with missed := true } }

theorem cutMissed_alone {s : State} {r : OpenCut} {before : List Entry} {e : Entry} {target : Route} (hrec : s.csq.record = some r)
    (ht : s.trs.train = before ++ [e]) (hb : ∀ a ∈ before, a.track = .passed ∧ seqAfter e.seq a.seq = true) (he : e.track = .passed)
    (hc : r.cutEntry = e.seq) (hp : productRoute s.cfg r.productB = some target) (hu : s.csq.routeInUse = some target) :
    cutMissed r s = (s.withCut (s.csq.shut .steady) [e]).logged (r.missed.closed s.mtr.count s.mtr.trim) := by
  have hres : resolveProduct r.productB (putCsq (fun q => { q with queue := [] }) s) = (putCsq (fun q => { q with queue := [] }) s, some target) := by
    simp only [resolveProduct, show productRoute (putCsq (fun q => { q with queue := [] }) s).cfg r.productB = some target from hp]
  have hclose := closeRecord_alone (s := { s with csq := { s.csq with queue := [], record := some r.missed } })
    (r := r.missed) rfl ht hb he hc .steady
  have hmissed : modifyRecord (fun x => { x with stage := .trail, flags := { x.flags with missed := true } })
      (putCsq (fun q => { q with queue := [] }) s) = { s with csq := { s.csq with queue := [], record := some r.missed } } := by
    simp only [modifyRecord, putCsq, hrec, Option.map_some]
    rfl
  simp only [cutMissed, hres]
  rw [if_pos (show (putCsq (fun q => { q with queue := [] }) s).csq.routeInUse = some target from hu), hmissed, hclose]
  exact openDue_passed fun a ha => by
    rw [logged_trs] at ha
    rw [List.mem_singleton.mp ha]
    exact he

/-- The cut entry declared MISSED while the product route of B is in use (R50, R52, R151). -/
theorem Around.declare_cutMissed {s : State} {before : List Entry} {x : Entry} (h : Around s before x []) {r : OpenCut} {target : Route}
    (hr : s.hasRole .terminus = true) (hx : x.track = .window) (hb : ∀ a ∈ before, seqAfter x.seq a.seq = true)
    (hrec : s.csq.record = some r) (hc : r.cutEntry = x.seq) (hp : productRoute s.cfg r.productB = some target)
    (hu : s.csq.routeInUse = some target) : declare .missed x s
      = (sendOwn .passage (passagePayload x.seq .missed) (raiseAlarm .missedInterface 0
          ((s.passes [x.declared .missed]).withCut (s.csq.shut .steady) [x.declared .missed]))).logged
        (r.missed.closed s.mtr.count s.mtr.trim) := by
  generalize hsent : sendOwn .passage (passagePayload x.seq .missed) (raiseAlarm .missedInterface 0
    (s.passes (before ++ [x.declared .missed]))) = u
  have hun : u.csq = s.csq ∧ u.mtr = s.mtr ∧ u.trs.train = before ++ [x.declared .missed] ∧ u.hasRole .terminus = true ∧ u.cfg = s.cfg := by
    have hbase : base u = base s := by rw [← hsent, base_sendOwn, base_raiseAlarm]; rfl
    refine ⟨?_, ?_, ?_, (hasRole_base hbase _).trans hr, congrArg Cfl.published (base_cfl_eq hbase)⟩ <;>
      rw [← hsent, (sentFrom_sendOwn ..).eq, raiseAlarm_alarmed] <;> rfl
  obtain ⟨hcsq, hmtr, htrain, hrole, hcfg⟩ := hun
  have hdecl : declare .missed x s = handDeclaration .missed x u := by
    simp only [declare, reduceCtorEq, if_false, if_true]
    rw [h.update_declared hx, ← hsent]
  have hmissed := cutMissed_alone (s := u) (e := x.declared .missed) (hcsq ▸ hrec) htrain (fun a ha => ⟨h.passed a ha, hb a ha⟩) rfl hc
    (hcfg ▸ hp) (hcsq ▸ hu)
  rw [hdecl, handDeclaration, if_pos hrole, cutDeclared]
  simp only [hcsq, hrec, reduceCtorEq, false_and, if_false, if_pos hc.symm, if_true, hmissed, hmtr]
  rw [← hsent, ← sendOwn_withCut, ← raiseAlarm_withCut]
  rfl

/-- The state that a MISSED cut entry `x` leaves alone in the train, the record `l` closed. -/
def State.missing (s : State) (x : Entry) (l : CutRecord) : State :=
  (sendOwn .passage (passagePayload x.seq .missed) (raiseAlarm .missedInterface 0
    ((s.passes [x.declared .missed]).withCut (s.csq.shut .steady) [x.declared .missed]))).logged l

theorem missing_csq (s : State) (x : Entry) (l : CutRecord) : (s.missing x l).csq = s.csq.shut .steady := by
  rw [State.missing, logged_csq, (sentFrom_sendOwn ..).eq, raiseAlarm_alarmed]
  rfl

theorem missing_train (s : State) (x : Entry) (l : CutRecord) : (s.missing x l).trs.train = [x.declared .missed] := by
  rw [State.missing, logged_trs, (sentFrom_sendOwn ..).eq, raiseAlarm_alarmed]
  rfl

theorem missing_idle (s : State) (x : Entry) (l : CutRecord) :
    cutRlvChanged (s.missing x l) = s.missing x l ∧ cutAfterLitre (s.missing x l) = s.missing x l := by
  have hrec : (s.missing x l).csq.record = none := by rw [missing_csq]; rfl
  exact ⟨cutRlvChanged_shut hrec, cutAfterLitre_idle (by rw [missing_csq]; nofun) (settled_shut hrec)⟩

/-- The evaluation at which the cut entry is MISSED: its pair is usable, and at −H no detection point has declared it. -/
theorem Around.evaluate_misses {s : State} {before : List Entry} {x : Entry} (h : Around s before x []) {r : OpenCut} {target : Route}
    (hr : s.hasRole .terminus = true) (hx : x.track = .window) (hb : ∀ a ∈ before, seqAfter x.seq a.seq = true)
    (hrec : s.csq.record = some r) (hc : r.cutEntry = x.seq) (hp : productRoute s.cfg r.productB = some target)
    (hu : s.csq.routeInUse = some target) (hf : (fractionBehind s before x).isSome = true) (hle : x.rlv ≤ -(halfWidth s x.sinceSnap : Int)) :
    Machine.evaluate false (candidateOf s.trs.train) s = s.missing x (r.missed.closed s.mtr.count s.mtr.trim) := by
  have htest : testWindow false x s = s.missing x (r.missed.closed s.mtr.count s.mtr.trim) :=
    (testWindow_missed rfl (by rw [h.fraction]; exact hf) hle).trans (h.declare_cutMissed hr hx hb hrec hc hp hu)
  have hquiet : ∀ b ∈ (s.missing x (r.missed.closed s.mtr.count s.mtr.trim)).trs.train,
      Quiet (s.missing x (r.missed.closed s.mtr.count s.mtr.trim)) b := fun b hbm => by
    rw [missing_train] at hbm
    rw [List.mem_singleton.mp hbm]
    exact .inl rfl
  exact evaluate_one (nonOrigin_of_hasRole hr (by decide)) (hasRole_other hr (by decide)) h.train (by rw [h.train]; exact h.nodup)
    h.quiet ((visitEntry_window h.find hx).trans htest) (fun b hbm _ => hquiet b hbm) (.inr hquiet)

/-- A litre that brings the cut entry to −H with no detection declares it MISSED and closes the cut (R151). -/
theorem handLitre_misses {s : State} {m : Mtr} {before : List Entry} {a e : Entry} {r : OpenCut} {f : Nat} {target : Route}
    (hr : s.hasRole .terminus = true) (hs : CutSafe s) (hm : m.count = s.mtr.count + 1) (ht : s.trs.train = before ++ [a, e])
    (hn : (s.trs.train.map (·.seq)).Nodup) (hb : ∀ b ∈ before ++ [a], b.track = .passed ∧ seqAfter e.seq b.seq = true)
    (hrec : s.csq.record = some r) (hc : r.cutEntry = e.seq) (he : e.track = .window)
    (hle : (e.advance 1).rlv ≤ -(halfWidth s (e.advance 1).sinceSnap : Int)) (hdens : s.cfg.densitometer = true)
    (hf : mixFraction s a.density e.density = some f) (hh : r.policy ≠ .transmix ∨ r.headReached = true)
    (hfin : r.policy = .none ∨ r.finalReached = true) (hx : r.finalExecuted = false) (hq : ∀ b ∈ s.csq.queue, m.count < b.due)
    (hp : productRoute s.cfg r.productB = some target) (hu : s.csq.routeInUse = some target) :
    handLitre { s with mtr := m } = (s.onLitre 2 m (s.csq.countedIn r) (s.trs.train.map fun e => e.advance 1)).missing (e.advance 1)
      (r.countLitre.missed.closed m.count m.trim) := by
  have ht' : s.trs.train = (before ++ [a]) ++ [e] := by rw [ht, List.append_assoc]; rfl
  have hcount : s.csq.counted m.count = s.csq.countedIn r := by rw [hm, counted_open hs hrec]
  have hw := onLitre_around ht' hn (fun b hbm => (hb b hbm).1) m (s.csq.countedIn r)
  have hc' : r.countLitre.cutEntry = (e.advance 1).seq := (countLitre_cutEntry r).trans hc
  have hlast : ((before ++ [a]).map fun b => b.advance 1).getLast? = some (a.advance 1) := by
    rw [List.map_append, List.map_singleton, List.getLast?_concat]
  have hfr : fractionBehind (s.onLitre 2 m (s.csq.countedIn r) (s.trs.train.map fun b => b.advance 1)) ((before ++ [a]).map fun b => b.advance 1)
      (e.advance 1) = some f := by
    rw [fractionBehind, hlast]
    exact (if_pos hdens).trans hf
  have hev := hw.evaluate_misses (target := target) ((onLitre_hasRole ..).trans hr) he (fun b hbm => by
    obtain ⟨c, hcm, rfl⟩ := List.mem_map.mp hbm
    exact (hb c hcm).2) rfl hc' (by rw [countLitre_productB]; exact hp) hu (by rw [hfr]; rfl) hle
  have hthr := cutRlvChanged_ahead (s := s.onLitre 2 m (s.csq.countedIn r) (s.trs.train.map fun b => b.advance 1)) rfl
    (by rw [hc']; exact hw.find) (ahead_countLitre (.inr (ahead_of_reached _ hh hfin)))
  have hidle : cutAfterLitre (s.onLitre 1 m (s.csq.countedIn r) s.trs.train) = s.onLitre 1 m (s.csq.countedIn r) s.trs.train :=
    cutAfterLitre_idle hq (settled_running rfl (by rw [countLitre_finalExecuted, hx]; nofun))
  exact handLitre_evaluates hr hcount hidle hthr hev (missing_idle ..).1 (missing_idle ..).2

end Sys2Proof.Machine
end

