-- ==== Sys2Proof/Proofs/TerminusMerge.lean ====
section
/-! SUPPORT. The litre of a pulse at a TERMINUS at which a newer entry enters WINDOW and merges the open cut (R148, R149). -/

namespace Sys2Proof.Machine

/-! ### The short batch (R148) -/

theorem seqAfter_irrefl (n : SeqNo) : seqAfter n n = false := by simp [seqAfter]

theorem seqAfter_asymm {m n : SeqNo} (h : seqAfter m n = true) : seqAfter n m = false := by
  unfold seqAfter at h ⊢
  simp only [Bool.and_eq_true, decide_eq_true_eq, Bool.and_eq_false_iff, decide_eq_false_iff_not] at h ⊢
  bv_omega

/-- The entry marked SHORT. -/
def Entry.shortened (e : Entry) : Entry := { e with short := true }

/-- Behind older entries, of a cut entry and the new one the first is the short batch. -/
theorem markShort_pair {before : List Entry} {x y : Entry} (hb : ∀ a ∈ before, seqAfter x.seq a.seq = true) (hy : seqAfter y.seq x.seq = true) :
    markShort x.seq y.seq (before ++ [x, y]) = before ++ [x.shortened, y] := by
  have hbefore : before.map (fun e => if (e.seq == x.seq || seqAfter e.seq x.seq) && seqAfter y.seq e.seq then { e with short := true } else e)
      = before := by
    refine (List.map_congr_left fun a ha => ?_).trans (List.map_id _)
    have hne : (a.seq == x.seq) = false := beq_eq_false_iff_ne.mpr fun he => by
      have := hb a ha
      rw [he, seqAfter_irrefl] at this
      cases this
    simp [hne, seqAfter_asymm (hb a ha)]
  rw [markShort, List.map_append, hbefore]
  simp [hy, seqAfter_irrefl, Entry.shortened]

/-- The record `r` of a cut by volume merged with `y` behind `x`. -/
def OpenCut.mergedWith (r : OpenCut) (x y : Entry) : OpenCut := { r with
  last := some y.seq
  productB := y.product
  routeB := none
  cutEntry := y.seq
  densityA := x.density
  densityB := y.density
  headReached := true
  finalReached := false
  flags := { r.flags with shortBatch := true } }

/-- CSQ with the open record merged into `r`. -/
def Csq.merged (q : Csq) (r : OpenCut) : Csq := { q with state := .mixing, cutThrough := some r.cutEntry, record := some r }

/-- The record before steps 3 to 5 of R149. -/
theorem mergedRecord_volume {s : State} {before : List Entry} {x y : Entry} (r : OpenCut) (ht : s.trs.train = before ++ [x, y])
    (hn : (s.trs.train.map (·.seq)).Nodup) (hm : r.method = .volume) (hp : r.policy = .transmix) :
    { mergedRecord s y r with headReached := true, finalReached := false } = r.mergedWith x y := by
  have hpred : predecessorOf y.seq s.trs.train = some x := by
    have ht' : s.trs.train = (before ++ [x]) ++ y :: [] := by rw [ht, List.append_assoc]; rfl
    rw [ht'] at hn ⊢
    rw [predecessorOf_between hn, List.getLast?_concat]
  have hpair : (capturedPair s y.seq).2 = x.density := by simp only [capturedPair, hpred]
  cases r
  cases hm
  cases hp
  simp [mergedRecord, OpenCut.mergedWith, hpair]

/-! ### The merge (R148, R149) -/

/-- With a record in MIDDLE and nothing queued a merge has no action to withhold and none to make (R149). -/
theorem withholdFinal_middle {s : State} {r : OpenCut} (hrec : s.csq.record = some r) (hst : r.stage = .middle) (hq : s.csq.queue = []) :
    withholdFinal s = s := by
  have hno : ¬ some Stage.middle = some .trail := by decide
  simp only [withholdFinal, putCsq, hrec, hst, hq, Option.map_some, hno, reduceCtorEq, if_false, List.filter_nil]
  rw [← hrec, ← hq]

theorem mergeActions_middle {s : State} {r : OpenCut} (hrec : s.csq.record = some r) : mergeActions true s
    = judgeThresholds { s with csq := { s.csq with state := .mixing, record := some { r with headReached := true, finalReached := false } } } := by
  simp only [mergeActions, hrec, Bool.not_true, Bool.and_false, Bool.false_eq_true, if_false, modifyRecord, putCsq, Option.map_some]

theorem raiseAlarm_onLitre (a : Alarm) (d : Nat) (s : State) (i : Nat) (m : Mtr) (q : Csq) (t : List Entry) :
    raiseAlarm a d (s.onLitre i m q t) = (raiseAlarm a d s).onLitre i m q t := by
  rw [raiseAlarm_alarmed, raiseAlarm_alarmed]
  rfl

section Merge
variable {s : State} {i : Nat} {m : Mtr} {q : Csq} {before : List Entry} {x y : Entry} {r : OpenCut}

/-- With a MIDDLE cut, nothing queued and the volume points ahead, a merge does no more than SHORT_BATCH and the record. -/
theorem mergeCut_middle (hn : ((before ++ [x, y]).map (·.seq)).Nodup) (hb : ∀ a ∈ before, seqAfter x.seq a.seq = true)
    (hy : seqAfter y.seq x.seq = true) (hrec : q.record = some r) (hc : r.cutEntry = x.seq) (hmeth : r.method = .volume)
    (hp : r.policy = .transmix) (hst : r.stage = .middle) (hq : q.queue = []) (ha : Ahead s (r.mergedWith x y) y.rlv) :
    mergeCut y (s.onLitre i m q (before ++ [x, y]))
      = (raiseAlarm .shortBatch 0 s).onLitre i m (q.merged (r.mergedWith x y)) (before ++ [x.shortened, y]) := by
  have hshort : putTrain (markShort r.cutEntry y.seq (before ++ [x, y])) (s.onLitre i m q (before ++ [x, y]))
      = s.onLitre i m q (before ++ [x.shortened, y]) := by
    rw [hc, markShort_pair hb hy, putTrain_same]
    · rfl
    · exact batchAtStation_congr (by simp [Entry.shortened])
  have hmerged := mergedRecord_volume (s := s.onLitre i m q (before ++ [x, y])) r rfl hn hmeth hp
  generalize hw : mergedRecord (s.onLitre i m q (before ++ [x, y])) y r = w at hmerged
  have hstage : w.stage = .middle := by rw [← hw]; exact hst
  have hlate : mergeActions true (withholdFinal (raiseAlarm .shortBatch 0
      (s.onLitre i m { q with cutThrough := some y.seq, record := some w } (before ++ [x.shortened, y]))))
      = judgeThresholds ((raiseAlarm .shortBatch 0 s).onLitre i m (q.merged (r.mergedWith x y)) (before ++ [x.shortened, y])) := by
    rw [raiseAlarm_onLitre, withholdFinal_middle (r := w) rfl hstage hq, mergeActions_middle (r := w) rfl]
    have hrecord := congrArg (fun v => ({ q with state := .mixing, cutThrough := some y.seq, record := some v } : Csq)) hmerged
    exact congrArg (fun c => judgeThresholds ((raiseAlarm .shortBatch 0 s).onLitre i m c (before ++ [x.shortened, y]))) hrecord
  have hfind : findEntry (before ++ [x.shortened, y]) y.seq = some y := by
    rw [List.append_cons]
    rw [List.append_cons, List.map_append] at hn
    refine findEntry_append_cons fun a ha' => ?_
    have hne := seq_ne_of_nodup (by rw [List.map_append]; exact hn)
    rcases List.mem_append.mp ha' with ha' | ha'
    · exact hne a (List.mem_append_left _ ha')
    · rw [List.mem_singleton.mp ha']
      exact hne x (by simp)
  have hjudged : judgeThresholds ((raiseAlarm .shortBatch 0 s).onLitre i m (q.merged (r.mergedWith x y)) (before ++ [x.shortened, y]))
      = (raiseAlarm .shortBatch 0 s).onLitre i m (q.merged (r.mergedWith x y)) (before ++ [x.shortened, y]) := by
    refine (judgeThresholds_volume (r := r.mergedWith x y) rfl ?_).trans (judgeVolume_ahead (r := r.mergedWith x y) (e := y) rfl hfind ?_)
    · rw [OpenCut.mergedWith, hmeth]
      decide
    · rw [raiseAlarm_alarmed]
      exact ha
  simp only [mergeCut, onLitre_csq, hrec, onLitre_train, hshort, hw]
  rw [hst]
  exact hlate.trans hjudged

/-- The new entry's window opens and merges the cut. -/
theorem openWindow_merges (hr : s.hasRole .terminus = true) (hn : ((before ++ [x, y]).map (·.seq)).Nodup)
    (hb : ∀ a ∈ before, seqAfter x.seq a.seq = true) (hy : seqAfter y.seq x.seq = true) (hi : y.track = .inbound)
    (hth : q.cutThrough = some x.seq) (hrec : q.record = some r) (hc : r.cutEntry = x.seq) (hmeth : r.method = .volume)
    (hp : r.policy = .transmix) (hst : r.stage = .middle) (hq : q.queue = []) (ha : Ahead s (r.mergedWith x y) y.rlv) :
    openWindow y.seq (s.onLitre i m q (before ++ [x, y]))
      = (raiseAlarm .shortBatch 0 s).onLitre i m (q.merged (r.mergedWith x y)) (before ++ [x.shortened, y.inWindow]) := by
  have hne : ∀ a ∈ before ++ [x], a.seq ≠ y.seq := by
    rw [List.append_cons] at hn
    exact seq_ne_of_nodup hn
  have hopen : updateEntry y.seq (fun e => { e with track := .window }) (s.onLitre i m q (before ++ [x, y]))
      = s.onLitre i m q (before ++ [x, y.inWindow]) := by
    have hchange : changeEntry y.seq (fun e => { e with track := .window }) (before ++ [x, y]) = before ++ [x, y.inWindow] := by
      rw [List.append_cons, changeEntry_append_cons _ hne, List.append_assoc]
      rfl
    have hbatch : batchAtStation (before ++ [x, y.inWindow]) = batchAtStation (before ++ [x, y]) := by
      rw [List.append_cons, List.append_cons before x [y], batchAtStation_replace (show Track.window ≠ .passed by decide) (by rw [hi]; decide)]
    rw [updateEntry, onLitre_train, hchange, putTrain_same (by rw [onLitre_train, hbatch])]
    rfl
  have hfind : findEntry (before ++ [x, y.inWindow]) y.seq = some y.inWindow := by
    rw [List.append_cons]
    exact findEntry_append_cons (e := y.inWindow) hne
  have hseqs : (before ++ [x, y.inWindow]).map (·.seq) = (before ++ [x, y]).map (·.seq) := by simp [Entry.inWindow]
  have hmerge := mergeCut_middle (i := i) (m := m) (y := y.inWindow) (hseqs ▸ hn) hb hy hrec hc hmeth hp hst hq ha
  have hafter : (some x.seq).all (fun c => seqAfter y.seq c) = true := hy
  simp only [openWindow, hopen, onLitre_hasRole, hr, if_true, cutEntered, onLitre_csq, hrec, onLitre_train, hfind, hth, hafter]
  exact hmerge

end Merge

/-- The evaluation at which a newer entry merges the cut and stays in its window. -/
theorem evaluate_merges {s : State} {i : Nat} {m : Mtr} {q : Csq} {before : List Entry} {x y : Entry} {r : OpenCut}
    (hr : s.hasRole .terminus = true) (hn : ((before ++ [x, y]).map (·.seq)).Nodup)
    (hb : ∀ a ∈ before, a.track = .passed ∧ seqAfter x.seq a.seq = true) (hy : seqAfter y.seq x.seq = true) (hi : y.track = .inbound)
    (hth : q.cutThrough = some x.seq) (hrec : q.record = some r) (hc : r.cutEntry = x.seq) (hmeth : r.method = .volume)
    (hp : r.policy = .transmix) (hst : r.stage = .middle) (hq : q.queue = []) (ha : Ahead s (r.mergedWith x y) y.rlv)
    (hd : s.dsu.healthy = false) (hx : x.track = .window) (hx0 : 0 < x.rlv) (hle : y.rlv ≤ (halfWidth s y.sinceSnap : Int)) (hy0 : 0 < y.rlv) :
    evaluate false (candidateOf (before ++ [x, y])) (s.onLitre i m q (before ++ [x, y]))
      = (raiseAlarm .shortBatch 0 s).onLitre i m (q.merged (r.mergedWith x y)) (before ++ [x.shortened, y.inWindow]) := by
  have hrole : (s.onLitre i m q (before ++ [x, y])).hasRole .terminus = true := (onLitre_hasRole ..).trans hr
  have ho := openWindow_merges (i := i) (m := m) hr hn (fun a ha => (hb a ha).2) hy hi hth hrec hc hmeth hp hst hq ha
  have hne : ∀ a ∈ before ++ [x], a.seq ≠ y.seq := by
    rw [List.append_cons] at hn
    exact seq_ne_of_nodup hn
  have hdead : ((raiseAlarm .shortBatch 0 s).onLitre i m (q.merged (r.mergedWith x y))
      (before ++ [x.shortened, y.inWindow])).dsu.healthy = false := by
    rw [onLitre_dsu, raiseAlarm_alarmed]
    exact hd
  generalize hu : (raiseAlarm .shortBatch 0 s).onLitre i m (q.merged (r.mergedWith x y)) (before ++ [x.shortened, y.inWindow]) = u at ho hdead
  have htrain : u.trs.train = (before ++ [x.shortened]) ++ y.inWindow :: [] := by
    rw [← hu, onLitre_train, List.append_assoc]
    rfl
  have hfindy : findEntry (before ++ [x, y]) y.seq = some y := by
    rw [List.append_cons]
    exact findEntry_append_cons hne
  have hfindu : findEntry u.trs.train y.seq = some y.inWindow := by
    rw [htrain]
    refine findEntry_append_cons (e := y.inWindow) fun a ha => ?_
    rcases List.mem_append.mp ha with ha | ha
    · exact hne a (List.mem_append_left _ ha)
    · rw [List.mem_singleton.mp ha]
      exact hne x (by simp)
  have hwidth : halfWidth u y.sinceSnap = halfWidth s y.sinceSnap := by
    rw [← hu, raiseAlarm_alarmed]
    rfl
  have hfr : pairFraction u y.inWindow.seq = none := pairFraction_dead (.inr hdead) _
  have hvisit : (visitEntry false (candidateOf (before ++ [x, y])) (s.onLitre i m q (before ++ [x, y]),
      ⟨candidateOf (before ++ [x, y]), false⟩) y.seq).1 = u := by
    rw [visitEntry_opened (s := s.onLitre i m q (before ++ [x, y])) (e := y) hfindy hi hle (by rw [ho]; exact hfindu) rfl, ho]
    refine testWindow_rests (by rw [hfr]; exact Bool.and_false _) (fun _ => hy0) ?_
    show -(halfWidth u y.sinceSnap : Int) < y.rlv
    omega
  refine evaluate_one (s := s.onLitre i m q (before ++ [x, y])) (before := before ++ [x]) (after := []) (nonOrigin_of_hasRole hrole (by decide))
    (hasRole_other hrole (by decide)) (List.append_cons ..) hn (fun a ha hay => ?_) hvisit (fun a ha hay => ?_) (.inl ?_)
  · rw [onLitre_train, List.append_cons] at ha
    rcases List.mem_append.mp ha with ha | ha
    · rcases List.mem_append.mp ha with ha | ha
      · exact .inl (hb a ha).1
      · rw [List.mem_singleton.mp ha]
        exact .inr (.inr ⟨hx, hx0, .inr hd⟩)
    · exact absurd (by rw [List.mem_singleton.mp ha]) hay
  · rw [htrain] at ha
    rcases List.mem_append.mp ha with ha | ha
    · rcases List.mem_append.mp ha with ha | ha
      · exact .inl (hb a ha).1
      · rw [List.mem_singleton.mp ha]
        exact .inr (.inr ⟨hx, hx0, .inr hdead⟩)
    · exact absurd (by rw [List.mem_singleton.mp ha]; rfl) hay
  · rw [htrain, onLitre_train]
    simp

/-- A litre that brings a newer entry to its window merges a MIDDLE cut by volume (R148, R149). -/
theorem handLitre_merges {s : State} {m : Mtr} {before : List Entry} {e f : Entry} {r : OpenCut}
    (hr : s.hasRole .terminus = true) (hs : CutSafe s) (hm : m.count = s.mtr.count + 1) (ht : s.trs.train = before ++ [e, f])
    (hn : (s.trs.train.map (·.seq)).Nodup) (hb : ∀ b ∈ before, b.track = .passed ∧ seqAfter e.seq b.seq = true)
    (hrec : s.csq.record = some r) (hc : r.cutEntry = e.seq) (hth : s.csq.cutThrough = some e.seq) (hy : seqAfter f.seq e.seq = true)
    (hmeth : r.method = .volume) (hp : r.policy = .transmix) (hx : r.finalExecuted = false) (hst : r.stage = .middle)
    (hq : s.csq.queue = []) (hd : s.dsu.healthy = false) (he : e.track = .window) (he0 : 0 < (e.advance 1).rlv) (hi : f.track = .inbound)
    (hf0 : 0 < (f.advance 1).rlv) (hle : (f.advance 1).rlv ≤ (halfWidth s (f.advance 1).sinceSnap : Int))
    (ha : Ahead s r (e.advance 1).rlv) (ha' : Ahead s (r.countLitre.mergedWith (e.advance 1) (f.advance 1)) (f.advance 1).rlv) :
    handLitre { s with mtr := m } = (raiseAlarm .shortBatch 0 s).onLitre 2 m
      ((s.csq.countedIn r).merged (r.countLitre.mergedWith (e.advance 1) (f.advance 1)))
      ((before.map fun b => b.advance 1) ++ [(e.advance 1).shortened, (f.advance 1).inWindow]) := by
  have hcount : s.csq.counted m.count = s.csq.countedIn r := by rw [hm, counted_open hs hrec]
  have hmoved : s.trs.train.map (fun b => b.advance 1) = (before.map fun b => b.advance 1) ++ [e.advance 1, f.advance 1] := by
    rw [ht, List.map_append]
    rfl
  have hseqs : ((before.map fun b => b.advance 1) ++ [e.advance 1, f.advance 1]).map (·.seq) = s.trs.train.map (·.seq) := by
    rw [← hmoved, List.map_map]
    rfl
  have hnm : (((before.map fun b => b.advance 1) ++ [e.advance 1, f.advance 1]).map (·.seq)).Nodup := hseqs ▸ hn
  have hbm : ∀ a ∈ before.map fun b => b.advance 1, a.track = .passed ∧ seqAfter (e.advance 1).seq a.seq = true := fun a ha => by
    obtain ⟨b, hbm, rfl⟩ := List.mem_map.mp ha
    exact hb b hbm
  have hfind : findEntry ((before.map fun b => b.advance 1) ++ [e.advance 1, f.advance 1]) r.countLitre.cutEntry = some (e.advance 1) := by
    rw [countLitre_cutEntry, hc]
    exact findEntry_append_cons (e := e.advance 1) (seq_ne_of_nodup hnm)
  have hfind' : findEntry ((before.map fun b => b.advance 1) ++ [(e.advance 1).shortened, (f.advance 1).inWindow]) (f.advance 1).seq
      = some (f.advance 1).inWindow := by
    have hn' : ((((before.map fun b => b.advance 1) ++ [(e.advance 1).shortened]) ++ (f.advance 1).inWindow :: []).map (·.seq)).Nodup := by
      rw [List.append_assoc]
      rw [List.map_append] at hnm ⊢
      exact hnm
    rw [List.append_cons]
    exact findEntry_append_cons (e := (f.advance 1).inWindow) (seq_ne_of_nodup hn')
  have hev := evaluate_merges (i := 2) (m := m) (q := s.csq.countedIn r) hr hnm hbm hy hi hth rfl ((countLitre_cutEntry r).trans hc)
    ((countLitre_method r).trans hmeth) ((countLitre_policy r).trans hp) ((countLitre_stage r).trans hst) hq ha' hd he he0 hle hf0
  have hidle (i : Nat) (u : State) (t : List Entry) (c : Csq) (v : OpenCut) (h1 : c.queue = []) (h2 : c.record = some v)
      (h3 : v.finalExecuted = false) : cutAfterLitre (u.onLitre i m c t) = u.onLitre i m c t :=
    cutAfterLitre_idle (by rw [onLitre_csq, h1]; nofun) (settled_running h2 (by rw [h3]; nofun))
  refine handLitre_evaluates hr hcount (hidle _ _ _ _ _ hq rfl ((countLitre_finalExecuted r).trans hx)) ?_ ?_ ?_
    (hidle _ _ _ _ (r.countLitre.mergedWith (e.advance 1) (f.advance 1)) hq rfl ((countLitre_finalExecuted r).trans hx))
  · rw [hmoved]
    exact cutRlvChanged_ahead (s := s.onLitre 2 m (s.csq.countedIn r) _) rfl hfind (ahead_countLitre (.inr ha))
  · rw [hmoved]
    exact hev
  · refine cutRlvChanged_ahead (s := (raiseAlarm .shortBatch 0 s).onLitre 2 m _ _) rfl hfind' (.inr ?_)
    rw [raiseAlarm_alarmed]
    exact ha'

end Sys2Proof.Machine
end

