-- ==== Sys2Proof/Proofs/TerminusCuts.lean ====
section
/-! SUPPORT. The litre of a pulse at a TERMINUS in each of its cases: settled O10. -/

namespace Sys2Proof.Machine

/-- MTR after the pulse of a litre. -/
def State.pulsedMtr (s : State) : Mtr := s.mtr.metered (pulsedFine s) 1

theorem quiet_of_unhealthy {s : State} {e : Entry} (hd : s.dsu.healthy = false)
    (h : (e.track = .inbound ∧ (halfWidth s e.sinceSnap : Int) < e.rlv) ∨ (e.track = .window ∧ 0 < e.rlv) ∨ e.track = .passed) :
    Quiet s e := by
  rcases h with h | ⟨hw, h0⟩ | h
  · exact .inr (.inl h)
  · exact .inr (.inr ⟨hw, h0, .inr hd⟩)
  · exact .inl h

/-- A record that has reached no threshold is ahead of all those that lie behind the RLV. -/
theorem all_or_false {x : Option Nat} {p : Nat → Prop} [DecidablePred p] (h : x.all (fun t => decide (p t)) = true) :
    x.all (fun t => decide (false = true ∨ p t)) = true := by
  simpa using h

theorem countedIn_unexecuted (q : Csq) {r : OpenCut} (hx : r.finalExecuted = false) : q.countedIn r = { q with record := some r.countLitre } := by
  simp only [Csq.countedIn, hx, Bool.false_eq_true, if_false]

/-- CSQ after a threshold whose action alone is queued. -/
theorem marked_countedIn {q : Csq} {r : OpenCut} (hx : r.finalExecuted = false) (hq : q.queue = []) (a : Action) :
    (q.countedIn r).marked r.countLitre a = { q with
      state := if a.kind = .head then .mixing else .settling
      record := some (if a.kind = .head then { r.countLitre with headReached := true }
        else { r.countLitre with finalReached := true, routeB := some a.target })
      queue := [a] } := by
  rw [countedIn_unexecuted q hx, Csq.marked]
  split
  · rw [Csq.headMarked, hq]
    rfl
  · rw [Csq.finalMarked, hq]
    rfl

/-- The records of the two closes: of the counted litre they hold its volumes. -/
theorem closed_unjudged (r : OpenCut) (c : Nat) (t : Int) : r.countLitre.unjudged.closed c t = ({ r with
    volumeA := r.countLitre.volumeA
    volumeX := r.countLitre.volumeX
    volumeB := r.countLitre.volumeB
    check := some .unjudged } : OpenCut).closed c t := by
  obtain ⟨a, x, b, h⟩ := countLitre_eq r
  rw [h]
  rfl

theorem closed_missed (r : OpenCut) (c : Nat) (t : Int) : r.countLitre.missed.closed c t = ({ r with
    volumeA := r.countLitre.volumeA
    volumeX := r.countLitre.volumeX
    volumeB := r.countLitre.volumeB
    flags := { r.flags with missed := true } } : OpenCut).closed c t := by
  obtain ⟨a, x, b, h⟩ := countLitre_eq r
  rw [h]
  rfl

/-- What a MISSED cut entry leaves after the litre, the cut log as full as before it. -/
theorem missing_onLitre (s : State) (i : Nat) (m : Mtr) (q : Csq) (t : List Entry) (x : Entry) (l : CutRecord) :
    (s.onLitre i m q t).missing x l = offerEvent (.cutClosed l.first l.last (l.flags.handedOn (logFull s))) (appendToLog (.cut l)
      (sendOwn .passage (passagePayload x.seq .missed) (raiseAlarm .missedInterface 0
        { s.onLitre i m (q.shut .steady) [x.declared .missed] with dsu := { s.dsu with departureRun := 0 } }))) := by
  generalize hu : ((s.onLitre i m q t).passes [x.declared .missed]).withCut ((s.onLitre i m q t).csq.shut .steady) [x.declared .missed] = u
  have hfull : logFull (sendOwn .passage (passagePayload x.seq .missed) (raiseAlarm .missedInterface 0 u)) = logFull s := by
    rw [logFull, sendOwn_cutLog, raiseAlarm_cutLog, ← hu]
    rfl
  rw [State.missing, State.logged, hu, hfull, ← hu]
  rfl

/-- Settles O10: each clause is the litre's case, in both free orders. -/
theorem terminusLitreRunsTheCut : Obligations.TerminusLitreRunsTheCut := by
  intro s hr hc hs
  have hx : s.mtr.fine + ((s.cfg.pulseWeight : Int) * (1000000 + s.mtr.trim)).toNat = pulsedFine s := rfl
  have hlit : (1000000000 : Nat) = litre := rfl
  simp only [hx, hlit]
  intro h1
  have hpulse {v : State} (h : handLitre { s with mtr := s.pulsedMtr } = v) : exec .mainlinePulse s = .next v := exec_pulse_terminus hr hc h1 h
  refine ⟨?_, ?_, ?_, ?_, ?_, ?_, ?_, ?_⟩
  · intro before e r ht hn hb hrec hce hd hq ha hdue hset
    rw [hpulse (handLitre_counts hr hs rfl ht hn hb hrec hce (quiet_of_unhealthy hd hq) ha hdue hset), List.map_append]
    rfl
  · intro before a e ht hn hb hst hth hd hi hle h0 hh hf
    rw [hpulse (handLitre_opens_volume hr hs hst ht hn hb hth hi hle hd h0 ⟨all_or_false hh, all_or_false hf⟩)]
    rfl
  · intro before e r k t target ht hn hb hrec hce hmeth hx hd hw h0 hle hq hl hk
    have hreach : ReachedBy s r (e.advance 1).rlv k target := by
      rcases hk with ⟨rfl, hp, hn, rfl, ht, hf⟩ | ⟨rfl, hp, hn, hft, ht⟩
      · exact .inl ⟨rfl, hp, hn, hle, ht, hf⟩
      · exact .inr ⟨rfl, hp, hn, ⟨t, hft, hle⟩, ht⟩
    have hquiet := quiet_of_unhealthy (e := e.advance 1) hd (.inr (.inl ⟨hw, h0⟩))
    rw [hpulse (handLitre_reaches hr hs rfl ht hn hb hrec hce hquiet hmeth hx hreach hq hl)]
    rw [marked_countedIn hx hq, List.map_append]
    rfl
  · intro before e r ht hn hb hrec hce he hd hh hf hx hset hq
    rw [hpulse (handLitre_closes hr hs rfl ht hn hb hrec hce he hd hh hf hx hset hq), ← logged_onLitre, closed_unjudged, Csq.shut, ← hq]
    rfl
  · intro before e f r ht hn hb hrec hce hth hy hmeth hp hh hx hst hq hd he he0 hi hf0 hle hfin hfin'
    have ha : Ahead s r (e.advance 1).rlv := by
      refine ⟨?_, ?_⟩
      · rw [hp]
        simp [headThreshold, hh]
      · rw [hp]
        exact decide_eq_true hfin
    have ha' : Ahead s (r.countLitre.mergedWith (e.advance 1) (f.advance 1)) (f.advance 1).rlv := by
      have hp' : (r.countLitre.mergedWith (e.advance 1) (f.advance 1)).policy = .transmix := (countLitre_policy r).trans hp
      refine ⟨?_, ?_⟩
      · rw [hp']
        simp [headThreshold, OpenCut.mergedWith]
      · rw [hp']
        exact decide_eq_true (.inr hfin')
    rw [hpulse (handLitre_merges hr hs rfl ht hn hb hrec hce hth hy hmeth hp hx hst hq hd he he0 hi hf0 hle ha ha'), ← raiseAlarm_onLitre,
      countedIn_unexecuted _ hx, OpenCut.mergedWith, countLitre_flags]
    rfl
  · intro before a e r f ht hn hb hrec hce he hle hdens hf hh hfin hx hq ⟨target, hp, hu⟩
    rw [hpulse (handLitre_misses hr hs rfl ht hn hb hrec hce he hle hdens hf hh hfin hx hq hp hu), missing_onLitre, closed_missed]
    rfl
  · intro before e r q rest ht hn hb hrec hce hx hd hquiet ha hq hdue hlater hset hready
    rw [hpulse (handLitre_executes hr hs rfl ht hn hb hrec hce (quiet_of_unhealthy hd hquiet) ha hx hq hdue hlater hset hready),
      countedIn_unexecuted _ hx, List.map_append, State.switchedTo]
    split
    · rfl
    · rfl
  · intro before a e f transmix product ht hn hb hst hth hdens hf hlow hl hi hle hm htm hpr
    rw [hpulse (handLitre_opens_density hr hs hst ht hn hb hth hi hle hdens hf hlow hl hm htm hpr), Csq.opened,
      (hs.rest (record_none_of_steady hs hst)).1]
    rfl

end Sys2Proof.Machine
end

section
/-! SUPPORT. The integer root, the window of an entry, and the density sample: settled O15, O16 and O18. -/

namespace Sys2Proof.Machine

/-! ### The integer root (0.7.1) -/

/-- With `k` digits to come the root lies from `acc` to `acc + 2 ^ k`, the upper end excluded; each digit halves this. -/
theorem isqrtFrom_exact (x k acc : Nat) (hlo : acc * acc ≤ x) (hhi : x < (acc + 2 ^ k) * (acc + 2 ^ k)) :
    isqrtFrom x k acc * isqrtFrom x k acc ≤ x ∧ x < (isqrtFrom x k acc + 1) * (isqrtFrom x k acc + 1) := by
  induction k generalizing acc with
  | zero => exact ⟨hlo, hhi⟩
  | succ k ih =>
    rw [isqrtFrom]
    split
    · next hdigit => exact ih _ hdigit (by rwa [Nat.add_assoc, ← Nat.two_mul, ← Nat.pow_succ'])
    · next hdigit => exact ih _ hlo (Nat.not_le.mp hdigit)

/-- The digits that `isqrt` tries are enough for its root. -/
theorem lt_isqrt_range (x : Nat) : x < 2 ^ (x.log2 / 2 + 1) * 2 ^ (x.log2 / 2 + 1) :=
  calc x < 2 ^ (x.log2 + 1) := Nat.lt_log2_self
    _ ≤ 2 ^ ((x.log2 / 2 + 1) + (x.log2 / 2 + 1)) := Nat.pow_le_pow_right (by decide) (by omega)
    _ = _ := Nat.pow_add ..

/-- Settles O15: the search starts with 0 and with digits enough, and every digit keeps the root between its bounds. -/
theorem integerSquareRootIsExact : Obligations.IntegerSquareRootIsExact := fun x =>
  isqrtFrom_exact x (x.log2 / 2 + 1) 0 (Nat.zero_le x) (by rw [Nat.zero_add]; exact lt_isqrt_range x)

/-! ### Uncertainty and half-width (R39) -/

section Uncertainty
variable (c : Published)

theorem uncertainty_le (n : Nat) : uncertainty c n ≤ 500000 := Nat.min_le_right ..

/-- Without a part that grows with S, U is its floor. -/
theorem uncertainty_floor {n : Nat} (hf : c.uncFloor ≤ 50000) (h : n * c.uncPpm = 0) : uncertainty c n = c.uncFloor := by
  unfold uncertainty
  rw [h]
  omega

/-- At the highest S an UNC_PPM of 117 or more saturates U. -/
theorem uncertainty_saturated (hp : 116 < c.uncPpm) : uncertainty c 4294967295 = 500000 := by
  unfold uncertainty
  omega

end Uncertainty

/-- Settles O16: U lies between its floor and 500,000 litres, H is Mh above it, and the product fits 46 bits. -/
theorem uncertaintyAndHalfWidth : Obligations.UncertaintyAndHalfWidth := by
  intro s n hfloor hppm hmix hn
  have hle := uncertainty_le s.cfg n
  refine ⟨rfl, hle, rfl, Nat.add_le_add hmix hle, ?_, fun h => ?_, fun h hp => ?_, ?_⟩
  · rw [halfWidth, uncertainty_floor s.cfg hfloor (Nat.zero_mul _)]
  · exact uncertainty_floor s.cfg hfloor (by rw [h, Nat.mul_zero])
  · rw [h]
    exact uncertainty_saturated s.cfg hp
  · have := Nat.mul_le_mul hn hppm
    omega

/-! ### The sample taken (R64 to R67, R69, R75) -/

/-- DSU after an accepted sample that completes a frame and counts toward no departure. -/
def Dsu.sampled (d : Dsu) (value now : Nat) : Dsu where
  receiver := .hunt
  window := windowAfter d.window value
  fill := min 4 (d.fill + 1)
  average := if 3 ≤ d.fill then some (averageOf (windowAfter d.window value)) else d.average
  lastSample := some value
  healthy := d.healthy || d.goodRun == 7
  rejectRun := 0
  goodRun := min 255 (d.goodRun + 1)
  silenceTimer := some (now + 1000)
  departureRun := if 3 ≤ d.fill then 0 else d.departureRun

/-- The state after such a sample, before its notice. -/
def State.sampled (s : State) (value : Nat) : State := { s with dsu := s.dsu.sampled value s.now }

section Accept
variable (d : Dsu) (value now : Nat)

theorem fill_full_iff : min 4 (d.fill + 1) = 4 ↔ 3 ≤ d.fill := by omega

theorem eighth_good : (min 255 (d.goodRun + 1) == 8) = (d.goodRun == 7) := by
  rw [Bool.eq_iff_iff, beq_iff_eq, beq_iff_eq]
  omega

theorem accept_short (h : ¬ 3 ≤ d.fill) : { d with receiver := .hunt }.accept value now = d.sampled value now := by
  simp only [accept_eq, Dsu.sampled, fill_full_iff, eighth_good, h, if_false]

theorem accept_full (h : 3 ≤ d.fill) :
    { { d with receiver := .hunt }.accept value now with departureRun := 0 } = d.sampled value now := by
  simp only [accept_eq, Dsu.sampled, fill_full_iff, eighth_good, h, if_true]

end Accept

/-- While an entry is in its window, or no batch is at the station, no average counts toward departure (R75). -/
theorem countsTowardDeparture_none {s : State} (h : s.trs.train.any (·.track == .window) = true ∨ batchAtStation s.trs.train = none)
    (average : Nat) : countsTowardDeparture average s = false := by
  rcases h with h | h
  · simp only [countsTowardDeparture, h, Bool.not_true, Bool.and_false, Bool.false_and]
  · simp only [countsTowardDeparture, h, Bool.and_false]

theorem judgeDeparture_none {s : State} (ho : s.nonOrigin = true)
    (h : s.trs.train.any (·.track == .window) = true ∨ batchAtStation s.trs.train = none) (average : Nat) :
    judgeDeparture average s = putDsu (fun d => { d with departureRun := 0 }) s := by
  simp only [judgeDeparture, ho, Bool.not_true, Bool.false_eq_true, if_false, countsTowardDeparture_none h]

section Notice
variable {s : State} (ho : s.nonOrigin = true) (h : s.trs.train.any (·.track == .window) = true ∨ batchAtStation s.trs.train = none)
  (value : Nat)
include ho h

/-- With the window full the sample's average is published and its notice handed on (R65, R71). -/
theorem acceptSample_full (hf : 3 ≤ s.dsu.fill) : acceptSample value (putReceiver .hunt s) = densityNotice true (s.sampled value) := by
  generalize hu : putDsu (fun d => d.accept value s.now) (putReceiver .hunt s) = u
  have hfill : u.dsu.fill = 4 := by rw [← hu]; exact (fill_full_iff s.dsu).mpr hf
  have hdep : judgeDeparture (averageOf u.dsu.window) u = s.sampled value := by
    rw [judgeDeparture_none (by rw [← hu]; exact ho) (by rw [← hu]; exact h), ← hu]
    exact congrArg (fun d => ({ s with dsu := d } : State)) (accept_full s.dsu value s.now hf)
  have hnow : (putReceiver .hunt s).now = s.now := rfl
  simp only [acceptSample, hnow, hu, hfill, if_true, hdep]

omit ho h in
/-- Before that the sample brings at most the notice of a change of health (R71). -/
theorem acceptSample_short (hf : ¬ 3 ≤ s.dsu.fill) : acceptSample value (putReceiver .hunt s) = densityNotice false (s.sampled value)
    ∨ acceptSample value (putReceiver .hunt s) = s.sampled value := by
  have hu : putDsu (fun d => d.accept value (putReceiver .hunt s).now) (putReceiver .hunt s) = s.sampled value :=
    congrArg (fun d => ({ s with dsu := d } : State)) (accept_short s.dsu value s.now hf)
  have hfill : (s.sampled value).dsu.fill ≠ 4 := fun h4 => hf ((fill_full_iff s.dsu).mp h4)
  simp only [acceptSample, hu, hfill, if_false]
  split
  · exact .inl rfl
  · exact .inr rfl

end Notice

theorem sampleValue_frame {bytes : List Byte} (value : Byte) (hl : bytes.length = 3) :
    sampleValue (bytes ++ [value]) = 256 * (bytes.getD 1 0).toNat + (bytes.getD 2 0).toNat := by
  match bytes, hl with
  | [sync, high, low], _ =>
    simp only [sampleValue, natAt, natOfBytes, List.cons_append, List.nil_append, List.drop_succ_cons, List.drop_zero, List.take_succ_cons,
      List.take_zero, List.foldl_cons, List.foldl_nil, List.getD_cons_succ, List.getD_cons_zero]
    omega

/-- The fourth character of a good frame hands its sample on (R64). -/
theorem exec_densityCharacter_sample {s : State} {bytes : List Byte} {last : Nat} {value : Byte} (hr : s.running = true)
    (hd : s.cfg.densitometer = true) (hf : s.dsu.receiver = .frame bytes last) (hn : s.now ≤ last + 10) (hl : bytes.length = 3)
    (hsum : ((bytes ++ [value]).map (·.toNat)).sum % 256 = 255) (hlo : 5000 ≤ sampleValue (bytes ++ [value]))
    (hhi : sampleValue (bytes ++ [value]) ≤ 11000) :
    exec (.densityCharacter value true) s = .next (acceptSample (sampleValue (bytes ++ [value])) (putReceiver .hunt s)) := by
  have hactive : densityActive s = true := by rw [densityActive, hr, hd]; rfl
  have hcheck : sampleCheck (bytes ++ [value]) = true := beq_iff_eq.mpr hsum
  have hlast : ¬ bytes.length + 1 < 4 := by omega
  have htake : takeCharacter value true s = judgeSample (bytes ++ [value]) (putReceiver .hunt s) := by
    simp only [takeCharacter, hf, hn, if_true, frameCharacter, Bool.not_true, Bool.false_eq_true, if_false, hlast]
  show execDensityCharacter value true s = _
  simp only [execDensityCharacter, hactive, if_true, htake, judgeSample, hcheck, hlo, hhi, decide_true, Bool.and_self]

/-! ### The evaluation of a new average (R42, R49) -/

section Average
variable {s : State} {before : List Entry} {x : Entry} (h : Around s before x []) (hw : x.track = .window)
include h hw

/-- A new average tests the entry in its window at a detection point, and nothing else (R42). -/
theorem Around.evaluate_average {t : State} (ho : s.nonOrigin = true) (hd : s.hasRole .delivery = false) (hv : testWindow true x s = t)
    (hl : t.trs.train.length = s.trs.train.length) : Machine.evaluate true (candidateOf s.trs.train) s = t := by
  have hk : (⟨candidateOf s.trs.train, false⟩ : Tracker).update s.trs.train = ⟨candidateOf s.trs.train, false⟩ := if_pos rfl
  have hcand : candidateOf s.trs.train = some x.seq := by rw [h.candidate, if_pos hw]
  have hvisit : (visitEntry true (candidateOf s.trs.train) (s, ⟨candidateOf s.trs.train, false⟩) x.seq).1 = t := by
    simp only [visitEntry, h.find, hw, reduceCtorEq, false_and, if_false, if_true, hk, Tracker.detectionPoint]
    rw [hcand, beq_self_eq_true]
    exact hv
  have hquiet : ∀ m ∈ before.map (·.seq), QuietAt s m := fun m hm => by
    obtain ⟨b, hb, rfl⟩ := List.mem_map.mp hm
    exact quietAt_of_ne h.quiet (h.before_ne b hb)
  have hseqs : s.trs.train.map (·.seq) = before.map (·.seq) ++ [x.seq] := by rw [h.train, List.map_append]; rfl
  have hfold : ((s.trs.train.map (·.seq)).foldl (visitEntry true (candidateOf s.trs.train)) (s, ⟨candidateOf s.trs.train, false⟩)).1 = t := by
    rw [hseqs, List.foldl_append, visits_tracker true _ rfl hquiet]
    exact hvisit
  have honce : evaluateOnce true (candidateOf s.trs.train) s = t := by
    simp only [evaluateOnce, hk, hfold, hd, Bool.false_eq_true, if_false]
  have hrem (i : Nat) : evaluateRemovals i s.trs.train.length t = t := by
    cases i with
    | zero => rfl
    | succ i => exact if_neg (by rw [hl]; exact Nat.lt_irrefl _)
  simp only [Machine.evaluate, ho, if_true, honce, hrem]

/-- Short of RLV 0 and below a mix fraction of 500 the entry stays as it is. -/
theorem Around.evaluate_average_rests (ho : s.nonOrigin = true) (hd : s.hasRole .delivery = false) (h0 : 0 < x.rlv)
    (hf : (fractionBehind s before x).any (500 ≤ ·) = false) : Machine.evaluate true (candidateOf s.trs.train) s = s :=
  h.evaluate_average hw ho hd (testWindow_rests (by rw [h.fraction, hf]; rfl) (fun _ => h0) (by omega)) rfl

/-- From 500 on the entry is DETECTED (R49), here at a RELAY. -/
theorem Around.evaluate_average_detected (hr : s.hasRole .relay = true) (hf : (fractionBehind s before x).any (500 ≤ ·) = true) :
    Machine.evaluate true (candidateOf s.trs.train) s = sendOwn .passage (passagePayload x.seq .detected)
      { s.passes (before ++ [x.declared .detected]) with mtr := { s.mtr with nudges := s.mtr.nudges ++ nudgeOf s x } } := by
  have hv := (testWindow_detected (s := s) (e := x) (by rw [h.fraction, hf])).trans (h.declare_detected hr hw)
  refine h.evaluate_average hw (nonOrigin_of_hasRole hr (by decide)) (hasRole_other hr (by decide)) hv ?_
  rw [sendOwn_train, h.train]
  show (before ++ [x.declared .detected]).length = (before ++ [x]).length
  rw [List.length_append, List.length_append]
  rfl

end Average

/-! ### The thresholds of an open DENSITY record (R138, R141) -/

/-- The unreached head threshold of the record is reached at the mix fraction `f`. -/
def OpenCut.headDue (r : OpenCut) (c : Published) (f : Nat) : Bool := r.policy == .transmix && !r.headReached && decide (c.headFraction ≤ f)

/-- So is its unreached final threshold, behind a head threshold reached before or now. -/
def OpenCut.finalDue (r : OpenCut) (c : Published) (f : Nat) : Bool :=
  (r.policy != .transmix || r.headReached || r.headDue c f) && !r.finalReached && (finalThreshold c r.policy).any (· ≤ f)

/-- CSQ with the thresholds of the record `r` judged: `head` and `final` reached, by the actions `h` and `x`. -/
def Csq.reaching (q : Csq) (r : OpenCut) (head final : Bool) (h x : Action) : Csq := { q with
  state := if final = true then .settling else if head = true then .mixing else q.state
  queue := q.queue ++ (if head = true then [h] else []) ++ (if final = true then [x] else [])
  record := some { r with
    headReached := r.headReached || head
    finalReached := r.finalReached || final
    routeB := if final = true then some x.target else r.routeB } }

section Reaching
variable (q : Csq) (r : OpenCut) (h x : Action)

theorem reaching_both : q.reaching r true true h x = (q.headMarked r h).finalMarked { r with headReached := true } x := by
  simp only [Csq.reaching, Bool.or_true, if_true]
  rfl

theorem reaching_head : q.reaching r true false h x = q.headMarked r h := by
  simp [Csq.reaching, Csq.headMarked]

theorem reaching_final : q.reaching r false true h x = q.finalMarked r x := by
  simp [Csq.reaching, Csq.finalMarked]

theorem reaching_neither {q : Csq} (hrec : q.record = some r) : q.reaching r false false h x = q := by
  simp [Csq.reaching, ← hrec]

end Reaching

theorem headDue_iff {r : OpenCut} {c : Published} {f : Nat} :
    r.headDue c f = true ↔ r.policy = .transmix ∧ r.headReached = false ∧ c.headFraction ≤ f := by
  simp [OpenCut.headDue, and_assoc]

/-- The head threshold is due when it is pending and reached. -/
theorem headDue_eq (r : OpenCut) (c : Published) (f : Nat) :
    r.headDue c f = (r.headPending && (headThreshold c r.policy).any fun t => decide (t ≤ f)) := by
  unfold OpenCut.headDue OpenCut.headPending
  cases r.policy <;> rfl

/-- Where the head threshold is not due, the final one is due when it alone is pending and reached. -/
theorem finalDue_eq {r : OpenCut} {c : Published} {f : Nat} (hh : r.headDue c f = false) :
    r.finalDue c f = (!r.headPending && r.finalPending && (finalThreshold c r.policy).any fun t => decide (t ≤ f)) := by
  rw [OpenCut.finalDue, hh, Bool.or_false, OpenCut.headPending, OpenCut.finalPending]
  cases r.policy
  case transmix => cases r.headReached <;> rfl
  case none => cases r.finalReached <;> rfl
  all_goals rfl

/-- Both thresholds are judged in policy order, and the actions of those reached join the queue (R138, R141). -/
theorem judgeWith_reaching {s : State} {r : OpenCut} {f : Nat} {transmix product : Route} (hrec : s.csq.record = some r)
    (ht : transmixRoute s.cfg = some transmix) (hp : productRoute s.cfg r.productB = some product) :
    judgeWith (fun t => decide (t ≤ f)) .density s = { s with csq := (s.csq.reaching r (r.headDue s.cfg f) (r.finalDue s.cfg f)
      (dueAction s.cfg s.mtr.count .density r.first .head transmix) (dueAction s.cfg s.mtr.count .density r.first .final product)) } := by
  cases hhead : r.headDue s.cfg f with
  | true =>
    obtain ⟨hpol, hpend, hreach⟩ := headDue_iff.mp hhead
    have hfin : r.finalDue s.cfg f = (!r.finalReached && decide (s.cfg.tailFraction ≤ f)) := by
      rw [OpenCut.finalDue, hhead, Bool.or_true, Bool.true_and, hpol]
      rfl
    rw [judgeWith_head .density hrec hpol hpend (decide_eq_true hreach) ht, ← hfin]
    split
    · next hfinal =>
      rw [hfinal, reaching_both]
      exact reachThreshold_final .density (r := { r with headReached := true }) rfl hp
    · next hfinal => rw [eq_false_of_ne_true hfinal, reaching_head]
  | false =>
    rw [judgeWith_final .density hrec (by rw [← headDue_eq]; exact hhead), ← finalDue_eq hhead]
    split
    · next hfinal => rw [reachThreshold_final .density hrec hp, hfinal, reaching_final]
    · next hfinal => rw [eq_false_of_ne_true hfinal, reaching_neither _ _ _ hrec]

theorem cutDensityNotice_density {s : State} {r : OpenCut} {f : Nat} (hrec : s.csq.record = some r) (hm : r.method = .density)
    (hf : mixFraction s r.densityA r.densityB = some f) : cutDensityNotice s = judgeWith (fun t => decide (t ≤ f)) .density s := by
  simp only [cutDensityNotice, judgeDensity, hrec, hm, hf, if_true]

/-! ### The notice (R71) -/

theorem densityNotice_other {s : State} (hr : s.hasRole .terminus = false) (average : Bool) :
    densityNotice average s = evaluate average (candidateOf s.trs.train) s := by
  simp only [densityNotice, hr, Bool.false_eq_true, if_false]

/-- At a TERMINUS whose evaluation leaves state and cut alone, the notice is CSQ's judgement, in both free orders (log 24). -/
theorem densityNotice_terminus {s v : State} (hr : s.hasRole .terminus = true)
    (h1 : evaluate true (candidateOf s.trs.train) { s with choices := s.choices + 1 } = { s with choices := s.choices + 1 })
    (hc : cutDensityNotice { s with choices := s.choices + 1 } = v) (h2 : evaluate true (candidateOf s.trs.train) v = v) :
    densityNotice true s = v := by
  simp only [densityNotice, hr, if_true]
  rcases inEitherOrder_cases (evaluate true (candidateOf s.trs.train)) cutDensityNotice s with h | h
  · rw [h, h1, hc]
  · rw [h, hc, h2]

/-! ### The sample at a RELAY and at a TERMINUS (R65, R71) -/

theorem sampled_hasRole (s : State) (v : Nat) (r : Role) : (s.sampled v).hasRole r = s.hasRole r := by
  simp only [State.hasRole, State.running, State.sampled]

/-- With an empty train at a RELAY the notice finds nothing to do. -/
theorem acceptSample_empty {s : State} (hr : s.hasRole .relay = true) (ht : s.trs.train = []) (v : Nat) :
    acceptSample v (putReceiver .hunt s) = s.sampled v := by
  have hrs : (s.sampled v).hasRole .relay = true := (sampled_hasRole ..).trans hr
  have hquiet (b : Bool) : densityNotice b (s.sampled v) = s.sampled v := by
    rw [densityNotice_other (hasRole_other hrs (by decide))]
    exact evaluate_quiet _ _ (hasRole_other hrs (by decide)) fun e he => absurd (show e ∈ s.trs.train from he) (by rw [ht]; nofun)
  by_cases hf : 3 ≤ s.dsu.fill
  · rw [acceptSample_full (nonOrigin_of_hasRole hr (by decide)) (.inr (by rw [ht]; rfl)) v hf, hquiet]
  · rcases acceptSample_short v hf with h | h
    · rw [h, hquiet]
    · exact h

theorem sampled_departure {s : State} (hf : 3 ≤ s.dsu.fill) (v : Nat) :
    { (s.sampled v).dsu with departureRun := 0 } = (s.sampled v).dsu := by
  simp only [State.sampled, Dsu.sampled, hf, if_true]

/-- Short of RLV 0 the nudge of a DETECTED entry is upward. -/
theorem nudgeOf_ahead (s : State) {x : Entry} (h0 : 0 < x.rlv) :
    nudgeOf s x = if x.snappedByReference = true ∧ s.cfg.deadband < x.rlv.natAbs then [⟨true, x.rlv⟩] else [] := by
  rw [nudgeOf, decide_eq_true h0]

section Window
variable {s : State} {before : List Entry} {a e : Entry} (ht : s.trs.train = before ++ [a, e]) (hn : (s.trs.train.map (·.seq)).Nodup)
  (hb : ∀ b ∈ before ++ [a], b.track = .passed) (hw : e.track = .window) (h0 : 0 < e.rlv) (hd : s.cfg.densitometer = true)
  (v : Nat)

theorem fractionBehind_last {t : State} (hd : t.cfg.densitometer = true) :
    fractionBehind t (before ++ [a]) e = mixFraction t a.density e.density := by
  rw [fractionBehind, if_pos hd, List.getLast?_concat]
  rfl

include ht

/-- The entry in WINDOW keeps the average from counting toward departure. -/
theorem acceptSample_window (ho : s.nonOrigin = true) (hw : e.track = .window) (hf : 3 ≤ s.dsu.fill) :
    acceptSample v (putReceiver .hunt s) = densityNotice true (s.sampled v) :=
  acceptSample_full ho (.inl (List.any_eq_true.mpr ⟨e, by rw [ht]; simp, beq_iff_eq.mpr hw⟩)) v hf

include hn hb

/-- Around the newest entry, in any state of this train. -/
theorem around_newest {t : State} (hts : t.trs.train = s.trs.train) : Around t (before ++ [a]) e [] := by
  have htrain : s.trs.train = (before ++ [a]) ++ [e] := by rw [ht, List.append_cons]
  exact ⟨hts.trans htrain, htrain ▸ hn, hb, nofun⟩

include hw h0

/-- Below 500 the evaluation of a new average leaves a state of this train and mix fraction as it is. -/
theorem evaluate_average_low {t : State} (hts : t.trs.train = s.trs.train) (ho : t.nonOrigin = true) (hnd : t.hasRole .delivery = false)
    (hdt : t.cfg.densitometer = true) (hlow : (mixFraction t a.density e.density).all (· < 500) = true) :
    evaluate true (candidateOf s.trs.train) t = t := by
  rw [← hts]
  refine (around_newest ht hn hb hts).evaluate_average_rests hw ho hnd h0 ?_
  rw [fractionBehind_last hdt]
  exact any_false_of_all hlow fun f hf => by simpa using hf

include hd

theorem acceptSample_relay_low (hr : s.hasRole .relay = true) (hf : 3 ≤ s.dsu.fill)
    (hlow : (mixFraction (s.sampled v) a.density e.density).all (· < 500) = true) : acceptSample v (putReceiver .hunt s) = s.sampled v := by
  have hrs : (s.sampled v).hasRole .relay = true := (sampled_hasRole ..).trans hr
  rw [acceptSample_window ht v (nonOrigin_of_hasRole hr (by decide)) hw hf, densityNotice_other (hasRole_other hrs (by decide))]
  exact evaluate_average_low ht hn hb hw h0 (t := s.sampled v) rfl (nonOrigin_of_hasRole hrs (by decide)) (hasRole_other hrs (by decide)) hd hlow

omit h0 in
/-- From 500 on the sample declares the entry DETECTED (R49, R52, R57). -/
theorem acceptSample_relay_detected (hr : s.hasRole .relay = true) (hf : 3 ≤ s.dsu.fill)
    (hhigh : (mixFraction (s.sampled v) a.density e.density).any (500 ≤ ·) = true) : acceptSample v (putReceiver .hunt s)
      = sendOwn .passage (passagePayload e.seq .detected) { s.sampled v with
          mtr := { s.mtr with nudges := s.mtr.nudges ++ nudgeOf s e }
          trs := { s.trs with train := before ++ [a, e.declared .detected] } } := by
  have hrs : (s.sampled v).hasRole .relay = true := (sampled_hasRole ..).trans hr
  have hfr := fractionBehind_last (before := before) (a := a) (e := e) (t := s.sampled v) hd
  rw [acceptSample_window ht v (nonOrigin_of_hasRole hr (by decide)) hw hf, densityNotice_other (hasRole_other hrs (by decide)),
    (around_newest ht hn hb (t := s.sampled v) rfl).evaluate_average_detected hw hrs (hfr.symm ▸ hhigh), State.passes, sampled_departure hf,
    List.append_assoc]
  rfl

/-- Below 500 a sample at a TERMINUS judges the thresholds of an open DENSITY record (R138). -/
theorem acceptSample_terminus (hr : s.hasRole .terminus = true) (hf : 3 ≤ s.dsu.fill)
    (hlow : (mixFraction (s.sampled v) a.density e.density).all (· < 500) = true) {r : OpenCut} {f : Nat} {transmix product : Route}
    (hrec : s.csq.record = some r) (hm : r.method = .density) (hfr : mixFraction (s.sampled v) r.densityA r.densityB = some f)
    (htr : transmixRoute s.cfg = some transmix) (hpr : productRoute s.cfg r.productB = some product) :
    acceptSample v (putReceiver .hunt s) = { s.sampled v with
      choices := s.choices + 1
      csq := (s.csq.reaching r (r.headDue s.cfg f) (r.finalDue s.cfg f) (dueAction s.cfg s.mtr.count .density r.first .head transmix)
        (dueAction s.cfg s.mtr.count .density r.first .final product)) } := by
  have hrest (i : Nat) (q : Csq) : evaluate true (candidateOf s.trs.train) { s.sampled v with choices := i, csq := q }
      = { s.sampled v with choices := i, csq := q } := by
    have hrt : ({ s.sampled v with choices := i, csq := q } : State).hasRole .terminus = true := hr
    exact evaluate_average_low ht hn hb hw h0 rfl (nonOrigin_of_hasRole hrt (by decide)) (hasRole_other hrt (by decide)) hd hlow
  have hnotice : cutDensityNotice { s.sampled v with choices := s.choices + 1 } = _ :=
    (cutDensityNotice_density (s := { s.sampled v with choices := s.choices + 1 }) hrec hm hfr).trans (judgeWith_reaching hrec htr hpr)
  rw [acceptSample_window ht v (nonOrigin_of_hasRole hr (by decide)) hw hf]
  exact densityNotice_terminus ((sampled_hasRole ..).trans hr) (hrest _ s.csq) hnotice (hrest ..)

end Window

/-- Settles O18: the frame's sample is accepted, and its notice brings the evaluation of the newest entry and the judgement of the cut. -/
theorem acceptedSampleEntersTheWindow : Obligations.AcceptedSampleEntersTheWindow := by
  intro s bytes last value hd hrec hnow hl hsum sample hlo hhi window sampled
  have hvalue : sampleValue (bytes ++ [value]) = sample := sampleValue_frame value hl
  have hexec (hr : s.running = true) :
      exec (.densityCharacter value true) s = .next (acceptSample sample (putReceiver .hunt s)) := by
    rw [exec_densityCharacter_sample hr hd hrec hnow hl hsum (hvalue ▸ hlo) (hvalue ▸ hhi), hvalue]
  have hsampled : s.sampled sample = sampled := rfl
  refine ⟨fun hr ht => ?_, fun before a e hr ht hn hb hw hf h0 => ⟨fun hlow => ?_, fun hhigh => ?_⟩,
    fun before a e r f transmix product hr ht hn hb hw hf h0 hlow hrec hm hfr htr hpr => ?_⟩
  · rw [hexec (running_of_hasRole hr), acceptSample_empty hr ht, hsampled]
  · rw [hexec (running_of_hasRole hr), acceptSample_relay_low ht hn hb hw h0 hd sample hr hf hlow, hsampled]
  · rw [hexec (running_of_hasRole hr), acceptSample_relay_detected ht hn hb hw hd sample hr hf hhigh, nudgeOf_ahead s h0]
    rfl
  · rw [hexec (running_of_hasRole hr), acceptSample_terminus ht hn hb hw h0 hd sample hr hf hlow hrec hm hfr htr hpr]
    rfl

end Sys2Proof.Machine
end

section
/-! SUPPORT. The answers of the density unit, its characters, and its rejects and restarts: settled O13, O14, O17 and O19. -/

namespace Sys2Proof.Machine

/-! ### The mix fraction (R72) -/

/-- The density unit gives a fraction exactly where the contrast suffices, the unit is HEALTHY and an average is present. -/
theorem mixFraction_eq_some_iff {s : State} {rhoA rhoB f : Nat} : mixFraction s rhoA rhoB = some f ↔
    s.cfg.minContrast ≤ contrast rhoA rhoB ∧ s.dsu.healthy = true ∧ ∃ avg, s.dsu.average = some avg ∧ mixValue avg rhoA rhoB = f := by
  unfold mixFraction
  split
  · next hlow => simp [Nat.not_le.mpr hlow]
  · next hlow =>
    cases s.dsu.healthy with
    | false => simp
    | true => simp [Nat.not_lt.mp hlow]

/-- Where one of its three conditions fails, the density is unusable. -/
theorem mixFraction_eq_none {s : State} {rhoA rhoB : Nat}
    (h : contrast rhoA rhoB < s.cfg.minContrast ∨ s.dsu.healthy = false ∨ s.dsu.average = none) : mixFraction s rhoA rhoB = none := by
  refine Option.eq_none_iff_forall_ne_some.mpr fun f hf => ?_
  obtain ⟨hcontrast, hhealthy, avg, havg, -⟩ := mixFraction_eq_some_iff.mp hf
  rcases h with h | h | h
  · exact Nat.not_le.mpr h hcontrast
  · exact Bool.false_ne_true (h.symm.trans hhealthy)
  · exact Option.some_ne_none avg (havg.symm.trans h)

theorem mixValue_le (avg rhoA rhoB : Nat) : mixValue avg rhoA rhoB ≤ 1000 := by
  unfold mixValue
  split
  · exact Nat.zero_le _
  · exact Nat.min_le_left ..

/-- An average at ρA, or beyond it on the side away from ρB. -/
theorem mixValue_of_nonpos {avg rhoA rhoB : Nat} (h : mixDistance avg rhoA rhoB ≤ 0) : mixValue avg rhoA rhoB = 0 := if_pos h

/-- An average beyond ρA on the side of ρB: the natural quotient is the rule's quotient of integers. -/
theorem mixValue_of_pos {avg rhoA rhoB : Nat} (h : 0 < mixDistance avg rhoA rhoB) : (mixValue avg rhoA rhoB : Int)
    = min 1000 ((1000 * mixDistance avg rhoA rhoB + (contrast rhoA rhoB / 2 : Nat)) / (contrast rhoA rhoB : Int)) := by
  rw [mixValue, if_neg (Int.not_le.mpr h), Nat.cast_min, Int.natCast_ediv, Int.natCast_add, Int.natCast_mul, Int.toNat_of_nonneg h.le]
  rfl

/-- Settles O13: an answer is the value of the average present, and that is the rule's own quotient. -/
theorem mixFractionFollowsTheAverage : Obligations.MixFractionFollowsTheAverage := by
  intro s rhoA rhoB delta
  refine ⟨fun h => mixFraction_eq_none (.inl h), fun h => mixFraction_eq_none (.inr (.inl h)), fun h => mixFraction_eq_none (.inr (.inr h)),
    fun avg hcontrast hhealthy havg => ?_, fun f hf => ?_, fun _ _ _ _ => by omega⟩
  · have hvalue : mixFraction s rhoA rhoB = some (mixValue avg rhoA rhoB) :=
      mixFraction_eq_some_iff.mpr ⟨hcontrast, hhealthy, avg, havg, rfl⟩
    exact ⟨fun hd => hvalue.trans (congrArg some (mixValue_of_nonpos hd)), fun hd => ⟨_, hvalue, mixValue_of_pos hd⟩⟩
  · obtain ⟨-, -, avg, -, rfl⟩ := mixFraction_eq_some_iff.mp hf
    exact mixValue_le avg rhoA rhoB

/-! ### The product check (R74) -/

theorem productCheck_unhealthy {s : State} (h : s.dsu.healthy = false) (rhoB : Nat) : productCheck s rhoB = .unjudged := by
  simp only [productCheck, h, Bool.false_eq_true, if_false]

/-- The contrast of two densities is their distance, taken from either. -/
theorem contrast_eq (rho rho' : Nat) : contrast rho rho' = ((rho : Int) - rho').natAbs := by
  rw [contrast, ← Int.natAbs_neg, Int.neg_sub]

theorem productCheck_average {s : State} (h : s.dsu.healthy = true) {avg : Nat} (ha : s.dsu.average = some avg) (rhoB : Nat) :
    productCheck s rhoB = if ((avg : Int) - rhoB).natAbs ≤ s.cfg.prodTol then .confirmed else .refuted := by
  simp only [productCheck, h, ha, if_true, contrast_eq]

/-- Settles O14: the tolerance decides where an average of a HEALTHY unit is present. -/
theorem productCheckJudgesTheAverage : Obligations.ProductCheckJudgesTheAverage := fun _ rhoB =>
  ⟨fun h => productCheck_unhealthy h rhoB, fun _ h ha =>
    ⟨fun hin => (productCheck_average h ha rhoB).trans (if_pos hin),
      fun hout => (productCheck_average h ha rhoB).trans (if_neg (Nat.not_le.mpr hout))⟩⟩

/-! ### The commands of the density line (R63, R67) -/

section Active
variable {s : State} (hr : s.running = true) (hd : s.cfg.densitometer = true)
include hr hd

theorem densityActive_eq_true : densityActive s = true := by rw [densityActive, hr, hd]; rfl

theorem exec_densityCharacter_active (value : Byte) (goodStop : Bool) :
    exec (.densityCharacter value goodStop) s = .next (takeCharacter value goodStop s) :=
  congrArg Host.Outcome.next (if_pos (densityActive_eq_true hr hd))

theorem exec_frameCharTimeout_active : exec .frameCharTimeout s = .next (abandonSample s) :=
  congrArg Host.Outcome.next (if_pos (densityActive_eq_true hr hd))

theorem exec_silenceTimerExpiry_active : exec .silenceTimerExpiry s = .next (silenceExpired s) :=
  congrArg Host.Outcome.next (if_pos (densityActive_eq_true hr hd))

end Active

/-! ### Rejects (R66) -/

theorem rejectSample_early {s : State} (h : s.dsu.rejectRun < 3) :
    rejectSample s = putDsu (fun d => { d with goodRun := 0, rejectRun := d.rejectRun + 1 }) s := if_pos (by omega)

theorem rejectSample_fourth {s : State} (h : s.dsu.rejectRun = 3) :
    rejectSample s = restartDensity (putDsu (fun d => { d with goodRun := 0, rejectRun := 0 }) s) := if_neg (by omega)

/-! ### Characters (R63) -/

theorem takeCharacter_hunt {s : State} (h : s.dsu.receiver = .hunt) (value : Byte) (goodStop : Bool) :
    takeCharacter value goodStop s = huntCharacter value goodStop s := by
  simp only [takeCharacter, h]

theorem takeCharacter_frame {s : State} {bytes : List Byte} {last : Nat} (h : s.dsu.receiver = .frame bytes last) (hn : s.now ≤ last + 10)
    (value : Byte) (goodStop : Bool) : takeCharacter value goodStop s = frameCharacter bytes value goodStop s := by
  simp only [takeCharacter, h, hn, if_true]

/-- Only a sync character with a good stop bit ends the hunt. -/
theorem huntCharacter_eq (value : Byte) (goodStop : Bool) (s : State) :
    huntCharacter value goodStop s = if value = 0x5A ∧ goodStop = true then putReceiver (.frame [0x5A] s.now) s else s := by
  unfold huntCharacter
  by_cases hsync : value = 0x5A ∧ goodStop = true
  · obtain ⟨rfl, rfl⟩ := hsync
    rfl
  · rw [if_neg hsync, if_neg]
    rw [Bool.and_eq_true, beq_iff_eq]
    exact fun h => hsync h.symm

theorem frameCharacter_held {bytes : List Byte} (h : bytes.length < 3) (value : Byte) (s : State) :
    frameCharacter bytes value true s = putReceiver (.frame (bytes ++ [value]) s.now) s := by
  rw [frameCharacter, Bool.not_true, if_neg Bool.false_ne_true, if_pos (Nat.succ_lt_succ h)]

theorem frameCharacter_abandoned (bytes : List Byte) (value : Byte) (s : State) :
    frameCharacter bytes value false s = rejectSample (putReceiver .hunt s) := rfl

/-- Settles O17: the receiver's state decides, and in FRAME the stop bit. -/
theorem densityCharactersMakeAFrame : Obligations.DensityCharactersMakeAFrame := by
  intro s value goodStop hr hd
  rw [exec_densityCharacter_active hr hd]
  refine ⟨fun hhunt => ?_, fun bytes last hframe hnow => ⟨fun hgood hl => ?_, fun hbad hrun => ?_⟩⟩
  · rw [takeCharacter_hunt hhunt, huntCharacter_eq]
    rfl
  · rw [takeCharacter_frame hframe hnow, hgood, frameCharacter_held hl]
    rfl
  · rw [takeCharacter_frame hframe hnow, hbad, frameCharacter_abandoned, rejectSample_early (s := putReceiver .hunt s) hrun]
    rfl

/-! ### Restarts (R68, R69) -/

/-- With an empty train at a RELAY a density notice finds nothing to do (R71). -/
theorem densityNotice_empty {s : State} (hr : s.hasRole .relay = true) (ht : s.trs.train = []) (average : Bool) :
    densityNotice average s = s := by
  rw [densityNotice_other (hasRole_other hr (by decide))]
  exact evaluate_quiet _ _ (hasRole_other hr (by decide)) fun e he => absurd he (by rw [ht]; exact List.not_mem_nil)

/-- So a restart there is that of DSU, with DENSITY_FAULT when the unit was HEALTHY. -/
theorem restartDensity_empty {s : State} (hr : s.hasRole .relay = true) (ht : s.trs.train = []) :
    restartDensity s = if s.dsu.healthy = true then raiseAlarm .densityFault 0 (putDsu Dsu.restarted s) else putDsu Dsu.restarted s := by
  generalize hu : (if s.dsu.healthy = true then raiseAlarm .densityFault 0 (putDsu Dsu.restarted s) else putDsu Dsu.restarted s) = u
  have hrole : u.hasRole .relay = true := by
    rw [← hu]
    split
    · exact (hasRole_base (base_raiseAlarm ..) _).trans hr
    · exact hr
  have htrain : u.trs.train = [] := by
    rw [← hu]
    split
    · exact (congrArg Trs.train (raiseAlarm_trs ..)).trans ht
    · exact ht
  simp only [restartDensity, hu, densityNotice_empty hrole htrain, ite_self]

/-! ### Time-outs (R63, R67) -/

theorem abandonSample_frame {s : State} {bytes : List Byte} {last : Nat} (h : s.dsu.receiver = .frame bytes last) :
    abandonSample s = rejectSample (putReceiver .hunt (s.advanceTo (last + 10))) := by
  simp only [abandonSample, h]

theorem silenceExpired_due {s : State} {due : Nat} (h : s.dsu.silenceTimer = some due) : silenceExpired s
    = restartDensity (putDsu (fun d => { d with silenceTimer := some ((s.advanceTo due).now + 1000) }) (s.advanceTo due)) := by
  simp only [silenceExpired, h]

/-- Settles O19: a time-out is a reject, and the fourth reject and the silence are restarts whose notice finds an empty train. -/
theorem rejectsAndSilenceRestartTheWindow : Obligations.RejectsAndSilenceRestartTheWindow := by
  intro s hrelay hd ht restarted lost
  have hr : s.running = true := running_of_hasRole hrelay
  refine ⟨fun bytes last hframe => ?_, fun due hdue => ?_⟩
  · rw [exec_frameCharTimeout_active hr hd, abandonSample_frame hframe]
    refine ⟨fun hrun => ?_, fun hrun => ?_⟩
    · rw [rejectSample_early (s := putReceiver .hunt (s.advanceTo (last + 10))) hrun]
      rfl
    · rw [rejectSample_fourth (s := putReceiver .hunt (s.advanceTo (last + 10))) hrun]
      exact congrArg Host.Outcome.next (restartDensity_empty hrelay ht)
  · rw [exec_silenceTimerExpiry_active hr hd, silenceExpired_due hdue]
    exact congrArg Host.Outcome.next (restartDensity_empty hrelay ht)

end Sys2Proof.Machine
end

