-- ==== Sys2Proof/Proofs/PeerTable.lean ====
section
/-! SUPPORT. The peer table in its order (R78, R81) and the choice of the reference (R90). -/

namespace Sys2Proof.Machine

/-! ### The table (R78, R81) -/

theorem findPeer_none {l : List Peer} {n : Nat} : findPeer l n = none ↔ ∀ p ∈ l, p.station ≠ n := by
  simp [findPeer]

theorem findPeer_some {l : List Peer} {n : Nat} {p : Peer} (h : findPeer l n = some p) : p ∈ l ∧ p.station = n :=
  ⟨List.mem_of_find?_eq_some h, by simpa [findPeer] using List.find?_some h⟩

/-- A station without an entry takes its place between the lower and the higher ones (R78). -/
theorem placePeer_absent {l : List Peer} (ha : l.Pairwise (fun p q => p.station < q.station)) {p : Peer} (hp : ∀ q ∈ l, q.station ≠ p.station) :
    placePeer p l = l.filter (fun q => q.station < p.station) ++ p :: l.filter (fun q => p.station < q.station) := by
  induction l with
  | nil => rfl
  | cons q rest ih =>
    obtain ⟨hq, hrest⟩ := List.pairwise_cons.mp ha
    have hne : q.station ≠ p.station := hp q List.mem_cons_self
    rcases Nat.lt_or_gt_of_ne hne with hlt | hgt
    · have hgt : ¬ p.station < q.station := by omega
      simp [placePeer, hgt, hne.symm, hlt, ih hrest fun x hx => hp x (List.mem_cons_of_mem _ hx)]
    · have hlt : ¬ q.station < p.station := by omega
      have hlow : rest.filter (fun x => x.station < p.station) = [] :=
        List.filter_eq_nil_iff.mpr fun x hx => by have := hq x hx; simp; omega
      have hhigh : rest.filter (fun x => p.station < x.station) = rest :=
        List.filter_eq_self.mpr fun x hx => by have := hq x hx; simp; omega
      simp [placePeer, hgt, hlt, hlow, hhigh]

theorem station_injective {l : List Peer} (ha : l.Pairwise (fun p q => p.station < q.station)) {p q : Peer} (hp : p ∈ l) (hq : q ∈ l)
    (h : p.station = q.station) : p = q :=
  Option.some.inj ((findPeer_eq ha hp).symm.trans (h ▸ findPeer_eq ha hq))

/-- The placed entry takes the place of one of its own station (R78). -/
theorem mem_placePeer {l : List Peer} (ha : l.Pairwise (fun p q => p.station < q.station)) (p x : Peer) :
    x ∈ placePeer p l ↔ x = p ∨ (x ∈ l ∧ x.station ≠ p.station) := by
  induction l with
  | nil => simp [placePeer]
  | cons q rest ih =>
    obtain ⟨hq, hrest⟩ := List.pairwise_cons.mp ha
    unfold placePeer
    split
    · next hlt =>
      have hother : x ∈ q :: rest → x.station ≠ p.station := fun hx => by
        rcases List.mem_cons.mp hx with rfl | hx
        · omega
        · have := hq x hx; omega
      rw [List.mem_cons]
      exact or_congr_right ⟨fun hx => ⟨hx, hother hx⟩, And.left⟩
    · split
      · next he =>
        have hother : x ∈ rest → x.station ≠ p.station := fun hx => by have := hq x hx; omega
        have hsame : x = q → x.station = p.station := fun hx => hx ▸ he.symm
        rw [List.mem_cons, List.mem_cons]
        exact or_congr_right ⟨fun hx => ⟨.inr hx, hother hx⟩, fun ⟨hx, hn⟩ => hx.resolve_left fun hq => hn (hsame hq)⟩
      · next he =>
        have hne : x = q → x.station ≠ p.station := fun hx => hx ▸ Ne.symm he
        rw [List.mem_cons, List.mem_cons, ih hrest, or_left_comm, or_and_right, and_iff_left_of_imp hne]

theorem placePeer_length (p : Peer) (l : List Peer) : (placePeer p l).length ≤ l.length + 1 := by
  induction l with
  | nil => exact Nat.le_refl _
  | cons q rest ih =>
    unfold placePeer
    split
    · exact Nat.le_refl _
    · split <;> simp only [List.length_cons] <;> omega

theorem placePeer_ascending {p : Peer} {l : List Peer} (ha : l.Pairwise (fun p q => p.station < q.station)) :
    (placePeer p l).Pairwise (fun p q => p.station < q.station) := by
  induction l with
  | nil => exact List.pairwise_singleton _ _
  | cons q rest ih =>
    obtain ⟨hq, hrest⟩ := List.pairwise_cons.mp ha
    unfold placePeer
    split
    · next hlt =>
      refine List.pairwise_cons.mpr ⟨fun x hx => ?_, ha⟩
      rcases List.mem_cons.mp hx with rfl | hx
      · exact hlt
      · exact hlt.trans (hq x hx)
    · split
      · next he => exact List.pairwise_cons.mpr ⟨fun x hx => he ▸ hq x hx, hrest⟩
      · refine List.pairwise_cons.mpr ⟨fun x hx => ?_, ih hrest⟩
        rcases (mem_placePeer hrest p x).mp hx with rfl | ⟨hx, -⟩
        · omega
        · exact hq x hx

theorem oldestSilent_mem {l : List Peer} {p : Peer} (h : oldestSilent l = some p) : p ∈ l := by
  induction l generalizing p with
  | nil => cases h
  | cons q rest ih =>
    unfold oldestSilent at h
    split at h
    · split at h
      · cases h; exact List.mem_cons_self
      · next x hx =>
        split at h <;> cases h
        · exact List.mem_cons_of_mem _ (ih hx)
        · exact List.mem_cons_self
    · exact List.mem_cons_of_mem _ (ih h)

/-- Room for one more entry is a part of the table in its order, below 24 entries (R81). -/
theorem peerRoom_some {l room : List Peer} (h : peerRoom l = some room) (hl : l.length ≤ 24) : room.length < 24 ∧ List.Sublist room l := by
  unfold peerRoom at h
  split at h
  · next hlt => cases h; exact ⟨hlt, List.Sublist.refl _⟩
  · obtain ⟨q, hq, rfl⟩ := Option.map_eq_some_iff.mp h
    have hlt : (l.filter fun p => p.station != q.station).length < l.length :=
      List.length_filter_lt_length_iff_exists.mpr ⟨q, oldestSilent_mem hq, by simp⟩
    exact ⟨by omega, List.filter_sublist⟩

/-! ### The reference (R90) -/

theorem qualifies_iff (own : Nat) (p : Peer) :
    p.qualifies own = true ↔ p.standing = .good ∧ p.densityHealthy = true ∧ p.mark < own := by
  simp [Peer.qualifies, and_assoc]

/-- A qualifying entry of the greatest mark (R90). -/
def Best (own : Nat) (l : List Peer) (p : Peer) : Prop :=
  p ∈ l ∧ p.qualifies own = true ∧ ∀ q ∈ l, q.qualifies own = true → q.mark ≤ p.mark

theorem greatestMark_le (l : List Peer) (n : Nat) : greatestMark l ≤ n ↔ ∀ p ∈ l, p.mark ≤ n := by
  have hfold (m : Nat) : l.foldl (fun m p => max m p.mark) m ≤ n ↔ m ≤ n ∧ ∀ p ∈ l, p.mark ≤ n := by
    induction l generalizing m with
    | nil => simp
    | cons q rest ih => simp [ih, and_assoc]
  simpa [greatestMark] using hfold 0

theorem mem_referenceChoices (own : Nat) (l : List Peer) (p : Peer) : p ∈ referenceChoices own l ↔ Best own l p := by
  have hle := (greatestMark_le (l.filter fun q => q.qualifies own) p.mark)
  have hge : p ∈ l → p.qualifies own = true → p.mark ≤ greatestMark (l.filter fun q => q.qualifies own) := fun hp hq =>
    (greatestMark_le _ _).mp (Nat.le_refl _) p (List.mem_filter.mpr ⟨hp, hq⟩)
  simp only [List.mem_filter, and_imp] at hle
  simp only [referenceChoices, Best, List.mem_filter, beq_iff_eq, ← hle, and_assoc]
  constructor
  · rintro ⟨hp, hq, he⟩
    exact ⟨hp, hq, he.ge⟩
  · rintro ⟨hp, hq, hg⟩
    exact ⟨hp, hq, Nat.le_antisymm (hge hp hq) hg⟩

/-- A qualifying entry means one of the greatest mark. -/
theorem exists_best {own : Nat} {l : List Peer} {p : Peer} (hp : p ∈ l) (hq : p.qualifies own = true) : ∃ x, Best own l x := by
  cases hx : (l.filter fun q => q.qualifies own).argmax (·.mark) with
  | none => exact absurd (List.mem_filter.mpr ⟨hp, hq⟩) (by simp [List.argmax_eq_none.mp hx])
  | some x =>
    obtain ⟨hxl, hxq⟩ := List.mem_filter.mp (List.argmax_mem hx)
    exact ⟨x, hxl, hxq, fun y hy hyq => List.le_of_mem_argmax (List.mem_filter.mpr ⟨hy, hyq⟩) hx⟩

theorem chooseReference_kept {own : Nat} {l : List Peer} {present : Option Nat} (h : ∃ p, Best own l p ∧ present = some p.station) :
    chooseReference own l present = present := by
  obtain ⟨p, hp, he⟩ := h
  exact if_pos (List.any_eq_true.mpr ⟨p, (mem_referenceChoices own l p).mpr hp, by simp [he]⟩)

theorem chooseReference_left {own : Nat} {l : List Peer} {present : Option Nat} (h : ¬ ∃ p, Best own l p ∧ present = some p.station) :
    chooseReference own l present = (referenceChoices own l).head?.map (·.station) := by
  refine if_neg fun hany => h ?_
  obtain ⟨p, hp, he⟩ := List.any_eq_true.mp hany
  exact ⟨p, (mem_referenceChoices own l p).mp hp, by simpa using he⟩

theorem chooseReference_none {own : Nat} {l : List Peer} (h : ∀ p ∈ l, p.qualifies own = false) (present : Option Nat) :
    chooseReference own l present = none := by
  have hbest (p : Peer) : ¬ Best own l p := fun ⟨hp, hq, _⟩ => by simp [h p hp] at hq
  rw [chooseReference_left fun ⟨p, hp, _⟩ => hbest p hp,
    List.eq_nil_iff_forall_not_mem.mpr fun p hp => hbest p ((mem_referenceChoices own l p).mp hp)]
  rfl

/-- The head of the choices has the lowest station of them, the table being in ascending order. -/
theorem chooseReference_lowest {own : Nat} {l : List Peer} (ha : l.Pairwise (fun p q => p.station < q.station)) {present : Option Nat}
    (h : ¬ ∃ p, Best own l p ∧ present = some p.station) {x : Peer} (hx : Best own l x) (hlow : ∀ y, Best own l y → x.station ≤ y.station) :
    chooseReference own l present = some x.station := by
  have hmem := (mem_referenceChoices own l x).mpr hx
  have hasc : (referenceChoices own l).Pairwise (fun p q => p.station < q.station) := (ha.filter _).filter _
  rw [chooseReference_left h]
  cases hc : referenceChoices own l with
  | nil => simp [hc] at hmem
  | cons y rest =>
    rw [hc] at hmem hasc
    have hy := hlow y ((mem_referenceChoices own l y).mp (hc ▸ List.mem_cons_self))
    have hyx : y.station ≤ x.station := by
      rcases List.mem_cons.mp hmem with rfl | hr
      · exact Nat.le_refl _
      · exact ((List.pairwise_cons.mp hasc).1 x hr).le
    simp [Nat.le_antisymm hyx hy]

theorem referenceRight_iff (s : State) : ReferenceRight s ↔ (∃ p, Best s.cfg.mark s.prt.peers p ∧ s.prt.reference = some p.station)
    ∨ (s.prt.reference = none ∧ ∀ q ∈ s.prt.peers, q.qualifies s.cfg.mark = false) := by
  unfold ReferenceRight
  cases s.prt.reference with
  | none => simp
  | some n =>
    constructor
    · rintro ⟨p, hp, hn, hq, hmax⟩
      exact .inl ⟨p, ⟨hp, hq, hmax⟩, congrArg some hn.symm⟩
    · rintro (⟨p, ⟨hp, hq, hmax⟩, hn⟩ | ⟨hn, -⟩)
      · exact ⟨p, hp, (Option.some.inj hn).symm, hq, hmax⟩
      · cases hn

/-- An entry that does not qualify, put in the place of none that does, leaves the reference right. -/
theorem referenceRight_placed {s : State} (h : ReferenceRight s) (ha : s.prt.peers.Pairwise (fun p q => p.station < q.station)) {p : Peer}
    (hp : p.qualifies s.cfg.mark = false) (hold : ∀ q ∈ s.prt.peers, q.station = p.station → q.qualifies s.cfg.mark = false) :
    ReferenceRight (putPeers (placePeer p s.prt.peers) s) := by
  have hmem (q : Peer) (hq : q.qualifies s.cfg.mark = true) : q ∈ placePeer p s.prt.peers ↔ q ∈ s.prt.peers := by
    rw [mem_placePeer ha]
    constructor
    · rintro (rfl | ⟨hl, -⟩)
      · simp [hp] at hq
      · exact hl
    · exact fun hl => .inr ⟨hl, fun he => by simp [hold q hl he] at hq⟩
  have hbest (q : Peer) : Best s.cfg.mark (placePeer p s.prt.peers) q ↔ Best s.cfg.mark s.prt.peers q := by
    constructor
    · rintro ⟨hl, hq, hmax⟩
      exact ⟨(hmem q hq).mp hl, hq, fun x hx hxq => hmax x ((hmem x hxq).mpr hx) hxq⟩
    · rintro ⟨hl, hq, hmax⟩
      exact ⟨(hmem q hq).mpr hl, hq, fun x hx hxq => hmax x ((hmem x hxq).mp hx) hxq⟩
  rw [referenceRight_iff] at h ⊢
  refine h.imp (fun ⟨q, hq, he⟩ => ⟨q, (hbest q).mpr hq, he⟩) fun ⟨hn, hall⟩ => ⟨hn, fun q hl => Bool.eq_false_iff.mpr fun hq => ?_⟩
  exact Bool.false_ne_true ((hall q ((hmem q hq).mp hl)).symm.trans hq)

/-- What R90 chooses is right, whatever the reference was. -/
theorem referenceRight_of_chosen {s : State} {present : Option Nat}
    (h : s.prt.reference = chooseReference s.cfg.mark s.prt.peers present) : ReferenceRight s := by
  rw [referenceRight_iff]
  by_cases hb : ∃ p, Best s.cfg.mark s.prt.peers p ∧ present = some p.station
  · rw [h, chooseReference_kept hb]
    exact .inl hb
  · rw [chooseReference_left hb] at h
    cases hc : referenceChoices s.cfg.mark s.prt.peers with
    | cons p rest => exact .inl ⟨p, (mem_referenceChoices _ _ p).mp (hc ▸ List.mem_cons_self), by simp [h, hc]⟩
    | nil =>
      refine .inr ⟨by simp [h, hc], fun q hq => Bool.eq_false_iff.mpr fun hqual => ?_⟩
      obtain ⟨x, hx⟩ := exists_best hq hqual
      exact absurd ((mem_referenceChoices _ _ x).mpr hx) (by simp [hc])

theorem chooseReference_of_right {s : State} (h : ReferenceRight s) :
    chooseReference s.cfg.mark s.prt.peers s.prt.reference = s.prt.reference := by
  rcases (referenceRight_iff s).mp h with hb | ⟨hnone, hq⟩
  · exact chooseReference_kept hb
  · rw [chooseReference_none hq, hnone]

/-- After a change of the table the reference is the choice of R90, and a change of it is reported (R91). -/
theorem recomputeReference_putPeers (l : List Peer) (s : State) : recomputeReference (putPeers l s) =
    let n := chooseReference s.cfg.mark l s.prt.reference
    { (if n = s.prt.reference then s else offerEvent (.referenceChanged s.prt.reference n) s) with prt := ⟨l, n⟩ } := by
  by_cases h : chooseReference s.cfg.mark l s.prt.reference = s.prt.reference
  · refine (if_pos h).trans ?_
    simp only [h, if_true]
    rfl
  · refine (if_neg h).trans ?_
    simp only [h, if_false, offerEvent_offered]
    rfl

theorem recomputeReference_of_right {s : State} (h : ReferenceRight s) : recomputeReference s = s := by
  simp [recomputeReference, chooseReference_of_right h]

theorem recomputeReference_prt (s : State) :
    (recomputeReference s).prt = ⟨s.prt.peers, chooseReference s.cfg.mark s.prt.peers s.prt.reference⟩ :=
  congrArg State.prt (recomputeReference_putPeers s.prt.peers s)

theorem recomputeReference_right (s : State) : ReferenceRight (recomputeReference s) := by
  refine referenceRight_of_chosen (present := s.prt.reference) ?_
  simp only [recomputeReference_prt, State.cfg, recomputeReference_cfl]

end Sys2Proof.Machine
end

