-- ==== Sys2Proof/Proofs/PeerCommands.lean ====
section
/-! SUPPORT. The first beacon of a station (R81) and the expiries of an entry (R85, R89) at a chip that is not the ORIGIN: settled O29 and
O31. -/

namespace Sys2Proof.Machine

/-! ### A chip that is not the ORIGIN -/

theorem running_of_nonOrigin {s : State} (h : s.nonOrigin = true) : s.running = true := ((Bool.and_eq_true _ _).mp h).1

theorem hasRole_origin_nonOrigin {s u : State} (h : s.nonOrigin = true) (hu : u.cfl = s.cfl) : u.hasRole .origin = false := by
  have hno : s.cfl.published.role ≠ some .origin := by simpa using ((Bool.and_eq_true _ _).mp h).2
  simp [State.hasRole, hu, hno]

/-- LSC judges no change of the table but at the ORIGIN (R187). -/
theorem judgePeerChange_nonOrigin {s u : State} (h : s.nonOrigin = true) (hu : u.cfl = s.cfl) (before : State) : judgePeerChange before u = u := by
  simp [judgePeerChange, hasRole_origin_nonOrigin h hu]

theorem learnSequence_nonOrigin {s : State} (h : s.nonOrigin = true) (b : BeaconMsg) : learnSequence b s = s := by
  simp [learnSequence, hasRole_origin_nonOrigin h rfl]

/-! ### The first beacon of a station (R79, R81) -/

theorem roleOfCode_isSome (n : Nat) : (roleOfCode n).isSome = true ↔ 1 ≤ n ∧ n ≤ 4 := by
  constructor
  · intro h
    unfold roleOfCode at h
    split at h <;> simp at h ⊢
  · rintro ⟨h1, h4⟩
    interval_cases n <;> rfl

theorem beaconValid_iff (station : Nat) (b : BeaconMsg) : beaconValid station b = true ↔
    1 ≤ b.role ∧ b.role ≤ 4 ∧ b.mark ≤ 2000000000 ∧ (b.role = 1 → b.mark = 0) ∧ 10 ≤ b.period ∧ b.period ≤ 100 ∧ 1 ≤ station ∧ station ≤ 250 := by
  simp [beaconValid, roleOfCode_isSome, and_assoc, imp_iff_not_or]

theorem exec_beaconTaken_head {s : State} {f : RxFrame} {rest : List RxFrame} (hr : s.running = true) (hq : s.tlc.rxQueue = f :: rest)
    (hk : f.frame.kindOf = some .beacon) : exec .beaconTaken s = .next (dropReceived (receiveBeacon f s)) := by
  show execBeaconTaken s = _
  rw [execBeaconTaken, headFrame_cons hr hq hk]

theorem receiveBeacon_invalid {f : RxFrame} {s : State} (h : ¬ beaconValid f.sender (readBeacon f.frame.payload) = true) :
    receiveBeacon f s = s := by
  simp only [receiveBeacon]
  split
  · exact if_neg h
  · rfl

theorem receiveBeacon_nonOrigin {f : RxFrame} {s : State} {role : Role} (hn : s.nonOrigin = true)
    (hv : beaconValid f.sender (readBeacon f.frame.payload) = true) (hr : (readBeacon f.frame.payload).role = role.code) :
    receiveBeacon f s = takeBeacon f.sender (readBeacon f.frame.payload) role f.port s := by
  have hcfl : (takeBeacon f.sender (readBeacon f.frame.payload) role f.port s).cfl = s.cfl :=
    measures_cfl (measuredFrom_takeBeacon (.refl s) _ _ _ _).measures
  simp only [receiveBeacon, hr, roleOfCode_code, hv, if_true, learnSequence_nonOrigin hn, judgePeerChange_nonOrigin hn hcfl]

/-- With room a station's first beacon, on the port that its mark asks for, puts it in the table; its entry, HEARD, leaves the reference
(R81, R90). -/
theorem createPeer_calm {s : State} {station : Nat} {b : BeaconMsg} {port : Port} (role : Role) (hs : PeersSafe s)
    (hnew : ∀ p ∈ s.prt.peers, p.station ≠ station) (hl : s.prt.peers.length < 24) (hc : portConflict s.cfg.mark b.mark port = false) :
    createPeer station b role port s = putPeers (placePeer (newPeer station b role port s.now false) s.prt.peers) s := by
  have hright : ReferenceRight (putPeers (placePeer (newPeer station b role port s.now false) s.prt.peers) s) :=
    referenceRight_placed hs.reference hs.ascending rfl fun p hp he => absurd he (hnew p hp)
  simp only [createPeer, peerRoom, hl, if_true, hc, Bool.false_eq_true, if_false, recomputeReference_of_right hright]

/-- A HEARD entry shows no gap (R22). -/
theorem judgeBeaconGap_created {s : State} {q : Peer} {n : Nat} (hf : findPeer s.prt.peers n = some q) (h : q.standing = .heard) :
    judgeBeaconGap n s = s := by
  simp [judgeBeaconGap, beaconShowsGap, hf, h]

theorem takeBeacon_first {s : State} {station : Nat} {b : BeaconMsg} {port : Port} (role : Role) (hs : PeersSafe s)
    (hnew : ∀ p ∈ s.prt.peers, p.station ≠ station) (hl : s.prt.peers.length < 24) (hc : portConflict s.cfg.mark b.mark port = false) :
    takeBeacon station b role port s = putPeers (placePeer (newPeer station b role port s.now false) s.prt.peers) s := by
  have hfind := findPeer_placePeer (newPeer station b role port s.now false) s.prt.peers
  simp only [takeBeacon, findPeer_none.mpr hnew, createPeer_calm role hs hnew hl hc]
  exact judgeBeaconGap_created hfind rfl

/-- Settles O29: a beacon that fails a check is only dropped; a first one puts its entry between the lower and the higher stations. -/
theorem firstBeaconCreatesAnEntry : Obligations.FirstBeaconCreatesAnEntry := by
  intro s f rest hn hs hq hk station b valid
  have hvalid : beaconValid f.sender b = true ↔ valid := beaconValid_iff f.sender b
  rw [exec_beaconTaken_head (running_of_nonOrigin hn) hq hk]
  refine ⟨fun hv => ?_, fun role hv hrole hnew hroom hdown hup => ?_⟩
  · rw [receiveBeacon_invalid (mt hvalid.mp hv), dropReceived_cons hq]
  · have hc : portConflict s.cfg.mark b.mark f.port = false := by
      rw [Bool.eq_false_iff, Ne, portConflict_iff]
      tauto
    have htake : receiveBeacon f s = putPeers (placePeer (newPeer station b role f.port s.now false) s.prt.peers) s :=
      (receiveBeacon_nonOrigin hn (hvalid.mpr hv) hrole).trans (takeBeacon_first role hs hnew hroom hc)
    rw [htake, placePeer_absent hs.ascending hnew, List.append_cons]
    exact congrArg Host.Outcome.next (dropReceived_cons hq)

/-! ### The expiries of an entry (R85, R89) -/

section Expiries
variable {s : State} {p : Peer} (hf : findPeer s.prt.peers p.station = some p)
include hf

theorem exec_peerFreeExpiry_due (hn : s.nonOrigin = true) (h : p.standing = .silent) : exec (.peerFreeExpiry p.station) s
    = .next (recomputeReference (putPeers (s.prt.peers.filter fun q => q.station != p.station)
        (s.advanceTo (p.lastBeacon + 5 * p.period * 100 + 60000)))) := by
  refine congrArg Host.Outcome.next ?_
  simp only [running_of_nonOrigin hn, if_true, peerFree, hf, h]
  exact judgePeerChange_nonOrigin hn (by rw [recomputeReference_cfl]; rfl) s

variable (hr : s.running = true)
include hr

theorem exec_peerSuspectExpiry_listening (h : p.standing = .heard ∨ p.standing = .good) : exec (.peerSuspectExpiry p.station) s
    = .next (recomputeReference (putPeers (placePeer { p with standing := .suspect, goodCount := 0 } s.prt.peers)
        (s.advanceTo (p.lastBeacon + 2 * p.period * 100)))) := by
  refine congrArg Host.Outcome.next ?_
  rcases h with h | h <;> simp only [hr, if_true, peerSuspect, hf, h]

theorem exec_peerSuspectExpiry_suspect (h : p.standing = .suspect) :
    exec (.peerSuspectExpiry p.station) s = .next (s.advanceTo (p.lastBeacon + 2 * p.period * 100)) := by
  refine congrArg Host.Outcome.next ?_
  simp only [hr, if_true, peerSuspect, hf, h]

theorem exec_peerSilenceExpiry_due (h : p.standing ≠ .silent) : exec (.peerSilenceExpiry p.station) s
    = .next (recomputeReference (putPeers (placePeer { p with standing := .silent, goodCount := 0 } s.prt.peers)
        (s.advanceTo (p.lastBeacon + 5 * p.period * 100)))) := by
  refine congrArg Host.Outcome.next ?_
  simp only [hr, if_true, peerSilence, hf, h, if_false]

theorem exec_conflictHoldExpiry_due {due : Nat} (h : p.conflictHold = some due) : exec (.conflictHoldExpiry p.station) s
    = .next (putPeers (placePeer { p with conflictHold := none } s.prt.peers) (s.advanceTo due)) := by
  refine congrArg Host.Outcome.next ?_
  simp only [hr, if_true, holdEnds, hf, h]

end Expiries

/-- Settles O31: each expiry is its row's entry in place of the old one and, but for a hold's end, the reference chosen anew. -/
theorem peerExpiriesMoveTheStanding : Obligations.PeerExpiriesMoveTheStanding := by
  intro s p hn hs hp qualifies best chosen late becomes changed
  have hr := running_of_nonOrigin hn
  have hf := findPeer_eq hs.ascending hp
  have hplaced (q : Peer) (hq : q.station = p.station) : placePeer q s.prt.peers = changed q := placePeer_present hs.ascending hp hq
  have hqual (x : Peer) : qualifies x ↔ x.qualifies s.cfg.mark = true := (qualifies_iff _ x).symm
  have hbest (l : List Peer) (x : Peer) : best l x ↔ Best s.cfg.mark l x := by simp only [best, Best, hqual]
  have hchosen (l : List Peer) (ha : l.Pairwise (fun p q => p.station < q.station)) :
      chosen l (chooseReference s.cfg.mark l s.prt.reference) := by
    simp only [chosen, hbest, hqual]
    exact ⟨chooseReference_kept, fun hleft => ⟨fun x hx hlow => chooseReference_lowest ha hleft hx hlow,
      fun hnone => chooseReference_none (fun x hx => Bool.eq_false_iff.mpr (hnone x hx)) _⟩⟩
  have hbecomes (c : Instr) (due : Nat) (l : List Peer) (ha : l.Pairwise (fun p q => p.station < q.station))
      (he : exec c s = .next (recomputeReference (putPeers l (s.advanceTo due)))) : becomes c due l :=
    ⟨_, hchosen l ha, he.trans (congrArg Host.Outcome.next (recomputeReference_putPeers l (s.advanceTo due)))⟩
  have hmoved (c : Instr) (due : Nat) (q : Peer) (hq : q.station = p.station)
      (he : exec c s = .next (recomputeReference (putPeers (placePeer q s.prt.peers) (s.advanceTo due)))) : becomes c due (changed q) :=
    hbecomes c due _ (hplaced q hq ▸ placePeer_ascending hs.ascending) (hplaced q hq ▸ he)
  refine ⟨fun h => ?_, exec_peerSuspectExpiry_suspect hf hr, fun h => ?_, fun h => ?_, fun due h => ?_⟩
  · exact hmoved _ _ _ rfl (exec_peerSuspectExpiry_listening hf hr h)
  · exact hmoved _ _ _ rfl (exec_peerSilenceExpiry_due hf hr h)
  · have hothers : (s.prt.peers.filter fun q => q.station != p.station) = s.prt.peers.filter fun q => q.station ≠ p.station :=
      List.filter_congr fun q _ => Bool.eq_iff_iff.mpr (by simp)
    refine hbecomes _ _ _ (hs.ascending.filter _) ?_
    rw [← hothers]
    exact exec_peerFreeExpiry_due hf hn h
  · rw [exec_conflictHoldExpiry_due hf hr h, hplaced { p with conflictHold := none } rfl]
    rfl

end Sys2Proof.Machine
end

