-- ==== Sys2Proof/Proofs/FrameForwarding.lean ====
section
/-! SUPPORT. A good frame at a port that is UP (R80, R105, R106): settled O21. -/

namespace Sys2Proof.Machine

theorem portUp_iff (s : State) (p : Port) : portUp s p = true ↔ (portGet s.tlc p).link = .up := by simp [portUp]

theorem exec_frameReceived_good {s : State} {p : Port} {bytes : List Byte} {f : Frame} (hr : s.running = true)
    (hup : (portGet s.tlc p).link = .up) (hf : goodFrame bytes = some f) : exec (.frameReceived p bytes) s = .next (receiveGood p f s) := by
  refine congrArg Host.Outcome.next ?_
  simp only [hr, (portUp_iff s p).mpr hup, true_and, if_true, receiveFrame, hf]

theorem receiveGood_own {s : State} {p : Port} {f : Frame} (h : f.station.toNat = s.cfg.station) :
    receiveGood p f s = raiseAlarm .stationConflict 0 s := if_pos h

theorem receiveGood_other {s : State} {p : Port} {f : Frame} {k : Kind} (h : f.station.toNat ≠ s.cfg.station) (hk : f.kindOf = some k) :
    receiveGood p f s = placeReceived p f (forwardFrame p k f s) := by
  simp only [receiveGood, h, hk, if_false]

/-! ### Forwarding (R105, R108, R110) -/

theorem forwardFrame_held {s : State} {p : Port} {f : Frame} (k : Kind)
    (h : f.hops.toNat % 64 ≤ 1 ∨ (portGet s.tlc (otherPort p)).link ≠ .up) : forwardFrame p k f s = s := by
  refine if_neg fun hc => ?_
  obtain ⟨hh, hup⟩ := (Bool.and_eq_true _ _).mp hc
  exact h.elim (Nat.not_le.mpr (of_decide_eq_true hh)) fun hn => hn ((portUp_iff s _).mp hup)

theorem forwardFrame_forwards {s : State} {p : Port} {f : Frame} (k : Kind) (hh : 1 < f.hops.toNat % 64)
    (hup : (portGet s.tlc (otherPort p)).link = .up) : forwardFrame p k f s = placeFrame .fwdDrop (otherPort p) k.queueClass f.forwarded s :=
  if_pos ((Bool.and_eq_true _ _).mpr ⟨decide_eq_true hh, (portUp_iff s _).mpr hup⟩)

theorem placeFrame_full {s : State} {p : Port} {c : QueueClass} (a : Alarm) (f : Frame)
    (h : c.capacity ≤ ((portGet s.tlc p).queue c).length) : placeFrame a p c f s = raiseAlarm a (portCode p) s := by
  rcases placeFrame_cases a p c f s with ⟨-, he⟩ | ⟨hlt, -⟩
  · exact he
  · omega

theorem placeFrame_room {s : State} {p : Port} {c : QueueClass} (a : Alarm) (f : Frame)
    (h : ((portGet s.tlc p).queue c).length < c.capacity) :
    placeFrame a p c f s = { s with tlc := portSet s.tlc p (arbitrate s.clock ((portGet s.tlc p).enqueue c f)) } := by
  rcases placeFrame_cases a p c f s with ⟨hle, -⟩ | ⟨-, he⟩
  · omega
  · exact he

/-- A sending port keeps what joins its queues (R110). -/
theorem arbitrate_enqueue_sending {x : PortState} (clock : Nat) (c : QueueClass) (f : Frame) (h : x.sending.isSome = true) :
    arbitrate clock (x.enqueue c f) = x.enqueue c f := by
  have hs : (x.enqueue c f).sending ≠ none := by cases c <;> exact fun hn => by simp [show x.sending = none from hn] at h
  exact if_neg fun hfree => hs hfree.2

theorem queue_empty_length {x : PortState} (c : QueueClass) (hu : x.urgent = []) (hr : x.routine = []) (hb : x.bulk = []) :
    (x.queue c).length < c.capacity := by
  cases c <;> simp [PortState.queue, QueueClass.capacity, hu, hr, hb]

/-- A free port with nothing queued sends the one frame that joins a queue at once (R110). -/
theorem arbitrate_enqueue_free {x : PortState} (clock : Nat) (c : QueueClass) (f : Frame) (hup : x.link = .up) (hs : x.sending = none)
    (hu : x.urgent = []) (hr : x.routine = []) (hb : x.bulk = []) :
    arbitrate clock (x.enqueue c f) = { x with sending := some ⟨f, clock + slotMicros f⟩ } := by
  cases c <;> simp [arbitrate, PortState.enqueue, PortState.send, hup, hs, hu, hr, hb]

/-- Settles O21: the frame is forwarded or dropped at the other port, and then joins the receive queue, whose length forwarding leaves. -/
theorem goodFrameIsForwardedAndQueued : Obligations.GoodFrameIsForwardedAndQueued := by
  intro s p bytes f k hr hup hf hk other queued
  have hqueued (t : State) (ht : t.tlc.rxQueue = s.tlc.rxQueue) : placeReceived p f t = queued t := by
    simp only [placeReceived, ht, queued]
  have hgood (t : State) (ho : f.station.toNat ≠ s.cfg.station) (hfwd : forwardFrame p k f s = t) (ht : t.tlc.rxQueue = s.tlc.rxQueue) :
      exec (.frameReceived p bytes) s = .next (queued t) := by
    rw [exec_frameReceived_good hr hup hf, receiveGood_other ho hk, hfwd, hqueued t ht]
  refine ⟨fun ho => ?_, fun ho hh => ?_, fun ho hh hu hs => ⟨fun hq => ?_, fun hq => ?_⟩, fun ho hh hu hs h1 h2 h3 => ?_⟩
  · rw [exec_frameReceived_good hr hup hf, receiveGood_own ho]
  · exact hgood s ho (forwardFrame_held k hh) rfl
  · refine hgood _ ho ?_ (portSet_rxQueue ..)
    rw [forwardFrame_forwards k hh hu, placeFrame_room _ _ hq, arbitrate_enqueue_sending _ _ _ hs]
    rfl
  · refine hgood _ ho ?_ (by simp)
    rw [forwardFrame_forwards k hh hu, placeFrame_full _ _ hq]
  · refine hgood _ ho ?_ (portSet_rxQueue ..)
    rw [forwardFrame_forwards k hh hu, placeFrame_room _ _ (queue_empty_length _ h1 h2 h3), arbitrate_enqueue_free _ _ _ hu hs h1 h2 h3]
    rfl

end Sys2Proof.Machine
end

