-- ==== Sys2Proof/Proofs/PeerSafety.lean ====
section
/-! SUPPORT. What the commands keep of PRT and of the receive queue: settled O56. -/

namespace Sys2Proof.Machine

/-! ### What PeersSafe reads -/

/-- The part of the base that PeersSafe reads: the configuration, the peer table and the receive queue. -/
def Base.peering (b : Base) : Cfl × Prt × List RxFrame := (b.cfl, b.prt, b.rxQueue)

theorem peersSafe_congr {s t : State} (h : (base t).peering = (base s).peering) (hs : PeersSafe s) : PeersSafe t := by
  have hc : t.cfl = s.cfl := congrArg (·.1) h
  have hp : t.prt = s.prt := congrArg (·.2.1) h
  have hq : t.tlc.rxQueue = s.tlc.rxQueue := congrArg (·.2.2) h
  obtain ⟨room, ascending, entries, others, received, outside, reference⟩ := hs
  constructor <;> simpa only [ReferenceRight, State.cfg, State.running, hc, hp, hq]

theorem peersSafe_of_base {s t : State} (h : base t = base s) (hs : PeersSafe s) : PeersSafe t := peersSafe_congr (congrArg Base.peering h) hs

/-- An empty table and an empty receive queue are safe, whatever is published. -/
theorem peersSafe_of_empty {s : State} (hp : s.prt = ⟨[], none⟩) (hq : s.tlc.rxQueue = []) : PeersSafe s := by
  constructor <;> simp [ReferenceRight, hp, hq]

/-- Outside RUN the table and the receive queue are empty. -/
theorem peersSafe_idle {s : State} (hs : PeersSafe s) (hr : s.running = false) : s.prt = ⟨[], none⟩ ∧ s.tlc.rxQueue = [] := by
  obtain ⟨hp, hq⟩ := hs.outside hr
  refine ⟨?_, hq⟩
  rcases (referenceRight_iff s).mp hs.reference with ⟨p, ⟨hmem, -⟩, -⟩ | ⟨hn, -⟩
  · simp [hp] at hmem
  · exact congrArg₂ Prt.mk hp hn

/-! ### Operations beside the table -/

section Beside
variable (s : State)

@[simp] theorem peering_clock (n : Nat) : (base { s with clock := n }).peering = (base s).peering := rfl
@[simp] theorem peering_advanceTo (n : Nat) : (base (s.advanceTo n)).peering = (base s).peering := rfl
@[simp] theorem peering_putMtr (f : Mtr → Mtr) : (base (putMtr f s)).peering = (base s).peering := rfl
@[simp] theorem peering_putDsu (f : Dsu → Dsu) : (base (putDsu f s)).peering = (base s).peering := rfl
@[simp] theorem peering_putHlu (f : Hlu → Hlu) : (base (putHlu f s)).peering = (base s).peering := rfl
@[simp] theorem peering_putReceiver (r : Receiver) : (base (putReceiver r s)).peering = (base s).peering := rfl
@[simp] theorem peering_putSlot (p : Nat) (x : HoldSlot) : (base (putSlot p x s)).peering = (base s).peering := rfl

@[simp] theorem peering_acceptSample (v : Nat) : (base (acceptSample v s)).peering = (base s).peering := by
  simp only [acceptSample]; (repeat' split) <;> simp

@[simp] theorem peering_restartDensity : (base (restartDensity s)).peering = (base s).peering := by
  simp only [restartDensity]; (repeat' split) <;> simp

@[simp] theorem peering_rejectSample : (base (rejectSample s)).peering = (base s).peering := by
  unfold rejectSample; split <;> simp

@[simp] theorem peering_huntCharacter (v : Byte) (g : Bool) : (base (huntCharacter v g s)).peering = (base s).peering := by
  unfold huntCharacter; split <;> simp

@[simp] theorem peering_takeCharacter (v : Byte) (g : Bool) : (base (takeCharacter v g s)).peering = (base s).peering := by
  unfold takeCharacter frameCharacter judgeSample; (repeat' split) <;> simp

@[simp] theorem peering_abandonSample : (base (abandonSample s)).peering = (base s).peering := by
  unfold abandonSample; split <;> simp

@[simp] theorem peering_silenceExpired : (base (silenceExpired s)).peering = (base s).peering := by
  simp only [silenceExpired]; split <;> simp

@[simp] theorem peering_transferExpired : (base (transferExpired s)).peering = (base s).peering := by
  simp only [transferExpired]; (repeat' split) <;> simp

@[simp] theorem peering_reAskExpired : (base (reAskExpired s)).peering = (base s).peering := by
  simp only [reAskExpired]; split <;> simp

@[simp] theorem peering_learningEnds : (base (learningEnds s)).peering = (base s).peering := by
  unfold learningEnds; split <;> simp

@[simp] theorem peering_beaconExpired (n : Nat) : (base (beaconExpired n s)).peering = (base s).peering := by
  simp only [beaconExpired, sendBeacon]
  split
  · exact (congrArg Base.peering (base_sendOwn _ _ _)).trans rfl
  · rfl

@[simp] theorem peering_holdExpired (x p : Nat) : (base (holdExpired x p s)).peering = (base s).peering := by
  unfold holdExpired; split <;> simp

@[simp] theorem peering_refreshHold (p : Nat) : (base (refreshHold p s)).peering = (base s).peering := by
  unfold refreshHold; split <;> simp

@[simp] theorem peering_statusStale : (base (statusStale s)).peering = (base s).peering := by
  unfold statusStale; split <;> simp

@[simp] theorem peering_judgeHold (r : Route) : (base (judgeHold s r)).peering = (base s).peering := by
  unfold judgeHold; (repeat' split) <;> simp

@[simp] theorem peering_judgeHolds : (base (judgeHolds s)).peering = (base s).peering := by
  unfold judgeHolds
  generalize allRoutes = l
  induction l generalizing s with
  | nil => rfl
  | cons r rest ih => exact (ih _).trans (peering_judgeHold s r)

@[simp] theorem peering_setStatus (v : PerRoute (BitVec 32)) : (base (setStatus v s)).peering = (base s).peering := by
  unfold setStatus takeStatus restartStaleTimer; split <;> simp

end Beside

/-! ### Commands beside the table -/

section Commands
variable {s : State}

theorem peering_whenRunning {f : State → State} (hf : (base (f s)).peering = (base s).peering) :
    (base (whenRunning f s)).peering = (base s).peering := by
  unfold whenRunning; split
  · exact hf
  · simp

theorem base_respondDone {d : Option State} (hd : ∀ t, d = some t → base t = base s) : base (respondDone d s) = base s := by
  unfold respondDone
  split
  · simpa using hd _ rfl
  · simp

theorem base_evaluated {d : Option State} {t : State} (hd : ∀ t, d = some t → base t = base s) (ht : evaluated s d = some t) :
    base t = base s := by
  obtain ⟨x, hx, rfl⟩ := Option.map_eq_some_iff.mp ht
  simpa using hd x hx

theorem peering_resync (s : State) : (base (resync s)).peering = (base s).peering := by
  simp only [resync, base_trainResync, peering_putDsu]
  (repeat' split) <;> simp

theorem peering_execRequest {c : Instr} {t : State} (ht : execRequest c s = .next t) : (base t).peering = (base s).peering := by
  cases c <;> cases ht
  case readEvent | readCut | readTrain | readPeer | ackAlarms | setStatus => exact peering_whenRunning (by simp)
  case enterOrder | cancelOrder | releaseTo => exact peering_whenRunning (by split <;> simp)
  case forceAdvance =>
    refine peering_whenRunning (congrArg Base.peering ?_)
    split
    · exact base_respondDone fun _ => base_evaluated fun _ => base_cutForceAdvance
    · split
      · exact base_respondDone fun _ => base_launchForceAdvance
      · simp
  case forceTransmix =>
    refine peering_whenRunning (congrArg Base.peering ?_)
    split
    · exact base_respondDone fun _ => base_evaluated fun _ => base_cutForceTransmix
    · simp
  case closeDelivery =>
    refine peering_whenRunning (congrArg Base.peering ?_)
    split
    · exact base_respondDone fun _ => base_closeCommanded
    · simp
  case resync =>
    refine peering_whenRunning ?_
    split
    · simp
    · simpa using peering_resync s
  all_goals simp

/-- The commands that write the configuration, the peer table or the receive queue: the resets and the loading, a received frame, the telegrams
taken, and the expiries of an entry. -/
def writesPeers : Instr → Bool
  | .powerOnReset | .resetRelease | .configLoadDone _ | .frameReceived _ _ | .beaconTaken | .launchTaken | .passageTaken | .holdTaken
  | .askTaken | .itemTaken | .peerSuspectExpiry _ | .peerSilenceExpiry _ | .peerFreeExpiry _ | .conflictHoldExpiry _ => true
  | _ => false

theorem peering_ite {c : Prop} [Decidable c] {t : State} (h : (base t).peering = (base s).peering) :
    (base (if c then t else s)).peering = (base s).peering := by
  split
  · exact h
  · rfl

theorem peering_exec {c : Instr} {t : State} (hc : writesPeers c = false) (ht : exec c s = .next t) : (base t).peering = (base s).peering := by
  by_cases hq : Instr.byRequest c = true
  · exact peering_execRequest (exec_byRequest hq s ▸ ht)
  cases c
  case powerOnReset | resetRelease | configLoadDone | frameReceived | beaconTaken | launchTaken | passageTaken | holdTaken | askTaken | itemTaken
      | peerSuspectExpiry | peerSilenceExpiry | peerFreeExpiry | conflictHoldExpiry => cases hc
  case readStatus | readEvent | readCut | readTrain | readPeer | ackAlarms | setStatus | enterOrder | cancelOrder | forceAdvance
      | forceTransmix | releaseTo | closeDelivery | resync => exact absurd rfl hq
  case mainlinePulse => cases ht; exact peering_ite (by rw [takeMainline_base]; simp only [Base.peering])
  case deliveryPulse => cases ht; exact peering_ite (by rw [takeDelivery_base]; simp only [Base.peering])
  case trimNudge => cases ht; split <;> simp [takeNudge]
  case askSend | spiRequestAborted | lostNoticeQueued => cases ht; simp
  case lossOfSignal => cases ht; (repeat' split) <;> simp
  case noiseCleanExpiry => cases ht; exact peering_ite (by simp [portClean])
  case beaconTimerExpiry => cases ht; split <;> simp
  case txPortFree => cases ht; split <;> simp [portFree]
  case limitChange => cases ht; split <;> simp
  case travelTimerExpiry => cases ht; split <;> simp
  case startReading =>
    cases ht
    split
    · exact (congrArg Base.peering (base_startReading _)).trans rfl
    · rfl
  case spiBadRequest bytes =>
    rcases execSpiBadRequest_cases bytes s with ⟨-, e⟩ | ⟨-, why, -, e⟩ | ⟨c, -, e⟩ | ⟨-, e⟩ <;> rw [exec, e] at ht
    · cases ht; simp
    · cases ht; simp
    · exact peering_execRequest ht
    · cases ht; rfl
  all_goals cases ht; exact peering_ite (by simp)

end Commands

/-! ### The table (R78, R80, R83, R89) -/

/-- At most 24 entries in ascending order of station, none with the number `own`, each with its count and hold in agreement. -/
structure TableSafe (own : Nat) (l : List Peer) : Prop where
  room : l.length ≤ 24
  ascending : l.Pairwise (fun p q => p.station < q.station)
  entries : ∀ p ∈ l, PeerSafe p
  others : ∀ p ∈ l, p.station ≠ own

theorem PeersSafe.table {s : State} (h : PeersSafe s) : TableSafe s.cfg.station s.prt.peers := ⟨h.room, h.ascending, h.entries, h.others⟩

theorem TableSafe.sublist {own : Nat} {l m : List Peer} (h : TableSafe own l) (hm : List.Sublist m l) : TableSafe own m :=
  ⟨hm.length_le.trans h.room, h.ascending.sublist hm, fun p hp => h.entries p (hm.subset hp), fun p hp => h.others p (hm.subset hp)⟩

section Placed
variable {own : Nat} {l : List Peer} (h : TableSafe own l) {q : Peer} (hq : PeerSafe q) (ho : q.station ≠ own)
include h hq ho

theorem tableSafe_placed (hroom : (placePeer q l).length ≤ 24) : TableSafe own (placePeer q l) where
  room := hroom
  ascending := placePeer_ascending h.ascending
  entries p hp := ((mem_placePeer h.ascending q p).mp hp).elim (fun he => he ▸ hq) fun hl => h.entries p hl.1
  others p hp := ((mem_placePeer h.ascending q p).mp hp).elim (fun he => he ▸ ho) fun hl => h.others p hl.1

theorem TableSafe.created (hl : l.length < 24) : TableSafe own (placePeer q l) :=
  tableSafe_placed h hq ho ((placePeer_length q l).trans hl)

omit ho in
theorem TableSafe.replaced {p : Peer} (hp : p ∈ l) (he : q.station = p.station) : TableSafe own (placePeer q l) :=
  tableSafe_placed h hq (he ▸ h.others p hp) (by rw [placePeer_present h.ascending hp he, List.length_map]; exact h.room)

end Placed

/-! ### The reference chosen for a safe table (R90) -/

theorem recomputeReference_tlc (s : State) : (recomputeReference s).tlc = s.tlc := by
  simp only [recomputeReference]
  split <;> simp

/-- A safe table with the reference chosen for it, in RUN, with the receive queue as it was. -/
theorem peersSafe_recompute {s u : State} {l : List Peer} (hs : PeersSafe s) (hr : s.running = true)
    (hu : (base u).peering = (base (putPeers l s)).peering) (hl : TableSafe s.cfg.station l) : PeersSafe (recomputeReference u) := by
  have hc : (recomputeReference u).cfl = s.cfl := (recomputeReference_cfl u).trans (congrArg (·.1) hu)
  have hp : (recomputeReference u).prt.peers = l := by rw [recomputeReference_prt]; exact congrArg (·.2.1.peers) hu
  have hq : (recomputeReference u).tlc.rxQueue = s.tlc.rxQueue := by rw [recomputeReference_tlc]; exact congrArg (·.2.2) hu
  have hown : (recomputeReference u).cfg.station = s.cfg.station := congrArg (·.published.station) hc
  have hrun : (recomputeReference u).running = true := (congrArg (·.load == .run) hc).trans hr
  exact ⟨hp ▸ hl.room, hp ▸ hl.ascending, hp ▸ hl.entries, by rw [hp, hown]; exact hl.others, by rw [hq, hown]; exact hs.received,
    fun hidle => absurd (hrun.symm.trans hidle) (by decide), recomputeReference_right u⟩

/-! ### Beacons (R81 to R84, R88, R89) -/

theorem standingAfter_safe {standing : Standing} {count : Nat} (hc : count ≤ 3) (hh : standing = .heard → count < 3) (timely synced : Bool) :
    (standingAfter standing count timely synced).2 ≤ 3
      ∧ ((standingAfter standing count timely synced).1 = .heard → (standingAfter standing count timely synced).2 < 3) := by
  cases standing <;> simp only [standingAfter]
  case heard =>
    have := hh rfl
    (repeat' split) <;> simp <;> omega
  all_goals (split <;> simp [hc])

theorem held_cases (x : Standing) : x.held = .suspect ∨ x.held = .silent := by cases x <;> simp [Standing.held]

theorem held_ne_heard (x : Standing) : x.held ≠ .heard := by cases x <;> simp [Standing.held]

/-- Under a hold the standing is SUSPECT or SILENT; without one it and the count are those of R84. -/
theorem PeerSafe.moved {p : Peer} (h : PeerSafe p) (conflict timely : Bool) (b : BeaconMsg) (now : Nat) :
    PeerSafe (p.moveStanding conflict timely b now) := by
  unfold Peer.moveStanding
  split
  · exact ⟨Nat.zero_le 3, nofun, fun _ => .inl rfl⟩
  · obtain ⟨hcount, hheard⟩ := standingAfter_safe h.count h.heard timely b.synced
    generalize standingAfter p.standing p.goodCount timely b.synced = r at hcount hheard
    cases hh : p.conflictHold.isSome with
    | false => exact ⟨hcount, hheard, fun hhold => absurd (hh.symm.trans hhold) nofun⟩
    | true => exact ⟨hcount, fun hs => absurd hs (held_ne_heard r.1), fun _ => held_cases r.1⟩

theorem PeerSafe.heardFrom {p : Peer} (h : PeerSafe p) (b : BeaconMsg) (role : Role) (port : Port) (own now : Nat) :
    PeerSafe (p.heardFrom b role port own now) :=
  PeerSafe.moved (p := (p.takeFields b role port now).rebased b.count) ⟨h.count, h.heard, h.held⟩ _ _ _ _

theorem peerSafe_newPeer (station : Nat) (b : BeaconMsg) (role : Role) (port : Port) (now : Nat) (conflict : Bool) :
    PeerSafe (newPeer station b role port now conflict) := by
  cases conflict
  · cases hb : b.synced <;> exact ⟨by simp [newPeer, hb], by simp [newPeer, hb], by simp [newPeer]⟩
  · exact ⟨Nat.zero_le 3, nofun, fun _ => .inl rfl⟩

theorem peering_putPeers {s u : State} (h : base u = base s) (l : List Peer) : (base (putPeers l u)).peering = (base (putPeers l s)).peering :=
  congrArg (fun b => (b.cfl, Prt.mk l b.prt.reference, b.rxQueue)) h

/-- Whatever the conflict and the count come to, the entry is put in place and the reference chosen (steps 3 to 6 of R82). -/
theorem applyBeacon_recomputes (p : Peer) (b : BeaconMsg) (role : Role) (port : Port) (s : State) : ∃ u, base u = base s
    ∧ (applyBeacon p b role port s).1 = recomputeReference (putPeers (placePeer (p.heardFrom b role port s.cfg.mark s.now) u.prt.peers) u) := by
  refine ⟨_, ?_, rfl⟩
  split <;> split <;> simp

section Beacons
variable {s : State} (hs : PeersSafe s) (hr : s.running = true) {station : Nat} (ho : station ≠ s.cfg.station)
include hs hr

theorem peersSafe_applyBeacon {p : Peer} (hp : p ∈ s.prt.peers) (b : BeaconMsg) (role : Role) (port : Port) :
    PeersSafe (applyBeacon p b role port s).1 := by
  obtain ⟨u, hu, he⟩ := applyBeacon_recomputes p b role port s
  have hsafe := (hs.entries p hp).heardFrom b role port s.cfg.mark s.now
  rw [he, base_prt_eq hu]
  exact peersSafe_recompute hs hr (peering_putPeers hu _) (hs.table.replaced hsafe hp (heardFrom_station _ _ _ _ _ _).1)

include ho

theorem peersSafe_createPeer (b : BeaconMsg) (role : Role) (port : Port) :
    PeersSafe (createPeer station b role port s) := by
  simp only [createPeer]
  generalize portConflict s.cfg.mark b.mark port = conflict
  split
  · exact peersSafe_of_base (base_raiseAlarm _ _ _) hs
  · next room hroom =>
    obtain ⟨hlt, hsub⟩ := peerRoom_some hroom hs.room
    have hsafe := peerSafe_newPeer station b role port s.now conflict
    refine peersSafe_recompute hs hr ?_ ((hs.table.sublist hsub).created hsafe ho hlt)
    split <;> simp

theorem peersSafe_takeBeacon (b : BeaconMsg) (role : Role) (port : Port) : PeersSafe (takeBeacon station b role port s) := by
  cases hf : findPeer s.prt.peers station with
  | none =>
    simp only [takeBeacon, hf]
    exact peersSafe_of_base (base_judgeBeaconGap _ _) (peersSafe_createPeer hs hr ho b role port)
  | some p => exact peersSafe_of_base (takeBeacon_base hf role port) (peersSafe_applyBeacon hs hr (findPeer_some hf).1 b role port)

end Beacons

/-! ### Loading (R208 to R210) -/

/-- CFL's loading leaves PRT and the receive queue as they are. -/
theorem finishLoad_peers (m : MemoryRead) (s : State) : (finishLoad m s).prt = s.prt ∧ (finishLoad m s).tlc.rxQueue = s.tlc.rxQueue := by
  unfold finishLoad
  split
  · exact ⟨rfl, rfl⟩
  · simp only [loadRecord, publish]
    (repeat' split) <;> simp [enterConfigFault, startBlocks]

/-! ### The expiries (R85, R89) -/

section Expiries
variable {s : State} (hs : PeersSafe s)
include hs

/-- An entry moved by an expiry, which leaves it neither HEARD nor with another hold. -/
theorem peersSafe_moved (hr : s.running = true) {p : Peer} (hp : p ∈ s.prt.peers) {standing : Standing}
    (hst : standing = .suspect ∨ standing = .silent) (due : Nat) :
    PeersSafe (recomputeReference (putPeers (placePeer { p with standing := standing, goodCount := 0 } s.prt.peers) (s.advanceTo due))) :=
  peersSafe_recompute hs hr rfl
    (hs.table.replaced ⟨Nat.zero_le 3, fun _ => Nat.zero_lt_succ 2, fun _ => hst⟩ hp rfl)

theorem peersSafe_peerSuspect (hr : s.running = true) (n : Nat) : PeersSafe (peerSuspect n s) := by
  unfold peerSuspect
  split
  · exact hs
  · next p hf =>
    have hp := (findPeer_some hf).1
    dsimp only
    split
    · exact peersSafe_moved hs hr hp (.inl rfl) _
    · exact peersSafe_moved hs hr hp (.inl rfl) _
    · exact peersSafe_congr (s := s) rfl hs
    · exact hs

theorem peersSafe_peerSilence (hr : s.running = true) (n : Nat) : PeersSafe (peerSilence n s) := by
  unfold peerSilence
  split
  · exact hs
  · next p hf =>
    split
    · exact hs
    · exact peersSafe_moved hs hr (findPeer_some hf).1 (.inr rfl) _

theorem peersSafe_peerFree (hr : s.running = true) (n : Nat) : PeersSafe (peerFree n s) := by
  unfold peerFree
  split
  · exact hs
  · split
    · exact peersSafe_recompute hs hr rfl (hs.table.sublist List.filter_sublist)
    · exact hs

/-- An entry under a hold is SUSPECT or SILENT, so that its end leaves the reference. -/
theorem peersSafe_holdEnds (n : Nat) : PeersSafe (holdEnds n s) := by
  unfold holdEnds
  split
  · exact hs
  · next p hf =>
    split
    · exact hs
    · next due hhold =>
      have hp := (findPeer_some hf).1
      have hsafe := hs.entries p hp
      have hst := hsafe.held (by simp [hhold])
      have hnot : p.qualifies s.cfg.mark = false := by rcases hst with e | e <;> simp [Peer.qualifies, e]
      have ht := hs.table.replaced (q := { p with conflictHold := none }) ⟨hsafe.count, hsafe.heard, nofun⟩ hp rfl
      have href : ReferenceRight (putPeers (placePeer { p with conflictHold := none } s.prt.peers) s) :=
        referenceRight_placed hs.reference hs.ascending hnot fun q hq he => station_injective hs.ascending hq hp he ▸ hnot
      have hidle : s.running = false → placePeer { p with conflictHold := none } s.prt.peers = [] ∧ s.tlc.rxQueue = [] :=
        fun h => by simp [(hs.outside h).1] at hp
      exact ⟨ht.room, ht.ascending, ht.entries, ht.others, hs.received, hidle, href⟩

/-! ### The receive queue (R80, R106, R107) -/

theorem peersSafe_dropReceived : PeersSafe (dropReceived s) :=
  { hs with
    received := fun f hf => hs.received f (List.mem_of_mem_drop hf)
    outside := fun h => ⟨(hs.outside h).1, by simp [dropReceived, (hs.outside h).2]⟩ }

theorem peersSafe_taken {k : Kind} {f : RxFrame → State → State}
    (hf : ∀ x ∈ s.tlc.rxQueue, s.running = true → PeersSafe (f x s)) :
    PeersSafe (match headFrame k s with | some x => dropReceived (f x s) | none => s) := by
  split
  · next x hx =>
    obtain ⟨hr, -, rest, hq⟩ := headFrame_some hx
    exact peersSafe_dropReceived (hf x (by simp [hq]) hr)
  · exact hs

/-- A frame with another number than the own joins the receive queue (R80). -/
theorem peersSafe_placeReceived (hr : s.running = true) {f : Frame} (hf : f.station.toNat ≠ s.cfg.station) (p : Port) :
    PeersSafe (placeReceived p f s) := by
  rcases placeReceived_cases p f s with ⟨-, e⟩ | ⟨-, e⟩ <;> rw [e]
  · refine { hs with received := fun x hx => ?_, outside := fun h => absurd (hr.symm.trans h) (by decide) }
    rcases List.mem_append.mp hx with hx | hx
    · exact hs.received x hx
    · obtain rfl := List.mem_singleton.mp hx
      exact hf
  · exact peersSafe_of_base (base_raiseAlarm _ _ _) hs

theorem peersSafe_receiveFrame (hr : s.running = true) (p : Port) (bytes : List Byte) : PeersSafe (receiveFrame p bytes s) := by
  unfold receiveFrame
  split
  · exact peersSafe_of_base (base_badFrame _ _) hs
  · next f _ =>
    unfold receiveGood
    split
    · exact peersSafe_of_base (base_raiseAlarm _ _ _) hs
    · next hother =>
      split
      · next k _ =>
        have hb := base_forwardFrame p k f s
        have hcfl := base_cfl_eq hb
        refine peersSafe_placeReceived (peersSafe_of_base hb hs) ?_ ?_ p
        · rw [State.running, hcfl]; exact hr
        · rw [State.cfg, hcfl]; exact hother
      · exact hs

theorem peersSafe_receiveBeacon (hr : s.running = true) {f : RxFrame} (hf : f ∈ s.tlc.rxQueue) : PeersSafe (receiveBeacon f s) := by
  simp only [receiveBeacon]
  split
  · next role _ =>
    split
    · have hb := base_learnSequence (readBeacon f.frame.payload) s
      have hcfl := base_cfl_eq hb
      refine peersSafe_of_base (base_judgePeerChange _ _) (peersSafe_takeBeacon (peersSafe_of_base hb hs) ?_ ?_ _ role f.port)
      · rw [State.running, hcfl]; exact hr
      · rw [State.cfg, hcfl]; exact hs.received f hf
    · exact hs
  · exact hs

/-! ### Every command -/

theorem peersSafe_finishLoad (hr : s.running = false) (m : MemoryRead) : PeersSafe (finishLoad m s) := by
  obtain ⟨hp, hq⟩ := peersSafe_idle hs hr
  obtain ⟨hprt, hrx⟩ := finishLoad_peers m s
  exact peersSafe_of_empty (hprt.trans hp) (hrx.trans hq)

theorem peersSafe_ite {c : Prop} [Decidable c] {t : State} (ht : c → PeersSafe t) : PeersSafe (if c then t else s) := by
  split
  · next hc => exact ht hc
  · exact hs

theorem peersSafe_exec {c : Instr} {t : State} (ht : exec c s = .next t) : PeersSafe t := by
  by_cases hw : writesPeers c = false
  · exact peersSafe_congr (peering_exec hw ht) hs
  cases c
  case powerOnReset => cases ht; exact peersSafe_of_empty rfl rfl
  case resetRelease =>
    cases ht
    refine peersSafe_ite hs fun hl => ?_
    obtain ⟨hp, hq⟩ := peersSafe_idle hs (running_loading hl)
    exact peersSafe_of_empty hp hq
  case configLoadDone m => cases ht; exact peersSafe_ite hs fun hl => peersSafe_finishLoad hs (running_loading hl.1) m
  case frameReceived p bytes => cases ht; exact peersSafe_ite hs fun hr => peersSafe_receiveFrame hs hr.1 p bytes
  case beaconTaken => cases ht; exact peersSafe_taken hs fun x hx hr => peersSafe_receiveBeacon hs hr hx
  case launchTaken | passageTaken | holdTaken | askTaken | itemTaken =>
    cases ht
    exact peersSafe_taken hs fun x _ _ => peersSafe_of_base (by simp) hs
  case peerSuspectExpiry n => cases ht; exact peersSafe_ite hs fun hr => peersSafe_peerSuspect hs hr n
  case peerSilenceExpiry n => cases ht; exact peersSafe_ite hs fun hr => peersSafe_peerSilence hs hr n
  case peerFreeExpiry n =>
    cases ht
    exact peersSafe_ite hs fun hr => peersSafe_of_base (base_judgePeerChange _ _) (peersSafe_peerFree hs hr n)
  case conflictHoldExpiry n => cases ht; exact peersSafe_ite hs fun _ => peersSafe_holdEnds hs n
  all_goals exact absurd rfl hw

end Expiries

/-- Settles O56: a step without a command moves the clock alone, and every command keeps the table, its reference and the receive queue. -/
theorem peersStaySafe : Obligations.PeersStaySafe := by
  intro s t hs ht
  unfold step at ht
  split at ht
  · cases ht
    exact peersSafe_congr (s := s) rfl hs
  · next c rest _ => exact peersSafe_exec (s := { s with pending := rest }) (peersSafe_congr (s := s) rfl hs) ht

end Sys2Proof.Machine
end

section
/-! SUPPORT. What holds of TLC, SPC and VLD at all times, as four properties, and what the single updates and VLD's operations keep of them. -/

namespace Sys2Proof.Machine

/-! ### The properties -/

/-- VLD (R172, R176, R179 to R181) as ValveSafe has it, but for what it says of a chip outside RUN. -/
structure ValvesAgree (s : State) : Prop where
  waiting : s.vld.waiting.length ≤ 8
  routes : ∀ r : Route, RouteSafe (routeState s r)
  switch : ∀ x, s.vld.inFlight = some x → SwitchRight s x
  reading : s.vld.startRead = false → s.vld.inFlight = none
  timer : s.vld.startTimer.isSome = true → s.vld.startRead = false

theorem ValveSafe.agree {s : State} (h : ValveSafe s) : ValvesAgree s := ⟨h.waiting, h.routes, h.switch, h.reading, h.timer⟩

/-- The properties that every operation in RUN keeps: those of TLC, of SPC, of VLD, and of VLD once the start reading was made. -/
inductive Property where
  | line | station | valves | started

/-- The property holds. -/
def Kept : Property → State → Prop
  | .line, s => LineSafe s
  | .station, s => StationSafe s
  | .valves, s => ValvesAgree s
  | .started, s => ValvesAgree s ∧ s.vld.startRead = true

/-- What the properties are about. -/
def keptView (s : State) : Tlc × Spc × Vld := (s.tlc, s.spc, s.vld)

theorem lineSafe_congr {s t : State} (ht : t.tlc = s.tlc) (h : LineSafe s) : LineSafe t := by
  obtain ⟨hu, hd, hr⟩ := h
  exact ⟨ht ▸ hu, ht ▸ hd, ht ▸ hr⟩

theorem stationSafe_congr {s t : State} (ht : t.spc = s.spc) (h : StationSafe s) : StationSafe t := by
  obtain ⟨h1, h2, h3, h4⟩ := h
  exact ⟨ht ▸ h1, ht ▸ h2, ht ▸ h3, ht ▸ h4⟩

theorem valvesAgree_congr {s t : State} (ht : t.vld = s.vld) (h : ValvesAgree s) : ValvesAgree t where
  waiting := ht ▸ h.waiting
  routes r := by rw [routeState, ht]; exact h.routes r
  switch x hx := by
    have hs := h.switch x (ht ▸ hx)
    unfold SwitchRight at hs ⊢
    rwa [ht]
  reading := ht ▸ h.reading
  timer := ht ▸ h.timer

theorem kept_congr {k : Property} {s t : State} (ht : keptView t = keptView s) (h : Kept k s) : Kept k t := by
  simp only [keptView, Prod.mk.injEq] at ht
  obtain ⟨htlc, hspc, hvld⟩ := ht
  cases k with
  | line => exact lineSafe_congr htlc h
  | station => exact stationSafe_congr hspc h
  | valves => exact valvesAgree_congr hvld h
  | started => exact ⟨valvesAgree_congr hvld h.1, hvld ▸ h.2⟩

theorem kept_iff_of_view {k : Property} {s t : State} (ht : keptView t = keptView s) : Kept k t ↔ Kept k s :=
  ⟨kept_congr ht.symm, kept_congr ht⟩

/-! ### Updates of the other blocks -/

section Updates
variable {k : Property} (s : State)

@[simp] theorem kept_choices (n : Nat) : Kept k { s with choices := n } ↔ Kept k s := kept_iff_of_view rfl
@[simp] theorem kept_clock (n : Nat) : Kept k { s with clock := n } ↔ Kept k s := kept_iff_of_view rfl
@[simp] theorem kept_trs (x : Trs) : Kept k { s with trs := x } ↔ Kept k s := kept_iff_of_view rfl
@[simp] theorem kept_prt (x : Prt) : Kept k { s with prt := x } ↔ Kept k s := kept_iff_of_view rfl
@[simp] theorem kept_mtr (x : Mtr) : Kept k { s with mtr := x } ↔ Kept k s := kept_iff_of_view rfl
@[simp] theorem kept_advanceTo (n : Nat) : Kept k (s.advanceTo n) ↔ Kept k s := kept_iff_of_view rfl
@[simp] theorem kept_putMtr (f : Mtr → Mtr) : Kept k (putMtr f s) ↔ Kept k s := kept_iff_of_view rfl
@[simp] theorem kept_putTrs (f : Trs → Trs) : Kept k (putTrs f s) ↔ Kept k s := kept_iff_of_view rfl
@[simp] theorem kept_putDsu (f : Dsu → Dsu) : Kept k (putDsu f s) ↔ Kept k s := kept_iff_of_view rfl
@[simp] theorem kept_putReceiver (r : Receiver) : Kept k (putReceiver r s) ↔ Kept k s := kept_iff_of_view rfl
@[simp] theorem kept_putCsq (f : Csq → Csq) : Kept k (putCsq f s) ↔ Kept k s := kept_iff_of_view rfl
@[simp] theorem kept_putDsq (f : Dsq → Dsq) : Kept k (putDsq f s) ↔ Kept k s := kept_iff_of_view rfl
@[simp] theorem kept_putLsc (f : Lsc → Lsc) : Kept k (putLsc f s) ↔ Kept k s := kept_iff_of_view rfl
@[simp] theorem kept_putHlu (f : Hlu → Hlu) : Kept k (putHlu f s) ↔ Kept k s := kept_iff_of_view rfl
@[simp] theorem kept_putTrain (t : List Entry) : Kept k (putTrain t s) ↔ Kept k s := kept_iff_of_view rfl
@[simp] theorem kept_updateEntry (n : SeqNo) (f : Entry → Entry) : Kept k (updateEntry n f s) ↔ Kept k s := kept_iff_of_view rfl
@[simp] theorem kept_putPeers (l : List Peer) : Kept k (putPeers l s) ↔ Kept k s := kept_iff_of_view rfl
@[simp] theorem kept_putHolds (l : List Hold) : Kept k (putHolds l s) ↔ Kept k s := kept_iff_of_view rfl
@[simp] theorem kept_putSlot (p : Nat) (x : HoldSlot) : Kept k (putSlot p x s) ↔ Kept k s := kept_iff_of_view rfl
@[simp] theorem kept_modifyRecord (f : OpenCut → OpenCut) : Kept k (modifyRecord f s) ↔ Kept k s := kept_iff_of_view rfl
@[simp] theorem kept_flagRecord (f : CutFlags → CutFlags) : Kept k (flagRecord f s) ↔ Kept k s := kept_iff_of_view rfl
@[simp] theorem kept_changeToVolume : Kept k (changeToVolume s) ↔ Kept k s := kept_iff_of_view rfl
@[simp] theorem kept_takeStream (t : Route) (x : Source) (a : ActionKind) : Kept k (takeStream t x a s) ↔ Kept k s := kept_iff_of_view rfl
@[simp] theorem kept_withholdFinal : Kept k (withholdFinal s) ↔ Kept k s := kept_iff_of_view rfl
@[simp] theorem kept_modifyActive (f : ActiveDelivery → ActiveDelivery) : Kept k (modifyActive f s) ↔ Kept k s := kept_iff_of_view rfl
@[simp] theorem kept_flagActive (f : DeliveryFlags → DeliveryFlags) : Kept k (flagActive f s) ↔ Kept k s := kept_iff_of_view rfl
@[simp] theorem kept_noteCloseRequest : Kept k (noteCloseRequest s) ↔ Kept k s := kept_iff_of_view rfl
@[simp] theorem kept_noteDetection (n : SeqNo) : Kept k (noteDetection n s) ↔ Kept k s := kept_iff_of_view rfl
@[simp] theorem kept_restartStaleTimer : Kept k (restartStaleTimer s) ↔ Kept k s := kept_iff_of_view rfl

end Updates

/-! ### SPC (R203, R204) -/

section Station
variable {k : Property} {s : State} (h : Kept k s)
include h

/-- A change of SPC alone keeps the properties if it keeps that of SPC. -/
theorem kept_spc {x : Spc} (hx : StationSafe s → StationSafe { s with spc := x }) : Kept k { s with spc := x } := by
  cases k with
  | line => exact lineSafe_congr (s := s) rfl h
  | station => exact hx h
  | valves => exact valvesAgree_congr (s := s) rfl h
  | started => exact ⟨valvesAgree_congr (s := s) rfl h.1, h.2⟩

@[simp] theorem kept_offerEvent (e : Event) : Kept k (offerEvent e s) := by
  unfold offerEvent
  split
  · next hlt =>
    refine kept_spc h fun hs => ⟨by simpa using hlt, hs.records, hs.lost, fun ho => ?_⟩
    exact absurd (hs.owed ho) (Nat.ne_of_lt hlt)
  · next hge =>
    exact kept_spc h fun hs => ⟨hs.events, hs.records, Nat.min_le_left _ _, fun _ => Nat.le_antisymm hs.events (Nat.not_lt.mp hge)⟩

@[simp] theorem kept_raiseAlarm (a : Alarm) (d : Nat) : Kept k (raiseAlarm a d s) := by
  have hset : Kept k { s with spc := { s.spc with alarms := setAlarmBit s.spc.alarms a } } :=
    kept_spc h fun hs => ⟨hs.events, hs.records, hs.lost, hs.owed⟩
  exact kept_offerEvent hset _

@[simp] theorem kept_appendToLog (r : LogRecord) : Kept k (appendToLog r s) := by
  unfold appendToLog
  split
  · next hlt => exact kept_spc h fun hs => ⟨hs.events, by simpa using hlt, hs.lost, hs.owed⟩
  · refine kept_spc h fun hs => ⟨hs.events, ?_, hs.lost, hs.owed⟩
    have := hs.records
    simp only [List.length_append, List.length_drop, List.length_singleton]
    omega

@[simp] theorem kept_respond (x : RespStatus) (p : List Byte) : Kept k (respond x p s) :=
  kept_spc h fun hs => ⟨hs.events, hs.records, hs.lost, hs.owed⟩

@[simp] theorem kept_refuse (w : Reason) : Kept k (refuse w s) := kept_respond h _ _

/-- The lost notice takes the room of an event that has left (R203, log 4). -/
theorem kept_queueLostNotice {x : Spc} (he : StationSafe s → x.events.length ≤ 64) (hl : x.cutLog = s.spc.cutLog)
    (hc : x.lostCount = s.spc.lostCount) : Kept k (queueLostNotice { s with spc := x }) := by
  rcases queueLostNotice_cases { s with spc := x } with ⟨⟨-, hlt⟩, e⟩ | ⟨hn, e⟩ <;> rw [e]
  · exact kept_spc h fun hs => ⟨by simpa using hlt, hl ▸ hs.records, hc ▸ hs.lost, nofun⟩
  · exact kept_spc h fun hs => ⟨he hs, hl ▸ hs.records, hc ▸ hs.lost,
      fun ho => Nat.le_antisymm (he hs) (Nat.not_lt.mp fun hlt => hn ⟨ho, hlt⟩)⟩

end Station

/-! ### TLC (R99, R101, R104, R106, R108 to R110) -/

theorem LineSafe.port {s : State} (h : LineSafe s) (p : Port) : PortSafe (portGet s.tlc p) := by
  cases p
  · exact h.upPort
  · exact h.downPort

theorem lineSafe_portSet {s : State} {p : Port} {x : PortState} (h : LineSafe s) (hx : PortSafe x) :
    LineSafe { s with tlc := portSet s.tlc p x } := by
  cases p
  · exact ⟨hx, h.downPort, h.received⟩
  · exact ⟨h.upPort, hx, h.received⟩

theorem PortSafe.queue {x : PortState} (h : PortSafe x) (c : QueueClass) : (x.queue c).length ≤ c.capacity := by
  cases c
  · exact h.urgent
  · exact h.routine
  · exact h.bulk

/-- A port within its capacities whose arbiter has run is safe: it sends, or it has nothing to send (R110). -/
theorem portSafe_arbitrate {x : PortState} (hq : ∀ c, (x.queue c).length ≤ c.capacity) (ht : x.badTimes.length ≤ 9) (hl : x.link = .up)
    (clock : Nat) : PortSafe (arbitrate clock x) := by
  have hu : x.urgent.length ≤ 8 := hq .urgent
  have hr : x.routine.length ≤ 8 := hq .routine
  have hb : x.bulk.length ≤ 24 := hq .bulk
  rcases arbitrate_cases clock x with ⟨e, hfree⟩ | ⟨-, -, f, ⟨rest, hc, e⟩ | ⟨-, rest, hc, e⟩ | ⟨-, -, rest, hc, e⟩⟩ <;> rw [e]
  · exact ⟨hu, hr, hb, ht, fun hn => absurd hl hn, fun hn => (hfree.resolve_left fun h => h hl).resolve_left fun h => h hn⟩
  · rw [hc] at hu
    exact ⟨Nat.le_of_succ_le hu, hr, hb, ht, fun hn => absurd hl hn, nofun⟩
  · rw [hc] at hr
    exact ⟨hu, Nat.le_of_succ_le hr, hb, ht, fun hn => absurd hl hn, nofun⟩
  · rw [hc] at hb
    exact ⟨hu, hr, Nat.le_of_succ_le hb, ht, fun hn => absurd hl hn, nofun⟩

theorem enqueue_link (x : PortState) (c : QueueClass) (f : Frame) : (x.enqueue c f).link = x.link := by cases c <;> rfl

theorem enqueue_badTimes (x : PortState) (c : QueueClass) (f : Frame) : (x.enqueue c f).badTimes = x.badTimes := by cases c <;> rfl

/-- A frame that joins a class queue with room (R108). -/
theorem portSafe_enqueue {x : PortState} (h : PortSafe x) (hl : x.link = .up) {c : QueueClass} (hc : (x.queue c).length < c.capacity)
    (f : Frame) (clock : Nat) : PortSafe (arbitrate clock (x.enqueue c f)) := by
  refine portSafe_arbitrate (fun d => ?_) ?_ ?_ clock
  · rw [queue_enqueue_length]
    split
    · next hd => exact hd ▸ hc
    · exact h.queue d
  · rw [enqueue_badTimes]; exact h.times
  · rw [enqueue_link]; exact hl

section Line
variable {k : Property} {s : State} (h : Kept k s)
include h

/-- A change of TLC alone keeps the properties if it keeps that of TLC. -/
theorem kept_tlc {x : Tlc} (hx : LineSafe s → LineSafe { s with tlc := x }) : Kept k { s with tlc := x } := by
  cases k with
  | line => exact hx h
  | station => exact stationSafe_congr (s := s) rfl h
  | valves => exact valvesAgree_congr (s := s) rfl h
  | started => exact ⟨valvesAgree_congr (s := s) rfl h.1, h.2⟩

theorem kept_modifyPort {p : Port} {f : PortState → PortState} (hf : PortSafe (portGet s.tlc p) → PortSafe (f (portGet s.tlc p))) :
    Kept k (modifyPort p f s) :=
  kept_tlc h fun hs => lineSafe_portSet hs (hf (hs.port p))

theorem kept_placeFrame (a : Alarm) {p : Port} (hp : portUp s p = true) (c : QueueClass) (f : Frame) : Kept k (placeFrame a p c f s) := by
  rcases placeFrame_cases a p c f s with ⟨-, e⟩ | ⟨hlt, e⟩ <;> rw [e]
  · exact kept_raiseAlarm h _ _
  · exact kept_tlc h fun hs => lineSafe_portSet hs (portSafe_enqueue (hs.port p) ((portUp_iff s p).mp hp) hlt f _)

@[simp] theorem kept_placeOwn (c : QueueClass) (f : Frame) (p : Port) : Kept k (placeOwn c f p s) := by
  rcases placeOwn_cases c f p s with ⟨-, e⟩ | ⟨hl, e⟩ <;> rw [e]
  · exact h
  · exact kept_placeFrame h _ ((portUp_iff s p).mpr hl) _ _

@[simp] theorem kept_sendOwn (c : Kind) (p : List Byte) : Kept k (sendOwn c p s) :=
  sendOwn_keeps (Kept k) c p (fun q f _ ht => kept_placeOwn ht _ f q) (fun t ht => (kept_choices t _).mpr ht) h

@[simp] theorem kept_forwardFrame (p : Port) (c : Kind) (f : Frame) : Kept k (forwardFrame p c f s) := by
  unfold forwardFrame
  split
  · next hc => exact kept_placeFrame h _ ((Bool.and_eq_true _ _).mp hc).2 _ _
  · exact h

@[simp] theorem kept_placeReceived (p : Port) (f : Frame) : Kept k (placeReceived p f s) := by
  rcases placeReceived_cases p f s with ⟨hlt, e⟩ | ⟨-, e⟩ <;> rw [e]
  · exact kept_tlc h fun hs => ⟨hs.upPort, hs.downPort, by simpa using hlt⟩
  · exact kept_raiseAlarm h _ _

@[simp] theorem kept_dropReceived : Kept k (dropReceived s) :=
  kept_tlc h fun hs => ⟨hs.upPort, hs.downPort, (List.drop_sublist 1 _).length_le.trans hs.received⟩

@[simp] theorem kept_badFrame (p : Port) : Kept k (badFrame p s) := by
  have hn := noiseTimes_length s.now (portGet s.tlc p).badTimes
  simp only [badFrame]
  split
  · exact kept_raiseAlarm (kept_modifyPort h fun hp => { hp with times := hn }) _ _
  · exact kept_modifyPort h fun hp => { hp with times := hn }

@[simp] theorem kept_sendAsk (n : Nat) : Kept k (sendAsk n s) := kept_sendOwn (by simpa using h) _ _

@[simp] theorem kept_sendAskIfDue : Kept k (sendAskIfDue s) := by
  unfold sendAskIfDue; split <;> simp [h]

@[simp] theorem kept_leaveSynced : Kept k (leaveSynced s) := by
  unfold leaveSynced; split <;> simp [h]

@[simp] theorem kept_raiseGap : Kept k (raiseGap s) := kept_leaveSynced (kept_raiseAlarm h _ _)

@[simp] theorem kept_refuseInsertion : Kept k (refuseInsertion s) := kept_leaveSynced (kept_raiseAlarm h _ _)

end Line

end Sys2Proof.Machine
end

section
/-! SUPPORT. What VLD's operations keep of the properties of TLC, SPC and VLD (R172 to R181). -/

namespace Sys2Proof.Machine

/-! ### Commands on the routes (R173, R175) -/

/-- Every route of a table is right in itself. -/
def RoutesSafe (t : PerRoute RouteState) : Prop := ∀ r, RouteSafe (routeGet t r)

theorem RoutesSafe.set {t : PerRoute RouteState} (h : RoutesSafe t) (r : Route) {x : RouteState} (hx : RouteSafe x) :
    RoutesSafe (routeSet t r x) := by
  intro q
  by_cases hq : q = r
  · rw [hq, routeGet_routeSet_same]; exact hx
  · rw [routeGet_routeSet_other _ _ hq]; exact h q

theorem routeSafe_faulted (x : RouteState) : RouteSafe x.faulted := ⟨nofun, fun _ => rfl, nofun⟩

theorem RouteSafe.confirmedNow {x : RouteState} (h : RouteSafe x) : RouteSafe x.confirmedNow := ⟨nofun, h.fault, nofun⟩

theorem RouteSafe.withLimit {x : RouteState} (h : RouteSafe x) (limit : Limit) (shown : Bool) : RouteSafe (x.withLimit limit shown) := by
  cases limit <;> exact ⟨h.travel, h.fault, h.startup⟩

theorem routeSafe_commanded (x : RouteState) {pos : Limit} {travel : Option Nat} {startup : Bool}
    (h : startup = true → travel.isSome = true ∧ pos = .closed) :
    RouteSafe { x with latch := latchOf pos, faultMark := false, travel := travel, startupClose := startup } :=
  ⟨fun _ => by cases pos <;> simp [latchOf], nofun, fun hs => ⟨(h hs).1, (h hs).2 ▸ rfl⟩⟩

/-- A command puts a route that is right in itself, since only a CLOSE is a start-up close, or that route faulted (R173, R175). -/
theorem commandRoute_safe (r : Route) {pos : Limit} {startup : Bool} (hst : startup = true → pos = .closed) (s : State) :
    ∃ x, RouteSafe x ∧ ((commandRoute r pos startup s).1 = putRoute r x s ∨ (commandRoute r pos startup s).1 = faultRoute r (putRoute r x s)) := by
  have hended := routeSafe_commanded (routeState s r) (pos := pos) (travel := none) (startup := false) nofun
  have htravel (due : Nat) := routeSafe_commanded (routeState s r) (travel := some due) fun hs => ⟨rfl, hst hs⟩
  simp only [commandRoute]
  (repeat' split)
  · exact ⟨_, hended, .inl rfl⟩
  · exact ⟨_, hended, .inr rfl⟩
  · exact ⟨_, htravel _, .inl rfl⟩

/-- A command changes VLD's routes alone. -/
theorem commandRoute_vld {s : State} (h : RoutesSafe s.vld.routes) (r : Route) {pos : Limit} {startup : Bool}
    (hst : startup = true → pos = .closed) :
    ∃ t, RoutesSafe t ∧ (commandRoute r pos startup s).1.vld = { s.vld with routes := t } := by
  obtain ⟨x, hx, e | e⟩ := commandRoute_safe r hst s <;> rw [e]
  · exact ⟨_, h.set r hx, rfl⟩
  · exact ⟨_, (h.set r hx).set r (routeSafe_faulted _), by rw [faultRoute, raiseAlarm_vld]; rfl⟩

/-- The closes of BREAK change VLD's routes alone and keep the switch they belong to (R176, R178). -/
theorem commandCloses_vld (l : List Route) (x : InFlight) {s : State} (h : RoutesSafe s.vld.routes) :
    (∃ t, RoutesSafe t ∧ (commandCloses l x s).1.vld = { s.vld with routes := t })
      ∧ (commandCloses l x s).2.request = x.request ∧ (commandCloses l x s).2.phase = x.phase := by
  induction l generalizing x s with
  | nil => exact ⟨⟨_, h, rfl⟩, rfl, rfl⟩
  | cons r rest ih =>
    obtain ⟨t, ht, e⟩ := commandRoute_vld h r (pos := .closed) (startup := false) nofun
    have hnext (x : InFlight) := ih x (s := (commandRoute r .closed false s).1) (by rw [e]; exact ht)
    rw [e] at hnext
    simp only [commandCloses]
    split
    · exact hnext x
    · exact hnext _

/-! ### VLD changed -/

section Vld
variable {k : Property} {s : State} (h : Kept k s)
include h

/-- A change of VLD alone keeps the properties if it keeps those of VLD and no start reading is undone. -/
theorem kept_vld {v : Vld} (hv : ValvesAgree s → ValvesAgree { s with vld := v })
    (hr : s.vld.startRead = true → v.startRead = true) : Kept k { s with vld := v } := by
  cases k with
  | line => exact lineSafe_congr (s := s) rfl h
  | station => exact stationSafe_congr (s := s) rfl h
  | valves => exact hv h
  | started => exact ⟨hv h.1, hr h.2⟩

/-- A route replaced by one that is right in itself. -/
theorem kept_putRoute (r : Route) {x : RouteState} (hx : RouteSafe (routeState s r) → RouteSafe x) : Kept k (putRoute r x s) :=
  kept_vld h (fun hs => ⟨hs.waiting, RoutesSafe.set hs.routes r (hx (hs.routes r)), hs.switch, hs.reading, hs.timer⟩) id

@[simp] theorem kept_faultRoute (r : Route) : Kept k (faultRoute r s) :=
  kept_raiseAlarm (kept_putRoute h r fun _ => routeSafe_faulted _) _ _

theorem kept_commandRoute (r : Route) {pos : Limit} {startup : Bool} (hst : startup = true → pos = .closed) :
    Kept k (commandRoute r pos startup s).1 := by
  obtain ⟨x, hx, e | e⟩ := commandRoute_safe r hst s <;> rw [e]
  · exact kept_putRoute h r fun _ => hx
  · exact kept_faultRoute (kept_putRoute h r fun _ => hx) r

@[simp] theorem kept_commandRoute_plain (r : Route) (pos : Limit) : Kept k (commandRoute r pos false s).1 :=
  kept_commandRoute h r nofun

@[simp] theorem kept_commandCloses (l : List Route) (x : InFlight) : Kept k (commandCloses l x s).1 := by
  induction l generalizing x s with
  | nil => exact h
  | cons r rest ih => simp only [commandCloses]; split <;> exact ih (kept_commandRoute_plain h r _) _

end Vld

/-! ### The switch (R176 to R179) -/

/-- What holds of VLD whatever switch is in flight. -/
structure ValvesApart (s : State) : Prop where
  waiting : s.vld.waiting.length ≤ 8
  routes : RoutesSafe s.vld.routes
  read : s.vld.startRead = true
  timer : s.vld.startTimer.isSome = true → s.vld.startRead = false

theorem ValvesApart.of_started {s : State} (h : Kept .started s) : ValvesApart s := ⟨h.1.waiting, h.1.routes, h.2, h.1.timer⟩

theorem ValvesApart.commanded {s t : State} (h : ValvesApart s) {l : PerRoute RouteState} (hl : RoutesSafe l)
    (e : t.vld = { s.vld with routes := l }) : ValvesApart t :=
  ⟨by rw [e]; exact h.waiting, by rw [e]; exact hl, by rw [e]; exact h.read, by rw [e]; exact h.timer⟩

theorem started_putInFlight {s : State} (h : ValvesApart s) {x : Option InFlight} (hx : ∀ y, x = some y → SwitchRight s y) :
    Kept .started (putInFlight x s) :=
  ⟨⟨h.waiting, h.routes, hx, fun hr => absurd (h.read.symm.trans hr) nofun, h.timer⟩, h.read⟩

/-- The routes that BREAK closes (R176, R178). -/
def breakRoutes (x : InFlight) (s : State) : List Route :=
  match x.oldRoute with
  | some o => [o]
  | none => routesToClose s x.request.target

/-- BREAK begun: the target is current and the closes are commanded (R176, R178). -/
def breakBegun (x : InFlight) (s : State) : State × InFlight :=
  commandCloses (breakRoutes x s) { x with phase := .breaking, closing := breakRoutes x s } (putCurrent (some x.request.target) s)

/-- After MAKE the switch is over, or one of its closes has not ended (R176, R178). -/
theorem makeConfirmed_cases (x : InFlight) (s : State) : (makeConfirmed x s).1 = putInFlight none (breakBegun x s).1
    ∨ ((breakBegun x s).2.closing ≠ [] ∧ (makeConfirmed x s).1 = putInFlight (some (breakBegun x s).2) (breakBegun x s).1) := by
  have hm : makeConfirmed x s = if (breakBegun x s).2.closing.isEmpty
      then (putInFlight none (breakBegun x s).1, some ⟨x.request, (breakBegun x s).2.result⟩)
      else (putInFlight (some (breakBegun x s).2) (breakBegun x s).1, none) := rfl
  rw [hm]
  split
  · exact .inl rfl
  · next hne => exact .inr ⟨fun hn => hne (List.isEmpty_iff.mpr hn), rfl⟩

/-- BREAK begins with the target current, and goes on while a close has not ended (R176). -/
theorem started_makeConfirmed {s : State} (h : ValvesApart s) (x : InFlight) : Kept .started (makeConfirmed x s).1 := by
  obtain ⟨⟨t, ht, e⟩, hreq, hphase⟩ := commandCloses_vld (breakRoutes x s)
    { x with phase := .breaking, closing := breakRoutes x s } (s := putCurrent (some x.request.target) s) h.routes
  have hy : ValvesApart (breakBegun x s).1 :=
    ValvesApart.commanded (s := putCurrent (some x.request.target) s) ⟨h.waiting, h.routes, h.read, h.timer⟩ ht e
  rcases makeConfirmed_cases x s with hm | ⟨hne, hm⟩ <;> rw [hm]
  · exact started_putInFlight hy nofun
  · refine started_putInFlight hy fun z hz => ?_
    obtain rfl := Option.some.inj hz
    simp only [SwitchRight, breakBegun, hphase]
    exact ⟨hne, by rw [e, hreq]; rfl⟩

/-- A switch starts in MAKE from the current route, which is not its target (R176). -/
theorem started_startSwitch {s : State} (h : Kept .started s) (q : SwitchRequest) : Kept .started (startSwitch q s).1 := by
  obtain ⟨t, ht, e⟩ := commandRoute_vld h.1.routes q.target (pos := .opened) (startup := false) nofun
  have hy := (ValvesApart.of_started h).commanded ht e
  simp only [startSwitch]
  split
  · exact h
  · next hc =>
    split
    · refine started_putInFlight hy fun x hx => ?_
      obtain rfl := Option.some.inj hx
      exact ⟨rfl, rfl, by rw [e], by rw [e]; exact hc⟩
    · exact started_makeConfirmed hy _
    · exact started_putInFlight hy nofun

/-- What the start of the oldest waiting switch keeps, that of any number keeps (R179). -/
theorem startWaiting_keeps (P : State → Prop) (hq : ∀ (s : State) (q : SwitchRequest) (rest : List SwitchRequest), P s →
    s.vld.waiting = q :: rest → P (startSwitch q { s with vld := { s.vld with waiting := rest } }).1) (n : Nat) {s : State} (h : P s) :
    P (startWaiting n s).1 := by
  induction n generalizing s with
  | zero => exact h
  | succ n ih =>
    simp only [startWaiting]
    split
    · next q rest _ hw =>
      have hy := hq s q rest h hw
      split
      · exact hy
      · exact ih hy
    · exact h

/-- The property is one of VLD. -/
def Property.ofVld : Property → Bool
  | .line | .station => false
  | .valves | .started => true

section Beside
variable {k : Property} (hk : k.ofVld = false)
include hk

theorem kept_vld_beside (s : State) (v : Vld) : Kept k { s with vld := v } ↔ Kept k s := by
  cases k with
  | line => exact ⟨lineSafe_congr (t := s) rfl, lineSafe_congr (s := s) rfl⟩
  | station => exact ⟨stationSafe_congr (t := s) rfl, stationSafe_congr (s := s) rfl⟩
  | valves | started => cases hk

theorem kept_makeConfirmed_beside {s : State} (h : Kept k s) (x : InFlight) : Kept k (makeConfirmed x s).1 := by
  have hb : Kept k (breakBegun x s).1 := kept_commandCloses ((kept_vld_beside hk s _).mpr h) _ _
  rcases makeConfirmed_cases x s with e | ⟨-, e⟩ <;> rw [e] <;> exact (kept_vld_beside hk _ _).mpr hb

theorem kept_startSwitch_beside {s : State} (h : Kept k s) (q : SwitchRequest) : Kept k (startSwitch q s).1 := by
  have hy := kept_commandRoute_plain h q.target .opened
  simp only [startSwitch]
  split
  · exact h
  · split
    · exact (kept_vld_beside hk _ _).mpr hy
    · exact kept_makeConfirmed_beside hk hy _
    · exact (kept_vld_beside hk _ _).mpr hy

theorem kept_startWaiting_beside (n : Nat) {s : State} (h : Kept k s) : Kept k (startWaiting n s).1 :=
  startWaiting_keeps (Kept k) (fun _ _ _ ht _ => kept_startSwitch_beside hk ((kept_vld_beside hk _ _).mpr ht) _) n h

end Beside

/-- The waiting switches, of which those that start leave the list (R179). -/
theorem kept_waiting {k : Property} {s : State} (h : Kept k s) {l : List SwitchRequest} (hl : s.vld.waiting.length ≤ 8 → l.length ≤ 8) :
    Kept k { s with vld := { s.vld with waiting := l } } :=
  kept_vld h (fun hs => ⟨hl hs.waiting, hs.routes, hs.switch, hs.reading, hs.timer⟩) id

theorem started_startWaiting (n : Nat) {s : State} (h : Kept .started s) : Kept .started (startWaiting n s).1 :=
  startWaiting_keeps (Kept .started) (fun _ q _ ht hw =>
    started_startSwitch (kept_waiting ht fun hl => by simp only [hw, List.length_cons] at hl; omega) q) n h

/-- What the switch in flight does at the end of one of its commands, before the waiting switches start (R176 to R178). -/
def commandTaken (x : InFlight) (r : Route) (e : CommandEnd) (s : State) : State × Option SwitchOutcome :=
  match x.phase, e with
  | .making, .confirmed => makeConfirmed x s
  | .making, .fault => makeFaulted x s
  | .breaking, _ =>
    if (x.closeEnded r e).closing.isEmpty then (putInFlight none s, some ⟨x.request, (x.closeEnded r e).result⟩)
    else (putInFlight (some (x.closeEnded r e)) s, none)

theorem switchCommandEnded_cases (x : InFlight) (r : Route) (e : CommandEnd) (s : State) :
    (switchCommandEnded x r e s).1 = (commandTaken x r e s).1
      ∨ (switchCommandEnded x r e s).1 = (startWaiting (commandTaken x r e s).1.vld.waiting.length (commandTaken x r e s).1).1 := by
  have hm : switchCommandEnded x r e s = match (commandTaken x r e s).2 with
      | none => ((commandTaken x r e s).1, [])
      | some o => ((startWaiting (commandTaken x r e s).1.vld.waiting.length (commandTaken x r e s).1).1,
        o :: (startWaiting (commandTaken x r e s).1.vld.waiting.length (commandTaken x r e s).1).2) := rfl
  rw [hm]
  split
  · exact .inl rfl
  · exact .inr rfl

/-- In BREAK the target stays current, and the switch stays in flight while a close has not ended (R176). -/
theorem started_commandTaken {s : State} (h : Kept .started s) {x : InFlight} (hx : s.vld.inFlight = some x) (r : Route) (e : CommandEnd) :
    Kept .started (commandTaken x r e s).1 := by
  have ha := ValvesApart.of_started h
  have hs := h.1.switch x hx
  unfold commandTaken
  split
  · exact started_makeConfirmed ha x
  · exact started_putInFlight ha nofun
  · next hp =>
    simp only [SwitchRight, hp] at hs
    split
    · exact started_putInFlight ha nofun
    · next hne =>
      refine started_putInFlight ha fun y hy => ?_
      obtain rfl := Option.some.inj hy
      simp only [SwitchRight, InFlight.closeEnded, hp]
      exact ⟨fun hn => hne (List.isEmpty_iff.mpr hn), hs.2⟩

theorem kept_commandTaken_beside {k : Property} (hk : k.ofVld = false) {s : State} (h : Kept k s) (x : InFlight) (r : Route) (e : CommandEnd) :
    Kept k (commandTaken x r e s).1 := by
  unfold commandTaken
  split
  · exact kept_makeConfirmed_beside hk h x
  · exact (kept_vld_beside hk s _).mpr h
  · split <;> exact (kept_vld_beside hk s _).mpr h

/-- What VLD does once the start reading was made keeps a property if it keeps those of TLC and SPC and that of VLD after the reading. -/
theorem kept_of_started {k : Property} {s t : State} (h : Kept k s) (hr : k = .valves → s.vld.startRead = true)
    (hb : k.ofVld = false → Kept k t) (hv : Kept .started s → Kept .started t) : Kept k t := by
  cases k with
  | line | station => exact hb rfl
  | valves => exact (hv ⟨h, hr rfl⟩).1
  | started => exact hv h

section Switch
variable {k : Property} {s : State} (h : Kept k s)
include h

@[simp] theorem kept_requestSwitch (q : SwitchRequest) : Kept k (requestSwitch q s).1 := by
  rcases requestSwitch_cases q s with ⟨hlt, e⟩ | ⟨-, e⟩ | ⟨-, hr, e⟩ <;> rw [e]
  · exact kept_waiting h fun _ => by simpa using hlt
  · exact kept_raiseAlarm h _ _
  · exact kept_of_started h (fun _ => hr) (fun hk => kept_startSwitch_beside hk h q) fun hs => started_startSwitch hs q

theorem kept_startWaiting (hk : k ≠ .valves) (n : Nat) : Kept k (startWaiting n s).1 :=
  kept_of_started h (fun hv => absurd hv hk) (fun hb => kept_startWaiting_beside hb n h) fun hs => started_startWaiting n hs

/-- A switch is in flight after the start reading alone (R180), so that the end of its command finds VLD started. -/
theorem kept_switchCommandEnded {x : InFlight} (hx : s.vld.inFlight = some x) (r : Route) (e : CommandEnd) :
    Kept k (switchCommandEnded x r e s).1 := by
  have hread (hk : k = .valves) : s.vld.startRead = true := by
    subst hk
    by_contra hn
    exact absurd (hx.symm.trans (h.reading (eq_false_of_ne_true hn))) nofun
  refine kept_of_started h hread (fun hb => ?_) fun hs => ?_ <;> rcases switchCommandEnded_cases x r e s with he | he <;> rw [he]
  · exact kept_commandTaken_beside hb h x r e
  · exact kept_startWaiting_beside hb _ (kept_commandTaken_beside hb h x r e)
  · exact started_commandTaken hs hx r e
  · exact started_startWaiting _ (started_commandTaken hs hx r e)

end Switch

end Sys2Proof.Machine
end

section
/-! SUPPORT. What cutting, delivering, tracking and launching keep of the properties of TLC, SPC and VLD: each of these operations is made of updates
of other blocks, events, records, telegrams, commands on routes and switch requests. -/

namespace Sys2Proof.Machine

/-! ### Cutting -/

section Cutting
variable {k : Property} {s : State} (h : Kept k s)
include h

@[simp] theorem kept_resolveProduct (p : Nat) : Kept k (resolveProduct p s).1 := by
  unfold resolveProduct; split <;> simp [h]

@[simp] theorem kept_thresholdTarget (a : ActionKind) (r : OpenCut) : Kept k (thresholdTarget a r s).1 := by
  unfold thresholdTarget; split <;> simp [h]

@[simp] theorem kept_markReached (a : ActionKind) (t : Option Route) : Kept k (markReached a t s) := by
  unfold markReached; split <;> simp [h]

@[simp] theorem kept_reachThreshold (a : ActionKind) (x : Source) : Kept k (reachThreshold a x s) := by
  simp only [reachThreshold]; (repeat' split) <;> simp [h]

@[simp] theorem kept_judgeWith (f : Nat → Bool) (x : Source) : Kept k (judgeWith f x s) := by
  simp only [judgeWith]; (repeat' split) <;> simp [h]

@[simp] theorem kept_judgeVolume : Kept k (judgeVolume s) := by
  unfold judgeVolume; split <;> simp [h]

@[simp] theorem kept_judgeDensity : Kept k (judgeDensity s) := by
  unfold judgeDensity; (repeat' split) <;> simp [h]

@[simp] theorem kept_judgeThresholds : Kept k (judgeThresholds s) := by
  unfold judgeThresholds; (repeat' split) <;> simp [h]

@[simp] theorem kept_cutRlvChanged : Kept k (cutRlvChanged s) := by
  unfold cutRlvChanged; (repeat' split) <;> simp [h]

@[simp] theorem kept_cutDensityNotice : Kept k (cutDensityNotice s) := by
  unfold cutDensityNotice; (repeat' split) <;> simp [h]

@[simp] theorem kept_openCut (e : Entry) : Kept k (openCut e s) := by simp [openCut, h]

@[simp] theorem kept_openDue : Kept k (openDue s) := by
  unfold openDue; (repeat' split) <;> simp [h]

@[simp] theorem kept_enterSteady : Kept k (enterSteady s) := by simp [enterSteady, h]

@[simp] theorem kept_leaveUnknown : Kept k (leaveUnknown s) := by
  unfold leaveUnknown; split <;> simp [h]

@[simp] theorem kept_closeRecord (b : Bool) (x : CutState) : Kept k (closeRecord b x s) := by
  unfold closeRecord; (repeat' split) <;> simp [h]

@[simp] theorem kept_cutAbandoned (q : SwitchRequest) (r : Option Route) : Kept k (cutAbandoned q r s) := by
  simp only [cutAbandoned]; (repeat' split) <;> simp [h]

@[simp] theorem kept_cutOutcome (o : SwitchOutcome) : Kept k (cutOutcome o s) := by
  unfold cutOutcome; (repeat' split) <;> simp [h]

@[simp] theorem kept_cutOutcomes (l : List SwitchOutcome) : Kept k (cutOutcomes l s) := by
  unfold cutOutcomes
  induction l generalizing s with
  | nil => exact h
  | cons o rest ih => exact ih (kept_cutOutcome h o)

@[simp] theorem kept_executeSwitch (t : Route) (x : Source) (a : ActionKind) (b : Bool) : Kept k (executeSwitch t x a b s) := by
  unfold executeSwitch; split <;> simp [h]

@[simp] theorem kept_executeDue (n : Nat) : Kept k (executeDue n s) := by
  induction n generalizing s with
  | zero => exact h
  | succ n ih =>
    simp only [executeDue]
    (repeat' split) <;> simp [h, ih]

@[simp] theorem kept_switchToTransmix : Kept k (switchToTransmix s) := by
  unfold switchToTransmix; split <;> simp [h]

@[simp] theorem kept_countLitre : Kept k (countLitre s) := by
  unfold countLitre; (repeat' split) <;> simp [h]

@[simp] theorem kept_checkProduct : Kept k (checkProduct s) := by
  simp only [checkProduct]
  split
  · exact h
  · split
    · refine kept_switchToTransmix (kept_raiseAlarm ?_ _ _)
      simp [h]
    · simp [h]
    · simp [h]

@[simp] theorem kept_executeAndSettle : Kept k (executeAndSettle s) := by
  simp only [executeAndSettle]; split <;> simp [h]

@[simp] theorem kept_mergeActions (b : Bool) : Kept k (mergeActions b s) := by
  unfold mergeActions; (repeat' split) <;> simp [h]

@[simp] theorem kept_mergeCut (e : Entry) : Kept k (mergeCut e s) := by
  unfold mergeCut; split <;> simp [h]

@[simp] theorem kept_cutEntered (n : SeqNo) : Kept k (cutEntered n s) := by
  unfold cutEntered; (repeat' split) <;> simp [h]

@[simp] theorem kept_cutMissed (r : OpenCut) : Kept k (cutMissed r s) := by
  have hr := kept_resolveProduct ((kept_putCsq s fun q => { q with queue := [] }).mpr h) r.productB
  simp only [cutMissed]
  refine kept_openDue (kept_closeRecord ((kept_modifyRecord _ _).mpr ?_) _ _)
  (repeat' split) <;> simp [hr]

@[simp] theorem kept_cutDeclared (a : PassageKind) (n : SeqNo) (x : Int) : Kept k (cutDeclared a n x s) := by
  unfold cutDeclared; (repeat' split) <;> simp [h]

@[simp] theorem kept_cutUntracked : Kept k (cutUntracked s) := by
  unfold cutUntracked; split <;> simp [h]

@[simp] theorem kept_cutReleaseTo (r : Route) : Kept k (cutReleaseTo r s) := by simp [cutReleaseTo, h]

@[simp] theorem kept_cutResync : Kept k (cutResync s) := by simp [cutResync, h]

theorem kept_cutForceAdvance {t : State} (ht : cutForceAdvance s = some t) : Kept k t := by
  have hm (f : CutFlags → CutFlags) (a : ActionKind) (r : OpenCut) (x : Option Route) :=
    kept_markReached (kept_thresholdTarget ((kept_flagRecord s f).mpr h) a r) a x
  unfold cutForceAdvance at ht
  simp only at ht
  (repeat' split at ht) <;> cases ht <;> simp [h, hm]

theorem kept_cutForceTransmix {t : State} (ht : cutForceTransmix s = some t) : Kept k t := by
  unfold cutForceTransmix at ht
  split at ht
  · cases ht
  · obtain rfl := Option.some.inj ht
    simp [h]

end Cutting

/-! ### Delivering -/

section Delivering
variable {k : Property} {s : State} (h : Kept k s)
include h

@[simp] theorem kept_endDelivery : Kept k (endDelivery s) := by
  unfold endDelivery; split <;> simp [h]

@[simp] theorem kept_closeEnded (e : CommandEnd) : Kept k (closeEnded e s) := by
  unfold closeEnded; split <;> simp [h]

@[simp] theorem kept_handClose : Kept k (handClose s).1 := by
  simp only [handClose]; (repeat' split) <;> simp [h]

@[simp] theorem kept_requestClose (f : DeliveryFlags → DeliveryFlags) : Kept k (requestClose f s).1 := by
  unfold requestClose; (repeat' split) <;> simp [h]

@[simp] theorem kept_doneTest : Kept k (doneTest s).1 := by
  unfold doneTest; (repeat' split) <;> simp [h]

@[simp] theorem kept_openEnded (e : CommandEnd) : Kept k (openEnded e s).1 := by
  unfold openEnded; (repeat' split) <;> simp [h]

@[simp] theorem kept_openDelivery (c : Candidate) : Kept k (openDelivery c s).1 := by
  have hc (f : Dsq → Dsq) (r : Route) := kept_commandRoute_plain ((kept_putDsq s f).mpr h) r .opened
  simp only [openDelivery]; (repeat' split) <;> simp [h, hc]

@[simp] theorem kept_skipPassed : Kept k (skipPassed s) := by
  unfold skipPassed; (repeat' split) <;> simp [h]

@[simp] theorem kept_chooseCandidate : Kept k (chooseCandidate s) := by
  unfold chooseCandidate; (repeat' split) <;> simp [h]

@[simp] theorem kept_judgeCandidateOnce : Kept k (judgeCandidateOnce s).1 := by
  have hc := kept_chooseCandidate (kept_skipPassed h)
  simp only [judgeCandidateOnce]; (repeat' split) <;> simp [hc]

@[simp] theorem kept_judgeCandidate : Kept k (judgeCandidate s) := by
  unfold judgeCandidate; split <;> simp [h]

omit h in
@[simp] theorem kept_afterDelivery {y : State × Bool} (hy : Kept k y.1) : Kept k (afterDelivery y) := by
  unfold afterDelivery; split <;> simp [hy]

@[simp] theorem kept_trailingTest : Kept k (trailingTest s) := by
  unfold trailingTest; split <;> simp [h]

@[simp] theorem kept_deliveryAfterEvaluation : Kept k (deliveryAfterEvaluation s) :=
  inEitherOrder_keeps (Kept k) (fun _ => kept_judgeCandidate) (fun _ => kept_trailingTest) (fun t => (kept_choices t _).mpr) h

@[simp] theorem kept_countDelivered : Kept k (countDelivered s) := by
  unfold countDelivered; (repeat' split) <;> simp [h]

@[simp] theorem kept_plainOutcome (r : Route) (e : CommandEnd) : Kept k (plainOutcome r e s) := by
  unfold plainOutcome; (repeat' split) <;> simp [h]

theorem kept_closeCommanded {t : State} (ht : closeCommanded s = some t) : Kept k t := by
  unfold closeCommanded at ht
  (repeat' split at ht) <;> cases ht
  simp [h]

@[simp] theorem kept_deliveryResync : Kept k (deliveryResync s) := by simp [deliveryResync, h]

end Delivering

/-! ### Tracking -/

section Tracking
variable {k : Property} {s : State} (h : Kept k s)
include h

@[simp] theorem kept_judgeNudge (e : Entry) : Kept k (judgeNudge e s) := by
  unfold judgeNudge; split <;> simp [h]

@[simp] theorem kept_handDeclaration (a : PassageKind) (e : Entry) : Kept k (handDeclaration a e s) := by
  unfold handDeclaration; (repeat' split) <;> simp [h]

@[simp] theorem kept_declare (a : PassageKind) (e : Entry) : Kept k (declare a e s) := by
  refine kept_handDeclaration (kept_sendOwn ?_ _ _) _ _
  (repeat' split) <;> simp [h]

@[simp] theorem kept_openWindow (n : SeqNo) : Kept k (openWindow n s) := by
  unfold openWindow; split <;> simp [h]

@[simp] theorem kept_testWindow (b : Bool) (e : Entry) : Kept k (testWindow b e s) := by
  unfold testWindow; (repeat' split) <;> simp [h]

omit h in
@[simp] theorem kept_visitEntry (a : Bool) (b : Option SeqNo) {x : State × Tracker} (hx : Kept k x.1) (n : SeqNo) :
    Kept k (visitEntry a b x n).1 := by
  simp only [visitEntry]
  (repeat' split) <;> simp [hx]

omit h in
theorem kept_visits (a : Bool) (b : Option SeqNo) (l : List SeqNo) {x : State × Tracker} (hx : Kept k x.1) :
    Kept k (l.foldl (visitEntry a b) x).1 := by
  induction l generalizing x with
  | nil => exact hx
  | cons n rest ih => exact ih (kept_visitEntry a b hx n)

@[simp] theorem kept_evaluateOnce (a : Bool) (b : Option SeqNo) : Kept k (evaluateOnce a b s) := by
  have hv := kept_visits a b (s.trs.train.map (·.seq)) (x := (s, Tracker.update ⟨b, false⟩ s.trs.train)) h
  simp only [evaluateOnce]
  split
  · exact kept_deliveryAfterEvaluation hv
  · exact hv

@[simp] theorem kept_evaluateRemovals (n l : Nat) : Kept k (evaluateRemovals n l s) := by
  induction n generalizing l s with
  | zero => exact h
  | succ n ih => simp only [evaluateRemovals]; split <;> simp [h, ih]

@[simp] theorem kept_evaluate (a : Bool) (b : Option SeqNo) : Kept k (evaluate a b s) := by
  unfold evaluate; split <;> simp [h]

@[simp] theorem kept_evaluateIfRemoved (before : State) : Kept k (evaluateIfRemoved before s) := by
  unfold evaluateIfRemoved; split <;> simp [h]

@[simp] theorem kept_afterMove (b : Option SeqNo) : Kept k (afterMove b s) := by
  unfold afterMove
  split
  · exact inEitherOrder_keeps (Kept k) (fun _ => kept_cutRlvChanged) (fun _ ht => kept_evaluate ht _ _) (fun t => (kept_choices t _).mpr) h
  · exact kept_evaluate h _ _

@[simp] theorem kept_trackLitre : Kept k (trackLitre s) := by simp [trackLitre, h]

@[simp] theorem kept_trackDelta (d m : Nat) : Kept k (trackDelta d m s) := by simp [trackDelta, h]

@[simp] theorem kept_takeSnap (x : Nat) (n : SeqNo) (a : PassageKind) : Kept k (takeSnap x n a s) := by
  unfold takeSnap; (repeat' split) <;> simp [h]

@[simp] theorem kept_takeRemoval (x : Nat) (n : SeqNo) : Kept k (takeRemoval x n s) := by
  unfold takeRemoval; (repeat' split) <;> simp [h]

end Tracking

/-! ### Launching -/

section Launching
variable {k : Property} {s : State} (h : Kept k s)
include h

@[simp] theorem kept_closeRunningEntry : Kept k (closeRunningEntry s) := by
  unfold closeRunningEntry; split <;> simp [h]

@[simp] theorem kept_appendOrderEntry (n : SeqNo) (o : Order) : Kept k (appendOrderEntry n o s) := by
  unfold appendOrderEntry; split <;> simp [h]

@[simp] theorem kept_completeChangeover (r : Route) (x : SwitchResult) : Kept k (completeChangeover r x s) := by
  have ha (n : SeqNo) (o : Order) := kept_appendOrderEntry (kept_closeRunningEntry h) n o
  unfold completeChangeover; split <;> simp [h, ha]

@[simp] theorem kept_changeoverOutcome (o : SwitchOutcome) : Kept k (changeoverOutcome o s) := by
  unfold changeoverOutcome; split <;> simp [h]

theorem kept_outcomes (l : List SwitchOutcome) : Kept k (l.foldl (fun s o => changeoverOutcome o s) s) := by
  induction l generalizing s with
  | nil => exact h
  | cons o rest ih => exact ih (kept_changeoverOutcome h o)

@[simp] theorem kept_startChangeover (o : Order) : Kept k (startChangeover o s).1 := by
  unfold startChangeover; split <;> simp [h]

@[simp] theorem kept_startWithConflict (o : Order) : Kept k (startWithConflict o s).1 := by
  unfold startWithConflict; split <;> simp [h]

@[simp] theorem kept_judgeChangeoverOnce : Kept k (judgeChangeoverOnce s).1 := by
  unfold judgeChangeoverOnce; (repeat' split) <;> simp [h]

@[simp] theorem kept_judgeChangeovers (n : Nat) : Kept k (judgeChangeovers n s) := by
  induction n generalizing s with
  | zero => exact h
  | succ n ih =>
    have hj := kept_judgeChangeoverOnce h
    simp only [judgeChangeovers]
    split
    · next s1 e => rw [e] at hj; exact hj
    · next s1 l _ e => rw [e] at hj; exact ih (kept_outcomes hj l)

@[simp] theorem kept_judgeChangeover : Kept k (judgeChangeover s) := by simp [judgeChangeover, h]

@[simp] theorem kept_changeoverOutcomes (l : List SwitchOutcome) : Kept k (changeoverOutcomes l s) := by
  unfold changeoverOutcomes
  split
  · exact h
  · exact kept_judgeChangeover (kept_outcomes h _)

@[simp] theorem kept_countLaunched : Kept k (countLaunched s) := by simp [countLaunched, h]

theorem kept_launchForceAdvance {t : State} (ht : launchForceAdvance s = some t) : Kept k t := by
  unfold launchForceAdvance at ht
  simp only at ht
  (repeat' split at ht) <;> cases ht <;> simp [h]

@[simp] theorem kept_setHold (a b c : Nat) : Kept k (setHold a b c s) := by
  unfold setHold; (repeat' split) <;> simp [h]

@[simp] theorem kept_removeHold (a b : Nat) : Kept k (removeHold a b s) := by
  unfold removeHold; split <;> simp [h]

@[simp] theorem kept_takeHold (a b c : Nat) : Kept k (takeHold a b c s) := by
  unfold takeHold; (repeat' split) <;> simp [h]

@[simp] theorem kept_judgeHold (r : Route) : Kept k (judgeHold s r) := by
  unfold judgeHold; (repeat' split) <;> simp [h]

theorem kept_foldl_judgeHold (l : List Route) : Kept k (l.foldl judgeHold s) := by
  induction l generalizing s with
  | nil => exact h
  | cons r rest ih => exact ih (kept_judgeHold h r)

@[simp] theorem kept_judgeHolds : Kept k (judgeHolds s) := kept_foldl_judgeHold h _

@[simp] theorem kept_takeStatus (v : PerRoute (BitVec 32)) : Kept k (takeStatus v s) := by simp [takeStatus, h]

@[simp] theorem kept_refreshHold (p : Nat) : Kept k (refreshHold p s) := by
  unfold refreshHold; split <;> simp [h]

@[simp] theorem kept_statusStale : Kept k (statusStale s) := by
  unfold statusStale; split <;> simp [h]

end Launching

end Sys2Proof.Machine
end

section
/-! SUPPORT. What the density line, joining, ports, peers, litres and the valves' events keep of the properties of TLC, SPC and VLD. -/

namespace Sys2Proof.Machine

/-! ### Density -/

section Density
variable {k : Property} {s : State} (h : Kept k s)
include h

@[simp] theorem kept_densityNotice (b : Bool) : Kept k (densityNotice b s) := by
  unfold densityNotice
  split
  · exact inEitherOrder_keeps (Kept k) (fun _ ht => kept_evaluate ht _ _) (fun _ => kept_cutDensityNotice) (fun t => (kept_choices t _).mpr) h
  · exact kept_evaluate h _ _

@[simp] theorem kept_declareDeparture : Kept k (declareDeparture s) := by
  simp only [declareDeparture]; (repeat' split) <;> simp [h]

@[simp] theorem kept_judgeDeparture (n : Nat) : Kept k (judgeDeparture n s) := by
  unfold judgeDeparture; (repeat' split) <;> simp [h]

@[simp] theorem kept_acceptSample (v : Nat) : Kept k (acceptSample v s) := by
  simp only [acceptSample]; (repeat' split) <;> simp [h]

@[simp] theorem kept_restartDensity : Kept k (restartDensity s) := by
  simp only [restartDensity]; (repeat' split) <;> simp [h]

@[simp] theorem kept_rejectSample : Kept k (rejectSample s) := by
  unfold rejectSample; split <;> simp [h]

@[simp] theorem kept_judgeSample (l : List Byte) : Kept k (judgeSample l s) := by
  unfold judgeSample; split <;> simp [h]

@[simp] theorem kept_huntCharacter (v : Byte) (b : Bool) : Kept k (huntCharacter v b s) := by
  unfold huntCharacter; split <;> simp [h]

@[simp] theorem kept_frameCharacter (l : List Byte) (v : Byte) (b : Bool) : Kept k (frameCharacter l v b s) := by
  unfold frameCharacter; (repeat' split) <;> simp [h]

@[simp] theorem kept_takeCharacter (v : Byte) (b : Bool) : Kept k (takeCharacter v b s) := by
  unfold takeCharacter; (repeat' split) <;> simp [h]

@[simp] theorem kept_abandonSample : Kept k (abandonSample s) := by
  unfold abandonSample; split <;> simp [h]

@[simp] theorem kept_silenceExpired : Kept k (silenceExpired s) := by
  unfold silenceExpired; split <;> simp [h]

end Density

/-! ### Joining -/

section Joining
variable {k : Property} {s : State} (h : Kept k s)
include h

theorem kept_makeRoom {t : State} (ht : makeRoom s = some t) : Kept k t := by
  unfold makeRoom at ht
  simp only at ht
  (repeat' split at ht) <;> cases ht <;> simp [h]

@[simp] theorem kept_applyPrior (m : LaunchMsg) : Kept k (applyPrior m s) := by
  unfold applyPrior; split <;> simp [h]

@[simp] theorem kept_appendLaunch (m : LaunchMsg) (b : Bool) : Kept k (appendLaunch m b s) := by
  unfold appendLaunch
  split
  · simp [h]
  · next s1 e =>
    have hs := kept_makeRoom h e
    refine kept_evaluate ?_ _ _
    split <;> simp [hs]

@[simp] theorem kept_placeLaunch (m : LaunchMsg) : Kept k (placeLaunch m s) := by
  unfold placeLaunch; (repeat' split) <;> simp [h]

@[simp] theorem kept_insertItem (b : ItemBody) : Kept k (insertItem b s).1 := by
  simp only [insertItem]
  split
  · split <;> simp [h]
  · split
    · exact h
    · split
      · exact h
      · split
        · simp [h]
        · next s1 e =>
          have hs := kept_makeRoom h e
          split <;> simp [hs]

@[simp] theorem kept_transferComplete : Kept k (transferComplete s) := by
  simp only [transferComplete]; split <;> simp [h]

@[simp] theorem kept_takeAdopted (m : ItemMsg) : Kept k (takeAdopted m s) := by
  have hi (f : Trs → Trs) (b : ItemBody) := kept_insertItem ((kept_putTrs s f).mpr h) b
  simp only [takeAdopted]; (repeat' split) <;> simp [h, hi]

@[simp] theorem kept_judgeItem (x : Nat) (m : ItemMsg) : Kept k (judgeItem x m s) := by
  unfold judgeItem; (repeat' split) <;> simp [h]

@[simp] theorem kept_takeItem (x : Nat) (m : ItemMsg) : Kept k (takeItem x m s) := by
  unfold takeItem; split <;> simp [h]

@[simp] theorem kept_transferExpired : Kept k (transferExpired s) := by
  simp only [transferExpired]; (repeat' split) <;> simp [h]

@[simp] theorem kept_reAskExpired : Kept k (reAskExpired s) := by
  unfold reAskExpired; split <;> simp [h]

@[simp] theorem kept_trainResync : Kept k (trainResync s) := by simp [trainResync, h]

@[simp] theorem kept_takeAsk (x : Nat) (a : AskMsg) : Kept k (takeAsk x a s) := by
  simp only [takeAsk]; (repeat' split) <;> simp [h]

@[simp] theorem kept_handItem : Kept k (handItem s) := by
  unfold handItem; (repeat' split) <;> simp [h]

@[simp] theorem kept_startLearning : Kept k (startLearning s) := by
  unfold startLearning; split <;> simp [h]

@[simp] theorem kept_learningEnds : Kept k (learningEnds s) := by
  simp only [learningEnds]; split <;> simp [h]

@[simp] theorem kept_resync : Kept k (resync s) := by
  simp only [resync]
  refine kept_trainResync ((kept_putDsu _ _).mpr ?_)
  (repeat' split) <;> simp [h]

end Joining

/-! ### Ports -/

section Ports
variable {k : Property} {s : State} (h : Kept k s)
include h

/-- A port that becomes UP has nothing to send (R101). -/
theorem kept_portBecomesUp {p : Port} (hp : (portGet s.tlc p).link ≠ .up) : Kept k (portBecomesUp p s) :=
  kept_sendAskIfDue (kept_startLearning (kept_modifyPort h fun hs => { hs with dark := fun _ => hs.dark hp }))

theorem kept_trainingCount (p : Port) (n : Nat) : Kept k (modifyPort p (fun x => { x with trainingCount := n }) s) :=
  kept_modifyPort h fun hs => { hs with }

theorem kept_trainingSymbol {p : Port} (hp : (portGet s.tlc p).link ≠ .up) (x : Symbol) : Kept k (trainingSymbol p x s) := by
  unfold trainingSymbol
  split
  · split
    · exact kept_trainingCount h p _
    · exact kept_portBecomesUp h hp
  all_goals exact kept_trainingCount h p 0

theorem kept_lost (p : Port) : Kept k (modifyPort p PortState.lost s) :=
  kept_modifyPort h fun hs => ⟨Nat.zero_le 8, Nat.zero_le 8, Nat.zero_le 24, hs.times, fun _ => rfl, fun _ => ⟨rfl, rfl, rfl⟩⟩

theorem kept_receiveFrame (p : Port) (bytes : List Byte) : Kept k (receiveFrame p bytes s) := by
  unfold receiveFrame receiveGood
  (repeat' split) <;> simp [h]

theorem kept_portClean (p : Port) : Kept k (portClean p s) := by
  unfold portClean
  exact kept_modifyPort ((kept_advanceTo s _).mpr h) fun hs => { hs with times := Nat.zero_le 9 }

/-- The arbiter runs on a port that was sending, which is UP (R101, R110). -/
theorem kept_portFree {p : Port} {x : Sending} (hx : (portGet s.tlc p).sending = some x) : Kept k (portFree p x s) := by
  have harb {y : PortState} (hy : y.sending = some x) (hs : PortSafe y) (clock : Nat) : PortSafe (arbitrate clock { y with sending := none }) :=
    portSafe_arbitrate (x := { y with sending := none }) hs.queue hs.times (by_contra fun hn => absurd (hy.symm.trans (hs.dark hn)) nofun) clock
  unfold portFree
  exact kept_modifyPort ((kept_clock s _).mpr h) fun hs => harb hx hs _

theorem kept_beaconExpired (due : Nat) : Kept k (beaconExpired due s) := by
  have ht (u : State) (hu : Kept k u) (b : Option Nat) (n : Nat) : Kept k { u with tlc := { u.tlc with beaconTimer := b, restartCount := n } } :=
    kept_tlc hu fun hs => ⟨hs.upPort, hs.downPort, hs.received⟩
  have hs := ht _ ((kept_advanceTo s due).mpr h)
  unfold beaconExpired
  simp only
  split
  · exact kept_sendOwn (hs _ _) _ _
  · exact hs _ _

end Ports

/-! ### Peers -/

section Peers
variable {k : Property} {s : State} (h : Kept k s)
include h

@[simp] theorem kept_recomputeReference : Kept k (recomputeReference s) := by
  simp only [recomputeReference]; split <;> simp [h]

@[simp] theorem kept_createPeer (n : Nat) (b : BeaconMsg) (r : Role) (p : Port) : Kept k (createPeer n b r p s) := by
  simp only [createPeer]
  split
  · simp [h]
  · refine kept_recomputeReference ?_
    split <;> simp [h]

@[simp] theorem kept_applyBeacon (q : Peer) (b : BeaconMsg) (r : Role) (p : Port) : Kept k (applyBeacon q b r p s).1 := by
  refine kept_recomputeReference ((kept_putPeers _ _).mpr ?_)
  (repeat' split) <;> simp [h]

@[simp] theorem kept_judgeBeaconGap (n : Nat) : Kept k (judgeBeaconGap n s) := by
  unfold judgeBeaconGap; split <;> simp [h]

@[simp] theorem kept_learnSequence (b : BeaconMsg) : Kept k (learnSequence b s) := by
  unfold learnSequence; (repeat' split) <;> simp [h]

@[simp] theorem kept_takeBeacon (n : Nat) (b : BeaconMsg) (r : Role) (p : Port) : Kept k (takeBeacon n b r p s) := by
  unfold takeBeacon
  split
  · simp [h]
  · next q _ =>
    have ha := kept_applyBeacon h q b r p
    split
    · next s1 v e =>
      rw [e] at ha
      exact inEitherOrder_keeps (Kept k) (fun _ ht => kept_trackDelta ht _ _) (fun _ ht => kept_judgeBeaconGap ht _) (fun t => (kept_choices t _).mpr) ha
    · next s1 e =>
      rw [e] at ha
      exact kept_judgeBeaconGap ha n

@[simp] theorem kept_judgePeerChange (t : State) : Kept k (judgePeerChange t s) := by
  unfold judgePeerChange; split <;> simp [h]

@[simp] theorem kept_peerSuspect (n : Nat) : Kept k (peerSuspect n s) := by
  simp only [peerSuspect]; (repeat' split) <;> simp [h]

@[simp] theorem kept_peerSilence (n : Nat) : Kept k (peerSilence n s) := by
  unfold peerSilence; (repeat' split) <;> simp [h]

@[simp] theorem kept_peerFree (n : Nat) : Kept k (peerFree n s) := by
  unfold peerFree; (repeat' split) <;> simp [h]

@[simp] theorem kept_holdEnds (n : Nat) : Kept k (holdEnds n s) := by
  unfold holdEnds; (repeat' split) <;> simp [h]

@[simp] theorem kept_receiveBeacon (f : RxFrame) : Kept k (receiveBeacon f s) := by
  simp only [receiveBeacon]
  split
  · split
    · exact kept_judgePeerChange (kept_takeBeacon (kept_learnSequence h _) _ _ _ _) _
    · exact h
  · exact h

@[simp] theorem kept_receiveLaunch (f : RxFrame) : Kept k (receiveLaunch f s) := by
  unfold receiveLaunch; split <;> simp [h]

@[simp] theorem kept_receivePassage (f : RxFrame) : Kept k (receivePassage f s) := by
  unfold receivePassage; split <;> simp [h]

@[simp] theorem kept_receiveHold (f : RxFrame) : Kept k (receiveHold f s) := by
  unfold receiveHold; split <;> simp [h]

/-- A telegram taken from the receive queue (R107). -/
theorem kept_taken {a : Kind} {f : RxFrame → State → State} (hf : ∀ x, Kept k (f x s)) :
    Kept k (match headFrame a s with | some x => dropReceived (f x s) | none => s) := by
  split
  · exact kept_dropReceived (hf _)
  · exact h

end Peers

/-! ### Litres -/

section Litres
variable {k : Property} {s : State} (h : Kept k s)
include h

@[simp] theorem kept_cutAfterLitre : Kept k (cutAfterLitre s) := by simp [cutAfterLitre, h]

@[simp] theorem kept_handLitre : Kept k (handLitre s) := by
  unfold handLitre
  split
  · exact inEitherOrder_keeps (Kept k) (fun _ => kept_cutAfterLitre) (fun _ => kept_trackLitre) (fun t => (kept_choices t _).mpr) (kept_countLitre h)
  · split <;> simp [h]

theorem kept_emitLitres (n : Nat) : Kept k (emitLitres n s) := by
  induction n generalizing s with
  | zero => exact h
  | succ n ih => exact ih (kept_handLitre ((kept_putMtr s _).mpr h))

theorem kept_emitDeliveries (n : Nat) : Kept k (emitDeliveries n s) := by
  induction n generalizing s with
  | zero => exact h
  | succ n ih => exact ih (kept_countDelivered ((kept_putMtr s _).mpr h))

theorem kept_takeMainline : Kept k (takeMainline s) := kept_emitLitres ((kept_putMtr s _).mpr h) _

theorem kept_takeDelivery : Kept k (takeDelivery s) := kept_emitDeliveries ((kept_putMtr s _).mpr h) _

end Litres

/-! ### The valves' events and the start reading (R171 to R175, R180) -/

section Valves
variable {k : Property} {s : State} (h : Kept k s)
include h

@[simp] theorem kept_commandEnded (r : Route) (b : Bool) (e : CommandEnd) : Kept k (commandEnded r b e s) := by
  unfold commandEnded
  split
  · exact h
  · split
    · next x hx =>
      have hy := kept_switchCommandEnded h hx r e
      (repeat' split) <;> simp [h, hy]
    · split <;> simp [h]

theorem kept_limitSettled (r : Route) (x : RouteState) : Kept k (limitSettled r x s) := by
  unfold limitSettled
  split
  · exact kept_commandEnded (kept_putRoute h r fun hx => hx.confirmedNow) _ _ _
  · exact kept_commandEnded (kept_faultRoute h r) _ _ _
  · split <;> simp [h]

/-- With no switch in flight the current route may change (R180). -/
theorem kept_putCurrent (hi : k.ofVld = true → s.vld.inFlight = none) (x : Option Route) : Kept k (putCurrent x s) := by
  cases k with
  | line | station => exact (kept_vld_beside rfl _ _).mpr h
  | valves => exact ⟨h.waiting, h.routes, fun y hy => absurd (hy.symm.trans (hi rfl)) nofun, h.reading, h.timer⟩
  | started => exact ⟨⟨h.1.waiting, h.1.routes, fun y hy => absurd (hy.symm.trans (hi rfl)) nofun, h.1.reading, h.1.timer⟩, h.2⟩

theorem kept_readCurrentRoute (hi : k.ofVld = true → s.vld.inFlight = none) {f : Option Route → State → State}
    (hf : ∀ r t, Kept k t → Kept k (f r t)) : Kept k (readCurrentRoute f s) := by
  unfold readCurrentRoute
  split
  · exact hf _ _ (kept_putCurrent h hi _)
  · exact hf _ _ (kept_raiseAlarm h _ _)

@[simp] theorem kept_reportRouteToCut (r : Option Route) : Kept k (reportRouteToCut r s) := by simp [reportRouteToCut, h]

@[simp] theorem kept_reportRouteToLaunch (r : Option Route) : Kept k (reportRouteToLaunch r s) := by
  unfold reportRouteToLaunch; split <;> simp [h]

theorem kept_startCloses (l : List Route) : Kept k (l.foldl (fun s r => (commandRoute r .closed true s).1) s) := by
  induction l generalizing s with
  | nil => exact h
  | cons r rest ih => exact ih (kept_commandRoute h r fun _ => rfl)

theorem kept_startReading (hk : k ≠ .valves) (hi : k.ofVld = true → s.vld.inFlight = none) : Kept k (startReading s) := by
  have hcut := kept_startWaiting (kept_readCurrentRoute h hi (f := reportRouteToCut) fun r _ ht => kept_reportRouteToCut ht r) hk
  have hlaunch := kept_startWaiting (kept_readCurrentRoute h hi (f := reportRouteToLaunch) fun r _ ht => kept_reportRouteToLaunch ht r) hk
  unfold startReading
  simp only
  (repeat' split)
  · exact kept_evaluateIfRemoved (kept_cutOutcomes (hcut _) _) _
  · exact kept_changeoverOutcomes (hlaunch _) _
  · exact kept_startCloses h _
  · exact h

end Valves

end Sys2Proof.Machine
end

section
/-! SUPPORT. What every command keeps of TLC, SPC and VLD: settled O58. -/

namespace Sys2Proof.Machine

/-! ### Requests (12.2) -/

section Requests
variable {k : Property} {s : State} (h : Kept k s)
include h

/-- A command answered or refused (R199). -/
theorem kept_whenRunning {f : State → State} (hf : Kept k (f s)) : Kept k (whenRunning f s) := by
  unfold whenRunning; split
  · exact hf
  · exact kept_refuse h _

theorem kept_respondDone {d : Option State} (hd : ∀ t, d = some t → Kept k t) : Kept k (respondDone d s) := by
  unfold respondDone
  split
  · exact kept_respond (hd _ rfl) _ _
  · exact kept_refuse h _

omit h in
theorem kept_evaluated {d : Option State} {t : State} (hd : ∀ t, d = some t → Kept k t) (ht : evaluated s d = some t) : Kept k t := by
  obtain ⟨x, hx, rfl⟩ := Option.map_eq_some_iff.mp ht
  exact kept_evaluateIfRemoved (hd x hx) _

/-- A change of the reading marks and of the bytes of the response. -/
theorem kept_reading (x : List Byte) (a b : Bool) :
    Kept k { s with spc := { s.spc with response := x, readingEvent := a, readingRecord := b } } :=
  kept_spc h fun hs => ⟨hs.events, hs.records, hs.lost, hs.owed⟩

theorem kept_readEvent : Kept k (readEvent s) := by
  unfold readEvent
  split
  · exact kept_respond h _ _
  · exact kept_reading (kept_respond h _ _) _ _ _

theorem kept_readCut : Kept k (readCut s) := by
  unfold readCut
  split
  · exact kept_respond h _ _
  · exact kept_reading (kept_respond h _ _) _ _ _

theorem kept_respondRead (x : Option (List Byte)) : Kept k (respondRead x s) := by
  unfold respondRead; split <;> exact kept_respond h _ _

/-- ACK_ALARMS takes latches and the lost count, which only falls (R205). -/
theorem kept_ackAlarms (bits : BitVec 32) : Kept k (ackAlarms bits s) := by
  unfold ackAlarms
  split
  · exact kept_refuse h _
  · have hl : s.spc.lostCount ≤ 65535 → (if bits.getLsbD 21 = true then 0 else s.spc.lostCount) ≤ 65535 := by split <;> omega
    have hs : Kept k (putSpc (fun x => { x with
        alarms := clearAlarmBits x.alarms bits, lostCount := if bits.getLsbD 21 then 0 else x.lostCount }) s) :=
      kept_spc h fun hs => ⟨hs.events, hs.records, hl hs.lost, hs.owed⟩
    exact kept_respond hs _ _

theorem kept_setStatus (v : PerRoute (BitVec 32)) : Kept k (setStatus v s) := by
  unfold setStatus; split <;> simp [h]

theorem kept_enterOrder (o : Order) (n : Nat) (b : Bool) : Kept k (enterOrder o n b s) := by
  unfold enterOrder judgeIfOnly
  (repeat' split) <;> simp [h]

theorem kept_cancelOrder (n : Nat) : Kept k (cancelOrder n s) := by
  simp only [cancelOrder]
  (repeat' split) <;> simp [h]

theorem kept_releaseTo (n : Nat) : Kept k (releaseTo n s) := by
  have hc (r : Route) := kept_evaluateIfRemoved (kept_cutReleaseTo h r) s
  unfold releaseTo
  (repeat' split) <;> simp [h, hc]

theorem kept_execRequest {c : Instr} {t : State} (ht : execRequest c s = .next t) : Kept k t := by
  cases c <;> cases ht
  case readStatus => exact kept_respond h _ _
  case readEvent => exact kept_whenRunning h (kept_readEvent h)
  case readCut => exact kept_whenRunning h (kept_readCut h)
  case readTrain | readPeer => exact kept_whenRunning h (kept_respondRead h _)
  case ackAlarms bits => exact kept_whenRunning h (kept_ackAlarms h bits)
  case setStatus v => exact kept_whenRunning h (kept_setStatus h v)
  case enterOrder =>
    refine kept_whenRunning h ?_
    split
    · exact kept_enterOrder h _ _ _
    · exact kept_refuse h _
  case cancelOrder =>
    refine kept_whenRunning h ?_
    split
    · exact kept_cancelOrder h _
    · exact kept_refuse h _
  case forceAdvance =>
    refine kept_whenRunning h ?_
    (repeat' split)
    · exact kept_respondDone h fun _ => kept_evaluated fun _ => kept_cutForceAdvance h
    · exact kept_respondDone h fun _ => kept_launchForceAdvance h
    · exact kept_refuse h _
  case forceTransmix =>
    refine kept_whenRunning h ?_
    split
    · exact kept_respondDone h fun _ => kept_evaluated fun _ => kept_cutForceTransmix h
    · exact kept_refuse h _
  case releaseTo =>
    refine kept_whenRunning h ?_
    split
    · exact kept_releaseTo h _
    · exact kept_refuse h _
  case closeDelivery =>
    refine kept_whenRunning h ?_
    split
    · exact kept_respondDone h fun _ => kept_closeCommanded h
    · exact kept_refuse h _
  case resync =>
    refine kept_whenRunning h ?_
    split
    · exact kept_refuse h _
    · exact kept_respond (kept_resync h) _ _
  all_goals exact h

end Requests

/-! ### Commands -/

theorem kept_ite {k : Property} {c : Prop} [Decidable c] {s t : State} (ht : c → Kept k t) (hs : Kept k s) : Kept k (if c then t else s) := by
  split
  · next hc => exact ht hc
  · exact hs

/-- A route whose limit is read (R171). -/
theorem kept_withLimit {k : Property} {s : State} (h : Kept k s) (r : Route) (limit : Limit) (shown : Bool) :
    Kept k (putRoute r ((routeState s r).withLimit limit shown) s) :=
  kept_putRoute h r fun hx => hx.withLimit limit shown

/-- The start reading begins with no switch in flight (R180). -/
theorem kept_startTimer {k : Property} {s : State} (h : Kept k s) (hk : k ≠ .started) {due : Nat} (hd : s.vld.startTimer = some due) :
    Kept k (startReading { s.advanceTo due with vld := { s.vld with startTimer := none, startRead := true } }) := by
  cases k with
  | line | station => exact kept_startReading ((kept_vld_beside rfl _ _).mpr ((kept_advanceTo s due).mpr h)) nofun nofun
  | started => exact absurd rfl hk
  | valves =>
    have hi : s.vld.inFlight = none := h.reading (h.timer (by rw [hd]; rfl))
    have hs : Kept .started { s.advanceTo due with vld := { s.vld with startTimer := none, startRead := true } } :=
      ⟨⟨h.waiting, h.routes, h.switch, nofun, nofun⟩, rfl⟩
    exact (kept_startReading hs nofun fun _ => hi).1

/-- Every command but POWER_ON_RESET and CONFIG_LOAD_DONE keeps the properties of TLC, SPC and VLD. -/
theorem kept_exec {k : Property} (hk : k ≠ .started) {c : Instr} {s t : State} (hp : c ≠ .powerOnReset) (hl : ∀ m, c ≠ .configLoadDone m)
    (h : Kept k s) (ht : exec c s = .next t) : Kept k t := by
  by_cases hq : Instr.byRequest c = true
  · exact kept_execRequest h (exec_byRequest hq s ▸ ht)
  cases c
  case powerOnReset => exact absurd rfl hp
  case configLoadDone m => exact absurd rfl (hl m)
  case spiBadRequest bytes =>
    rcases execSpiBadRequest_cases bytes s with ⟨-, e⟩ | ⟨-, why, -, e⟩ | ⟨c, -, e⟩ | ⟨-, e⟩ <;> rw [exec, e] at ht
    · cases ht; exact kept_reading h _ _ _
    · cases ht; exact kept_refuse h _
    · exact kept_execRequest h ht
    · cases ht; exact h
  case readStatus | readEvent | readCut | readTrain | readPeer | ackAlarms | setStatus | enterOrder | cancelOrder | forceAdvance
      | forceTransmix | releaseTo | closeDelivery | resync => exact absurd rfl hq
  case resetRelease => cases ht; exact kept_ite (fun _ => kept_congr (s := s) rfl h) h
  case mainlinePulse => cases ht; exact kept_ite (fun _ => kept_takeMainline h) h
  case trimNudge =>
    cases ht
    split
    · exact h
    · exact kept_offerEvent ((kept_putMtr s _).mpr h) _
  case deliveryPulse => cases ht; exact kept_ite (fun _ => kept_takeDelivery h) h
  case densityCharacter => cases ht; exact kept_ite (fun _ => kept_takeCharacter h _ _) h
  case frameCharTimeout => cases ht; exact kept_ite (fun _ => kept_abandonSample h) h
  case silenceTimerExpiry => cases ht; exact kept_ite (fun _ => kept_silenceExpired h) h
  case portSignalDetected p =>
    cases ht
    refine kept_ite (fun hc => kept_modifyPort h fun hs => { hs with dark := fun _ => hs.dark ?_ }) h
    rw [hc.2]; exact nofun
  case portReachesUp p => cases ht; exact kept_ite (fun hc => kept_portBecomesUp h (by rw [hc.2.1]; exact nofun)) h
  case lossOfSignal p =>
    cases ht
    (repeat' split)
    · exact h
    · next hl => exact kept_modifyPort h fun hs => { hs with dark := fun _ => hs.dark (by rw [hl]; exact nofun) }
    · exact kept_raiseAlarm (kept_lost h p) _ _
    · exact h
  case frameReceived => cases ht; exact kept_ite (fun _ => kept_receiveFrame h _ _) h
  case rxFrameAborted => cases ht; exact kept_ite (fun _ => kept_badFrame h _) h
  case noiseCleanExpiry => cases ht; exact kept_ite (fun _ => kept_portClean h _) h
  case beaconTaken => cases ht; exact kept_taken h fun x => kept_receiveBeacon h x
  case launchTaken => cases ht; exact kept_taken h fun x => kept_receiveLaunch h x
  case passageTaken => cases ht; exact kept_taken h fun x => kept_receivePassage h x
  case holdTaken => cases ht; exact kept_taken h fun x => kept_receiveHold h x
  case askTaken => cases ht; exact kept_taken h fun x => kept_takeAsk h _ _
  case itemTaken => cases ht; exact kept_taken h fun x => kept_takeItem h _ _
  case peerSuspectExpiry => cases ht; exact kept_ite (fun _ => kept_peerSuspect h _) h
  case peerSilenceExpiry => cases ht; exact kept_ite (fun _ => kept_peerSilence h _) h
  case peerFreeExpiry => cases ht; exact kept_ite (fun _ => kept_judgePeerChange (kept_peerFree h _) _) h
  case conflictHoldExpiry => cases ht; exact kept_ite (fun _ => kept_holdEnds h _) h
  case askSend => cases ht; exact kept_sendAskIfDue h
  case transferTimerExpiry => cases ht; exact kept_ite (fun _ => kept_transferExpired h) h
  case reAskTimerExpiry => cases ht; exact kept_ite (fun _ => kept_reAskExpired h) h
  case answerItemHanded => cases ht; exact kept_ite (fun _ => kept_handItem h) h
  case learnTimerExpiry => cases ht; exact kept_ite (fun _ => kept_learningEnds h) h
  case beaconTimerExpiry =>
    cases ht
    split
    · exact kept_beaconExpired h _
    · exact h
  case txPortFree =>
    cases ht
    split
    · next hx => exact kept_portFree h hx
    · exact h
  case limitChange r limit shown => cases ht; exact kept_ite (fun _ => kept_limitSettled (kept_withLimit h r limit shown) _ _) (kept_withLimit h r limit shown)
  case travelTimerExpiry =>
    cases ht
    split
    · exact kept_commandEnded (kept_faultRoute ((kept_advanceTo s _).mpr h) _) _ _ _
    · exact h
  case startReading =>
    cases ht
    split
    · next hd => exact kept_startTimer h hk hd
    · exact h
  case holdEntryExpiry =>
    cases ht
    refine kept_ite (fun _ => ?_) h
    unfold holdExpired
    split
    · exact h
    · exact kept_removeHold ((kept_advanceTo s _).mpr h) _ _
  case holdRefreshExpiry => cases ht; exact kept_ite (fun _ => kept_refreshHold h _) h
  case staleTimerExpiry => cases ht; exact kept_ite (fun _ => kept_statusStale h) h
  case spiRequestAborted => cases ht; exact kept_reading h _ _ _
  case readEventRetire =>
    cases ht
    refine kept_ite (fun _ => kept_queueLostNotice h (fun hs => ?_) rfl rfl) h
    exact (List.drop_sublist 1 _).length_le.trans hs.events
  case readCutRetire =>
    cases ht
    exact kept_ite (fun _ => kept_spc h fun hs => ⟨hs.events, (List.drop_sublist 1 _).length_le.trans hs.records, hs.lost, hs.owed⟩) h
  case lostNoticeQueued => cases ht; exact kept_queueLostNotice h StationSafe.events rfl rfl
  case trainingSymbolReceived => cases ht; exact kept_ite (fun hc => kept_trainingSymbol h (by rw [hc.2]; exact nofun) _) h

/-! ### Loading and reset (R172, R207 to R210) -/

/-- The start reading becomes due at a chip that has not made it (R180). -/
theorem kept_finishLoad {k : Property} {s : State} (h : Kept k s) (hr : k.ofVld = true → s.vld.startRead = false) (m : MemoryRead) : Kept k (finishLoad m s) := by
  have hb (p : Published) (l : List Nat) : Kept k (startBlocks p (putCfl (fun _ => ⟨.run, false, none, p, l⟩) s)) := by
    cases k with
    | line => exact ⟨h.upPort, h.downPort, h.received⟩
    | station => exact stationSafe_congr (s := s) rfl h
    | valves => exact ⟨h.waiting, h.routes, h.switch, h.reading, fun _ => hr rfl⟩
    | started => exact absurd (h.2.symm.trans (hr rfl)) nofun
  unfold finishLoad loadRecord publish
  simp only
  (repeat' split)
  · exact kept_congr (s := s) rfl h
  · exact kept_congr (s := s) rfl h
  · exact hb _ _
  · exact kept_raiseAlarm (hb _ _) _ _

/-- Nothing is latched, current or waiting, and the start reading was not made: VLD outside RUN (R172, R181). -/
def ValvesIdle (s : State) : Prop :=
  (∀ r : Route, (routeState s r).latch = .none) ∧ s.vld.current = none ∧ s.vld.waiting = [] ∧ s.vld.startRead = false

theorem valvesIdle_congr {s t : State} (ht : t.vld = s.vld) (h : ValvesIdle s) : ValvesIdle t := by
  simpa only [ValvesIdle, routeState, ht] using h

/-- The limit pins stand as they are at a reset (log 12); everything else of VLD is as at State.reset. -/
theorem valveSafe_powerOnReset {s t : State} (ht : exec .powerOnReset s = .next t) : ValveSafe t := by
  cases ht
  have hroute (r : Route) : routeGet (resetRoutes s.vld.routes) r
      = { RouteState.reset with openLimit := (routeState s r).openLimit, closeLimit := (routeState s r).closeLimit } :=
    routeGet_routeMap _ _ r
  refine ⟨Nat.zero_le 8, fun r => ?_, nofun, fun _ => rfl, nofun, fun _ => ⟨fun r => ?_, rfl, rfl, rfl⟩⟩
  · rw [routeState, hroute]; exact ⟨nofun, nofun, nofun⟩
  · rw [routeState, hroute]; rfl

/-! ### Outside RUN -/

theorem whenRunning_vld {s : State} (h : s.running = false) (f : State → State) : (whenRunning f s).vld = s.vld := by
  rw [whenRunning_idle h]; rfl

theorem queueLostNotice_vld (s : State) : (queueLostNotice s).vld = s.vld := by
  rcases queueLostNotice_cases s with ⟨-, e⟩ | ⟨-, e⟩ <;> rw [e]

theorem execRequest_vld_idle {c : Instr} {s t : State} (h : s.running = false) (ht : execRequest c s = .next t) : t.vld = s.vld := by
  cases c <;> cases ht
  case readEvent | readCut | readTrain | readPeer | ackAlarms | setStatus | enterOrder | cancelOrder | forceAdvance | forceTransmix
      | releaseTo | closeDelivery | resync => exact whenRunning_vld h _
  all_goals rfl

theorem valvesIdle_withLimit {s : State} (h : ValvesIdle s) (r : Route) (limit : Limit) (shown : Bool) :
    ValvesIdle (putRoute r ((routeState s r).withLimit limit shown) s) := by
  refine ⟨fun q => ?_, h.2⟩
  by_cases hq : q = r
  · rw [hq, routeState_putRoute]
    cases limit <;> exact h.1 r
  · rw [routeState_putRoute_other hq]
    exact h.1 q

/-- Outside RUN the limits alone change at VLD (R171). -/
theorem valvesIdle_exec {c : Instr} {s t : State} (hp : c ≠ .powerOnReset) (hl : ∀ m, c ≠ .configLoadDone m) (h : s.running = false)
    (hv : ValvesIdle s) (ht : exec c s = .next t) : ValvesIdle t := by
  have hro := hasRole_idle h
  have hno := nonOrigin_idle h
  by_cases hq : Instr.byRequest c = true
  · exact valvesIdle_congr (execRequest_vld_idle h (exec_byRequest hq s ▸ ht)) hv
  cases c
  case powerOnReset => exact absurd rfl hp
  case configLoadDone m => exact absurd rfl (hl m)
  case readStatus | readEvent | readCut | readTrain | readPeer | ackAlarms | setStatus | enterOrder | cancelOrder | forceAdvance
      | forceTransmix | releaseTo | closeDelivery | resync => exact absurd rfl hq
  case limitChange r limit shown =>
    cases ht
    simp only [h, if_false, Bool.false_eq_true]
    exact valvesIdle_withLimit hv r limit shown
  case spiBadRequest bytes =>
    rcases execSpiBadRequest_cases bytes s with ⟨-, e⟩ | ⟨-, why, -, e⟩ | ⟨c, -, e⟩ | ⟨-, e⟩ <;> rw [exec, e] at ht
    · cases ht; exact hv
    · cases ht; exact hv
    · exact valvesIdle_congr (execRequest_vld_idle h ht) hv
    · cases ht; exact hv
  case resetRelease => cases ht; split <;> exact hv
  case trimNudge => cases ht; split <;> exact valvesIdle_congr (s := s) (by simp [takeNudge]) hv
  case readEventRetire =>
    cases ht
    split
    · exact valvesIdle_congr (s := s) (queueLostNotice_vld _) hv
    · exact hv
  case lostNoticeQueued => cases ht; exact valvesIdle_congr (queueLostNotice_vld s) hv
  case readCutRetire => cases ht; split <;> exact hv
  case spiRequestAborted => cases ht; exact hv
  case askSend => cases ht; simpa [sendAskIfDue, askReady, hno] using hv
  case deliveryPulse | learnTimerExpiry | holdEntryExpiry => cases ht; simpa [hro] using hv
  case holdRefreshExpiry | staleTimerExpiry => cases ht; simpa [holdRole, hro] using hv
  case transferTimerExpiry | reAskTimerExpiry => cases ht; simpa [hno] using hv
  case densityCharacter | frameCharTimeout | silenceTimerExpiry => cases ht; simpa [densityActive, h] using hv
  case beaconTaken | launchTaken | passageTaken | holdTaken | askTaken | itemTaken => cases ht; simpa [headFrame_idle h] using hv
  all_goals cases ht; simpa [h] using hv

theorem publish_running (p : Published) (l : List Nat) (s : State) : (publish p l s).running = true := by
  simp only [publish]
  split
  · rfl
  · rw [State.running, raiseAlarm_cfl]; rfl

/-- CONFIG_LOAD_DONE publishes, or leaves VLD as it is (R208, R210). -/
theorem finishLoad_running_or_vld (m : MemoryRead) (s : State) : (finishLoad m s).running = true ∨ (finishLoad m s).vld = s.vld := by
  unfold finishLoad loadRecord
  split
  · exact .inr rfl
  · simp only
    split
    · exact .inr rfl
    · exact .inl (publish_running _ _ s)

/-! ### Every step -/

/-- Every command keeps the properties of TLC and of SPC. -/
theorem kept_command {k : Property} (hk : k.ofVld = false) {c : Instr} {s t : State} (h : Kept k s) (ht : exec c s = .next t) : Kept k t := by
  have hs : k ≠ .started := fun e => by subst e; cases hk
  by_cases hp : c = .powerOnReset
  · subst hp
    cases ht
    cases k with
    | line => exact lineSafe_congr (s := State.reset) rfl lineSafe_reset
    | station => exact stationSafe_congr (s := State.reset) rfl stationSafe_reset
    | valves | started => cases hk
  by_cases hl : ∃ m, c = .configLoadDone m
  · obtain ⟨m, rfl⟩ := hl
    cases ht
    exact kept_ite (fun _ => kept_finishLoad h (fun hv => absurd (hk.symm.trans hv) nofun) m) h
  · exact kept_exec hs hp (fun m hm => hl ⟨m, hm⟩) h ht

/-- The loading makes the start reading due at a chip that has not made it, or leaves VLD as it is (R180). -/
theorem valveSafe_configLoadDone {s t : State} (h : ValveSafe s) (m : MemoryRead) (ht : exec (.configLoadDone m) s = .next t) : ValveSafe t := by
  cases ht
  split
  · next hl =>
    have hidle := h.outside (running_loading hl.1)
    have hk : Kept .valves (finishLoad m s) := kept_finishLoad (k := .valves) h.agree (fun _ => hidle.2.2.2) m
    refine ⟨hk.waiting, hk.routes, hk.switch, hk.reading, hk.timer, fun hr => ?_⟩
    rcases finishLoad_running_or_vld m s with hrun | hv
    · exact absurd (hrun.symm.trans hr) nofun
    · exact valvesIdle_congr hv hidle
  · exact h

/-- Every command keeps VLD safe: in RUN no command leaves RUN but POWER_ON_RESET (R210), outside RUN VLD stays idle. -/
theorem valveSafe_exec {c : Instr} {s t : State} (h : ValveSafe s) (ht : exec c s = .next t) : ValveSafe t := by
  by_cases hp : c = .powerOnReset
  · subst hp; exact valveSafe_powerOnReset ht
  by_cases hl : ∃ m, c = .configLoadDone m
  · obtain ⟨m, rfl⟩ := hl
    exact valveSafe_configLoadDone h m ht
  have hl' (m : MemoryRead) : c ≠ .configLoadDone m := fun hm => hl ⟨m, hm⟩
  have hk : Kept .valves t := kept_exec nofun hp hl' (k := .valves) h.agree ht
  refine ⟨hk.waiting, hk.routes, hk.switch, hk.reading, hk.timer, fun hr => ?_⟩
  cases hs : s.running with
  | false => exact valvesIdle_exec hp hl' hs (h.outside hs) ht
  | true =>
    have hcfl := (runKeepsConfigurationAndCount c s t hp ht).1 (of_decide_eq_true hs)
    rw [State.running, hcfl] at hr
    exact absurd (hs.symm.trans hr) nofun

theorem valveSafe_congr {s t : State} (hv : t.vld = s.vld) (hr : t.running = s.running) (h : ValveSafe s) : ValveSafe t := by
  obtain ⟨hwaiting, hroutes, hswitch, hreading, htimer⟩ := valvesAgree_congr hv h.agree
  exact ⟨hwaiting, hroutes, hswitch, hreading, htimer, fun hi => valvesIdle_congr hv (h.outside (hr ▸ hi))⟩

/-- Settles O58: each operation keeps the capacities of TLC and SPC and what VLD's fields say of each other, and only a command in RUN reaches
VLD's latches, current route and waiting switches. -/
theorem lineStationAndValvesStaySafe : Obligations.LineStationAndValvesStaySafe := by
  intro s t ht
  unfold step at ht
  split at ht
  · cases ht
    exact ⟨fun hl hs => ⟨lineSafe_congr (s := s) rfl hl, stationSafe_congr (s := s) rfl hs⟩, valveSafe_congr (s := s) rfl rfl⟩
  · next c rest _ =>
    refine ⟨fun hl hs => ⟨?_, ?_⟩, fun hv => ?_⟩
    · exact kept_command (k := .line) rfl (s := { s with pending := rest }) (lineSafe_congr (s := s) rfl hl) ht
    · exact kept_command (k := .station) rfl (s := { s with pending := rest }) (stationSafe_congr (s := s) rfl hs) ht
    · exact valveSafe_exec (s := { s with pending := rest }) (valveSafe_congr (s := s) rfl rfl hv) ht

end Sys2Proof.Machine
end

section
/-! SUPPORT. Own telegrams on ports with room (R108 to R111) and the beacon (R112 to R114): settled O23 and O25. -/

namespace Sys2Proof.Machine

/-! ### Own telegrams -/

/-- A port with room once it has taken the copy of an own telegram (R109 to R111). -/
def PortState.takesOwn (x : PortState) (clock : Nat) (c : QueueClass) (f : Frame) : PortState :=
  if x.link = .up then
    if x.sending = none then { x with sending := some ⟨f, clock + slotMicros f⟩ }
    else x.enqueue c f
  else x

theorem portSet_portGet (t : Tlc) (p : Port) : portSet t p (portGet t p) = t := by cases p <;> rfl

theorem placeOwn_room {s : State} {p : Port} {c : QueueClass} (hp : PortSafe (portGet s.tlc p))
    (hroom : (portGet s.tlc p).link = .up → ((portGet s.tlc p).queue c).length < c.capacity) (f : Frame) :
    placeOwn c f p s = { s with tlc := portSet s.tlc p ((portGet s.tlc p).takesOwn s.clock c f) } := by
  rcases placeOwn_cases c f p s with ⟨hl, e⟩ | ⟨hl, e⟩
  · rw [e, PortState.takesOwn, if_neg hl, portSet_portGet]
  · rw [e, placeFrame_room _ f (hroom hl), PortState.takesOwn, if_pos hl]
    by_cases hs : (portGet s.tlc p).sending = none
    · obtain ⟨hu, hr, hb⟩ := hp.free hs
      rw [if_pos hs, arbitrate_enqueue_free _ _ _ hl hs hu hr hb]
    · rw [if_neg hs, arbitrate_enqueue_sending _ _ _ (Option.isSome_iff_ne_none.mpr hs)]

/-- With room on every UP port no order of the copies is left open (R109, log 7). -/
theorem sendOwn_room {s : State} {k : Kind}
    (hroom : s.tlc.upPort.link = .up → (s.tlc.upPort.queue k.queueClass).length < k.queueClass.capacity) (payload : List Byte) :
    sendOwn k payload s
      = placeOwn k.queueClass (ownFrame s k payload) .down (placeOwn k.queueClass (ownFrame s k payload) .up s) := by
  refine if_neg fun hc => ?_
  simp only [portUp, queueFull, Bool.and_eq_true, beq_iff_eq, decide_eq_true_eq] at hc
  obtain ⟨⟨⟨hup, -⟩, hfull⟩, -⟩ := hc
  exact absurd (hroom hup) (Nat.not_lt.mpr hfull)

/-- Settles O23: each port takes its own copy, and the copy of the upward port leaves the downward one as it is. -/
theorem ownTelegramReachesEveryUpPort : Obligations.OwnTelegramReachesEveryUpPort := by
  intro s k payload hs hup hdown f place
  have hplace (x : PortState) : x.takesOwn s.clock k.queueClass f = place x := rfl
  have hfirst := placeOwn_room (p := .up) hs.upPort hup f
  have hsecond := placeOwn_room (s := placeOwn k.queueClass f .up s) (p := .down) (by rw [hfirst]; exact hs.downPort)
    (by rw [hfirst]; exact hdown) f
  calc sendOwn k payload s = placeOwn k.queueClass f .down (placeOwn k.queueClass f .up s) := sendOwn_room hup payload
    _ = { s with tlc := { s.tlc with upPort := place s.tlc.upPort, downPort := place s.tlc.downPort } } := by
      rw [hsecond, hfirst, ← hplace, ← hplace]
      rfl

/-! ### The beacon -/

theorem wouldPlace_beacon (s : State) (p : Port) :
    wouldPlace s .beacon p = true ↔ (portGet s.tlc p).link = .up ∧ (portGet s.tlc p).routine.length < 8 := by
  rw [wouldPlace, Bool.and_eq_true, portUp_iff, Bool.not_eq_true', queueFull, decide_eq_false_iff_not, Nat.not_le]
  rfl

/-- A beacon is counted while fewer than three were and when a ROUTINE queue of an UP port takes it (R114). -/
theorem restartsAfter_eq (s : State) : restartsAfter s
    = if s.tlc.restartCount < 3 ∧ ((s.tlc.upPort.link = .up ∧ s.tlc.upPort.routine.length < 8)
        ∨ (s.tlc.downPort.link = .up ∧ s.tlc.downPort.routine.length < 8)) then s.tlc.restartCount + 1
      else s.tlc.restartCount := by
  simp only [restartsAfter, Bool.and_eq_true, Bool.or_eq_true, decide_eq_true_eq, wouldPlace_beacon, portGet]

theorem exec_beaconTimerExpiry {s : State} {due : Nat} (hr : s.running = true) (hd : s.tlc.beaconTimer = some due) :
    exec .beaconTimerExpiry s = .next (beaconExpired due s) := by
  refine congrArg Host.Outcome.next ?_
  simp only [hr, hd]

/-- The state of a beacon timer that has expired (R112, log 2). -/
def beaconRestarted (due : Nat) (s : State) : State :=
  { s.advanceTo due with tlc := { s.tlc with beaconTimer := some (due + s.cfg.beaconPeriod * 100) } }

theorem beaconExpired_dark {s : State} (due : Nat) (h : anyPortUp s = false) : beaconExpired due s = beaconRestarted due s :=
  if_neg (Bool.not_eq_true _ ▸ h)

theorem beaconExpired_up {s : State} (due : Nat) (h : anyPortUp s = true) : beaconExpired due s = sendBeacon (beaconRestarted due s) :=
  if_pos h

theorem beaconOf_role {s : State} {role : Role} (hr : s.running = true) (hrole : s.cfg.role = some role) (restarted : Bool) :
    beaconOf s restarted = {
      role := role.code
      mark := s.cfg.mark
      period := s.cfg.beaconPeriod
      synced := s.trs.sync == .synced
      densityHealthy := s.dsu.healthy
      restarted := restarted
      newestPresent := !s.trs.train.isEmpty
      count := if role = .delivery then s.mtr.deliveryCount else 0
      newest := ((s.trs.train.getLast?).map (·.seq)).getD 0
      entryCount := s.trs.train.length } := by
  have hdelivery : (s.hasRole .delivery = true) = (role = .delivery) := by
    rw [hasRole_iff]
    simp [hr, hrole]
  simp only [beaconOf, hrole, hdelivery, newestEntry, Option.map_some, Option.getD_some]

/-- Settles O25: the expiry starts the timer again, and with a port UP the beacon is built from the state at the expiry. -/
theorem beaconTimerSendsABeacon : Obligations.BeaconTimerSendsABeacon := by
  intro s due hr hd expired taken
  refine ⟨fun hu hdn => ?_, fun role hrole hany count hcount => ?_⟩
  · rw [exec_beaconTimerExpiry hr hd, beaconExpired_dark]
    · rfl
    · simpa [← Bool.not_eq_true, anyPortUp_iff] using ⟨hu, hdn⟩
  · rw [exec_beaconTimerExpiry hr hd, beaconExpired_up _ ((anyPortUp_iff s).mpr hany)]
    have hcount' : restartsAfter (beaconRestarted due s) = count := (restartsAfter_eq _).trans hcount.symm
    have hbeacon := beaconOf_role (s := beaconRestarted due s) hr hrole (decide (s.tlc.restartCount < 3))
    exact congrArg Host.Outcome.next (by rw [sendBeacon, hcount']; exact congrArg (fun b => sendOwn .beacon (beaconPayload b) _) hbeacon)

end Sys2Proof.Machine
end

section
/-! SUPPORT. A frame and its bytes (R102, R103): settled O26. -/

namespace Sys2Proof.Machine

section Bytes
variable (f : Frame)

theorem Frame.body_length : f.body.length = f.payload.length + 4 := by simp [Frame.body]

theorem Frame.bytes_length : f.bytes.length = f.payload.length + 6 := by simp [Frame.bytes, Frame.body_length]

/-- The bytes in front of the CRC-16 (R102). -/
theorem Frame.bytes_take_body : f.bytes.take (f.payload.length + 4) = f.body := by
  rw [Frame.bytes, ← Frame.body_length, List.take_left]

/-- The two bytes of the CRC-16 (R102). -/
theorem Frame.bytes_crc : natAt f.bytes (f.payload.length + 4) 2 = (crc16 f.body).toNat := by
  rw [Frame.bytes, ← Frame.body_length, ← Nat.add_zero f.body.length, natAt_append]
  exact natAt_natBytes_last (crc16 f.body).isLt

/-- The length byte (R102). -/
theorem Frame.bytes_lengthField (h : f.payload.length ≤ 255) : natAt f.bytes 3 1 = f.payload.length := by
  have hlt : f.payload.length < 256 := Nat.lt_succ_of_le h
  simp [natAt, natOfBytes, Frame.bytes, Frame.body, Nat.mod_eq_of_lt hlt]

theorem Frame.bytes_header : f.bytes.getD 0 0 = f.kind ∧ f.bytes.getD 1 0 = f.station ∧ f.bytes.getD 2 0 = f.hops := ⟨rfl, rfl, rfl⟩

/-- The bytes of the payload (R102). -/
theorem Frame.bytes_payload : (f.bytes.drop 4).take f.payload.length = f.payload := by
  have h : f.bytes.drop 4 = f.payload ++ natBytes 2 (crc16 f.body).toNat := rfl
  rw [h, List.take_left]

end Bytes

/-- Settles O26: each test of R103 reads its field from where R102 puts it. -/
theorem frameBytesReadBack : Obligations.FrameBytesReadBack := by
  intro f k hk hn hlength
  obtain ⟨hkind, hstation, hhops⟩ := f.bytes_header
  have hcrc : f.payload.length + 6 - 2 = f.payload.length + 4 := rfl
  have hpayload : f.payload.length + 6 - 6 = f.payload.length := rfl
  have hk' : kindOfByte f.kind = some k := hk
  unfold goodFrame
  rw [f.bytes_length, hcrc, hpayload, f.bytes_crc, f.bytes_take_body, f.bytes_lengthField hn, f.bytes_payload, hkind, hstation, hhops]
  simp [hk', hlength]

end Sys2Proof.Machine
end

section
/-! SUPPORT. The link of a port, its noise state and what its transmitter sends (R98 to R101, R104, R110, R111): settled O20, O22 and O24. -/

namespace Sys2Proof.Machine

/-! ### The link (R99, R101) -/

section Link
variable {s : State} {p : Port} (hr : s.running = true)
include hr

theorem exec_portSignalDetected (hl : (portGet s.tlc p).link = .down) :
    exec (.portSignalDetected p) s = .next (modifyPort p (fun x => { x with link := .training, trainingCount := 0 }) s) :=
  congrArg Host.Outcome.next (if_pos ⟨hr, hl⟩)

theorem exec_trainingSymbolReceived (hl : (portGet s.tlc p).link = .training) (x : Symbol) :
    exec (.trainingSymbolReceived p x) s = .next (trainingSymbol p x s) :=
  congrArg Host.Outcome.next (if_pos ⟨hr, hl⟩)

theorem exec_portReachesUp (hl : (portGet s.tlc p).link = .training) (hc : (portGet s.tlc p).trainingCount = 15) :
    exec (.portReachesUp p) s = .next (portBecomesUp p s) :=
  congrArg Host.Outcome.next (if_pos ⟨hr, hl, Nat.le_of_eq hc.symm⟩)

theorem exec_lossOfSignal_training (hl : (portGet s.tlc p).link = .training) :
    exec (.lossOfSignal p) s = .next (modifyPort p (fun x => { x with link := .down }) s) := by
  refine congrArg Host.Outcome.next ?_
  simp only [hr, hl, if_true]

theorem exec_lossOfSignal_up (hl : (portGet s.tlc p).link = .up) :
    exec (.lossOfSignal p) s = .next (raiseAlarm .linkLost (portCode p) (modifyPort p PortState.lost s)) := by
  refine congrArg Host.Outcome.next ?_
  simp only [hr, hl, if_true]

end Link

theorem trainingSymbol_idle_below {s : State} {p : Port} (h : (portGet s.tlc p).trainingCount < 15) :
    trainingSymbol p .idle s = modifyPort p (fun x => { x with trainingCount := x.trainingCount + 1 }) s :=
  if_pos (Nat.succ_lt_succ h)

theorem trainingSymbol_idle_sixteenth {s : State} {p : Port} (h : (portGet s.tlc p).trainingCount = 15) :
    trainingSymbol p .idle s = portBecomesUp p s :=
  if_neg (by rw [h]; decide)

theorem startLearning_other {s : State} (h : s.cfg.role ≠ some .origin) : startLearning s = s := by
  have ho : s.hasRole .origin = false := by
    rw [← Bool.not_eq_true, hasRole_iff]
    exact fun hr => h hr.2
  simp [startLearning, ho]

theorem sendAskIfDue_none {s : State} (h : s.trs.askDue = false) : sendAskIfDue s = s := by simp [sendAskIfDue, askReady, h]

/-- A port becomes UP where nothing waits for it: no learning and no ASK (R99). -/
theorem portBecomesUp_quiet {s : State} (p : Port) (ho : s.cfg.role ≠ some .origin) (ha : s.trs.askDue = false) :
    portBecomesUp p s = modifyPort p (fun x => { x with link := .up, trainingCount := 16 }) s :=
  (congrArg sendAskIfDue (startLearning_other (s := modifyPort p _ s) ho)).trans (sendAskIfDue_none ha)

/-- Settles O20: each command in its link state, by the command's own lemma. -/
theorem linkComesUpAndGoesDown : Obligations.LinkComesUpAndGoesDown := by
  intro s p hr x put
  refine ⟨fun hl => exec_portSignalDetected hr hl, fun hl => ?_, fun hl => exec_lossOfSignal_up hr hl⟩
  have htraining := exec_trainingSymbolReceived hr hl
  refine ⟨fun b => htraining _, htraining _, htraining _, htraining _, fun hc => ?_, fun hc ho ha => ?_, exec_lossOfSignal_training hr hl⟩
  · rw [htraining, trainingSymbol_idle_below hc]; rfl
  · rw [htraining, trainingSymbol_idle_sixteenth hc, exec_portReachesUp hr hl hc, portBecomesUp_quiet p ho ha]
    exact ⟨rfl, rfl⟩

/-! ### The noise state (R104) -/

/-- Of the times of bad frames the nine newest are kept. -/
theorem noiseTimes_nine_iff (now : Nat) (times : List Nat) :
    9 ≤ (noiseTimes now times).length ↔ 9 ≤ (times.filter (fun t => now ≤ t + 10000) ++ [now]).length := by
  simp only [noiseTimes, List.length_drop]
  omega

theorem badFrame_quiet {s : State} {p : Port}
    (h : (portGet s.tlc p).noisy = true ∨ (noiseTimes s.now (portGet s.tlc p).badTimes).length < 9) :
    badFrame p s = modifyPort p (fun x => { x with badTimes := noiseTimes s.now (portGet s.tlc p).badTimes }) s := by
  refine if_neg fun hc => ?_
  simp only [Bool.and_eq_true, Bool.not_eq_true', decide_eq_true_eq] at hc
  obtain ⟨hclean, hnine⟩ := hc
  rcases h with hn | hlt
  · exact absurd (hn.symm.trans hclean) nofun
  · exact absurd hlt (Nat.not_lt.mpr hnine)

theorem badFrame_noisy {s : State} {p : Port} (hn : (portGet s.tlc p).noisy = false)
    (h : 9 ≤ (noiseTimes s.now (portGet s.tlc p).badTimes).length) :
    badFrame p s = raiseAlarm .lineNoisy (portCode p)
      (modifyPort p (fun x => { x with badTimes := noiseTimes s.now (portGet s.tlc p).badTimes, noisy := true }) s) :=
  if_pos (by simp [hn, h])

section Noise
variable {s : State} {p : Port} (hr : s.running = true)
include hr

theorem exec_rxFrameAborted (hup : (portGet s.tlc p).link = .up) : exec (.rxFrameAborted p) s = .next (badFrame p s) :=
  congrArg Host.Outcome.next (if_pos ⟨hr, (portUp_iff s p).mpr hup⟩)

theorem exec_frameReceived_bad (hup : (portGet s.tlc p).link = .up) {bytes : List Byte} (hb : goodFrame bytes = none) :
    exec (.frameReceived p bytes) s = .next (badFrame p s) := by
  refine congrArg Host.Outcome.next ?_
  simp only [hr, (portUp_iff s p).mpr hup, true_and, if_true, receiveFrame, hb]

theorem exec_noiseCleanExpiry (hn : (portGet s.tlc p).noisy = true) : exec (.noiseCleanExpiry p) s = .next (portClean p s) :=
  congrArg Host.Outcome.next (if_pos ⟨hr, hn⟩)

end Noise

theorem portClean_newest {s : State} {p : Port} {t : Nat} (h : (portGet s.tlc p).badTimes.getLast? = some t) :
    portClean p s = modifyPort p (fun x => { x with noisy := false, badTimes := [] }) (s.advanceTo (t + 10000)) := by
  rw [portClean, h, Option.getD_some]

/-- Settles O22: an aborted frame and one that is no good frame are the same bad frame. -/
theorem badFramesMakeAPortNoisy : Obligations.BadFramesMakeAPortNoisy := by
  intro s p hr hup x recent times after noisy
  have hnine : 9 ≤ times.length ↔ 9 ≤ recent.length := noiseTimes_nine_iff s.now x.badTimes
  refine ⟨fun h => ?_, fun hn h => ?_, fun t hn ht => ?_⟩
  · have hb : badFrame p s = after := badFrame_quiet (h.imp_right fun hlt => Nat.not_le.mp fun hle => Nat.not_le.mpr hlt (hnine.mp hle))
    exact ⟨(exec_rxFrameAborted hr hup).trans (congrArg _ hb), fun bytes hg => (exec_frameReceived_bad hr hup hg).trans (congrArg _ hb)⟩
  · have hb : badFrame p s = noisy := badFrame_noisy hn (hnine.mpr h)
    exact ⟨(exec_rxFrameAborted hr hup).trans (congrArg _ hb), fun bytes hg => (exec_frameReceived_bad hr hup hg).trans (congrArg _ hb)⟩
  · rw [exec_noiseCleanExpiry hr hn, portClean_newest ht]
    rfl

/-! ### Sending (R98, R110, R111) -/

theorem exec_txPortFree {s : State} {p : Port} {x : Sending} (hr : s.running = true) (hx : (portGet s.tlc p).sending = some x) :
    exec (.txPortFree p) s = .next (portFree p x s) := by
  refine congrArg Host.Outcome.next ?_
  simp only [hr, hx]

/-- The symbol number `i` of a slot is sent from 10 i µs after its start (R98, R111). -/
theorem transmitted_slot {s : State} {p : Port} {x : Sending} {start i : Nat} (hr : s.running = true) (hup : (portGet s.tlc p).link = .up)
    (hx : (portGet s.tlc p).sending = some x) (hb : x.busyUntil = start + slotMicros x.frame) (h1 : start + 10 * i ≤ s.clock)
    (h2 : s.clock < start + 10 * i + 10) : transmitted s p = some (x.frame.slotSymbols.getD i .idle) := by
  have hi : (s.clock + slotMicros x.frame - x.busyUntil) / 10 = i := by omega
  simp only [transmitted, hr, if_true, hup, hx, hi]

theorem transmitted_notUp {s : State} {p : Port} (hr : s.running = true) (hl : (portGet s.tlc p).link ≠ .up) :
    transmitted s p = some .idle := by
  cases he : (portGet s.tlc p).link with
  | up => exact absurd he hl
  | down | training => simp only [transmitted, hr, if_true, he]

section Symbols
variable (f : Frame)

theorem slotSymbols_byte {i : Nat} {b : Byte} (hi : 1 ≤ i) (hb : f.bytes[i - 1]? = some b) : f.slotSymbols.getD i .idle = .data b := by
  obtain ⟨j, rfl⟩ := Nat.exists_eq_add_of_le' hi
  rw [Nat.add_sub_cancel] at hb
  obtain ⟨hj, hget⟩ := List.getElem?_eq_some_iff.mp hb
  simp [Frame.slotSymbols, Frame.symbols, List.getD_eq_getElem?_getD, List.getElem?_append, hj, hget]

theorem slotSymbols_end : f.slotSymbols.getD (f.payload.length + 7) .idle = .finish := by
  simp [Frame.slotSymbols, Frame.symbols, List.getD_eq_getElem?_getD, Frame.bytes_length]

theorem slotSymbols_after {i : Nat} (hi : f.payload.length + 8 ≤ i) : f.slotSymbols.getD i .idle = .idle := by
  have hl : f.symbols.length ≤ i := by simp [Frame.symbols, Frame.bytes_length]; omega
  rw [Frame.slotSymbols, List.getD_append_right _ _ _ _ hl, List.getD_eq_getElem?_getD, List.getElem?_replicate]
  split <;> rfl

end Symbols

/-- Settles O24: the arbiter's branches at a port whose slot has ended, and the symbols of a slot by their number. -/
theorem freePortSendsByClass : Obligations.FreePortSendsByClass := by
  refine ⟨?_, fun s p => ⟨fun hr => transmitted_dark hr p, fun hr h => ?_, fun x start i hr hup hx hb h1 h2 => ?_⟩⟩
  · intro s p x hr hup hx y clock put sent
    have hfree : exec (.txPortFree p) s = put (arbitrate clock { y with sending := none }) := exec_txPortFree hr hx
    have hy : y.link = .up := hup
    refine ⟨fun f rest hu => ?_, fun f rest hu hro => ?_, fun f rest hu hro hb => ?_, fun hu hro hb => ?_⟩ <;> rw [hfree] <;>
      simp [arbitrate, PortState.send, slotMicros, sent, *]
  · rcases h with hl | hs
    · exact transmitted_notUp hr hl
    · exact transmitted_idle hr p hs
  · have hslot := transmitted_slot hr hup hx hb h1 h2
    refine ⟨fun hi => ?_, fun b hi hbyte => ?_, fun hi => ?_, fun hi => ?_⟩
    · rw [hslot, hi]; rfl
    · rw [hslot, slotSymbols_byte _ hi hbyte]
    · rw [hslot, hi, slotSymbols_end]
    · rw [hslot, slotSymbols_after _ hi]

end Sys2Proof.Machine
end

section
/-! SUPPORT. The event queue, the alarm latches and the INT and LINK outputs (R100, R203, R205, R206): settled O47. -/

namespace Sys2Proof.Machine

/-! ### Sets of bits -/

/-- The bits of ACK_ALARMS that name no alarm (R205). -/
theorem getLsbD_unknownAlarms (n : Nat) : (0xFFC00000#32).getLsbD n = decide (22 ≤ n ∧ n < 32) := by
  by_cases hn : n < 32
  · have bitwise : ∀ i : Fin 32, (0xFFC00000#32).getLsbD i = decide (22 ≤ (i : Nat) ∧ (i : Nat) < 32) := by decide
    exact bitwise ⟨n, hn⟩
  · rw [BitVec.getLsbD_of_ge _ _ (by omega)]
    simp [hn]

theorem and_ne_zero_iff_exists_getLsbD (x y : BitVec 32) :
    x &&& y ≠ 0#32 ↔ ∃ n < 32, x.getLsbD n = true ∧ y.getLsbD n = true := by
  constructor
  · intro hne
    by_contra hno
    refine hne (BitVec.eq_of_getLsbD_eq fun n hn => ?_)
    rw [BitVec.getLsbD_and, BitVec.getLsbD_zero, Bool.and_eq_false_iff]
    by_contra hboth
    exact hno ⟨n, hn, by simpa using hboth⟩
  · rintro ⟨n, -, hx, hy⟩ hz
    have hbit := congrArg (·.getLsbD n) hz
    simp [hx, hy] at hbit

/-- The test of ACK_ALARMS for a bit that names no alarm (R205). -/
theorem namesUnknownAlarm_iff (bits : BitVec 32) :
    bits &&& 0xFFC00000#32 ≠ 0#32 ↔ ∃ n, 22 ≤ n ∧ bits.getLsbD n = true := by
  rw [and_ne_zero_iff_exists_getLsbD]
  constructor
  · rintro ⟨n, -, hbit, hmask⟩
    rw [getLsbD_unknownAlarms, decide_eq_true_iff] at hmask
    exact ⟨n, hmask.1, hbit⟩
  · rintro ⟨n, hn, hbit⟩
    have hlt : n < 32 := BitVec.lt_of_getLsbD hbit
    exact ⟨n, hlt, hbit, by rw [getLsbD_unknownAlarms]; exact decide_eq_true ⟨hn, hlt⟩⟩

theorem clearAlarmBits_getLsbD (alarms bits : BitVec 32) (n : Nat) :
    (clearAlarmBits alarms bits).getLsbD n = (alarms.getLsbD n && !bits.getLsbD n) := by
  by_cases hn : n < 32
  · simp [clearAlarmBits, hn]
  · simp [clearAlarmBits, BitVec.getLsbD_of_ge alarms n (by omega)]

/-! ### The event queue and the lost notice (R203) -/

section Events
variable {s : State}

theorem offerEvent_of_room (e : Event) (h : s.spc.events.length < 64) :
    offerEvent e s = { s with spc := { s.spc with events := s.spc.events ++ [⟨s.now, e⟩] } } :=
  if_pos h

theorem offerEvent_of_full (e : Event) (h : 64 ≤ s.spc.events.length) :
    offerEvent e s = { s with spc := { s.spc with
      lostCount := min 65535 (s.spc.lostCount + 1), alarms := s.spc.alarms ||| (1#32 <<< 21), lostOwed := true } } :=
  if_neg (Nat.not_lt.mpr h)

theorem raiseAlarm_of_room (a : Alarm) (detail : Nat) (h : s.spc.events.length < 64) :
    raiseAlarm a detail s = { s with spc := { s.spc with
      alarms := s.spc.alarms ||| (1#32 <<< a.bit), events := s.spc.events ++ [⟨s.now, .alarm a.bit detail none⟩] } } :=
  offerEvent_of_room (s := { s with spc := { s.spc with alarms := setAlarmBit s.spc.alarms a } }) _ h

theorem queueLostNotice_of_owed (howed : s.spc.lostOwed = true) (h : s.spc.events.length < 64) :
    queueLostNotice s = { s with spc := { s.spc with
      events := s.spc.events ++ [⟨s.now, .alarm 21 0 (some s.spc.lostCount)⟩], lostOwed := false } } := by
  rcases queueLostNotice_cases s with ⟨-, heq⟩ | ⟨hno, -⟩
  · exact heq
  · exact absurd ⟨howed, h⟩ hno

theorem queueLostNotice_of_not_due (h : s.spc.lostOwed = false ∨ 64 ≤ s.spc.events.length) : queueLostNotice s = s := by
  rcases queueLostNotice_cases s with ⟨⟨howed, hroom⟩, -⟩ | ⟨-, heq⟩
  · rcases h with hno | hfull
    · simp [hno] at howed
    · omega
  · exact heq

end Events

/-! ### ACK_ALARMS (R205) -/

section Acknowledgement
variable {s : State}

theorem exec_ackAlarms (hr : s.running = true) (bits : BitVec 32) :
    exec (.ackAlarms bits) s = .next (ackAlarms bits s) := by
  have arm : exec (.ackAlarms bits) s = .next (whenRunning (ackAlarms bits) s) := rfl
  rw [arm, whenRunning, if_pos hr]

theorem ackAlarms_of_unknown {bits : BitVec 32} (h : ∃ n, 22 ≤ n ∧ bits.getLsbD n = true) :
    ackAlarms bits s = respond .refused [3] s :=
  if_pos ((namesUnknownAlarm_iff bits).mpr h)

theorem ackAlarms_of_known {bits : BitVec 32} (h : ∀ n, 22 ≤ n → bits.getLsbD n = false) :
    ackAlarms bits s = respond .ok [] { s with spc := { s.spc with
      alarms := clearAlarmBits s.spc.alarms bits
      lostCount := if bits.getLsbD 21 = true then 0 else s.spc.lostCount } } := by
  refine if_neg fun hne => ?_
  obtain ⟨n, hn, hbit⟩ := (namesUnknownAlarm_iff bits).mp hne
  simp [h n hn] at hbit

end Acknowledgement

/-! ### The outputs INT and LINK (R100, R206) -/

section Outputs
variable {s : State}

theorem linkAsserted_iff : linkAsserted s = true ↔ s.cfl.load = .run := beq_iff_eq

theorem intAsserted_loading (h : s.cfl.load = .loading) : intAsserted s = false := by rw [intAsserted, h]

theorem intAsserted_configFault (h : s.cfl.load = .configFault) : intAsserted s = true := by rw [intAsserted, h]

theorem alarmUnmasked_iff (alarms mask : BitVec 32) :
    (alarms &&& ~~~mask) ≠ 0#32 ↔ ∃ n < 32, alarms.getLsbD n = true ∧ mask.getLsbD n = false := by
  rw [and_ne_zero_iff_exists_getLsbD]
  refine exists_congr fun n => and_congr_right fun hn => ?_
  simp [hn]

theorem intAsserted_run (h : s.cfl.load = .run) : intAsserted s = true ↔ s.cfg.eventWatermark ≤ s.spc.events.length
    ∨ ∃ n < 32, s.spc.alarms.getLsbD n = true ∧ s.cfg.alarmMask.getLsbD n = false := by
  rw [intAsserted, h, ← alarmUnmasked_iff]
  exact Bool.or_eq_true_iff.trans (or_congr decide_eq_true_iff bne_iff_ne)

end Outputs

/-- Settles O47: the rules of the event queue, of ACK_ALARMS and of the outputs, put together. -/
theorem eventsAndAlarmsAreKept : Obligations.EventsAndAlarmsAreKept := by
  intro s e
  refine ⟨offerEvent_of_room e, offerEvent_of_full e, fun a detail => raiseAlarm_of_room a detail,
    fun howed hroom => congrArg _ (queueLostNotice_of_owed howed hroom), fun h => congrArg _ (queueLostNotice_of_not_due h),
    fun bits hr => ?ack, linkAsserted_iff, intAsserted_loading, intAsserted_configFault, intAsserted_run⟩
  case ack =>
    rw [exec_ackAlarms hr]
    refine ⟨fun hbad => congrArg _ (ackAlarms_of_unknown hbad), fun hgood => ⟨_, rfl, fun n => ?_, ?_⟩⟩
    · rw [ackAlarms_of_known hgood]
      exact clearAlarmBits_getLsbD s.spc.alarms bits n
    · rw [ackAlarms_of_known hgood]
      rfl

end Sys2Proof.Machine
end

section
/-! SUPPORT. Joining the line (chapter 7): the attempts of a transfer (R118, R119), the answer to an ASK and the gap it can show (R120 to R122), the
items handed on (R123) and the end of sequence learning (R129), the obligations O36, O38 and O39. -/

namespace Sys2Proof.Machine

/-! ### The attempts of a transfer (R118, R119) -/

theorem askPayload_present (mark : Nat) (n : SeqNo) : askPayload mark (some n) = natBytes 4 mark ++ 1 :: natBytes 2 n.toNat := rfl

theorem askPayload_absent (mark : Nat) : askPayload mark none = natBytes 4 mark ++ [0, 0, 0] := rfl

section Attempts
variable {s : State}

theorem sendAskIfDue_sends (hn : s.nonOrigin = true) (hd : s.trs.askDue = true) (hs : s.trs.sync = .unsynced)
    (hup : s.tlc.upPort.link = .up ∨ s.tlc.downPort.link = .up) : sendAskIfDue s = sendAsk 1 s := by
  rw [sendAskIfDue_due hn hs hd, if_pos ((anyPortUp_iff s).mpr hup)]

theorem sendAskIfDue_not_unsynced (h : s.trs.sync ≠ .unsynced) : sendAskIfDue s = s := by simp [sendAskIfDue, askReady, h]

/-- Without an ASK due, away from UNSYNCED or with no port UP, no ASK is sent (R118). -/
theorem sendAskIfDue_waits (h : s.trs.askDue = false ∨ s.trs.sync ≠ .unsynced ∨ ¬ (s.tlc.upPort.link = .up ∨ s.tlc.downPort.link = .up)) :
    sendAskIfDue s = s := by
  rcases h with h | h | h
  · exact sendAskIfDue_none h
  · exact sendAskIfDue_not_unsynced h
  · exact sendAskIfDue_dark (not_or.mp h).1 (not_or.mp h).2

variable (hn : s.nonOrigin = true) {due : Nat}
include hn

theorem exec_transferTimerExpiry_retries (ht : s.trs.transferTimer = some due) (ha : s.trs.attempts < 3) :
    exec .transferTimerExpiry s = .next (sendAsk (s.trs.attempts + 1) (s.advanceTo due)) := by
  refine congrArg Host.Outcome.next ?_
  simp only [hn, if_true, transferExpired, ht, advanceTo_trs, ha]

theorem exec_transferTimerExpiry_givesUp (ht : s.trs.transferTimer = some due) (ha : s.trs.attempts = 3) :
    exec .transferTimerExpiry s = .next (offerEvent .trainUnsynced (putTrs (fun t => { t with
      sync := .unsynced, attempts := 0, adopted := none, held := [], transferTimer := none
      reAskTimer := some ((s.advanceTo due).now + 30000) }) (s.advanceTo due))) := by
  refine congrArg Host.Outcome.next ?_
  simp only [hn, if_true, transferExpired, ht, advanceTo_trs, ha, Nat.lt_irrefl, if_false]
  rfl

theorem exec_reAskTimerExpiry_due (ht : s.trs.reAskTimer = some due) : exec .reAskTimerExpiry s
    = .next (sendAskIfDue (putTrs (fun t => { t with reAskTimer := none, askDue := true }) (s.advanceTo due))) := by
  refine congrArg Host.Outcome.next ?_
  simp only [hn, if_true, reAskExpired, ht]

end Attempts

/-- Settles O38: every ASK of the transfer is `sendAsk` of its attempt, at the clock its command has moved to. -/
theorem asksAreTriedThreeTimes : Obligations.AsksAreTriedThreeTimes := by
  intro s hn up newest asking
  have hasking (n : Nat) (t : State) (hcfg : t.cfg = s.cfg) (htrain : t.trs.train = s.trs.train) : sendAsk n t = asking n t := by
    have hpayload : askPayload t.cfg.mark ((newestEntry t.trs.train).map (·.seq)) = askPayload s.cfg.mark newest := by
      rw [hcfg, htrain]; rfl
    simp only [sendAsk, hpayload, asking]
    cases newest with
    | some m => rw [askPayload_present]
    | none => rw [askPayload_absent]
  refine ⟨fun hd hs hup => ?_, fun h => congrArg _ (sendAskIfDue_waits h), ?transfer, ?reAsk⟩
  · exact congrArg _ ((sendAskIfDue_sends hn hd hs hup).trans (hasking 1 s rfl rfl))
  case transfer =>
    intro due ht late
    refine ⟨fun ha => ?_, fun ha => exec_transferTimerExpiry_givesUp hn ht ha⟩
    rw [exec_transferTimerExpiry_retries hn ht ha]
    exact congrArg _ (hasking _ late rfl rfl)
  case reAsk =>
    intro due ht late
    rw [exec_reAskTimerExpiry_due hn ht]
    refine ⟨fun hs hup => ?_, fun h => congrArg _ (sendAskIfDue_waits (s := late) (.inr h))⟩
    exact congrArg _ ((sendAskIfDue_sends (s := late) hn rfl hs hup).trans (hasking 1 late rfl rfl))

/-! ### The items of an answer handed on (R123) -/

theorem bulkHasRoom_iff (s : State) : bulkHasRoom s = true ↔
    ¬ (s.tlc.upPort.link = .up ∧ 24 ≤ s.tlc.upPort.bulk.length) ∧ ¬ (s.tlc.downPort.link = .up ∧ 24 ≤ s.tlc.downPort.bulk.length) := by
  have hfull (p : Port) : (portUp s p && queueFull s p .bulk) = true
      ↔ (portGet s.tlc p).link = .up ∧ 24 ≤ (portGet s.tlc p).bulk.length := by
    rw [Bool.and_eq_true, portUp_iff]
    exact and_congr_right fun _ => decide_eq_true_iff
  rw [bulkHasRoom, Bool.and_eq_true, Bool.not_eq_true', Bool.not_eq_true', ← Bool.not_eq_true, ← Bool.not_eq_true]
  exact and_congr (not_congr (hfull .up)) (not_congr (hfull .down))

section Items
variable {s : State} {p : List Byte} {rest : List (List Byte)} (hr : s.running = true) (ha : s.trs.answer = p :: rest)
include hr ha

theorem exec_answerItemHanded_room (h : bulkHasRoom s = true) :
    exec .answerItemHanded s = .next (sendOwn .item p (putTrs (fun t => { t with answer := rest }) s)) := by
  refine congrArg Host.Outcome.next ?_
  simp only [hr, if_true, handItem, ha, h]

theorem exec_answerItemHanded_full (h : bulkHasRoom s = false) : exec .answerItemHanded s = .next s := by
  refine congrArg Host.Outcome.next ?_
  simp [hr, handItem, ha, h]

end Items

/-! ### The end of sequence learning (R129) -/

theorem changeoverDue_without_order {s : State} (h : s.lsc.orders = []) : changeoverDue s = false := by simp [changeoverDue, h]

/-- With no order waiting the end of learning starts no changeover (R187). -/
theorem exec_learnTimerExpiry_without_order {s : State} {due : Nat} (ho : s.hasRole .origin = true) (hw : s.lsc.orders = [])
    (ht : s.trs.learnTimer = some due) : exec .learnTimerExpiry s = .next (offerEvent .trainSynced
      (putLsc (fun l => { l with nextSeq := some (sequenceLearned s.trs.learned) })
        (putTrs (fun t => { t with sync := .synced, learnTimer := none }) (s.advanceTo due)))) := by
  refine congrArg Host.Outcome.next ?_
  simp only [ho, if_true, learningEnds, ht]
  refine judgeChangeover_idle (.inl (changeoverDue_without_order ?_))
  rw [offerEvent_lsc]
  exact hw

/-- Settles O39: the answer waits for the BULK queues, and the learned sequence is followed by its successor. -/
theorem answersAreHandedAndLearningEnds : Obligations.AnswersAreHandedAndLearningEnds := by
  intro s
  constructor
  · intro p rest hr ha full
    refine ⟨fun hup hdown => exec_answerItemHanded_room hr ha ((bulkHasRoom_iff s).mpr ⟨hup, hdown⟩), fun hfull => ?_⟩
    refine exec_answerItemHanded_full hr ha (Bool.eq_false_iff.mpr fun hroom => ?_)
    obtain ⟨hup, hdown⟩ := (bulkHasRoom_iff s).mp hroom
    exact hfull.elim hup hdown
  · intro due ho hw ht
    rw [exec_learnTimerExpiry_without_order ho hw ht]
    cases s.trs.learned <;> rfl

/-! ### The answer to an ASK (R120, R122) -/

theorem askValid_iff (a : AskMsg) : askValid a = true ↔ a.mark ≤ 2000000000 ∧ a.present ≤ 1 := by simp [askValid]

theorem answersAsk_iff (s : State) (a : AskMsg) : answersAsk s a = true ↔ s.trs.sync = .synced ∧ s.cfg.mark < a.mark
    ∧ ∀ p ∈ s.prt.peers, ¬ (p.standing = .good ∧ s.cfg.mark < p.mark ∧ p.mark < a.mark) := by
  simp [answersAsk, and_assoc]

theorem askShowsGap_iff (s : State) (a : AskMsg) : askShowsGap s a = true ↔ s.nonOrigin = true ∧ s.trs.sync = .synced ∧ s.cfg.mark < a.mark
    ∧ a.present = 1 ∧ s.trs.train.getLast?.all (fun e => seqAfter a.seq e.seq) = true := by
  simp only [askShowsGap, newestEntry, Bool.and_eq_true, beq_iff_eq, decide_eq_true_eq, and_assoc]

section TakeAsk
variable {s : State} {a : AskMsg} (sender : Nat)

/-- An ASK that fails the checks of R120, or that the chip neither answers nor takes for a gap, changes nothing. -/
theorem takeAsk_ignored (h : askValid a = true → answersAsk s a = false ∧ askShowsGap s a = false) : takeAsk sender a s = s := by
  unfold takeAsk
  split
  · next hv =>
    obtain ⟨hanswer, hgap⟩ := h hv
    simp [hanswer, hgap]
  · rfl

theorem takeAsk_answered (hv : askValid a = true) (hanswer : answersAsk s a = true) (hgap : askShowsGap s a = false) :
    takeAsk sender a s = putTrs (fun t => { t with answer := buildAnswer s sender a.mark }) s := by
  have hgap' : askShowsGap (putTrs (fun t => { t with answer := buildAnswer s sender a.mark }) s) a = false := hgap
  simp [takeAsk, hv, hanswer, hgap']

theorem takeAsk_gap (hv : askValid a = true) (hanswer : answersAsk s a = false) (hgap : askShowsGap s a = true) :
    takeAsk sender a s = raiseGap s := by
  simp [takeAsk, hv, hanswer, hgap]

end TakeAsk

/-- A gap at a SYNCED chip with no port UP: the ASK it makes due waits (R118, R121). -/
theorem raiseGap_dark {s : State} (hn : s.nonOrigin = true) (hs : s.trs.sync = .synced) (hu : s.tlc.upPort.link ≠ .up)
    (hd : s.tlc.downPort.link ≠ .up) :
    raiseGap s = raiseAlarm .trainGap 0 { s with trs := { s.trs with sync := .unsynced, askDue := true } } := by
  rw [raiseGap, leaveSynced, raiseAlarm_alarmed, raiseAlarm_alarmed, if_pos]
  · exact sendAskIfDue_dark hu hd
  · exact (Bool.and_eq_true _ _).mpr ⟨hn, beq_iff_eq.mpr hs⟩

section Answer
variable {s : State} (mark : Nat)

theorem buildAnswer_empty (h : s.trs.train = []) (requester : Nat) : buildAnswer s requester mark = [emptyAnswerPayload requester] := by
  simp [buildAnswer, h]

theorem buildAnswer_entries (h : s.trs.train ≠ []) {chosen : List Entry} (hc : answerEntries s mark = chosen) (requester : Nat) :
    buildAnswer s requester mark = chosen.zipIdx.map fun x => itemPayload requester (x.2 + 1) chosen.length x.1 (position s x.1) := by
  simp [buildAnswer, h, hc]

/-- Where no two entries share a sequence, the newest one beyond the mark is told by its sequence (R1, R122). -/
theorem newestBeyond_eq_some_iff (hd : (s.trs.train.map (·.seq)).Nodup) {e : Entry} (he : e ∈ s.trs.train) :
    newestBeyond s mark = some e.seq ↔ (s.trs.train.filter fun x => (mark : Int) ≤ position s x).getLast? = some e := by
  rw [newestBeyond, Option.map_eq_some_iff]
  constructor
  · rintro ⟨x, hx, hseq⟩
    have hmem : x ∈ s.trs.train := List.mem_of_mem_filter (List.mem_of_getLast? hx)
    rw [hx, List.inj_on_of_nodup_map hd hmem he hseq]
  · exact fun h => ⟨e, h, rfl⟩

theorem answerEntries_eq (hd : (s.trs.train.map (·.seq)).Nodup) : answerEntries s mark = s.trs.train.filter fun e =>
    position s e < (mark : Int) || (s.trs.train.filter fun x => (mark : Int) ≤ position s x).getLast? == some e := by
  refine List.filter_congr fun e he => congrArg (_ || ·) ?_
  rw [Bool.eq_iff_iff, beq_iff_eq, beq_iff_eq]
  exact newestBeyond_eq_some_iff mark hd he

end Answer

theorem emptyAnswerPayload_toNat (b : Byte) : emptyAnswerPayload b.toNat = [b, 1, 0] := by
  have hb : natBytes 1 b.toNat = [b] := by simp [natBytes, b.isLt]
  rw [emptyAnswerPayload, hb]
  rfl

section Taken
variable {s : State} {f : RxFrame} {rest : List RxFrame} (hr : s.running = true) (hq : s.tlc.rxQueue = f :: rest)
  (hk : f.frame.kindOf = some .ask)
include hr hq hk

theorem exec_askTaken : exec .askTaken s = .next (dropReceived (takeAsk f.sender (readAsk f.frame.payload) s)) := by
  show execAskTaken s = _
  rw [execAskTaken, headFrame_cons hr hq hk]

theorem exec_askTaken_ignored (h : askValid (readAsk f.frame.payload) = true →
      answersAsk s (readAsk f.frame.payload) = false ∧ askShowsGap s (readAsk f.frame.payload) = false) :
    exec .askTaken s = .next { s with tlc := { s.tlc with rxQueue := rest } } := by
  rw [exec_askTaken hr hq hk, takeAsk_ignored f.sender h, dropReceived_cons hq]

variable (hv : askValid (readAsk f.frame.payload) = true)
include hv

theorem exec_askTaken_answers (hanswer : answersAsk s (readAsk f.frame.payload) = true)
    (hgap : askShowsGap s (readAsk f.frame.payload) = false) : exec .askTaken s = .next { s with
      tlc := { s.tlc with rxQueue := rest }
      trs := { s.trs with answer := buildAnswer s f.sender (readAsk f.frame.payload).mark } } := by
  rw [exec_askTaken hr hq hk, takeAsk_answered f.sender hv hanswer hgap]
  exact congrArg Host.Outcome.next (dropReceived_cons (f := f) (rest := rest) hq)

theorem exec_askTaken_gap (hanswer : answersAsk s (readAsk f.frame.payload) = false)
    (hgap : askShowsGap s (readAsk f.frame.payload) = true) (hu : s.tlc.upPort.link ≠ .up) (hd : s.tlc.downPort.link ≠ .up) :
    exec .askTaken s = .next (raiseAlarm .trainGap 0 { s with
      tlc := { s.tlc with rxQueue := rest }
      trs := { s.trs with sync := .unsynced, askDue := true } }) := by
  obtain ⟨hn, hs, -⟩ := (askShowsGap_iff s _).mp hgap
  rw [exec_askTaken hr hq hk, takeAsk_gap f.sender hv hanswer hgap, raiseGap_dark hn hs hu hd, raiseAlarm_alarmed, raiseAlarm_alarmed]
  exact congrArg Host.Outcome.next (dropReceived_cons (f := f) (rest := rest) hq)

end Taken

/-- Settles O36: a chip that answers builds the answer of R122, and only an ASK with a newest sequence can show a gap. -/
theorem askIsAnswered : Obligations.AskIsAnswered := by
  constructor
  · intro s f rest hr hq hk habsent mark between dropped
    have hgap : askShowsGap s (readAsk f.frame.payload) = false := by
      rw [← Bool.not_eq_true, askShowsGap_iff]
      rintro ⟨-, -, -, hpresent, -⟩
      exact absurd (habsent.symm.trans hpresent) (by decide)
    refine ⟨fun hnot => exec_askTaken_ignored hr hq hk fun hv => ⟨?_, hgap⟩, fun hs hm hlt hnone => ?_⟩
    · rw [← Bool.not_eq_true, answersAsk_iff]
      rintro ⟨hs, hm, hnone⟩
      rcases hnot with h | h | h | ⟨p, hp, hbetween⟩
      · exact h hs
      · exact Nat.not_lt.mpr h hm
      · exact Nat.not_lt.mpr ((askValid_iff _).mp hv).1 h
      · exact hnone p hp hbetween
    · have hv : askValid (readAsk f.frame.payload) = true := (askValid_iff _).mpr ⟨hlt, habsent.trans_le (Nat.zero_le 1)⟩
      have hexec := exec_askTaken_answers hr hq hk hv ((answersAsk_iff s _).mpr ⟨hs, hm, hnone⟩) hgap
      refine ⟨fun hempty => ?_, fun hne hnodup => ?_⟩
      · rw [hexec, buildAnswer_empty _ hempty, RxFrame.sender, emptyAnswerPayload_toNat]
      · intro place beyond chosen
        have hchosen : answerEntries s (readAsk f.frame.payload).mark = chosen := answerEntries_eq mark hnodup
        rw [hexec, buildAnswer_entries _ hne hchosen]
        rfl
  · intro s f rest hr hq hk mark newest hpresent hs hm hlt hbetween hu hd dropped shows
    have hrun := running_of_hasRole hr
    have hv : askValid (readAsk f.frame.payload) = true := (askValid_iff _).mpr ⟨hlt, hpresent.le⟩
    have hanswer : answersAsk s (readAsk f.frame.payload) = false := by
      obtain ⟨p, hp, h⟩ := hbetween
      rw [← Bool.not_eq_true, answersAsk_iff]
      exact fun ⟨_, _, hnone⟩ => hnone p hp h
    have hgap : askShowsGap s (readAsk f.frame.payload) = true ↔ shows :=
      (askShowsGap_iff s _).trans
        ⟨fun ⟨_, _, _, _, h⟩ => h, fun h => ⟨nonOrigin_of_hasRole hr (by decide), hs, hm, hpresent, h⟩⟩
    refine ⟨fun h => exec_askTaken_gap hrun hq hk hv hanswer (hgap.mpr h) hu hd, fun h => ?_⟩
    exact exec_askTaken_ignored hrun hq hk fun _ => ⟨hanswer, Bool.eq_false_iff.mpr (mt hgap.mp h)⟩

end Sys2Proof.Machine
end

section
/-! SUPPORT. CSQ at all times, in its two shapes: shut, and open with a record whose volumes add up to C and whose actions are in order. What the
single updates and the cutting operations keep of it. -/

namespace Sys2Proof.Machine

/-! ### Shut and open -/

/-- A record is open in the state (R133). -/
def CutState.hasRecord : CutState → Bool
  | .armed | .mixing | .settling => true
  | .unknown | .steady | .held => false

/-- The start count and the three volumes of a record (R137). -/
def OpenCut.total (r : OpenCut) : Nat := r.start + r.volumeA + r.volumeX + r.volumeB

/-- The due count of a threshold's action that is reached now (R141). -/
def State.latestDue (s : State) : Nat := s.mtr.count + s.cfg.lead - s.cfg.antic

/-- The actions of the record `r`, in the order of their due counts, none due after `latest` (R141, R142). -/
structure QueueSafe (latest : Nat) (r : OpenCut) (l : List Action) : Prop where
  heads : (l.filter fun a => a.kind == .head).length ≤ 1
  finals : (l.filter fun a => a.kind == .final).length ≤ 1
  kinds : ∀ a ∈ l, a.kind = .head ∨ a.kind = .final
  references : ∀ a ∈ l, a.reference = r.first
  headReached : ∀ a ∈ l, a.kind = .head → r.headReached = true
  finalReached : ∀ a ∈ l, a.kind = .final → r.finalReached = true
  rising : l.Pairwise fun a b => a.due ≤ b.due
  bounded : ∀ a ∈ l, a.due ≤ latest

/-- CSQ without a record: nothing is queued and nothing is left to settle (R142, R145). -/
structure CutShut (q : Csq) : Prop where
  record : q.record = none
  state : q.state.hasRecord = false
  queue : q.queue = []
  settle : q.settleRemaining = 0

/-- CSQ with the record `r` at C = `count` (R137, R142). -/
structure CutOpen (count latest : Nat) (r : OpenCut) (q : Csq) : Prop where
  record : q.record = some r
  state : q.state.hasRecord = true
  total : r.total = count
  queue : QueueSafe latest r q.queue

/-- The volumes of every logged cut add up to its end count (R146). -/
def LogRight (l : List LogRecord) : Prop := ∀ r, LogRecord.cut r ∈ l → r.start + r.volumeA + r.volumeX + r.volumeB = r.finish

/-- CSQ safe at a chip that is a TERMINUS in RUN when `k` says so, and that has no record otherwise. -/
structure CutKept (k : Bool) (s : State) : Prop where
  role : s.hasRole .terminus = k
  logged : LogRight s.spc.cutLog
  cut : CutShut s.csq ∨ (k = true ∧ ∃ r, CutOpen s.mtr.count s.latestDue r s.csq)

theorem CutState.hasRecord_eq (x : CutState) : x.hasRecord = (x == .armed || x == .mixing || x == .settling) := by cases x <;> rfl

theorem CutKept.safe {k : Bool} {s : State} (h : CutKept k s) : CutSafe s := by
  rcases h.cut with hs | ⟨hk, r, ho⟩
  · have hnil := hs.queue
    have hrec := hs.record
    refine ⟨?_, fun _ => ⟨hnil, hs.settle⟩, ?_, h.logged, ?_, ?_, ?_, ?_, ?_, ?_⟩
    · rw [← CutState.hasRecord_eq, hs.state, hrec]; rfl
    all_goals simp [hnil, hrec]
  · obtain ⟨hrec, hstate, htotal, hq⟩ := ho
    refine ⟨?_, fun hn => absurd (hrec.symm.trans hn) nofun, fun x hx => ?_, h.logged, hq.heads, hq.finals, hq.kinds, fun a ha x hx => ?_,
      hq.rising, hq.bounded⟩
    · rw [← CutState.hasRecord_eq, hstate, hrec]; rfl
    · obtain rfl := Option.some.inj (hrec.symm.trans hx)
      exact ⟨h.role.trans hk, htotal⟩
    · obtain rfl := Option.some.inj (hrec.symm.trans hx)
      exact ⟨hq.references a ha, hq.headReached a ha, hq.finalReached a ha⟩

theorem cutKept_of_safe {s : State} (h : CutSafe s) : CutKept (s.hasRole .terminus) s := by
  refine ⟨rfl, h.logged, ?_⟩
  have hstate := h.record
  rw [← CutState.hasRecord_eq] at hstate
  cases hrec : s.csq.record with
  | none =>
    rw [hrec] at hstate
    exact .inl ⟨hrec, hstate.symm, (h.rest hrec).1, (h.rest hrec).2⟩
  | some r =>
    rw [hrec] at hstate
    obtain ⟨hrole, htotal⟩ := h.counted r hrec
    exact .inr ⟨hrole, r, hrec, hstate.symm, htotal, h.heads, h.finals, h.kinds, fun a ha => (h.reached a ha r hrec).1,
      fun a ha => (h.reached a ha r hrec).2.1, fun a ha => (h.reached a ha r hrec).2.2, h.rising, h.bounded⟩

/-- A chip without a record is safe, whatever its role and its counts. -/
theorem cutSafe_of_shut {s : State} (hs : CutShut s.csq) (hl : LogRight s.spc.cutLog) : CutSafe s :=
  CutKept.safe (k := s.hasRole .terminus) ⟨rfl, hl, .inl hs⟩

section Shapes
variable {k : Bool} {s : State} (h : CutKept k s)
include h

theorem CutKept.shut (hr : s.csq.record = none) : CutShut s.csq := by
  rcases h.cut with hs | ⟨-, r, ho⟩
  · exact hs
  · exact absurd (ho.record.symm.trans hr) nofun

theorem CutKept.shut_of_state (hr : s.csq.state.hasRecord = false) : CutShut s.csq := by
  rcases h.cut with hs | ⟨-, r, ho⟩
  · exact hs
  · exact absurd (ho.state.symm.trans hr) nofun

theorem CutKept.opened {r : OpenCut} (hr : s.csq.record = some r) : CutOpen s.mtr.count s.latestDue r s.csq := by
  rcases h.cut with hs | ⟨-, x, ho⟩
  · exact absurd (hr.symm.trans hs.record) nofun
  · obtain rfl := Option.some.inj (hr.symm.trans ho.record)
    exact ho

theorem CutKept.atTerminus {r : OpenCut} (hr : s.csq.record = some r) : k = true := by
  rcases h.cut with hs | ⟨hk, -⟩
  · exact absurd (hr.symm.trans hs.record) nofun
  · exact hk

end Shapes

/-! ### Queues -/

section Queue
variable {latest : Nat} {r r' : OpenCut} {l l' : List Action}

theorem queueSafe_nil : QueueSafe latest r [] := ⟨by simp, by simp, nofun, nofun, nofun, nofun, .nil, nofun⟩

/-- Actions that leave the queue (R143, R149). -/
theorem QueueSafe.sublist (h : QueueSafe latest r l) (hl : List.Sublist l' l) : QueueSafe latest r l' :=
  ⟨(hl.filter _).length_le.trans h.heads, (hl.filter _).length_le.trans h.finals, fun a ha => h.kinds a (hl.subset ha),
    fun a ha => h.references a (hl.subset ha), fun a ha => h.headReached a (hl.subset ha), fun a ha => h.finalReached a (hl.subset ha),
    h.rising.sublist hl, fun a ha => h.bounded a (hl.subset ha)⟩

/-- The record changed, its first sequence kept and no threshold of a queued action made unreached. -/
theorem QueueSafe.record (h : QueueSafe latest r l) (hf : r'.first = r.first)
    (hh : (∃ a ∈ l, a.kind = .head) → r.headReached = true → r'.headReached = true)
    (hn : (∃ a ∈ l, a.kind = .final) → r.finalReached = true → r'.finalReached = true) : QueueSafe latest r' l :=
  { h with
    references := fun a ha => (h.references a ha).trans hf.symm
    headReached := fun a ha hk => hh ⟨a, ha, hk⟩ (h.headReached a ha hk)
    finalReached := fun a ha hk => hn ⟨a, ha, hk⟩ (h.finalReached a ha hk) }

/-- The action of a threshold that is reached joins a queue without one of its kind, behind every other (R141, R142). -/
theorem QueueSafe.append (h : QueueSafe latest r l) {a : Action} (hk : a.kind = .head ∨ a.kind = .final) (hn : ∀ b ∈ l, b.kind ≠ a.kind)
    (href : a.reference = r.first) (hh : a.kind = .head → r.headReached = true) (hf : a.kind = .final → r.finalReached = true)
    (hd : a.due = latest) : QueueSafe latest r (l ++ [a]) := by
  have hone (k : ActionKind) (hl : (l.filter fun b => b.kind == k).length ≤ 1) : ((l ++ [a]).filter fun b => b.kind == k).length ≤ 1 := by
    by_cases hak : a.kind = k
    · have hnone : (l.filter fun b => b.kind == k) = [] := List.filter_eq_nil_iff.mpr fun b hb => by simpa [← hak] using hn b hb
      simp [List.filter_append, hnone, hak]
    · simpa [List.filter_append, hak] using hl
  have hall {P : Action → Prop} (hl : ∀ b ∈ l, P b) (ha : P a) : ∀ b ∈ l ++ [a], P b := fun b hb => by
    rcases List.mem_append.mp hb with hb | hb
    · exact hl b hb
    · rw [List.mem_singleton.mp hb]; exact ha
  refine ⟨hone _ h.heads, hone _ h.finals, hall h.kinds hk, hall h.references href, hall h.headReached hh, hall h.finalReached hf, ?_,
    hall h.bounded hd.le⟩
  refine List.pairwise_append.mpr ⟨h.rising, List.pairwise_singleton _ _, fun b hb c hc => ?_⟩
  rw [List.mem_singleton.mp hc, hd]
  exact h.bounded b hb

end Queue

/-! ### Updates that leave the cut alone -/

/-- The part of the state that `CutKept` speaks of. -/
def cutView (s : State) : Cfl × Nat × Csq × List LogRecord := (s.cfl, s.mtr.count, s.csq, s.spc.cutLog)

theorem cutKept_congr {k : Bool} {s t : State} (hv : cutView t = cutView s) (h : CutKept k s) : CutKept k t := by
  simp only [cutView, Prod.mk.injEq] at hv
  obtain ⟨hc, hm, hq, hl⟩ := hv
  exact ⟨by simpa [State.hasRole, State.running, hc] using h.role, hl ▸ h.logged, by simpa [State.latestDue, State.cfg, hc, hm, hq] using h.cut⟩

theorem cutKept_iff_of_view {k : Bool} {s t : State} (hv : cutView t = cutView s) : CutKept k t ↔ CutKept k s :=
  ⟨cutKept_congr hv.symm, cutKept_congr hv⟩

section Updates
variable {k : Bool} (s : State)

@[simp] theorem cutKept_choices (n : Nat) : CutKept k { s with choices := n } ↔ CutKept k s := cutKept_iff_of_view rfl
@[simp] theorem cutKept_clock (n : Nat) : CutKept k { s with clock := n } ↔ CutKept k s := cutKept_iff_of_view rfl
@[simp] theorem cutKept_trs (x : Trs) : CutKept k { s with trs := x } ↔ CutKept k s := cutKept_iff_of_view rfl
@[simp] theorem cutKept_prt (x : Prt) : CutKept k { s with prt := x } ↔ CutKept k s := cutKept_iff_of_view rfl
@[simp] theorem cutKept_tlc (x : Tlc) : CutKept k { s with tlc := x } ↔ CutKept k s := cutKept_iff_of_view rfl
@[simp] theorem cutKept_advanceTo (n : Nat) : CutKept k (s.advanceTo n) ↔ CutKept k s := cutKept_iff_of_view rfl
@[simp] theorem cutKept_nudges (l : List Nudge) : CutKept k { s with mtr := { s.mtr with nudges := l } } ↔ CutKept k s :=
  cutKept_iff_of_view rfl
@[simp] theorem cutKept_putTrs (f : Trs → Trs) : CutKept k (putTrs f s) ↔ CutKept k s := cutKept_iff_of_view rfl
@[simp] theorem cutKept_putDsu (f : Dsu → Dsu) : CutKept k (putDsu f s) ↔ CutKept k s := cutKept_iff_of_view rfl
@[simp] theorem cutKept_putReceiver (r : Receiver) : CutKept k (putReceiver r s) ↔ CutKept k s := cutKept_iff_of_view rfl
@[simp] theorem cutKept_putDsq (f : Dsq → Dsq) : CutKept k (putDsq f s) ↔ CutKept k s := cutKept_iff_of_view rfl
@[simp] theorem cutKept_putLsc (f : Lsc → Lsc) : CutKept k (putLsc f s) ↔ CutKept k s := cutKept_iff_of_view rfl
@[simp] theorem cutKept_putHlu (f : Hlu → Hlu) : CutKept k (putHlu f s) ↔ CutKept k s := cutKept_iff_of_view rfl
@[simp] theorem cutKept_putSlot (p : Nat) (x : HoldSlot) : CutKept k (putSlot p x s) ↔ CutKept k s := cutKept_iff_of_view rfl
@[simp] theorem cutKept_putHolds (l : List Hold) : CutKept k (putHolds l s) ↔ CutKept k s := cutKept_iff_of_view rfl
@[simp] theorem cutKept_putTrain (t : List Entry) : CutKept k (putTrain t s) ↔ CutKept k s := cutKept_iff_of_view rfl
@[simp] theorem cutKept_updateEntry (n : SeqNo) (f : Entry → Entry) : CutKept k (updateEntry n f s) ↔ CutKept k s := cutKept_iff_of_view rfl
@[simp] theorem cutKept_putPeers (l : List Peer) : CutKept k (putPeers l s) ↔ CutKept k s := cutKept_iff_of_view rfl
@[simp] theorem cutKept_putRoute (r : Route) (x : RouteState) : CutKept k (putRoute r x s) ↔ CutKept k s := cutKept_iff_of_view rfl
@[simp] theorem cutKept_putInFlight (x : Option InFlight) : CutKept k (putInFlight x s) ↔ CutKept k s := cutKept_iff_of_view rfl
@[simp] theorem cutKept_putCurrent (x : Option Route) : CutKept k (putCurrent x s) ↔ CutKept k s := cutKept_iff_of_view rfl
@[simp] theorem cutKept_modifyPort (p : Port) (f : PortState → PortState) : CutKept k (modifyPort p f s) ↔ CutKept k s :=
  cutKept_iff_of_view rfl
@[simp] theorem cutKept_dropReceived : CutKept k (dropReceived s) ↔ CutKept k s := cutKept_iff_of_view rfl
@[simp] theorem cutKept_respond (x : RespStatus) (p : List Byte) : CutKept k (respond x p s) ↔ CutKept k s := cutKept_iff_of_view rfl
@[simp] theorem cutKept_refuse (w : Reason) : CutKept k (refuse w s) ↔ CutKept k s := cutKept_iff_of_view rfl

/-- MTR changed, C apart. -/
theorem cutKept_putMtr {f : Mtr → Mtr} (h : (f s.mtr).count = s.mtr.count) : CutKept k (putMtr f s) ↔ CutKept k s :=
  cutKept_iff_of_view (by simp [cutView, h])

/-- SPC changed, the cut log apart. -/
theorem cutKept_putSpc {f : Spc → Spc} (h : (f s.spc).cutLog = s.spc.cutLog) : CutKept k (putSpc f s) ↔ CutKept k s :=
  cutKept_iff_of_view (by simp [cutView, h])

theorem offerEvent_cutLog (e : Event) : (offerEvent e s).spc.cutLog = s.spc.cutLog := by
  rcases offerEvent_cases s e with ⟨-, he⟩ | ⟨-, he⟩ <;> rw [he]

@[simp] theorem cutKept_offerEvent (e : Event) : CutKept k (offerEvent e s) ↔ CutKept k s :=
  cutKept_iff_of_view (by simp [cutView, offerEvent_cutLog])

@[simp] theorem cutKept_raiseAlarm (a : Alarm) (d : Nat) : CutKept k (raiseAlarm a d s) ↔ CutKept k s :=
  cutKept_iff_of_view (by simp [cutView, raiseAlarm_cutLog])

@[simp] theorem cutKept_queueLostNotice : CutKept k (queueLostNotice s) ↔ CutKept k s := by
  rcases queueLostNotice_cases s with ⟨-, he⟩ | ⟨-, he⟩ <;> rw [he]
  exact cutKept_iff_of_view rfl

@[simp] theorem cutKept_sendOwn (c : Kind) (p : List Byte) : CutKept k (sendOwn c p s) ↔ CutKept k s := by
  have hs := (sentFrom_sendOwn c p s).eq
  refine cutKept_iff_of_view ?_
  simp only [cutView, sendOwn_cutLog]
  rw [hs]

end Updates

/-! ### The cut log (R204) -/

theorem LogRight.append {l : List LogRecord} (h : LogRight l) {r : LogRecord} (hr : LogRight [r]) : LogRight (l ++ [r]) := fun x hx =>
  (List.mem_append.mp hx).elim (h x) (hr x)

theorem LogRight.drop {l : List LogRecord} (h : LogRight l) (n : Nat) : LogRight (l.drop n) := fun x hx => h x (List.mem_of_mem_drop hx)

theorem LogRight.withOverwrite {r : LogRecord} (h : LogRight [r]) : LogRight [r.withOverwrite] := by
  intro x hx
  cases r with
  | cut y =>
    have hy := h y (List.mem_singleton.mpr rfl)
    cases List.mem_singleton.mp hx
    exact hy
  | delivery y => cases List.mem_singleton.mp hx

theorem logRight_delivery (r : DeliveryRecord) : LogRight [.delivery r] := fun _ hx => by cases List.mem_singleton.mp hx

theorem logRight_appendToLog {s : State} (h : LogRight s.spc.cutLog) {r : LogRecord} (hr : LogRight [r]) :
    LogRight (appendToLog r s).spc.cutLog := by
  rcases appendToLog_cases s r with ⟨-, he⟩ | ⟨-, he⟩ <;> rw [he]
  · exact h.append hr
  · exact (h.drop 1).append hr.withOverwrite

@[simp] theorem cutKept_appendToLog {k : Bool} {s : State} (h : CutKept k s) {r : LogRecord} (hr : LogRight [r]) :
    CutKept k (appendToLog r s) := by
  refine ⟨?_, logRight_appendToLog h.logged hr, ?_⟩
  · simpa [State.hasRole, State.running] using h.role
  · simpa [State.latestDue, State.cfg] using h.cut

end Sys2Proof.Machine
end

section
/-! SUPPORT. What VLD's and CSQ's operations keep of CSQ, open or shut (R131 to R157). -/

namespace Sys2Proof.Machine

/-! ### Valves -/

section Valves
variable {k : Bool} (s : State)

@[simp] theorem cutKept_faultRoute (r : Route) : CutKept k (faultRoute r s) ↔ CutKept k s := by simp [faultRoute]

@[simp] theorem cutKept_commandRoute (r : Route) (p : Limit) (b : Bool) : CutKept k (commandRoute r p b s).1 ↔ CutKept k s := by
  rcases commandRoute_cases r p b s with ⟨-, x, h⟩ | ⟨-, x, h⟩ | ⟨-, x, h⟩ <;> simp [h]

@[simp] theorem commandRoute_csq (r : Route) (p : Limit) (b : Bool) : (commandRoute r p b s).1.csq = s.csq := by
  rcases commandRoute_cases r p b s with ⟨-, x, h⟩ | ⟨-, x, h⟩ | ⟨-, x, h⟩ <;> simp [h, faultRoute]

end Valves

/-- What VLD's operations on routes keep of the cut: all of CSQ, and `CutKept`. -/
structure CutBeside (s t : State) : Prop where
  kept : ∀ k, CutKept k t ↔ CutKept k s
  csq : t.csq = s.csq

theorem CutBeside.trans {s t u : State} (h : CutBeside s t) (h' : CutBeside t u) : CutBeside s u :=
  ⟨fun k => (h'.kept k).trans (h.kept k), h'.csq.trans h.csq⟩

theorem CutBeside.of_view {s t : State} (h : cutView t = cutView s) : CutBeside s t :=
  ⟨fun _ => cutKept_iff_of_view h, by simp only [cutView, Prod.mk.injEq] at h; exact h.2.2.1⟩

theorem CutBeside.refl (s : State) : CutBeside s s := .of_view rfl

theorem cutBeside_commandRoute (r : Route) (p : Limit) (b : Bool) (s : State) : CutBeside s (commandRoute r p b s).1 :=
  ⟨fun _ => cutKept_commandRoute s r p b, commandRoute_csq s r p b⟩

theorem cutBeside_commandCloses (l : List Route) (x : InFlight) (s : State) : CutBeside s (commandCloses l x s).1 := by
  induction l generalizing x s with
  | nil => exact .refl s
  | cons r rest ih => simp only [commandCloses]; split <;> exact (cutBeside_commandRoute r .closed false s).trans (ih _ _)

theorem cutBeside_makeConfirmed (x : InFlight) (s : State) : CutBeside s (makeConfirmed x s).1 := by
  have h0 : CutBeside s (putCurrent (some x.request.target) s) := .of_view rfl
  have hb : CutBeside s (breakBegun x s).1 := h0.trans (cutBeside_commandCloses _ _ _)
  rcases makeConfirmed_cases x s with e | ⟨-, e⟩ <;> rw [e] <;> exact hb.trans (.of_view rfl)

theorem cutBeside_startSwitch (q : SwitchRequest) (s : State) : CutBeside s (startSwitch q s).1 := by
  have hc := cutBeside_commandRoute q.target .opened false s
  simp only [startSwitch]
  split
  · exact .refl s
  · split
    · exact hc.trans (.of_view rfl)
    · exact hc.trans (cutBeside_makeConfirmed _ _)
    · exact hc.trans (.of_view rfl)

theorem cutBeside_startWaiting (n : Nat) (s : State) : CutBeside s (startWaiting n s).1 :=
  startWaiting_keeps (CutBeside s) (fun t q rest ht _ =>
    have hw : CutBeside t { t with vld := { t.vld with waiting := rest } } := .of_view rfl
    (ht.trans hw).trans (cutBeside_startSwitch q _)) n (.refl s)

theorem cutBeside_requestSwitch (q : SwitchRequest) (s : State) : CutBeside s (requestSwitch q s).1 := by
  rcases requestSwitch_cases q s with ⟨-, e⟩ | ⟨-, e⟩ | ⟨-, -, e⟩ <;> rw [e]
  · exact .of_view rfl
  · exact ⟨fun _ => cutKept_raiseAlarm s _ _, raiseAlarm_csq s _ _⟩
  · exact cutBeside_startSwitch q s

theorem cutBeside_commandTaken (x : InFlight) (r : Route) (e : CommandEnd) (s : State) : CutBeside s (commandTaken x r e s).1 := by
  unfold commandTaken
  split
  · exact cutBeside_makeConfirmed x s
  · exact .of_view rfl
  · split <;> exact .of_view rfl

theorem cutBeside_switchCommandEnded (x : InFlight) (r : Route) (e : CommandEnd) (s : State) :
    CutBeside s (switchCommandEnded x r e s).1 := by
  have ht := cutBeside_commandTaken x r e s
  rcases switchCommandEnded_cases x r e s with he | he <;> rw [he]
  · exact ht
  · exact ht.trans (cutBeside_startWaiting _ _)

section Switches
variable {k : Bool} (s : State)

@[simp] theorem cutKept_startWaiting (n : Nat) : CutKept k (startWaiting n s).1 ↔ CutKept k s := (cutBeside_startWaiting n s).kept k

@[simp] theorem cutKept_requestSwitch (q : SwitchRequest) : CutKept k (requestSwitch q s).1 ↔ CutKept k s := (cutBeside_requestSwitch q s).kept k

@[simp] theorem cutKept_switchCommandEnded (x : InFlight) (r : Route) (e : CommandEnd) :
    CutKept k (switchCommandEnded x r e s).1 ↔ CutKept k s := (cutBeside_switchCommandEnded x r e s).kept k

@[simp] theorem cutKept_resolveProduct (p : Nat) : CutKept k (resolveProduct p s).1 ↔ CutKept k s := by
  unfold resolveProduct; split <;> simp

@[simp] theorem resolveProduct_csq (p : Nat) : (resolveProduct p s).1.csq = s.csq := by
  unfold resolveProduct; split <;> simp

@[simp] theorem cutKept_thresholdTarget (a : ActionKind) (r : OpenCut) : CutKept k (thresholdTarget a r s).1 ↔ CutKept k s := by
  unfold thresholdTarget; split <;> simp

@[simp] theorem thresholdTarget_csq (a : ActionKind) (r : OpenCut) : (thresholdTarget a r s).1.csq = s.csq := by
  unfold thresholdTarget; split <;> simp

end Switches

/-! ### CSQ changed -/

/-- The record `r'` takes the place of `r`: its first sequence and its total stay, and so do its reached thresholds. -/
structure SameCut (r r' : OpenCut) : Prop where
  first : r'.first = r.first
  total : r'.total = r.total
  headReached : r.headReached = true → r'.headReached = true
  finalReached : r.finalReached = true → r'.finalReached = true

theorem CutOpen.same {c d : Nat} {r r' : OpenCut} {q q' : Csq} (h : CutOpen c d r q) (hs : SameCut r r') (hr : q'.record = some r')
    (hstate : q'.state.hasRecord = true) (hq : List.Sublist q'.queue q.queue) : CutOpen c d r' q' :=
  ⟨hr, hstate, hs.total.trans h.total, (h.queue.sublist hq).record hs.first (fun _ => hs.headReached) fun _ => hs.finalReached⟩

section Changed
variable {k : Bool} {s : State} (h : CutKept k s)
include h

/-- CSQ shut, or left shut. -/
theorem cutKept_putCsq_shut {f : Csq → Csq} (hs : CutShut (f s.csq)) : CutKept k (putCsq f s) := ⟨h.role, h.logged, .inl hs⟩

theorem cutKept_putCsq_open {f : Csq → Csq} (hk : k = true) {r : OpenCut} (ho : CutOpen s.mtr.count s.latestDue r (f s.csq)) :
    CutKept k (putCsq f s) := ⟨h.role, h.logged, .inr ⟨hk, r, ho⟩⟩

/-- What CSQ holds beside the state, the record, the queue and the settle may change. -/
theorem cutKept_putCsq {f : Csq → Csq} (hst : (f s.csq).state = s.csq.state) (hr : (f s.csq).record = s.csq.record)
    (hq : List.Sublist (f s.csq).queue s.csq.queue) (h0 : s.csq.record = none → (f s.csq).settleRemaining = s.csq.settleRemaining) :
    CutKept k (putCsq f s) := by
  cases hrec : s.csq.record with
  | none =>
    have hs := h.shut hrec
    exact cutKept_putCsq_shut h ⟨hr.trans hrec, hst ▸ hs.state, List.sublist_nil.mp (hs.queue ▸ hq), (h0 hrec).trans hs.settle⟩
  | some r =>
    have ho := h.opened hrec
    exact cutKept_putCsq_open h (h.atTerminus hrec) (ho.same ⟨rfl, rfl, id, id⟩ (hr.trans hrec) (hst ▸ ho.state) hq)

theorem cutKept_modifyRecord {f : OpenCut → OpenCut} (hf : ∀ r, s.csq.record = some r → SameCut r (f r)) : CutKept k (modifyRecord f s) := by
  cases hrec : s.csq.record with
  | none =>
    have hs := h.shut hrec
    exact cutKept_putCsq_shut h ⟨by simp [hrec], hs.state, hs.queue, hs.settle⟩
  | some r =>
    have ho := h.opened hrec
    exact cutKept_putCsq_open h (h.atTerminus hrec) (ho.same (hf r hrec) (by simp [hrec]) ho.state (List.Sublist.refl _))

@[simp] theorem cutKept_flagRecord (f : CutFlags → CutFlags) : CutKept k (flagRecord f s) :=
  cutKept_modifyRecord h fun _ _ => ⟨rfl, rfl, id, id⟩

@[simp] theorem cutKept_changeToVolume : CutKept k (changeToVolume s) := cutKept_modifyRecord h fun _ _ => ⟨rfl, rfl, id, id⟩

/-! ### Thresholds (R138 to R141) -/

/-- A threshold of the open record is reached (R141). -/
theorem cutKept_markReached (hr : s.csq.record.isSome = true) (a : ActionKind) (t : Option Route) : CutKept k (markReached a t s) := by
  obtain ⟨r, hrec⟩ := Option.isSome_iff_exists.mp hr
  have ho := h.opened hrec
  have hk := h.atTerminus hrec
  cases a with
  | head =>
    exact cutKept_putCsq_open (s := modifyRecord (fun r => { r with headReached := true }) s) (f := fun q => { q with state := .mixing })
      (cutKept_modifyRecord h fun _ _ => ⟨rfl, rfl, fun _ => rfl, id⟩) hk
      (ho.same (r' := { r with headReached := true }) ⟨rfl, rfl, fun _ => rfl, id⟩ (by simp [modifyRecord, hrec]) rfl (List.Sublist.refl _))
  | final =>
    exact cutKept_putCsq_open (s := modifyRecord (fun r => { r with finalReached := true, routeB := t }) s)
      (f := fun q => { q with state := .settling }) (cutKept_modifyRecord h fun _ _ => ⟨rfl, rfl, id, fun _ => rfl⟩) hk
      (ho.same (r' := { r with finalReached := true, routeB := t }) ⟨rfl, rfl, id, fun _ => rfl⟩ (by simp [modifyRecord, hrec]) rfl
        (List.Sublist.refl _))
  | none => exact h

omit h in
/-- What a reached threshold leaves of CSQ, and what it marks (R141). -/
theorem markReached_csq {r : OpenCut} (hr : s.csq.record = some r) (a : ActionKind) (t : Option Route) :
    (markReached a t s).csq.queue = s.csq.queue ∧ ∃ x, (markReached a t s).csq.record = some x ∧ x.first = r.first
      ∧ (a = .head → x.headReached = true) ∧ (a = .final → x.finalReached = true) := by
  cases a with
  | head => exact ⟨rfl, { r with headReached := true }, by simp [markReached, modifyRecord, hr], rfl, fun _ => rfl, nofun⟩
  | final => exact ⟨rfl, { r with finalReached := true, routeB := t }, by simp [markReached, modifyRecord, hr], rfl, nofun, fun _ => rfl⟩
  | none => exact ⟨rfl, r, hr, rfl, nofun, nofun⟩

/-- A threshold whose action is not queued is reached, and its action joins the queue (R141, R142). -/
theorem cutKept_reachThreshold {a : ActionKind} (hn : ∀ b ∈ s.csq.queue, b.kind ≠ a) (x : Source) : CutKept k (reachThreshold a x s) := by
  simp only [reachThreshold]
  split
  · exact h
  · next r hrec =>
    have hrec' : (thresholdTarget a r s).1.csq.record = some r := by rw [thresholdTarget_csq]; exact hrec
    have hm := cutKept_markReached ((cutKept_thresholdTarget s a r).mpr h) (Option.isSome_iff_exists.mpr ⟨r, hrec'⟩) a (thresholdTarget a r s).2
    obtain ⟨hq, y, hy, hfirst, hhead, hfinal⟩ := markReached_csq hrec' a (thresholdTarget a r s).2
    rw [thresholdTarget_csq] at hq
    split
    · exact hm
    · next t ht =>
      have hkind : a = .head ∨ a = .final := by
        cases a with
        | head => exact .inl rfl
        | final => exact .inr rfl
        | none => exact absurd ht nofun
      have ho := hm.opened hy
      exact cutKept_putCsq_open hm (hm.atTerminus hy) ⟨hy, ho.state, ho.total,
        ho.queue.append hkind (by rw [hq]; exact hn) hfirst.symm hhead hfinal rfl⟩

/-- No head action is queued while the head threshold is unreached (R142). -/
theorem no_head_queued {r : OpenCut} (hr : s.csq.record = some r) (hn : r.headReached = false) : ∀ b ∈ s.csq.queue, b.kind ≠ .head :=
  fun b hb hk => absurd (hn.symm.trans ((h.opened hr).queue.headReached b hb hk)) nofun

/-- No final action is queued while the final threshold is unreached (R142). -/
theorem no_final_queued {r : OpenCut} (hr : s.csq.record = some r) (hn : r.finalReached = false) : ∀ b ∈ s.csq.queue, b.kind ≠ .final :=
  fun b hb hk => absurd (hn.symm.trans ((h.opened hr).queue.finalReached b hb hk)) nofun

end Changed

theorem headPending_iff (r : OpenCut) : r.headPending = true ↔ r.policy = .transmix ∧ r.headReached = false := by
  simp [OpenCut.headPending]

theorem finalPending_iff (r : OpenCut) : r.finalPending = true ↔ r.policy ≠ .none ∧ r.finalReached = false := by
  simp [OpenCut.finalPending]

section Judged
variable {k : Bool} {s : State} (h : CutKept k s)
include h

@[simp] theorem cutKept_judgeWith (f : Nat → Bool) (x : Source) : CutKept k (judgeWith f x s) := by
  unfold judgeWith
  extract_lets s1
  have hhead : CutKept k s1 := by
    simp only [s1]
    split
    · exact h
    · next r hr =>
      split
      · next hp =>
        have hn := ((headPending_iff r).mp ((Bool.and_eq_true _ _).mp hp).1).2
        exact cutKept_reachThreshold h (no_head_queued h hr hn) x
      · exact h
  clear_value s1
  split
  · exact hhead
  · next r hr =>
    split
    · next hp =>
      have hn := ((finalPending_iff r).mp ((Bool.and_eq_true _ _).mp ((Bool.and_eq_true _ _).mp hp).1).2).2
      exact cutKept_reachThreshold hhead (no_final_queued hhead hr hn) x
    · exact hhead

@[simp] theorem cutKept_judgeVolume : CutKept k (judgeVolume s) := by
  unfold judgeVolume; split <;> simp [h]

@[simp] theorem cutKept_judgeDensity : CutKept k (judgeDensity s) := by
  unfold judgeDensity; (repeat' split) <;> simp [h]

@[simp] theorem cutKept_judgeThresholds : CutKept k (judgeThresholds s) := by
  unfold judgeThresholds; (repeat' split) <;> simp [h]

@[simp] theorem cutKept_cutRlvChanged : CutKept k (cutRlvChanged s) := by
  unfold cutRlvChanged; (repeat' split) <;> simp [h]

@[simp] theorem cutKept_cutDensityNotice : CutKept k (cutDensityNotice s) := by
  unfold cutDensityNotice; (repeat' split) <;> simp [h]

end Judged

/-! ### Opening (R134, R135) -/

section Opening
variable {s : State} (h : CutKept true s)
include h

/-- A record opens at C with volumes 0 and nothing queued (R135, R137). -/
theorem cutKept_openCut (hs : CutShut s.csq) (e : Entry) : CutKept true (openCut e s) :=
  cutKept_judgeThresholds (cutKept_putCsq_open h rfl (r := openedRecord s e) ⟨rfl, rfl, rfl, by rw [hs.queue]; exact queueSafe_nil⟩)

@[simp] theorem cutKept_openDue : CutKept true (openDue s) := by
  unfold openDue
  split
  · next hst =>
    have hs := h.shut_of_state (by rw [hst]; rfl)
    split
    · exact cutKept_openCut h hs _
    · exact h
  · exact h

@[simp] theorem cutKept_leaveUnknown : CutKept true (leaveUnknown s) := by
  unfold leaveUnknown enterSteady
  split
  · next hst =>
    have hs := h.shut_of_state (by rw [hst.1]; rfl)
    exact cutKept_openDue (cutKept_putCsq_shut h ⟨hs.record, rfl, hs.queue, hs.settle⟩)
  · exact h

end Opening

/-! ### Closing (R146) -/

theorem closed_logRight {r : OpenCut} {count : Nat} (h : r.total = count) (trim : Int) : LogRight [.cut (r.closed count trim)] := by
  intro x hx
  cases List.mem_singleton.mp hx
  exact h

/-- A close leaves CSQ shut. -/
theorem shut_closeRecord {k : Bool} {s : State} (h : CutKept k s) (b : Bool) {next : CutState} (hn : next.hasRecord = false) :
    CutShut (closeRecord b next s).csq := by
  unfold closeRecord
  split
  · next hr => exact h.shut hr
  · exact ⟨rfl, hn, rfl, rfl⟩

/-- The closed record goes to the log with volumes that add up (R146). -/
theorem cutKept_closeRecord {k : Bool} {s : State} (h : CutKept k s) (b : Bool) {next : CutState} (hn : next.hasRecord = false) :
    CutKept k (closeRecord b next s) := by
  unfold closeRecord
  split
  · exact h
  · next r hr =>
    have hl : CutKept k (offerEvent (.cutClosed r.first r.last (r.flags.handedOn (logFull s)))
        (appendToLog (.cut (r.closed s.mtr.count s.mtr.trim)) s)) :=
      (cutKept_offerEvent _ _).mpr (cutKept_appendToLog h (closed_logRight (h.opened hr).total _))
    refine cutKept_putCsq_shut ?_ ⟨rfl, hn, rfl, rfl⟩
    split <;> simp [hl]

/-! ### Executing (R143, R144) -/

section Executing
variable {k : Bool} {s : State} (h : CutKept k s)
include h

theorem cutKept_routeInUse (r : Option Route) : CutKept k (putCsq (fun c => { c with routeInUse := r }) s) :=
  cutKept_putCsq h rfl rfl (List.Sublist.refl _) fun _ => rfl

@[simp] theorem cutKept_cutAbandoned (q : SwitchRequest) (left : Option Route) : CutKept k (cutAbandoned q left s) := by
  unfold cutAbandoned
  extract_lets concerns s1 s2 s3
  have h1 : CutKept k s1 := by
    simp only [s1]
    split
    · exact cutKept_routeInUse h left
    · exact h
  clear_value s1
  have h2 : CutKept k s2 := by
    simp only [s2]
    split <;> simp [h1]
  clear_value s2
  have h3 : CutKept k s3 := by
    simp only [s3]
    split
    · split
      · refine cutKept_modifyRecord h2 fun r _ => ?_
        split <;> exact ⟨rfl, rfl, id, id⟩
      · exact cutKept_closeRecord h2 true rfl
      · exact h2
    · exact h2
  clear_value s3
  split
  · next hc =>
    have hst := eq_of_beq ((Bool.and_eq_true _ _).mp hc).2
    have hs := h3.shut_of_state (by rw [hst]; rfl)
    exact cutKept_putCsq_shut h3 ⟨hs.record, rfl, hs.queue, hs.settle⟩
  · exact h3

@[simp] theorem cutKept_cutOutcome (o : SwitchOutcome) : CutKept k (cutOutcome o s) := by
  unfold cutOutcome; (repeat' split) <;> simp [h]

@[simp] theorem cutKept_cutOutcomes (l : List SwitchOutcome) : CutKept k (cutOutcomes l s) := by
  unfold cutOutcomes
  induction l generalizing s with
  | nil => exact h
  | cons o rest ih => exact ih (cutKept_cutOutcome h o)

@[simp] theorem cutKept_takeStream (t : Route) (x : Source) (a : ActionKind) : CutKept k (takeStream t x a s) := by
  cases hrec : s.csq.record with
  | none =>
    have hs := h.shut hrec
    exact cutKept_putCsq_shut h ⟨by simp [hrec], hs.state, hs.queue, by cases a <;> simpa [hrec] using hs.settle⟩
  | some r =>
    have ho := h.opened hrec
    have hto (r' : OpenCut) (hs : SameCut r r') (hr' : (takeStream t x a s).csq.record = some r') : CutKept k (takeStream t x a s) :=
      cutKept_putCsq_open h (h.atTerminus hrec) (ho.same hs hr' ho.state (List.Sublist.refl _))
    cases a with
    | head => exact hto { r with stage := .middle } ⟨rfl, rfl, id, id⟩ (by simp [takeStream, hrec])
    | final => exact hto { r with stage := .trail, finalExecuted := true } ⟨rfl, rfl, id, id⟩ (by simp [takeStream, hrec])
    | none => exact hto r ⟨rfl, rfl, id, id⟩ (by simp [takeStream, hrec])

@[simp] theorem cutKept_executeSwitch (t : Route) (x : Source) (a : ActionKind) (b : Bool) : CutKept k (executeSwitch t x a b s) := by
  unfold executeSwitch; split <;> simp [h]

/-- An action leaves the queue (R143). -/
theorem cutKept_dequeue {l : List Action} (hl : List.Sublist l s.csq.queue) : CutKept k (putCsq (fun q => { q with queue := l }) s) :=
  cutKept_putCsq h rfl rfl hl fun _ => rfl

@[simp] theorem cutKept_emptyQueue : CutKept k (putCsq (fun q => { q with queue := [] }) s) := cutKept_dequeue h (List.nil_sublist _)

theorem cutKept_executeDue (n : Nat) : CutKept k (executeDue n s) := by
  induction n generalizing s with
  | zero => exact h
  | succ n ih =>
    simp only [executeDue]
    split
    · next a rest hq =>
      split
      · exact ih (cutKept_executeSwitch (cutKept_dequeue h (hq ▸ List.sublist_cons_self a rest)) ..)
      · exact h
    · exact h

@[simp] theorem cutKept_switchToTransmix : CutKept k (switchToTransmix s) := by
  unfold switchToTransmix; split <;> simp [h]

end Executing

/-! ### Switches without a record -/

section Shut
variable {s : State} (h : CutShut s.csq)
include h

/-- Without a record an abandoned switch can but return CSQ to UNKNOWN (R144). -/
theorem shut_cutAbandoned (q : SwitchRequest) (left : Option Route) : CutShut (cutAbandoned q left s).csq := by
  have hc : concernsOpenRecord q.tag s = false := by
    unfold concernsOpenRecord
    split
    · next hr => exact absurd (hr.symm.trans h.record) nofun
    · next hr => exact absurd (hr.symm.trans h.record) nofun
    · rfl
  unfold cutAbandoned
  extract_lets concerns s1 s2 s3
  have h1 : CutShut s1.csq := by
    simp only [s1]
    split
    · exact ⟨h.record, h.state, h.queue, h.settle⟩
    · exact h
  have h3 : s3 = s1 := by simp [s3, s2, concerns, hc]
  rw [h3]
  split
  · exact ⟨h1.record, rfl, h1.queue, h1.settle⟩
  · exact h1

theorem shut_cutOutcome (o : SwitchOutcome) : CutShut (cutOutcome o s).csq := by
  unfold cutOutcome
  split
  · exact h
  · split
    · exact ⟨by simp [flagRecord, modifyRecord, h.record], h.state, h.queue, h.settle⟩
    · exact h
  · exact shut_cutAbandoned h _ _

theorem shut_cutOutcomes (l : List SwitchOutcome) : CutShut (cutOutcomes l s).csq := by
  unfold cutOutcomes
  induction l generalizing s with
  | nil => exact h
  | cons o rest ih => exact ih (shut_cutOutcome h o)

theorem shut_takeStream (t : Route) (x : Source) (a : ActionKind) : CutShut (takeStream t x a s).csq :=
  ⟨by simp [takeStream, h.record], h.state, h.queue, by cases a <;> simpa [takeStream, h.record] using h.settle⟩

theorem shut_executeSwitch (t : Route) (x : Source) (a : ActionKind) (b : Bool) : CutShut (executeSwitch t x a b s).csq := by
  unfold executeSwitch
  split
  · exact shut_takeStream h t x a
  · exact shut_cutOutcomes (shut_takeStream (by rw [(cutBeside_requestSwitch _ s).csq]; exact h) t x a) _

theorem shut_switchToTransmix : CutShut (switchToTransmix s).csq := by
  unfold switchToTransmix
  split
  · exact shut_executeSwitch h ..
  · exact h

end Shut

/-! ### Litres, settling and the product check (R137, R145) -/

theorem total_countLitre (r : OpenCut) : r.countLitre.total = r.total + 1 := by
  unfold OpenCut.countLitre OpenCut.total
  split <;> simp only <;> omega

/-- A litre counted by the meter and by the open record (R28, R137). -/
theorem cutKept_countLitre {s : State} {f : Mtr → Mtr} (h : CutKept true s) (hf : (f s.mtr).count = s.mtr.count + 1) :
    CutKept true (countLitre (putMtr f s)) := by
  have hrole : (putMtr f s).hasRole .terminus = true := h.role
  unfold countLitre
  split
  · next hr => exact ⟨hrole, h.logged, .inl (h.shut hr)⟩
  · next r hr =>
    have ho := h.opened hr
    have htotal : r.countLitre.total = (putMtr f s).mtr.count := (total_countLitre r).trans (by rw [ho.total]; exact hf.symm)
    have hstart : r.start < (putMtr f s).mtr.count := by
      have : r.start ≤ r.total := by unfold OpenCut.total; omega
      rw [ho.total] at this
      exact hf ▸ Nat.lt_succ_of_le this
    have hlatest : s.latestDue ≤ (putMtr f s).latestDue := by
      have : (putMtr f s).latestDue = s.mtr.count + 1 + s.cfg.lead - s.cfg.antic := by rw [← hf]; rfl
      rw [this, State.latestDue]
      omega
    obtain ⟨a, x, b, hcount⟩ := countLitre_eq r
    rw [if_pos hstart]
    refine ⟨hrole, h.logged, .inr ⟨rfl, r.countLitre, rfl, ho.state, htotal, ?_⟩⟩
    have hq := ho.queue.record (r' := r.countLitre) (by rw [hcount]) (by rw [hcount]; exact fun _ => id) (by rw [hcount]; exact fun _ => id)
    exact { hq with bounded := fun a ha => (hq.bounded a ha).trans hlatest }

section Settling
variable {s : State} (h : CutKept true s)
include h

theorem cutKept_checkProduct : CutKept true (checkProduct s) := by
  have hm (v : ProductCheck) : CutKept true (modifyRecord (fun x => { x with check := some v }) s) :=
    cutKept_modifyRecord h fun _ _ => ⟨rfl, rfl, id, id⟩
  simp only [checkProduct]
  split
  · exact h
  · split
    · refine cutKept_switchToTransmix ((cutKept_raiseAlarm _ _ _).mpr ((cutKept_updateEntry _ _ _).mpr ?_))
      exact cutKept_closeRecord (cutKept_flagRecord (hm _) _) true rfl
    · exact cutKept_openDue (cutKept_closeRecord (hm _) true rfl)
    · exact cutKept_openDue (cutKept_closeRecord (hm _) true rfl)

@[simp] theorem cutKept_executeAndSettle : CutKept true (executeAndSettle s) := by
  simp only [executeAndSettle]
  split
  · exact cutKept_checkProduct (cutKept_executeDue h _)
  · exact cutKept_executeDue h _

end Settling

/-! ### The short batch (R148, R149) -/

/-- The trail's volume moves to transmix, so that the total stays (R149). -/
theorem total_withheld (r : OpenCut) : (if r.stage = .trail then
    { r with volumeX := r.volumeX + r.volumeB, volumeB := 0, stage := .middle, finalExecuted := false } else r).total = r.total := by
  split
  · simp only [OpenCut.total]; omega
  · rfl

section Merge
variable {s : State} (h : CutKept true s)
include h

/-- The final actions leave the queue (R149). -/
theorem cutKept_withholdFinal : CutKept true (withholdFinal s) ∧ ∀ a ∈ (withholdFinal s).csq.queue, a.kind ≠ .final := by
  refine ⟨?_, fun a ha => by simpa using (List.mem_filter.mp ha).2⟩
  cases hrec : s.csq.record with
  | none =>
    have hs := h.shut hrec
    exact cutKept_putCsq_shut h ⟨by simp [hrec], hs.state, by simp [hs.queue], by simpa [hrec] using hs.settle⟩
  | some r =>
    have ho := h.opened hrec
    refine cutKept_putCsq_open h rfl (ho.same ⟨?_, total_withheld r, ?_, ?_⟩ (by simp only [hrec]; rfl) ho.state List.filter_sublist)
    all_goals split <;> simp

omit h in
/-- A reached threshold queues actions of its kind alone. -/
theorem mem_reachThreshold {a : ActionKind} {x : Source} {b : Action} (hb : b ∈ (reachThreshold a x s).csq.queue) :
    b ∈ s.csq.queue ∨ b.kind = a := by
  simp only [reachThreshold] at hb
  split at hb
  · exact .inl hb
  · next r hr =>
    have hq := (markReached_csq (s := (thresholdTarget a r s).1) (r := r) (by rw [thresholdTarget_csq]; exact hr) a (thresholdTarget a r s).2).1
    rw [thresholdTarget_csq] at hq
    split at hb
    · exact .inl (hq ▸ hb)
    · rcases List.mem_append.mp hb with hb | hb
      · exact .inl (hq ▸ hb)
      · rw [List.mem_singleton.mp hb]; exact .inr rfl

omit h in
/-- A reached threshold leaves the record open. -/
theorem reachThreshold_record_isSome (a : ActionKind) (x : Source) (hr : s.csq.record.isSome = true) :
    (reachThreshold a x s).csq.record.isSome = true := by
  obtain ⟨r, hrec⟩ := Option.isSome_iff_exists.mp hr
  obtain ⟨-, y, hy, -⟩ := markReached_csq (s := (thresholdTarget a r s).1) (r := r) (by rw [thresholdTarget_csq]; exact hrec) a
    (thresholdTarget a r s).2
  simp only [reachThreshold, hrec]
  split <;> simp [hy]

/-- After a merge the head threshold counts as reached and the final one as unreached, with no final action queued (R149). -/
theorem cutKept_merged (hn : ∀ a ∈ s.csq.queue, a.kind ≠ .final) (hr : s.csq.record.isSome = true) :
    CutKept true (putCsq (fun q => { q with state := .mixing })
      (modifyRecord (fun x => { x with headReached := true, finalReached := false }) s)) := by
  obtain ⟨r, hrec⟩ := Option.isSome_iff_exists.mp hr
  have ho := h.opened hrec
  refine ⟨h.role, h.logged, .inr ⟨rfl, { r with headReached := true, finalReached := false }, ?_, rfl, ho.total, ?_⟩⟩
  · simp [modifyRecord, hrec]
  · exact ho.queue.record rfl (fun _ _ => rfl) fun ⟨a, ha, hk⟩ => absurd hk (hn a ha)

theorem cutKept_mergeActions (hn : ∀ a ∈ s.csq.queue, a.kind ≠ .final) (b : Bool) : CutKept true (mergeActions b s) := by
  unfold mergeActions
  split
  · exact h
  · next r hr =>
    extract_lets s1
    have h1 : CutKept true s1 ∧ (∀ a ∈ s1.csq.queue, a.kind ≠ .final) ∧ s1.csq.record.isSome = true := by
      simp only [s1]
      split
      · next hc =>
        have hno : ∀ a ∈ s.csq.queue, a.kind ≠ .head := by simpa using ((Bool.and_eq_true _ _).mp hc).1
        refine ⟨cutKept_reachThreshold h hno _, fun a ha => ?_, reachThreshold_record_isSome _ _ (by rw [hr]; rfl)⟩
        rcases mem_reachThreshold ha with ha | ha
        · exact hn a ha
        · rw [ha]; decide
      · exact ⟨h, hn, by rw [hr]; rfl⟩
    obtain ⟨hk, hn', hr'⟩ := h1
    exact cutKept_judgeThresholds (cutKept_merged hk hn' hr')

@[simp] theorem cutKept_mergeCut (e : Entry) : CutKept true (mergeCut e s) := by
  unfold mergeCut
  split
  · exact h
  · next r hr =>
    have ho := h.opened hr
    have hm : CutKept true (putCsq (fun q => { q with cutThrough := some e.seq, record := some (mergedRecord s e r) })
        (putTrain (markShort r.cutEntry e.seq s.trs.train) s)) :=
      cutKept_putCsq_open (s := putTrain (markShort r.cutEntry e.seq s.trs.train) s) ((cutKept_putTrain s _).mpr h) rfl
        (ho.same (r' := mergedRecord s e r) ⟨rfl, rfl, id, id⟩ rfl ho.state (List.Sublist.refl _))
    obtain ⟨hw, hn⟩ := cutKept_withholdFinal ((cutKept_raiseAlarm _ .shortBatch 0).mpr hm)
    exact cutKept_mergeActions hw hn _

@[simp] theorem cutKept_cutEntered (n : SeqNo) : CutKept true (cutEntered n s) := by
  unfold cutEntered; (repeat' split) <;> simp [h]

/-! ### Declarations, departure and the overrides (R147 to R157) -/

theorem cutKept_cutMissed (r : OpenCut) : CutKept true (cutMissed r s) := by
  unfold cutMissed
  extract_lets s1 y s2
  have hy : CutKept true y.1 := (cutKept_resolveProduct _ r.productB).mpr (cutKept_emptyQueue h)
  have h2 : CutKept true s2 := by
    simp only [s2]
    split
    · split
      · exact hy
      · exact cutKept_executeSwitch hy ..
    · exact hy
  refine cutKept_openDue (cutKept_closeRecord (cutKept_modifyRecord h2 fun _ _ => ?_) true rfl)
  exact ⟨rfl, rfl, id, id⟩

@[simp] theorem cutKept_cutDeclared (a : PassageKind) (n : SeqNo) (x : Int) : CutKept true (cutDeclared a n x s) := by
  unfold cutDeclared
  split
  · exact h
  · next r _ =>
    extract_lets s1
    have h1 : CutKept true s1 := by
      simp only [s1]
      split
      · exact cutKept_modifyRecord h fun _ _ => ⟨rfl, rfl, id, id⟩
      · exact h
    clear_value s1
    split
    · split
      · exact cutKept_cutMissed h1 r
      · split
        · exact cutKept_openDue (cutKept_closeRecord h1 true rfl)
        · exact cutKept_cutRlvChanged h1
    · exact h1

@[simp] theorem cutKept_cutUntracked : CutKept true (cutUntracked s) := by
  unfold cutUntracked
  split
  · next hst =>
    have hs := shut_switchToTransmix (h.shut_of_state (by rw [hst]; rfl))
    exact cutKept_putCsq_shut (cutKept_switchToTransmix h) ⟨hs.record, rfl, hs.queue, hs.settle⟩
  · exact h

theorem cutKept_cutForceAdvance {t : State} (ht : cutForceAdvance s = some t) : CutKept true t := by
  have hf := cutKept_flagRecord h fun f => { f with forced := true }
  unfold cutForceAdvance at ht
  split at ht
  · cases ht
  · next r hr =>
    split at ht
    · cases ht
    · extract_lets s1 at ht
      split at ht
      · next a rest hq =>
        cases ht
        exact cutKept_executeSwitch (cutKept_dequeue hf (hq ▸ List.sublist_cons_self a rest)) ..
      · next a y s2 _ _ =>
        have hrec : y.1.csq.record.isSome = true := by simp [y, s1, flagRecord, modifyRecord, hr]
        have h2 : CutKept true s2 := cutKept_markReached ((cutKept_thresholdTarget s1 a r).mpr hf) hrec a y.2
        split at ht
        · cases ht
        · cases ht
          split
          · exact cutKept_executeSwitch h2 ..
          · exact h2

theorem cutKept_cutForceTransmix {t : State} (ht : cutForceTransmix s = some t) : CutKept true t := by
  unfold cutForceTransmix at ht
  split at ht
  · cases ht
  · obtain rfl := Option.some.inj ht
    have hf := cutKept_flagRecord (cutKept_emptyQueue h) fun f => { f with forced := true }
    have hs := shut_switchToTransmix (shut_closeRecord hf true (next := .held) rfl)
    exact cutKept_putCsq_shut (cutKept_switchToTransmix (cutKept_closeRecord hf true rfl)) ⟨hs.record, rfl, hs.queue, hs.settle⟩

theorem cutKept_cutReleaseTo (hst : s.csq.state = .held ∨ s.csq.state = .unknown) (r : Route) : CutKept true (cutReleaseTo r s) := by
  have hs := h.shut_of_state (by rcases hst with hst | hst <;> rw [hst] <;> rfl)
  exact cutKept_openDue (cutKept_executeSwitch (cutKept_putCsq_shut h ⟨hs.record, rfl, hs.queue, hs.settle⟩) ..)

@[simp] theorem cutKept_cutResync : CutKept true (cutResync s) := by
  have hf := cutKept_flagRecord h fun f => { f with abandoned := true }
  have hs := shut_closeRecord hf false (next := .steady) rfl
  unfold cutResync
  extract_lets s1
  refine cutKept_putCsq_shut (cutKept_closeRecord hf false rfl) ⟨hs.record, ?_, rfl, hs.settle⟩
  dsimp only
  split <;> rfl

end Merge

end Sys2Proof.Machine
end

section
/-! SUPPORT. What delivering, tracking and launching keep of CSQ, open or shut: outside a TERMINUS no record is open, and within it CSQ is
reached through its own operations alone. -/

namespace Sys2Proof.Machine

/-- A branch on the role TERMINUS. -/
theorem CutKept.atRole {k : Bool} {s t u v : State} (h : CutKept k s) (ht : CutKept true s → CutKept true u) (hv : CutKept k v)
    (hr : t.hasRole .terminus = s.hasRole .terminus := by rfl) : CutKept k (if t.hasRole .terminus = true then u else v) := by
  split
  · next hc =>
    have hk : k = true := (h.role.symm.trans hr.symm).trans hc
    subst hk
    exact ht h
  · exact hv

section Updates
variable {k : Bool} (s : State)

@[simp] theorem cutKept_modifyActive (f : ActiveDelivery → ActiveDelivery) : CutKept k (modifyActive f s) ↔ CutKept k s := cutKept_iff_of_view rfl
@[simp] theorem cutKept_flagActive (f : DeliveryFlags → DeliveryFlags) : CutKept k (flagActive f s) ↔ CutKept k s := cutKept_iff_of_view rfl
@[simp] theorem cutKept_noteCloseRequest : CutKept k (noteCloseRequest s) ↔ CutKept k s := cutKept_iff_of_view rfl
@[simp] theorem cutKept_noteDetection (n : SeqNo) : CutKept k (noteDetection n s) ↔ CutKept k s := cutKept_iff_of_view rfl
@[simp] theorem cutKept_restartStaleTimer : CutKept k (restartStaleTimer s) ↔ CutKept k s := cutKept_iff_of_view rfl

end Updates

/-! ### Telegrams -/

section Telegrams
variable {k : Bool} {s : State} (h : CutKept k s)
include h

@[simp] theorem cutKept_placeFrame (a : Alarm) (p : Port) (c : QueueClass) (f : Frame) : CutKept k (placeFrame a p c f s) := by
  rcases placeFrame_cases a p c f s with ⟨-, e⟩ | ⟨-, e⟩ <;> simp [e, h]

@[simp] theorem cutKept_forwardFrame (p : Port) (c : Kind) (f : Frame) : CutKept k (forwardFrame p c f s) := by
  unfold forwardFrame; split <;> simp [h]

@[simp] theorem cutKept_placeReceived (p : Port) (f : Frame) : CutKept k (placeReceived p f s) := by
  unfold placeReceived; split <;> simp [h]

@[simp] theorem cutKept_badFrame (p : Port) : CutKept k (badFrame p s) := by
  simp only [badFrame]; split <;> simp [h]

@[simp] theorem cutKept_sendAsk (n : Nat) : CutKept k (sendAsk n s) := by simp [sendAsk, h]

@[simp] theorem cutKept_sendAskIfDue : CutKept k (sendAskIfDue s) := by
  unfold sendAskIfDue; split <;> simp [h]

@[simp] theorem cutKept_leaveSynced : CutKept k (leaveSynced s) := by
  unfold leaveSynced; split <;> simp [h]

@[simp] theorem cutKept_raiseGap : CutKept k (raiseGap s) := by simp [raiseGap, h]

@[simp] theorem cutKept_refuseInsertion : CutKept k (refuseInsertion s) := by simp [refuseInsertion, h]

end Telegrams

/-! ### Delivering -/

section Delivering
variable {k : Bool} {s : State} (h : CutKept k s)
include h

@[simp] theorem cutKept_endDelivery : CutKept k (endDelivery s) := by
  unfold endDelivery; split <;> simp [h, logRight_delivery]

@[simp] theorem cutKept_closeEnded (e : CommandEnd) : CutKept k (closeEnded e s) := by
  unfold closeEnded; split <;> simp [h]

@[simp] theorem cutKept_handClose : CutKept k (handClose s).1 := by
  simp only [handClose]; (repeat' split) <;> simp [h]

@[simp] theorem cutKept_requestClose (f : DeliveryFlags → DeliveryFlags) : CutKept k (requestClose f s).1 := by
  unfold requestClose; (repeat' split) <;> simp [h]

@[simp] theorem cutKept_doneTest : CutKept k (doneTest s).1 := by
  unfold doneTest; (repeat' split) <;> simp [h]

@[simp] theorem cutKept_openEnded (e : CommandEnd) : CutKept k (openEnded e s).1 := by
  unfold openEnded; (repeat' split) <;> simp [h]

@[simp] theorem cutKept_openDelivery (c : Candidate) : CutKept k (openDelivery c s).1 := by
  simp only [openDelivery]; (repeat' split) <;> simp [h]

@[simp] theorem cutKept_skipPassed : CutKept k (skipPassed s) := by
  unfold skipPassed; (repeat' split) <;> simp [h]

@[simp] theorem cutKept_chooseCandidate : CutKept k (chooseCandidate s) := by
  unfold chooseCandidate; (repeat' split) <;> simp [h]

@[simp] theorem cutKept_judgeCandidateOnce : CutKept k (judgeCandidateOnce s).1 := by
  have hc := cutKept_chooseCandidate (cutKept_skipPassed h)
  simp only [judgeCandidateOnce]; (repeat' split) <;> simp [hc]

@[simp] theorem cutKept_judgeCandidate : CutKept k (judgeCandidate s) := by
  unfold judgeCandidate; split <;> simp [h]

omit h in
@[simp] theorem cutKept_afterDelivery {y : State × Bool} (hy : CutKept k y.1) : CutKept k (afterDelivery y) := by
  unfold afterDelivery; split <;> simp [hy]

@[simp] theorem cutKept_trailingTest : CutKept k (trailingTest s) := by
  unfold trailingTest; split <;> simp [h]

@[simp] theorem cutKept_deliveryAfterEvaluation : CutKept k (deliveryAfterEvaluation s) :=
  inEitherOrder_keeps (CutKept k) (fun _ => cutKept_judgeCandidate) (fun _ => cutKept_trailingTest)
      (fun t => (cutKept_choices t _).mpr) h

@[simp] theorem cutKept_countDelivered : CutKept k (countDelivered s) := by
  unfold countDelivered; (repeat' split) <;> simp [h]

@[simp] theorem cutKept_plainOutcome (r : Route) (e : CommandEnd) : CutKept k (plainOutcome r e s) := by
  unfold plainOutcome; (repeat' split) <;> simp [h]

theorem cutKept_closeCommanded {t : State} (ht : closeCommanded s = some t) : CutKept k t := by
  unfold closeCommanded at ht
  (repeat' split at ht) <;> cases ht
  simp [h]

@[simp] theorem cutKept_deliveryResync : CutKept k (deliveryResync s) := by simp [deliveryResync, h]

end Delivering

/-! ### Tracking -/

section Tracking
variable {k : Bool} {s : State} (h : CutKept k s)
include h

@[simp] theorem cutKept_judgeNudge (e : Entry) : CutKept k (judgeNudge e s) := by
  unfold judgeNudge; split <;> simp [h]

@[simp] theorem cutKept_handDeclaration (a : PassageKind) (e : Entry) : CutKept k (handDeclaration a e s) := by
  refine h.atRole (fun ht => cutKept_cutDeclared ht _ _ _) ?_
  split <;> simp [h]

@[simp] theorem cutKept_declare (a : PassageKind) (e : Entry) : CutKept k (declare a e s) := by
  refine cutKept_handDeclaration ((cutKept_sendOwn _ _ _).mpr ?_) _ _
  (repeat' split) <;> simp [h]

@[simp] theorem cutKept_openWindow (n : SeqNo) : CutKept k (openWindow n s) :=
  CutKept.atRole (t := s) h (fun ht => cutKept_cutEntered ((cutKept_updateEntry _ _ _).mpr ht) n) (by simp [h])

@[simp] theorem cutKept_testWindow (b : Bool) (e : Entry) : CutKept k (testWindow b e s) := by
  unfold testWindow; (repeat' split) <;> simp [h]

omit h in
@[simp] theorem cutKept_visitEntry (a : Bool) (b : Option SeqNo) {x : State × Tracker} (hx : CutKept k x.1) (n : SeqNo) :
    CutKept k (visitEntry a b x n).1 := by
  simp only [visitEntry]
  (repeat' split) <;> simp [hx]

omit h in
theorem cutKept_visits (a : Bool) (b : Option SeqNo) (l : List SeqNo) {x : State × Tracker} (hx : CutKept k x.1) :
    CutKept k (l.foldl (visitEntry a b) x).1 := by
  induction l generalizing x with
  | nil => exact hx
  | cons n rest ih => exact ih (cutKept_visitEntry a b hx n)

@[simp] theorem cutKept_evaluateOnce (a : Bool) (b : Option SeqNo) : CutKept k (evaluateOnce a b s) := by
  have hv := cutKept_visits a b (s.trs.train.map (·.seq)) (x := (s, Tracker.update ⟨b, false⟩ s.trs.train)) h
  simp only [evaluateOnce]
  split
  · exact cutKept_deliveryAfterEvaluation hv
  · exact hv

@[simp] theorem cutKept_evaluateRemovals (n l : Nat) : CutKept k (evaluateRemovals n l s) := by
  induction n generalizing l s with
  | zero => exact h
  | succ n ih => simp only [evaluateRemovals]; split <;> simp [h, ih]

@[simp] theorem cutKept_evaluate (a : Bool) (b : Option SeqNo) : CutKept k (evaluate a b s) := by
  unfold evaluate; split <;> simp [h]

@[simp] theorem cutKept_evaluateIfRemoved (before : State) : CutKept k (evaluateIfRemoved before s) := by
  unfold evaluateIfRemoved; split <;> simp [h]

@[simp] theorem cutKept_afterMove (b : Option SeqNo) : CutKept k (afterMove b s) := by
  unfold afterMove
  split
  · exact inEitherOrder_keeps (CutKept k) (fun _ => cutKept_cutRlvChanged) (fun _ ht => cutKept_evaluate ht _ _)
      (fun t => (cutKept_choices t _).mpr) h
  · exact cutKept_evaluate h _ _

@[simp] theorem cutKept_trackLitre : CutKept k (trackLitre s) := by simp [trackLitre, h]

@[simp] theorem cutKept_trackDelta (d m : Nat) : CutKept k (trackDelta d m s) := by simp [trackDelta, h]

@[simp] theorem cutKept_takeSnap (x : Nat) (n : SeqNo) (a : PassageKind) : CutKept k (takeSnap x n a s) := by
  unfold takeSnap; (repeat' split) <;> simp [h]

@[simp] theorem cutKept_takeRemoval (x : Nat) (n : SeqNo) : CutKept k (takeRemoval x n s) := by
  unfold takeRemoval; (repeat' split) <;> simp [h]

end Tracking

/-! ### Launching -/

section Launching
variable {k : Bool} {s : State} (h : CutKept k s)
include h

@[simp] theorem cutKept_closeRunningEntry : CutKept k (closeRunningEntry s) := by
  unfold closeRunningEntry; split <;> simp [h]

@[simp] theorem cutKept_appendOrderEntry (n : SeqNo) (o : Order) : CutKept k (appendOrderEntry n o s) := by
  unfold appendOrderEntry; split <;> simp [h]

@[simp] theorem cutKept_completeChangeover (r : Route) (x : SwitchResult) : CutKept k (completeChangeover r x s) := by
  have ha (n : SeqNo) (o : Order) := cutKept_appendOrderEntry (cutKept_closeRunningEntry h) n o
  unfold completeChangeover; split <;> simp [h, ha]

@[simp] theorem cutKept_changeoverOutcome (o : SwitchOutcome) : CutKept k (changeoverOutcome o s) := by
  unfold changeoverOutcome; split <;> simp [h]

theorem cutKept_outcomes (l : List SwitchOutcome) : CutKept k (l.foldl (fun s o => changeoverOutcome o s) s) := by
  induction l generalizing s with
  | nil => exact h
  | cons o rest ih => exact ih (cutKept_changeoverOutcome h o)

@[simp] theorem cutKept_startChangeover (o : Order) : CutKept k (startChangeover o s).1 := by
  unfold startChangeover; split <;> simp [h]

@[simp] theorem cutKept_startWithConflict (o : Order) : CutKept k (startWithConflict o s).1 := by
  unfold startWithConflict; split <;> simp [h]

@[simp] theorem cutKept_judgeChangeoverOnce : CutKept k (judgeChangeoverOnce s).1 := by
  unfold judgeChangeoverOnce; (repeat' split) <;> simp [h]

@[simp] theorem cutKept_judgeChangeovers (n : Nat) : CutKept k (judgeChangeovers n s) := by
  induction n generalizing s with
  | zero => exact h
  | succ n ih =>
    have hj := cutKept_judgeChangeoverOnce h
    simp only [judgeChangeovers]
    split
    · next s1 e => rw [e] at hj; exact hj
    · next s1 l _ e => rw [e] at hj; exact ih (cutKept_outcomes hj l)

@[simp] theorem cutKept_judgeChangeover : CutKept k (judgeChangeover s) := by simp [judgeChangeover, h]

@[simp] theorem cutKept_changeoverOutcomes (l : List SwitchOutcome) : CutKept k (changeoverOutcomes l s) := by
  unfold changeoverOutcomes
  split
  · exact h
  · exact cutKept_judgeChangeover (cutKept_outcomes h _)

@[simp] theorem cutKept_countLaunched : CutKept k (countLaunched s) := by simp [countLaunched, h]

theorem cutKept_launchForceAdvance {t : State} (ht : launchForceAdvance s = some t) : CutKept k t := by
  unfold launchForceAdvance at ht
  simp only at ht
  (repeat' split at ht) <;> cases ht <;> simp [h]

@[simp] theorem cutKept_setHold (a b c : Nat) : CutKept k (setHold a b c s) := by
  unfold setHold; (repeat' split) <;> simp [h]

@[simp] theorem cutKept_removeHold (a b : Nat) : CutKept k (removeHold a b s) := by
  unfold removeHold; split <;> simp [h]

@[simp] theorem cutKept_takeHold (a b c : Nat) : CutKept k (takeHold a b c s) := by
  unfold takeHold; (repeat' split) <;> simp [h]

@[simp] theorem cutKept_judgeHold (r : Route) : CutKept k (judgeHold s r) := by
  unfold judgeHold; (repeat' split) <;> simp [h]

theorem cutKept_foldl_judgeHold (l : List Route) : CutKept k (l.foldl judgeHold s) := by
  induction l generalizing s with
  | nil => exact h
  | cons r rest ih => exact ih (cutKept_judgeHold h r)

@[simp] theorem cutKept_judgeHolds : CutKept k (judgeHolds s) := cutKept_foldl_judgeHold h _

@[simp] theorem cutKept_takeStatus (v : PerRoute (BitVec 32)) : CutKept k (takeStatus v s) := by simp [takeStatus, h]

@[simp] theorem cutKept_refreshHold (p : Nat) : CutKept k (refreshHold p s) := by
  unfold refreshHold; split <;> simp [h]

@[simp] theorem cutKept_statusStale : CutKept k (statusStale s) := by
  unfold statusStale; split <;> simp [h]

end Launching
end Sys2Proof.Machine
end

section
/-! SUPPORT. What the density line, joining, ports, peers, litres and the valves' events keep of CSQ, open or shut. -/

namespace Sys2Proof.Machine

/-! ### Density -/

section Density
variable {k : Bool} {s : State} (h : CutKept k s)
include h

@[simp] theorem cutKept_densityNotice (b : Bool) : CutKept k (densityNotice b s) := by
  unfold densityNotice
  split
  · exact inEitherOrder_keeps (CutKept k) (fun _ ht => cutKept_evaluate ht _ _) (fun _ => cutKept_cutDensityNotice)
      (fun t => (cutKept_choices t _).mpr) h
  · exact cutKept_evaluate h _ _

@[simp] theorem cutKept_declareDeparture : CutKept k (declareDeparture s) := by
  unfold declareDeparture
  extract_lets s1 s2
  have h2 : CutKept k s2 := by
    simp only [s2, s1]
    split <;> simp [h]
  exact h2.atRole cutKept_cutUntracked h2

@[simp] theorem cutKept_judgeDeparture (n : Nat) : CutKept k (judgeDeparture n s) := by
  unfold judgeDeparture; (repeat' split) <;> simp [h]

@[simp] theorem cutKept_acceptSample (v : Nat) : CutKept k (acceptSample v s) := by
  simp only [acceptSample]; (repeat' split) <;> simp [h]

@[simp] theorem cutKept_restartDensity : CutKept k (restartDensity s) := by
  simp only [restartDensity]; (repeat' split) <;> simp [h]

@[simp] theorem cutKept_rejectSample : CutKept k (rejectSample s) := by
  unfold rejectSample; split <;> simp [h]

@[simp] theorem cutKept_judgeSample (l : List Byte) : CutKept k (judgeSample l s) := by
  unfold judgeSample; split <;> simp [h]

@[simp] theorem cutKept_huntCharacter (v : Byte) (b : Bool) : CutKept k (huntCharacter v b s) := by
  unfold huntCharacter; split <;> simp [h]

@[simp] theorem cutKept_frameCharacter (l : List Byte) (v : Byte) (b : Bool) : CutKept k (frameCharacter l v b s) := by
  unfold frameCharacter; (repeat' split) <;> simp [h]

@[simp] theorem cutKept_takeCharacter (v : Byte) (b : Bool) : CutKept k (takeCharacter v b s) := by
  unfold takeCharacter; (repeat' split) <;> simp [h]

@[simp] theorem cutKept_abandonSample : CutKept k (abandonSample s) := by
  unfold abandonSample; split <;> simp [h]

@[simp] theorem cutKept_silenceExpired : CutKept k (silenceExpired s) := by
  unfold silenceExpired; split <;> simp [h]

end Density

/-! ### Joining -/

section Joining
variable {k : Bool} {s : State} (h : CutKept k s)
include h

theorem cutKept_makeRoom {t : State} (ht : makeRoom s = some t) : CutKept k t := by
  unfold makeRoom at ht
  simp only at ht
  (repeat' split at ht) <;> cases ht <;> simp [h]

@[simp] theorem cutKept_applyPrior (m : LaunchMsg) : CutKept k (applyPrior m s) := by
  unfold applyPrior; split <;> simp [h]

@[simp] theorem cutKept_appendLaunch (m : LaunchMsg) (b : Bool) : CutKept k (appendLaunch m b s) := by
  unfold appendLaunch
  split
  · simp [h]
  · next s1 e =>
    have hs := cutKept_makeRoom h e
    refine cutKept_evaluate ?_ _ _
    split <;> simp [hs]

@[simp] theorem cutKept_placeLaunch (m : LaunchMsg) : CutKept k (placeLaunch m s) := by
  unfold placeLaunch; (repeat' split) <;> simp [h]

@[simp] theorem cutKept_insertItem (b : ItemBody) : CutKept k (insertItem b s).1 := by
  simp only [insertItem]
  split
  · split <;> simp [h]
  · split
    · exact h
    · split
      · exact h
      · split
        · simp [h]
        · next s1 e =>
          have hs := cutKept_makeRoom h e
          split <;> simp [hs]

@[simp] theorem cutKept_transferComplete : CutKept k (transferComplete s) := by
  unfold transferComplete
  extract_lets s1
  have h1 : CutKept k s1 := by simp [s1, h]
  exact h1.atRole cutKept_leaveUnknown h1

@[simp] theorem cutKept_takeAdopted (m : ItemMsg) : CutKept k (takeAdopted m s) := by
  have hi (f : Trs → Trs) (b : ItemBody) := cutKept_insertItem ((cutKept_putTrs s f).mpr h) b
  simp only [takeAdopted]; (repeat' split) <;> simp [h, hi]

@[simp] theorem cutKept_judgeItem (x : Nat) (m : ItemMsg) : CutKept k (judgeItem x m s) := by
  unfold judgeItem; (repeat' split) <;> simp [h]

@[simp] theorem cutKept_takeItem (x : Nat) (m : ItemMsg) : CutKept k (takeItem x m s) := by
  unfold takeItem; split <;> simp [h]

@[simp] theorem cutKept_transferExpired : CutKept k (transferExpired s) := by
  simp only [transferExpired]; (repeat' split) <;> simp [h]

@[simp] theorem cutKept_reAskExpired : CutKept k (reAskExpired s) := by
  unfold reAskExpired; split <;> simp [h]

@[simp] theorem cutKept_trainResync : CutKept k (trainResync s) := by simp [trainResync, h]

@[simp] theorem cutKept_takeAsk (x : Nat) (a : AskMsg) : CutKept k (takeAsk x a s) := by
  simp only [takeAsk]; (repeat' split) <;> simp [h]

@[simp] theorem cutKept_handItem : CutKept k (handItem s) := by
  unfold handItem; (repeat' split) <;> simp [h]

@[simp] theorem cutKept_startLearning : CutKept k (startLearning s) := by
  unfold startLearning; split <;> simp [h]

@[simp] theorem cutKept_learningEnds : CutKept k (learningEnds s) := by
  simp only [learningEnds]; split <;> simp [h]

@[simp] theorem cutKept_resync : CutKept k (resync s) := by
  unfold resync
  extract_lets s1 s2
  have h1 : CutKept k s1 := by simp [s1, h]
  have h2 : CutKept k s2 := h1.atRole cutKept_cutResync (by split <;> simp [h1])
  exact cutKept_trainResync ((cutKept_putDsu _ _).mpr h2)

end Joining

/-! ### Ports -/

section Ports
variable {k : Bool} {s : State} (h : CutKept k s)
include h

theorem cutKept_portBecomesUp (p : Port) : CutKept k (portBecomesUp p s) :=
  cutKept_sendAskIfDue (cutKept_startLearning ((cutKept_modifyPort s p _).mpr h))

theorem cutKept_trainingSymbol (p : Port) (x : Symbol) : CutKept k (trainingSymbol p x s) := by
  unfold trainingSymbol
  split
  · split
    · exact (cutKept_modifyPort s p _).mpr h
    · exact cutKept_portBecomesUp h p
  all_goals exact (cutKept_modifyPort s p _).mpr h

theorem cutKept_receiveFrame (p : Port) (bytes : List Byte) : CutKept k (receiveFrame p bytes s) := by
  unfold receiveFrame receiveGood
  (repeat' split) <;> simp [h]

theorem cutKept_beaconExpired (due : Nat) : CutKept k (beaconExpired due s) := by
  have hb (x : Tlc) : CutKept k { s.advanceTo due with tlc := x } := cutKept_congr (s := s) rfl h
  simp only [beaconExpired]
  split
  · exact (cutKept_sendOwn _ _ _).mpr ((cutKept_tlc _ _).mpr (hb _))
  · exact hb _

end Ports

/-! ### Peers -/

section Peers
variable {k : Bool} {s : State} (h : CutKept k s)
include h

@[simp] theorem cutKept_recomputeReference : CutKept k (recomputeReference s) := by
  simp only [recomputeReference]; split <;> simp [h]

@[simp] theorem cutKept_createPeer (n : Nat) (b : BeaconMsg) (r : Role) (p : Port) : CutKept k (createPeer n b r p s) := by
  simp only [createPeer]
  split
  · simp [h]
  · refine cutKept_recomputeReference ?_
    split <;> simp [h]

@[simp] theorem cutKept_applyBeacon (q : Peer) (b : BeaconMsg) (r : Role) (p : Port) : CutKept k (applyBeacon q b r p s).1 := by
  refine cutKept_recomputeReference ((cutKept_putPeers _ _).mpr ?_)
  (repeat' split) <;> simp [h]

@[simp] theorem cutKept_judgeBeaconGap (n : Nat) : CutKept k (judgeBeaconGap n s) := by
  unfold judgeBeaconGap; split <;> simp [h]

@[simp] theorem cutKept_learnSequence (b : BeaconMsg) : CutKept k (learnSequence b s) := by
  unfold learnSequence; (repeat' split) <;> simp [h]

@[simp] theorem cutKept_takeBeacon (n : Nat) (b : BeaconMsg) (r : Role) (p : Port) : CutKept k (takeBeacon n b r p s) := by
  unfold takeBeacon
  split
  · simp [h]
  · next q _ =>
    have ha := cutKept_applyBeacon h q b r p
    split
    · next s1 v e =>
      rw [e] at ha
      exact inEitherOrder_keeps (CutKept k) (fun _ ht => cutKept_trackDelta ht _ _) (fun _ ht => cutKept_judgeBeaconGap ht _)
        (fun t => (cutKept_choices t _).mpr) ha
    · next s1 e =>
      rw [e] at ha
      exact cutKept_judgeBeaconGap ha n

@[simp] theorem cutKept_judgePeerChange (t : State) : CutKept k (judgePeerChange t s) := by
  unfold judgePeerChange; split <;> simp [h]

@[simp] theorem cutKept_peerSuspect (n : Nat) : CutKept k (peerSuspect n s) := by
  simp only [peerSuspect]; (repeat' split) <;> simp [h]

@[simp] theorem cutKept_peerSilence (n : Nat) : CutKept k (peerSilence n s) := by
  unfold peerSilence; (repeat' split) <;> simp [h]

@[simp] theorem cutKept_peerFree (n : Nat) : CutKept k (peerFree n s) := by
  unfold peerFree; (repeat' split) <;> simp [h]

@[simp] theorem cutKept_holdEnds (n : Nat) : CutKept k (holdEnds n s) := by
  unfold holdEnds; (repeat' split) <;> simp [h]

@[simp] theorem cutKept_receiveBeacon (f : RxFrame) : CutKept k (receiveBeacon f s) := by
  simp only [receiveBeacon]
  split
  · split
    · exact cutKept_judgePeerChange (cutKept_takeBeacon (cutKept_learnSequence h _) _ _ _ _) _
    · exact h
  · exact h

@[simp] theorem cutKept_receiveLaunch (f : RxFrame) : CutKept k (receiveLaunch f s) := by
  unfold receiveLaunch; split <;> simp [h]

@[simp] theorem cutKept_receivePassage (f : RxFrame) : CutKept k (receivePassage f s) := by
  unfold receivePassage; split <;> simp [h]

@[simp] theorem cutKept_receiveHold (f : RxFrame) : CutKept k (receiveHold f s) := by
  unfold receiveHold; split <;> simp [h]

/-- A telegram taken from the receive queue (R107). -/
theorem cutKept_taken {a : Kind} {f : RxFrame → State → State} (hf : ∀ x, CutKept k (f x s)) :
    CutKept k (match headFrame a s with | some x => dropReceived (f x s) | none => s) := by
  split
  · exact (cutKept_dropReceived _).mpr (hf _)
  · exact h

end Peers

/-! ### Litres (R28, R31) -/

section Litres
variable {k : Bool} {s : State} (h : CutKept k s)
include h

/-- A mainline litre: at a TERMINUS an open record counts it, at every other role none is open (R28, R137). -/
theorem cutKept_emitLitre : CutKept k (emitLitre s) := by
  have hr : (putMtr (fun m => { m with fine := lessLitre m.fine, count := m.count + 1 }) s).hasRole .terminus = k := h.role
  unfold emitLitre handLitre
  cases k with
  | true =>
    rw [if_pos hr]
    exact inEitherOrder_keeps (CutKept true) (fun _ ht => cutKept_evaluateIfRemoved (cutKept_executeAndSettle ht) _)
      (fun _ => cutKept_trackLitre) (fun t => (cutKept_choices t _).mpr) (cutKept_countLitre h rfl)
  | false =>
    have hs : CutKept false (putMtr (fun m => { m with fine := lessLitre m.fine, count := m.count + 1 }) s) :=
      ⟨hr, h.logged, h.cut.imp_right fun hk => absurd hk.1 nofun⟩
    rw [if_neg (by rw [hr]; exact nofun)]
    split <;> simp [hs]

theorem cutKept_emitLitres (n : Nat) : CutKept k (emitLitres n s) := by
  induction n generalizing s with
  | zero => exact h
  | succ n ih => exact ih (cutKept_emitLitre h)

theorem cutKept_emitDeliveries (n : Nat) : CutKept k (emitDeliveries n s) := by
  induction n generalizing s with
  | zero => exact h
  | succ n ih => exact ih (cutKept_countDelivered ((cutKept_putMtr s rfl).mpr h))

theorem cutKept_takeMainline : CutKept k (takeMainline s) := cutKept_emitLitres ((cutKept_putMtr s rfl).mpr h) _

theorem cutKept_takeDelivery : CutKept k (takeDelivery s) := cutKept_emitDeliveries ((cutKept_putMtr s rfl).mpr h) _

end Litres

/-! ### The valves' events and the start reading (R171 to R175, R180) -/

section Valves
variable {k : Bool} {s : State} (h : CutKept k s)
include h

theorem cutKept_commandEnded (r : Route) (b : Bool) (e : CommandEnd) : CutKept k (commandEnded r b e s) := by
  unfold commandEnded
  split
  · exact h
  · split
    · next x _ =>
      have hy := (cutKept_switchCommandEnded s x r e).mpr h
      (repeat' split) <;> simp [h, hy]
    · split <;> simp [h]

theorem cutKept_limitSettled (r : Route) (x : RouteState) : CutKept k (limitSettled r x s) := by
  unfold limitSettled
  split
  · exact cutKept_commandEnded (by simp [h]) _ _ _
  · exact cutKept_commandEnded (by simp [h]) _ _ _
  · split <;> simp [h]

theorem cutKept_readCurrentRoute {f : Option Route → State → State} (hf : ∀ r t, CutKept k t → CutKept k (f r t)) :
    CutKept k (readCurrentRoute f s) := by
  unfold readCurrentRoute
  split
  · exact hf _ _ (by simp [h])
  · exact hf _ _ (by simp [h])

theorem cutKept_reportRouteToLaunch (r : Option Route) : CutKept k (reportRouteToLaunch r s) := by
  unfold reportRouteToLaunch; split <;> simp [h]

omit h in
theorem cutKept_reportRouteToCut {s : State} (h : CutKept true s) (r : Option Route) : CutKept true (reportRouteToCut r s) :=
  cutKept_leaveUnknown (cutKept_routeInUse h r)

theorem cutKept_startCloses (l : List Route) : CutKept k (l.foldl (fun s r => (commandRoute r .closed true s).1) s) := by
  induction l generalizing s with
  | nil => exact h
  | cons r rest ih => exact ih ((cutKept_commandRoute s r .closed true).mpr h)

theorem cutKept_startReading : CutKept k (startReading s) := by
  unfold startReading
  refine h.atRole (fun ht => ?_) ?_
  · have hr := cutKept_readCurrentRoute ht (f := reportRouteToCut) fun r _ hs => cutKept_reportRouteToCut hs r
    exact cutKept_evaluateIfRemoved (cutKept_cutOutcomes ((cutKept_startWaiting _ _).mpr hr) _) _
  · have hr := cutKept_readCurrentRoute h (f := reportRouteToLaunch) fun r _ hs => cutKept_reportRouteToLaunch hs r
    (repeat' split)
    · exact cutKept_changeoverOutcomes ((cutKept_startWaiting _ _).mpr hr) _
    · exact cutKept_startCloses h _
    · exact h

end Valves

end Sys2Proof.Machine
end

section
/-! SUPPORT. What every command keeps of CSQ, open or shut: settled O59. -/

namespace Sys2Proof.Machine

/-! ### Requests (12.2) -/

section Requests
variable {k : Bool} {s : State} (h : CutKept k s)
include h

theorem cutKept_whenRunning {f : State → State} (hf : CutKept k (f s)) : CutKept k (whenRunning f s) := by
  unfold whenRunning; split
  · exact hf
  · exact (cutKept_refuse s _).mpr h

theorem cutKept_respondDone {d : Option State} (hd : ∀ t, d = some t → CutKept k t) : CutKept k (respondDone d s) := by
  unfold respondDone
  split
  · exact (cutKept_respond _ _ _).mpr (hd _ rfl)
  · exact (cutKept_refuse s _).mpr h

omit h in
theorem cutKept_evaluated {d : Option State} {t : State} (hd : ∀ t, d = some t → CutKept k t) (ht : evaluated s d = some t) : CutKept k t := by
  obtain ⟨x, hx, rfl⟩ := Option.map_eq_some_iff.mp ht
  exact cutKept_evaluateIfRemoved (hd x hx) _

/-- A change of SPC that leaves the cut log alone. -/
theorem cutKept_spc {x : Spc} (hx : x.cutLog = s.spc.cutLog) : CutKept k { s with spc := x } := cutKept_congr (by simp [cutView, hx]) h

theorem cutKept_readEvent : CutKept k (readEvent s) := by
  unfold readEvent
  split
  · simp [h]
  · exact cutKept_spc ((cutKept_respond s _ _).mpr h) rfl

theorem cutKept_readCut : CutKept k (readCut s) := by
  unfold readCut
  split
  · simp [h]
  · exact cutKept_spc ((cutKept_respond s _ _).mpr h) rfl

theorem cutKept_respondRead (x : Option (List Byte)) : CutKept k (respondRead x s) := by
  unfold respondRead; split <;> simp [h]

theorem cutKept_ackAlarms (bits : BitVec 32) : CutKept k (ackAlarms bits s) := by
  unfold ackAlarms
  split
  · simp [h]
  · exact (cutKept_respond _ _ _).mpr ((cutKept_putSpc s rfl).mpr h)

theorem cutKept_setStatus (v : PerRoute (BitVec 32)) : CutKept k (setStatus v s) := by
  unfold setStatus; split <;> simp [h]

theorem cutKept_enterOrder (o : Order) (n : Nat) (b : Bool) : CutKept k (enterOrder o n b s) := by
  unfold enterOrder judgeIfOnly
  (repeat' split) <;> simp [h]

theorem cutKept_cancelOrder (n : Nat) : CutKept k (cancelOrder n s) := by
  simp only [cancelOrder]
  (repeat' split) <;> simp [h]

omit h in
/-- RELEASE_TO is taken from HELD or UNKNOWN, where no record is open (R155). -/
theorem cutKept_releaseTo {s : State} (h : CutKept true s) (n : Nat) : CutKept true (releaseTo n s) := by
  unfold releaseTo
  split
  · simp [h]
  · next hst =>
    split
    · simp [h]
    · split
      · simp [h]
      · exact (cutKept_respond _ _ _).mpr (cutKept_evaluateIfRemoved (cutKept_cutReleaseTo h (by tauto) _) _)

theorem cutKept_execRequest {c : Instr} {t : State} (ht : execRequest c s = .next t) : CutKept k t := by
  have hrefuse (w : Reason) : CutKept k (refuse w s) := (cutKept_refuse s w).mpr h
  cases c <;> cases ht
  case readStatus => simp [h]
  case readEvent => exact cutKept_whenRunning h (cutKept_readEvent h)
  case readCut => exact cutKept_whenRunning h (cutKept_readCut h)
  case readTrain | readPeer => exact cutKept_whenRunning h (cutKept_respondRead h _)
  case ackAlarms bits => exact cutKept_whenRunning h (cutKept_ackAlarms h bits)
  case setStatus v => exact cutKept_whenRunning h (cutKept_setStatus h v)
  case enterOrder =>
    refine cutKept_whenRunning h ?_
    split
    · exact cutKept_enterOrder h _ _ _
    · exact hrefuse _
  case cancelOrder =>
    refine cutKept_whenRunning h ?_
    split
    · exact cutKept_cancelOrder h _
    · exact hrefuse _
  case forceAdvance =>
    refine cutKept_whenRunning h (h.atRole (fun hs => ?_) ?_)
    · exact cutKept_respondDone hs fun _ => cutKept_evaluated fun _ => cutKept_cutForceAdvance hs
    · split
      · exact cutKept_respondDone h fun _ => cutKept_launchForceAdvance h
      · exact hrefuse _
  case forceTransmix =>
    refine cutKept_whenRunning h (h.atRole (fun hs => ?_) (hrefuse _))
    exact cutKept_respondDone hs fun _ => cutKept_evaluated fun _ => cutKept_cutForceTransmix hs
  case releaseTo => exact cutKept_whenRunning h (h.atRole (fun hs => cutKept_releaseTo hs _) (hrefuse _))
  case closeDelivery =>
    refine cutKept_whenRunning h ?_
    split
    · exact cutKept_respondDone h fun _ => cutKept_closeCommanded h
    · exact hrefuse _
  case resync =>
    refine cutKept_whenRunning h ?_
    split
    · exact hrefuse _
    · exact (cutKept_respond _ _ _).mpr (cutKept_resync h)
  all_goals exact h

end Requests

/-! ### Commands -/

theorem cutKept_ite {k : Bool} {c : Prop} [Decidable c] {s t : State} (ht : CutKept k t) (hs : CutKept k s) :
    CutKept k (if c then t else s) := by
  split
  · exact ht
  · exact hs

/-- Every command but POWER_ON_RESET and CONFIG_LOAD_DONE keeps CSQ safe. -/
theorem cutKept_exec {k : Bool} {c : Instr} {s t : State} (hp : c ≠ .powerOnReset) (hl : ∀ m, c ≠ .configLoadDone m)
    (h : CutKept k s) (ht : exec c s = .next t) : CutKept k t := by
  by_cases hq : Instr.byRequest c = true
  · exact cutKept_execRequest h (exec_byRequest hq s ▸ ht)
  cases c
  case powerOnReset => exact absurd rfl hp
  case configLoadDone m => exact absurd rfl (hl m)
  case spiBadRequest bytes =>
    rcases execSpiBadRequest_cases bytes s with ⟨-, e⟩ | ⟨-, why, -, e⟩ | ⟨c, -, e⟩ | ⟨-, e⟩ <;> rw [exec, e] at ht
    · cases ht; exact cutKept_spc h rfl
    · cases ht; exact (cutKept_refuse s _).mpr h
    · exact cutKept_execRequest h ht
    · cases ht; exact h
  case readStatus | readEvent | readCut | readTrain | readPeer | ackAlarms | setStatus | enterOrder | cancelOrder | forceAdvance
      | forceTransmix | releaseTo | closeDelivery | resync => exact absurd rfl hq
  case resetRelease => cases ht; exact cutKept_ite ⟨h.role, h.logged, h.cut⟩ h
  case mainlinePulse => cases ht; exact cutKept_ite (cutKept_takeMainline h) h
  case trimNudge =>
    cases ht
    split
    · exact h
    · exact (cutKept_offerEvent _ _).mpr ((cutKept_putMtr s rfl).mpr h)
  case deliveryPulse => cases ht; exact cutKept_ite (cutKept_takeDelivery h) h
  case densityCharacter => cases ht; exact cutKept_ite (cutKept_takeCharacter h _ _) h
  case frameCharTimeout => cases ht; exact cutKept_ite (cutKept_abandonSample h) h
  case silenceTimerExpiry => cases ht; exact cutKept_ite (cutKept_silenceExpired h) h
  case portSignalDetected => cases ht; exact cutKept_ite ((cutKept_modifyPort s _ _).mpr h) h
  case portReachesUp => cases ht; exact cutKept_ite (cutKept_portBecomesUp h _) h
  case lossOfSignal =>
    cases ht
    (repeat' split) <;> simp [h]
  case frameReceived => cases ht; exact cutKept_ite (cutKept_receiveFrame h _ _) h
  case rxFrameAborted => cases ht; exact cutKept_ite (cutKept_badFrame h _) h
  case noiseCleanExpiry => cases ht; exact cutKept_ite (by simp [portClean, h]) h
  case beaconTaken => cases ht; exact cutKept_taken h fun x => cutKept_receiveBeacon h x
  case launchTaken => cases ht; exact cutKept_taken h fun x => cutKept_receiveLaunch h x
  case passageTaken => cases ht; exact cutKept_taken h fun x => cutKept_receivePassage h x
  case holdTaken => cases ht; exact cutKept_taken h fun x => cutKept_receiveHold h x
  case askTaken => cases ht; exact cutKept_taken h fun x => cutKept_takeAsk h _ _
  case itemTaken => cases ht; exact cutKept_taken h fun x => cutKept_takeItem h _ _
  case peerSuspectExpiry => cases ht; exact cutKept_ite (cutKept_peerSuspect h _) h
  case peerSilenceExpiry => cases ht; exact cutKept_ite (cutKept_peerSilence h _) h
  case peerFreeExpiry => cases ht; exact cutKept_ite (cutKept_judgePeerChange (cutKept_peerFree h _) _) h
  case conflictHoldExpiry => cases ht; exact cutKept_ite (cutKept_holdEnds h _) h
  case askSend => cases ht; exact cutKept_sendAskIfDue h
  case transferTimerExpiry => cases ht; exact cutKept_ite (cutKept_transferExpired h) h
  case reAskTimerExpiry => cases ht; exact cutKept_ite (cutKept_reAskExpired h) h
  case answerItemHanded => cases ht; exact cutKept_ite (cutKept_handItem h) h
  case learnTimerExpiry => cases ht; exact cutKept_ite (cutKept_learningEnds h) h
  case beaconTimerExpiry =>
    cases ht
    split
    · exact cutKept_beaconExpired h _
    · exact h
  case txPortFree =>
    cases ht
    split
    · simp [portFree, h]
    · exact h
  case limitChange => cases ht; exact cutKept_ite (cutKept_limitSettled ((cutKept_putRoute s _ _).mpr h) _ _) ((cutKept_putRoute s _ _).mpr h)
  case travelTimerExpiry =>
    cases ht
    split
    · exact cutKept_commandEnded (by simp [h]) _ _ _
    · exact h
  case startReading =>
    cases ht
    split
    · exact cutKept_startReading (cutKept_congr (s := s) rfl h)
    · exact h
  case holdEntryExpiry =>
    cases ht
    refine cutKept_ite ?_ h
    unfold holdExpired
    split <;> simp [h]
  case holdRefreshExpiry => cases ht; exact cutKept_ite (cutKept_refreshHold h _) h
  case staleTimerExpiry => cases ht; exact cutKept_ite (cutKept_statusStale h) h
  case spiRequestAborted => cases ht; exact cutKept_spc h rfl
  case readEventRetire =>
    cases ht
    exact cutKept_ite ((cutKept_queueLostNotice _).mpr (cutKept_spc h rfl)) h
  case readCutRetire => cases ht; exact cutKept_ite ⟨h.role, h.logged.drop 1, h.cut⟩ h
  case lostNoticeQueued => cases ht; exact (cutKept_queueLostNotice s).mpr h
  case trainingSymbolReceived => cases ht; exact cutKept_ite (cutKept_trainingSymbol h _ _) h

/-! ### Loading and reset (R207 to R210) -/

/-- The loading leaves CSQ and the cut log as they are (R208, R210). -/
theorem finishLoad_cut (m : MemoryRead) (s : State) : (finishLoad m s).csq = s.csq ∧ (finishLoad m s).spc.cutLog = s.spc.cutLog := by
  unfold finishLoad loadRecord publish
  simp only
  (repeat' split)
  · exact ⟨rfl, rfl⟩
  · exact ⟨rfl, rfl⟩
  · exact ⟨rfl, rfl⟩
  · exact ⟨raiseAlarm_csq .., raiseAlarm_cutLog ..⟩

/-- In LOADING no record is open, so that the loading cannot part a record from its role and its count (R210). -/
theorem cutSafe_configLoadDone {s t : State} (h : CutSafe s) (m : MemoryRead) (ht : exec (.configLoadDone m) s = .next t) : CutSafe t := by
  cases ht
  split
  · next hl =>
    have hk := cutKept_of_safe h
    rw [hasRole_idle (running_loading hl.1)] at hk
    have hs : CutShut s.csq := hk.cut.resolve_right fun hr => absurd hr.1 nofun
    obtain ⟨hcsq, hlog⟩ := finishLoad_cut m s
    exact cutSafe_of_shut (hcsq.symm ▸ hs) (hlog.symm ▸ hk.logged)
  · exact h

theorem cutShut_reset : CutShut Csq.reset := ⟨rfl, rfl, rfl, rfl⟩

/-- Every command keeps CSQ safe. -/
theorem cutSafe_exec {c : Instr} {s t : State} (h : CutSafe s) (ht : exec c s = .next t) : CutSafe t := by
  by_cases hp : c = .powerOnReset
  · subst hp
    cases ht
    exact cutSafe_of_shut cutShut_reset fun r hr => absurd hr List.not_mem_nil
  by_cases hl : ∃ m, c = .configLoadDone m
  · obtain ⟨m, rfl⟩ := hl
    exact cutSafe_configLoadDone h m ht
  · exact (cutKept_exec hp (fun m hm => hl ⟨m, hm⟩) (cutKept_of_safe h) ht).safe

/-- Settles O59: CSQ is shut, or open with a record whose volumes add up to C and whose actions are in order, and each operation keeps it so. -/
theorem cutStaysSafe : Obligations.CutStaysSafe := by
  intro s t hs ht
  have hq (l : List Instr) (n : Nat) : CutSafe { s with pending := l, clock := n } := 
    CutKept.safe (s := { s with pending := l, clock := n }) (cutKept_congr (s := s) rfl (cutKept_of_safe hs))
  unfold step at ht
  split at ht
  · cases ht; exact hq _ _
  · next c rest _ => exact cutSafe_exec (s := { s with pending := rest }) (hq rest s.clock) ht

end Sys2Proof.Machine
end

section
/-! SUPPORT. A switch that executes at once (R143), and FORCE_ADVANCE at each role (R153, R191): settled O49. -/

namespace Sys2Proof.Machine

/-! ### A switch with a record open (R143) -/

/-- The record in the stage that an executed action of kind `k` brings (R143). -/
def OpenCut.ran (r : OpenCut) : ActionKind → OpenCut
  | .head => { r with stage := .middle }
  | .final => { r with stage := .trail, finalExecuted := true }
  | .none => r

/-- CSQ with the stream on `t` and the record `r` in its new stage (R143, R145). -/
def Csq.streamOn (q : Csq) (t : Route) (x : Source) (k : ActionKind) (r : OpenCut) (settle : Nat) : Csq := { q with
  routeInUse := some t
  lastSource := some x
  record := some (r.ran k)
  settleRemaining := if k = .final then settle else q.settleRemaining }

theorem takeStream_open {s : State} {r : OpenCut} (hr : s.csq.record = some r) (t : Route) (x : Source) (k : ActionKind) :
    takeStream t x k s = { s with csq := s.csq.streamOn t x k r s.cfg.settle } := by
  cases k <;> simp [takeStream, putCsq, Csq.streamOn, OpenCut.ran, hr]

/-- Without a record and an action the stream alone moves (R143). -/
theorem takeStream_bare {s : State} (hr : s.csq.record = none) (t : Route) (x : Source) :
    takeStream t x .none s = { s with csq := { s.csq with routeInUse := some t, lastSource := some x } } := by
  simp [takeStream, putCsq, hr]

theorem executeSwitch_inUse {s : State} {t : Route} (h : s.csq.routeInUse = some t) (x : Source) (k : ActionKind) (b : Bool) :
    executeSwitch t x k b s = takeStream t x k s := if_pos h

/-- VLD is free, and `t` is neither the route in use nor the current one, nor open (R176). -/
structure FreeFor (s : State) (t : Route) : Prop where
  idle : s.vld.inFlight = none
  read : s.vld.startRead = true
  unused : s.csq.routeInUse ≠ some t
  notCurrent : s.vld.current ≠ some t
  notOpen : (routeState s t).openLimit = false

theorem executeSwitch_making {s : State} {t : Route} (h : FreeFor s t) {r : OpenCut} (hr : s.csq.record = some r) (x : Source) (k : ActionKind) :
    executeSwitch t x k false s
      = { s with vld := s.making ⟨t, ⟨k, some r.number, false⟩⟩, csq := s.csq.streamOn t x k r s.cfg.settle } := by
  have hreq := requestSwitch_making (q := ⟨t, ⟨k, s.csq.record.map (·.number), false⟩⟩) h.idle h.read h.notCurrent h.notOpen
  rw [executeSwitch, if_neg h.unused, hreq, hr]
  exact takeStream_open (s := { s with vld := s.making ⟨t, ⟨k, some r.number, false⟩⟩ }) hr t x k

/-! ### FORCE_ADVANCE at a TERMINUS (R153) -/

/-- The record with FORCED (R153, R154). -/
def OpenCut.forced (r : OpenCut) : OpenCut := { r with flags := { r.flags with forced := true } }

/-- The state with FORCED on its open record `r` and the actions `l` queued. -/
def State.forcedCut (s : State) (r : OpenCut) (l : List Action) : State := { s with csq := { s.csq with record := some r.forced, queue := l } }

/-- The state with a threshold reached: CSQ in the state `x`, with the record `r` (R141). -/
def State.reachedCut (s : State) (x : CutState) (r : OpenCut) : State := { s with csq := { s.csq with state := x, record := some r } }

theorem flagRecord_forced {s : State} {r : OpenCut} (hr : s.csq.record = some r) :
    flagRecord (fun f => { f with forced := true }) s = s.forcedCut r s.csq.queue := by
  simp [flagRecord, modifyRecord, putCsq, hr, State.forcedCut, OpenCut.forced]

section Advance
variable {s : State} {r : OpenCut} (hr : s.csq.record = some r) (hp : r.policy ≠ .none) (hx : r.finalExecuted = false)
include hr hp hx

theorem cutForceAdvance_queued {a : Action} {rest : List Action} (hq : s.csq.queue = a :: rest) :
    cutForceAdvance s = some (executeSwitch a.target a.source a.kind false (s.forcedCut r rest)) := by
  simp only [cutForceAdvance, hr, hp, hx, Bool.false_eq_true, or_self, if_false, flagRecord_forced hr]
  simp only [State.forcedCut, hq, putCsq]

theorem cutForceAdvance_head {t : Route} (hq : s.csq.queue = []) (hm : r.policy = .transmix) (hh : r.headReached = false)
    (ht : transmixRoute s.cfg = some t) :
    cutForceAdvance s = some (executeSwitch t .forced .head false (s.reachedCut .mixing { r.forced with headReached := true })) := by
  have hpend : r.headPending = true := (headPending_iff r).mpr ⟨hm, hh⟩
  have ht' : transmixRoute (s.forcedCut r s.csq.queue).cfg = some t := ht
  simp only [cutForceAdvance, hr, hp, hx, Bool.false_eq_true, or_self, if_false, flagRecord_forced hr, hpend, if_true, thresholdTarget, ht']
  simp [State.forcedCut, State.reachedCut, hq, markReached, modifyRecord, putCsq]

theorem cutForceAdvance_final {t : Route} (hq : s.csq.queue = []) (hm : r.policy ≠ .transmix ∨ r.headReached = true)
    (hf : r.finalReached = false) (ht : productRoute s.cfg r.productB = some t) :
    cutForceAdvance s = some (executeSwitch t .forced .final false
      (s.reachedCut .settling { r.forced with finalReached := true, routeB := some t })) := by
  have hhead : r.headPending = false := by
    rw [← Bool.not_eq_true, headPending_iff]
    rintro ⟨hm', hh⟩
    rcases hm with hm | hm
    · exact hm hm'
    · exact absurd (hh.symm.trans hm) nofun
  have hpend : r.finalPending = true := (finalPending_iff r).mpr ⟨hp, hf⟩
  have ht' : productRoute (s.forcedCut r s.csq.queue).cfg r.productB = some t := ht
  simp only [cutForceAdvance, hr, hp, hx, Bool.false_eq_true, or_self, if_false, flagRecord_forced hr, hhead, hpend, if_true, thresholdTarget,
    resolveProduct, ht']
  simp [State.forcedCut, State.reachedCut, hq, markReached, modifyRecord, putCsq]

end Advance

/-! ### The command (R153, R191) -/

theorem exec_forceAdvance_terminus {s : State} (hr : s.hasRole .terminus = true) :
    exec .forceAdvance s = .next (respondDone (evaluated s (cutForceAdvance s)) s) := by
  simp only [exec, execForceAdvance, whenRunning, running_of_hasRole hr, hr, if_true]

/-- FORCE_ADVANCE taken at a TERMINUS, with no entry removed. -/
theorem exec_forceAdvance_done {s t : State} (hr : s.hasRole .terminus = true) (ht : cutForceAdvance s = some t) (htrs : t.trs = s.trs) :
    exec .forceAdvance s = .next (respond .ok [] t) := by
  rw [exec_forceAdvance_terminus hr, ht, evaluated, Option.map_some, evaluateIfRemoved_same (by rw [htrs])]
  rfl

theorem exec_forceAdvance_origin {s : State} (hr : s.hasRole .origin = true) :
    exec .forceAdvance s = .next (respondDone (launchForceAdvance s) s) := by
  simp only [exec, execForceAdvance, whenRunning, running_of_hasRole hr, hr, hasRole_other hr (r' := .terminus) nofun, Bool.false_eq_true,
    if_false, if_true]

theorem exec_forceAdvance_other {s : State} {x : Role} (hr : s.hasRole x = true) (ht : x ≠ .terminus) (ho : x ≠ .origin) :
    exec .forceAdvance s = .next (refuse .notRole s) := by
  simp only [exec, execForceAdvance, whenRunning, running_of_hasRole hr, hasRole_other hr ht, hasRole_other hr ho, Bool.false_eq_true,
    if_false, if_true]

/-- At the ORIGIN nothing can be forced (R191). -/
theorem launchForceAdvance_none {s : State} (h : s.trs.sync ≠ .synced ∨ s.lsc.switching = true ∨ s.lsc.orders = []) :
    launchForceAdvance s = none := by
  unfold launchForceAdvance
  split
  · next hc =>
    have ho : s.lsc.orders = [] := (h.resolve_left (not_not_intro hc.1)).resolve_left (by rw [hc.2]; nofun)
    rw [ho]
  · rfl

/-- A block that is applied lets FORCE_ADVANCE clear the fault mark and no more (R188, R191). -/
theorem launchForceAdvance_blocked {s : State} {o : Order} {rest : List Order} (hs : s.trs.sync = .synced) (hw : s.lsc.switching = false)
    (ho : s.lsc.orders = o :: rest) (hb : blockApplied s o = true) :
    launchForceAdvance s = some { s with lsc := { s.lsc with faultMark := false } } := by
  unfold launchForceAdvance
  rw [if_pos ⟨hs, hw⟩]
  split
  · next h => cases ho.symm.trans h
  · next h =>
    cases ho.symm.trans h
    exact if_pos hb

/-- Settles O49: at a TERMINUS the queue's head or the first unreached threshold is the one switch that executes; at the ORIGIN the three refusals and
the block are the branches before any changeover. -/
theorem forceAdvanceActsAtOnce : Obligations.ForceAdvanceActsAtOnce := by
  refine ⟨fun s hrun => ⟨fun hrole => ?_, fun hrole => ⟨fun h => ?_, fun o rest hs hw ho hb => ?_⟩, fun hrole => ⟨fun h => ?_, ?_⟩⟩, ?_⟩
  · rcases hrole with hrole | hrole <;> exact exec_forceAdvance_other ((hasRole_iff s _).mpr ⟨hrun, hrole⟩) nofun nofun
  · rw [exec_forceAdvance_origin ((hasRole_iff s _).mpr ⟨hrun, hrole⟩), launchForceAdvance_none h]
    rfl
  · rw [exec_forceAdvance_origin ((hasRole_iff s _).mpr ⟨hrun, hrole⟩), launchForceAdvance_blocked hs hw ho hb]
    rfl
  · have hnone : cutForceAdvance s = none := by simp [cutForceAdvance, h]
    rw [exec_forceAdvance_terminus ((hasRole_iff s _).mpr ⟨hrun, hrole⟩), hnone]
    rfl
  · intro r a rest hr hp hx hq hu forced
    have hadv := cutForceAdvance_queued hr hp hx hq
    rw [executeSwitch_inUse (s := s.forcedCut r rest) hu, takeStream_open (r := r.forced) rfl] at hadv
    rw [exec_forceAdvance_done ((hasRole_iff s _).mpr ⟨hrun, hrole⟩) hadv rfl]
    obtain ⟨target, dueAt, source, reference, kind⟩ := a
    simp only [Csq.streamOn, State.forcedCut, OpenCut.forced, ← hu]
    cases kind <;> rfl
  · intro s r hterm hr hp hx hread hidle free forced ran making
    have hfree (t : Route) (q : Csq) (hq : q.routeInUse = s.csq.routeInUse) (h : free t) : FreeFor { s with csq := q } t :=
      ⟨hidle, hread, by rw [hq]; exact h.1, h.2.1, h.2.2⟩
    refine ⟨fun a rest hq ha => ?_, fun t hq hm hh ht hf => ?_, fun t hq hm hn ht hf => ?_⟩
    · have hadv := cutForceAdvance_queued hr hp hx hq
      rw [executeSwitch_making (s := s.forcedCut r rest) (hfree _ _ rfl ha) (r := r.forced) rfl] at hadv
      rw [exec_forceAdvance_done hterm hadv rfl]
      obtain ⟨target, dueAt, source, reference, kind⟩ := a
      cases kind <;> rfl
    · have hadv := cutForceAdvance_head hr hp hx hq hm hh ht
      rw [executeSwitch_making (s := s.reachedCut .mixing _) (hfree _ _ rfl hf) rfl] at hadv
      exact exec_forceAdvance_done hterm hadv rfl
    · have hadv := cutForceAdvance_final hr hp hx hq hm hn ht
      rw [executeSwitch_making (s := s.reachedCut .settling _) (hfree _ _ rfl hf) rfl] at hadv
      exact exec_forceAdvance_done hterm hadv rfl

end Sys2Proof.Machine
end

section
/-! SUPPORT. FORCE_TRANSMIX and RELEASE_TO to the route in use (R154, R155): settled O50. -/

namespace Sys2Proof.Machine

/-! ### No entry PASSED, none in WINDOW -/

theorem removeBefore_unpassed (n : SeqNo) {l : List Entry} (h : ∀ e ∈ l, e.track ≠ .passed) : removeBefore n l = l := by
  induction l with
  | nil => rfl
  | cons a l ih =>
    cases l with
    | nil => rfl
    | cons b l => simp [removeBefore, h a List.mem_cons_self, ih fun e he => h e (List.mem_cons_of_mem _ he)]

/-- Without an entry in WINDOW no cut is due (R135). -/
theorem openDue_noWindow {s : State} (h : ∀ e ∈ s.trs.train, e.track ≠ .window) : openDue s = s := by
  have hnone : s.trs.train.find? (dueForCut s) = none := List.find?_eq_none.mpr fun e he => by simp [dueForCut, h e he]
  simp only [openDue, hnone, ite_self]

/-! ### The close without a removal (R146) -/

theorem closeRecord_none {s : State} (hr : s.csq.record = none) (b : Bool) (next : CutState) : closeRecord b next s = s := by
  simp [closeRecord, hr]

/-- A close that removes no entry (R21, R146). -/
theorem closeRecord_unpassed {s : State} {r : OpenCut} (hr : s.csq.record = some r) (ht : ∀ e ∈ s.trs.train, e.track ≠ .passed)
    (next : CutState) :
    closeRecord true next s = ({ s with csq := s.csq.shut next } : State).logged (r.closed s.mtr.count s.mtr.trim) := by
  have hsame : putTrain s.trs.train (s.logged (r.closed s.mtr.count s.mtr.trim)) = s.logged (r.closed s.mtr.count s.mtr.trim) := by
    rw [putTrain_same (by rw [logged_trs]), ← logged_trs s (r.closed s.mtr.count s.mtr.trim)]
  have hclose : closeRecord true next s = putCsq (fun q => q.shut next)
      (putTrain (removeBefore r.cutEntry (s.logged (r.closed s.mtr.count s.mtr.trim)).trs.train)
        (s.logged (r.closed s.mtr.count s.mtr.trim))) := by
    simp only [closeRecord, hr]
    rfl
  rw [hclose, logged_trs, removeBefore_unpassed _ ht, hsame, logged_eq, logged_eq]
  rfl

/-! ### FORCE_TRANSMIX (R154) -/

/-- Without a record, a switch to the route in use names its source and does no more (R143). -/
theorem executeSwitch_bare {s : State} {t : Route} (hr : s.csq.record = none) (hu : s.csq.routeInUse = some t) (x : Source) (b : Bool) :
    executeSwitch t x .none b s = { s with csq := { s.csq with lastSource := some x } } := by
  rw [executeSwitch_inUse hu, takeStream_bare hr, ← hu]

theorem switchToTransmix_inUse {s : State} {t : Route} (hr : s.csq.record = none) (ht : transmixRoute s.cfg = some t)
    (hu : s.csq.routeInUse = some t) : switchToTransmix s = { s with csq := { s.csq with lastSource := some .forced } } := by
  simp only [switchToTransmix, ht]
  exact executeSwitch_bare hr hu .forced false

theorem exec_forceTransmix {s : State} (hr : s.hasRole .terminus = true) :
    exec .forceTransmix s = .next (respondDone (evaluated s (cutForceTransmix s)) s) := by
  simp only [exec, execForceTransmix, whenRunning, running_of_hasRole hr, hr, if_true]

/-- FORCE_TRANSMIX taken, with no entry removed. -/
theorem exec_forceTransmix_done {s t : State} (hr : s.hasRole .terminus = true) (ht : cutForceTransmix s = some t) (htrs : t.trs = s.trs) :
    exec .forceTransmix s = .next (respond .ok [] t) := by
  rw [exec_forceTransmix hr, ht, evaluated, Option.map_some, evaluateIfRemoved_same (by rw [htrs])]
  rfl

/-- Without a record FORCE_TRANSMIX holds the stream (R154). -/
theorem cutForceTransmix_shut {s : State} {t : Route} (hs : CutShut s.csq) (hn : s.csq.state ≠ .unknown) (ht : transmixRoute s.cfg = some t)
    (hu : s.csq.routeInUse = some t) :
    cutForceTransmix s = some { s with csq := { s.csq with state := .held, lastSource := some .forced } } := by
  have hqueue : putCsq (fun q => { q with queue := [] }) s = s := by
    simp only [putCsq]
    rw [← hs.queue]
  have hflag : flagRecord (fun f => { f with forced := true }) s = s := by
    simp only [flagRecord, modifyRecord, putCsq, hs.record, Option.map_none]
    rw [← hs.record]
  rw [cutForceTransmix, if_neg hn, hqueue, hflag, closeRecord_none hs.record, switchToTransmix_inUse hs.record ht hu]
  rfl

/-- The open record closes with FORCED, and the stream is held (R146, R154). -/
theorem cutForceTransmix_open {s : State} {r : OpenCut} {t : Route} (hr : s.csq.record = some r) (hn : s.csq.state ≠ .unknown)
    (ht : transmixRoute s.cfg = some t) (hu : s.csq.routeInUse = some t) (hp : ∀ e ∈ s.trs.train, e.track ≠ .passed) :
    cutForceTransmix s = some (({ s with csq := { s.csq.shut .held with lastSource := some .forced } } : State).logged
      (r.forced.closed s.mtr.count s.mtr.trim)) := by
  have hflag : flagRecord (fun f => { f with forced := true }) (putCsq (fun q => { q with queue := [] }) s) = s.forcedCut r [] :=
    flagRecord_forced (s := putCsq (fun q => { q with queue := [] }) s) hr
  have hclose : closeRecord true .held (s.forcedCut r [])
      = ({ s with csq := s.csq.shut .held } : State).logged (r.forced.closed s.mtr.count s.mtr.trim) :=
    closeRecord_unpassed (s := s.forcedCut r []) (r := r.forced) rfl hp .held
  rw [cutForceTransmix, if_neg hn, hflag, hclose, switchToTransmix_inUse (t := t) (by rw [logged_csq]; rfl) (by rw [logged_eq]; exact ht)
    (by rw [logged_csq]; exact hu), logged_eq, logged_eq]
  rfl

/-! ### RELEASE_TO (R155) -/

theorem exec_releaseTo {s : State} (hr : s.hasRole .terminus = true) (route : Byte) :
    exec (.releaseTo route) s = .next (releaseTo route.toNat s) := by
  simp only [exec, execReleaseTo, whenRunning, running_of_hasRole hr, hr, if_true]

theorem routeNumber_of_routeOfNumber {n : Nat} {r : Route} (h : routeOfNumber n = some r) : routeNumber r = n := by
  unfold routeOfNumber at h
  split at h <;> cases h <;> rfl

/-- RELEASE_TO to no route, or to an UNUSED one (R155). -/
theorem releaseTo_badField {s : State} {n : Nat} (hst : s.csq.state = .held)
    (h : ∀ r : Route, routeNumber r = n → routeGet s.cfg.routes r = .unused) : releaseTo n s = refuse .badField s := by
  rw [releaseTo, if_neg fun hc => hc.1 hst]
  split
  · rfl
  · next r hr => exact if_pos (h r (routeNumber_of_routeOfNumber hr))

/-- RELEASE_TO to the route in use makes CSQ STEADY without a switch (R134, R155). -/
theorem cutReleaseTo_inUse {s : State} {r : Route} (hs : CutShut s.csq) (hu : s.csq.routeInUse = some r)
    (hw : ∀ e ∈ s.trs.train, e.track ≠ .window) : cutReleaseTo r s = { s with csq := { s.csq with
      state := .steady, lastSource := some .forced, cutThrough := (batchAtStation s.trs.train).map (·.seq) } } := by
  have hstream (x : Option SeqNo) (b : Bool) :
      executeSwitch r .forced .none b (putCsq (fun q => { q with state := .steady, cutThrough := x }) s)
        = { s with csq := { s.csq with state := .steady, lastSource := some .forced, cutThrough := x } } :=
    executeSwitch_bare (s := putCsq (fun q => { q with state := .steady, cutThrough := x }) s) hs.record hu .forced b
  rw [cutReleaseTo, hstream]
  refine openDue_noWindow ?_
  exact hw

theorem evaluateIfRemoved_csq (s : State) (q : Csq) : evaluateIfRemoved s { s with csq := q } = { s with csq := q } :=
  evaluateIfRemoved_same rfl

/-- Settles O50: a safe CSQ in STEADY or HELD has nothing open or queued, so that the stream's last source and the state alone change; an open
record closes at once. -/
theorem overridesHoldAndRelease : Obligations.OverridesHoldAndRelease := by
  intro s hrole hsafe
  have hk := cutKept_of_safe hsafe
  refine ⟨fun hst => ?_, fun t hst ht hu => ?_, ?_, fun route => ⟨fun hh hn => ?_, fun hst hno => ?_,
    fun r hst hnum huse hu hw => ?_⟩⟩
  · rw [exec_forceTransmix hrole, cutForceTransmix, if_pos hst]
    rfl
  · have hs := hk.shut_of_state (by rcases hst with hst | hst <;> rw [hst] <;> rfl)
    have hn : s.csq.state ≠ .unknown := by rcases hst with hst | hst <;> rw [hst] <;> nofun
    exact exec_forceTransmix_done hrole (cutForceTransmix_shut hs hn ht hu) rfl
  · intro r t hr ht hu hp flags logged
    have hn : s.csq.state ≠ .unknown := fun hst => by
      have ho := (hk.opened hr).state
      rw [hst] at ho
      cases ho
    exact exec_forceTransmix_done hrole (cutForceTransmix_open hr hn ht hu hp) (logged_trs _ _)
  · rw [exec_releaseTo hrole, releaseTo, if_pos ⟨hh, hn⟩]
    rfl
  · rw [exec_releaseTo hrole, releaseTo_badField hst hno]
    rfl
  · have hs := hk.shut_of_state (by rw [hst]; rfl)
    rw [exec_releaseTo hrole, releaseTo, if_neg fun hc => hc.1 hst, ← hnum, routeOfNumber_routeNumber]
    simp only [huse, if_false]
    rw [cutReleaseTo_inUse hs hu hw, evaluateIfRemoved_csq]
    rfl

end Sys2Proof.Machine
end

section
/-! SUPPORT. The start reading at each role (R180) and leaving UNKNOWN (R134): settled O7. -/

namespace Sys2Proof.Machine

/-! ### The routes read open (R180) -/

theorem mem_openRoutes {s : State} {r : Route} :
    r ∈ openRoutes s ↔ routeGet s.cfg.routes r ≠ .unused ∧ (routeState s r).confirmed = .opened := by
  have hall : r ∈ allRoutes := by cases r <;> decide
  simp [openRoutes, hall]

theorem openRoutes_nodup (s : State) : (openRoutes s).Nodup := List.Nodup.filter _ (by decide)

theorem openRoutes_eq_singleton {s : State} {r : Route} (hr : r ∈ openRoutes s) (ho : ∀ q ∈ openRoutes s, q = r) : openRoutes s = [r] := by
  have hiff (q : Route) : q ∈ openRoutes s ↔ q ∈ [r] := by
    rw [List.mem_singleton]
    exact ⟨ho q, fun h => h ▸ hr⟩
  exact List.perm_singleton.mp ((List.perm_ext_iff_of_nodup (openRoutes_nodup s) (List.nodup_singleton r)).mpr hiff)

/-- One route is open, and it becomes current (R180). -/
theorem readCurrentRoute_one {s : State} {r : Route} (h : openRoutes s = [r]) (f : Option Route → State → State) :
    readCurrentRoute f s = f (some r) (putCurrent (some r) s) := by
  simp only [readCurrentRoute, h]

/-- No route is open, or several: ROUTE_UNKNOWN (R180). -/
theorem readCurrentRoute_unknown {s : State} (h : ∀ r, openRoutes s ≠ [r]) (f : Option Route → State → State) :
    readCurrentRoute f s = f none (raiseAlarm .routeUnknown 0 s) := by
  unfold readCurrentRoute
  split
  · next r hr => exact absurd hr (h r)
  · rfl

theorem openRoutes_ne_of_none {s : State} (h : ∀ r, r ∉ openRoutes s) (r : Route) : openRoutes s ≠ [r] := fun he =>
  h r (by rw [he]; exact List.mem_singleton_self r)

theorem openRoutes_ne_of_two {s : State} {r q : Route} (hne : r ≠ q) (hr : r ∈ openRoutes s) (hq : q ∈ openRoutes s) (x : Route) :
    openRoutes s ≠ [x] := fun he => by
  rw [he, List.mem_singleton] at hr hq
  exact hne (hr.trans hq.symm)

/-! ### The report to CSQ (R134) -/

theorem leaveUnknown_stays {s : State} (h : s.csq.state ≠ .unknown ∨ s.csq.routeInUse = none ∨ s.trs.sync ≠ .synced) : leaveUnknown s = s := by
  refine if_neg fun ⟨hst, hu, hsync⟩ => ?_
  rcases h with h | h | h
  · exact h hst
  · rw [h] at hu; cases hu
  · exact h hsync

/-- CSQ leaves UNKNOWN for STEADY, with no entry in WINDOW (R134). -/
theorem leaveUnknown_steady {s : State} (hst : s.csq.state = .unknown) (hu : s.csq.routeInUse.isSome = true) (hsync : s.trs.sync = .synced)
    (hw : ∀ e ∈ s.trs.train, e.track ≠ .window) : leaveUnknown s
      = { s with csq := { s.csq with state := .steady, cutThrough := (batchAtStation s.trs.train).map (·.seq) } } := by
  rw [leaveUnknown, if_pos ⟨hst, hu, hsync⟩, enterSteady]
  refine openDue_noWindow ?_
  exact hw

/-- ROUTE_UNKNOWN is reported as no route in use (R180). -/
theorem reportRouteToCut_none (s : State) : reportRouteToCut none (raiseAlarm .routeUnknown 0 s)
    = raiseAlarm .routeUnknown 0 { s with csq := { s.csq with routeInUse := none } } := by
  rw [reportRouteToCut, leaveUnknown_stays (.inr (.inl rfl)), raiseAlarm_alarmed, raiseAlarm_alarmed]
  rfl

/-! ### The reading (R180) -/

/-- The start reading is made at its due time. -/
def State.readAt (s : State) (due : Nat) : State :=
  { s with clock := max s.clock (due * 1000), vld := { s.vld with startTimer := none, startRead := true } }

theorem exec_startReading {s : State} {due : Nat} {x : Role} (hr : s.hasRole x = true) (ht : s.vld.startTimer = some due) :
    exec .startReading s = .next (startReading (s.readAt due)) := by
  simp only [exec, execStartReading, running_of_hasRole hr, ht]
  rfl

section Reading
variable {s u : State} (hw : u.vld.waiting = [])
include hw

/-- At a TERMINUS the reading ends with the report, as no switch waits (R179, R180). -/
theorem startReading_terminus (hr : s.hasRole .terminus = true) (hu : readCurrentRoute reportRouteToCut s = u) : startReading s = u := by
  simp only [startReading, hr, if_true, hu, hw, List.length_nil, startWaiting]
  exact evaluateIfRemoved_same rfl

/-- At the ORIGIN likewise. -/
theorem startReading_origin (hr : s.hasRole .origin = true) (hu : readCurrentRoute reportRouteToLaunch s = u) : startReading s = u := by
  simp only [startReading, hr, hasRole_other hr (r' := .terminus) nofun, Bool.false_eq_true, if_false, if_true, hu, hw, List.length_nil,
    startWaiting]
  rfl

end Reading

theorem startReading_relay {s : State} (hr : s.hasRole .relay = true) : startReading s = s := by
  simp only [startReading, hasRole_other hr (r' := .terminus) nofun, hasRole_other hr (r' := .origin) nofun,
    hasRole_other hr (r' := .delivery) nofun, Bool.false_eq_true, if_false]

/-- Without an open route a DELIVERY station has none to close (R168, R180). -/
theorem startReading_delivery {s : State} (hr : s.hasRole .delivery = true) (ho : openRoutes s = []) : startReading s = s := by
  simp only [startReading, hr, hasRole_other hr (r' := .terminus) nofun, hasRole_other hr (r' := .origin) nofun, Bool.false_eq_true, if_false,
    if_true, closeOpenRoutes, ho, List.foldl_nil]

section Unknown
variable {s : State} {due : Nat} (ht : s.vld.startTimer = some due) (hw : s.vld.waiting = []) (ho : ∀ r, openRoutes s ≠ [r])
include ht hw ho

theorem exec_startReading_origin_unknown (hr : s.hasRole .origin = true) :
    exec .startReading s = .next (raiseAlarm .routeUnknown 0 (s.readAt due)) := by
  rw [exec_startReading hr ht]
  exact congrArg _ (startReading_origin (by rw [raiseAlarm_vld]; exact hw) hr (readCurrentRoute_unknown (s := s.readAt due) ho _))

theorem exec_startReading_terminus_unknown (hr : s.hasRole .terminus = true) : exec .startReading s
    = .next (raiseAlarm .routeUnknown 0 { s.readAt due with csq := { s.csq with routeInUse := none } }) := by
  rw [exec_startReading hr ht]
  exact congrArg _ (startReading_terminus (by rw [raiseAlarm_vld]; exact hw) hr
    ((readCurrentRoute_unknown (s := s.readAt due) ho _).trans (reportRouteToCut_none _)))

end Unknown

/-- Settles O7: the reading depends on the open routes alone, none, one or several, and with nothing waiting ends with the report. -/
theorem startReadingFindsTheRoute : Obligations.StartReadingFindsTheRoute := by
  intro s due ht hw read isOpen
  have hmem (r : Route) : r ∈ openRoutes s ↔ isOpen r := mem_openRoutes
  refine ⟨fun hr => ?_, fun hr hno => ?_, fun hr hno => ?_, fun hr hno => ?_, fun r q hne hr hq => ?_, fun r hr ho => ?_⟩
  · rw [exec_startReading hr ht]
    exact congrArg _ (startReading_relay (s := s.readAt due) hr)
  · rw [exec_startReading hr ht]
    have hnil : openRoutes s = [] := List.eq_nil_iff_forall_not_mem.mpr fun r h => hno r ((hmem r).mp h)
    exact congrArg _ (startReading_delivery (s := s.readAt due) hr hnil)
  · exact exec_startReading_terminus_unknown ht hw (openRoutes_ne_of_none fun r h => hno r ((hmem r).mp h)) hr
  · exact exec_startReading_origin_unknown ht hw (openRoutes_ne_of_none fun r h => hno r ((hmem r).mp h)) hr
  · have hseveral := openRoutes_ne_of_two hne ((hmem r).mpr hr) ((hmem q).mpr hq)
    exact ⟨exec_startReading_origin_unknown ht hw hseveral, exec_startReading_terminus_unknown ht hw hseveral⟩
  · have hone : openRoutes (s.readAt due) = [r] := openRoutes_eq_singleton (s := s) ((hmem r).mpr hr) fun q hq => ho q ((hmem q).mp hq)
    refine ⟨fun hrole => ?_, fun hrole hstay => ?_, fun hrole hst hsync hno => ?_⟩
    · rw [exec_startReading hrole ht]
      exact congrArg _ (startReading_origin hw hrole (readCurrentRoute_one hone _))
    · rw [exec_startReading hrole ht]
      have hstays : reportRouteToCut (some r) (putCurrent (some r) (s.readAt due))
          = putCsq (fun q => { q with routeInUse := some r }) (putCurrent (some r) (s.readAt due)) :=
        leaveUnknown_stays (hstay.imp_right .inr)
      exact congrArg _ (startReading_terminus hw hrole ((readCurrentRoute_one hone _).trans hstays))
    · rw [exec_startReading hrole ht]
      have hsteady := leaveUnknown_steady (s := putCsq (fun q => { q with routeInUse := some r }) (putCurrent (some r) (s.readAt due))) hst rfl
        hsync hno
      exact congrArg _ (startReading_terminus hw hrole ((readCurrentRoute_one hone _).trans hsteady))

end Sys2Proof.Machine
end

section
/-! SUPPORT. DSQ and HLU in agreement with their states (R158, R194 to R196): what the single updates and the operations of the line, VLD and CSQ
keep of it. -/

namespace Sys2Proof.Machine

/-! ### The two blocks -/

/-- The blocks whose agreement is kept: DSQ with its active delivery, HLU with its holds and its stale timer. -/
inductive SideBlock where
  | deliveries | holds

/-- The block agrees with its state (R158, R194 to R196). -/
def SideSafe : SideBlock → State → Prop
  | .deliveries, s => DeliverySafe s
  | .holds, s => TerminalSafe s

/-- What the agreement is about: the load state, DSQ and HLU. -/
def sideView (s : State) : Cfl × Dsq × Hlu := (s.cfl, s.dsq, s.hlu)

theorem terminalSafe_congr {s t : State} (hr : t.running = s.running) (ht : t.hlu = s.hlu) (h : TerminalSafe s) : TerminalSafe t :=
  ⟨ht ▸ h.slots, ht ▸ h.timers, ht ▸ h.headrooms, ht ▸ h.stale, fun hf => ht ▸ h.outside (hr ▸ hf)⟩

theorem deliverySafe_congr {s t : State} (ht : t.dsq = s.dsq) (h : DeliverySafe s) : DeliverySafe t := by
  unfold DeliverySafe
  rw [ht]
  exact h

theorem sideSafe_congr {k : SideBlock} {s t : State} (hv : sideView t = sideView s) (h : SideSafe k s) : SideSafe k t := by
  simp only [sideView, Prod.mk.injEq] at hv
  obtain ⟨hc, hd, hh⟩ := hv
  cases k with
  | deliveries => exact deliverySafe_congr hd h
  | holds => exact terminalSafe_congr (by simp [State.running, hc]) hh h

theorem sideSafe_iff_of_view {k : SideBlock} {s t : State} (hv : sideView t = sideView s) : SideSafe k t ↔ SideSafe k s :=
  ⟨sideSafe_congr hv.symm, sideSafe_congr hv⟩

/-! ### Updates of the other blocks -/

section Updates
variable {k : SideBlock} (s : State)

@[simp] theorem sideSafe_choices (n : Nat) : SideSafe k { s with choices := n } ↔ SideSafe k s := sideSafe_iff_of_view rfl
@[simp] theorem sideSafe_clock (n : Nat) : SideSafe k { s with clock := n } ↔ SideSafe k s := sideSafe_iff_of_view rfl
@[simp] theorem sideSafe_trs (x : Trs) : SideSafe k { s with trs := x } ↔ SideSafe k s := sideSafe_iff_of_view rfl
@[simp] theorem sideSafe_prt (x : Prt) : SideSafe k { s with prt := x } ↔ SideSafe k s := sideSafe_iff_of_view rfl
@[simp] theorem sideSafe_mtr (x : Mtr) : SideSafe k { s with mtr := x } ↔ SideSafe k s := sideSafe_iff_of_view rfl
@[simp] theorem sideSafe_tlc (x : Tlc) : SideSafe k { s with tlc := x } ↔ SideSafe k s := sideSafe_iff_of_view rfl
@[simp] theorem sideSafe_spc (x : Spc) : SideSafe k { s with spc := x } ↔ SideSafe k s := sideSafe_iff_of_view rfl
@[simp] theorem sideSafe_vld (x : Vld) : SideSafe k { s with vld := x } ↔ SideSafe k s := sideSafe_iff_of_view rfl
@[simp] theorem sideSafe_advanceTo (n : Nat) : SideSafe k (s.advanceTo n) ↔ SideSafe k s := sideSafe_iff_of_view rfl
@[simp] theorem sideSafe_putMtr (f : Mtr → Mtr) : SideSafe k (putMtr f s) ↔ SideSafe k s := sideSafe_iff_of_view rfl
@[simp] theorem sideSafe_putTrs (f : Trs → Trs) : SideSafe k (putTrs f s) ↔ SideSafe k s := sideSafe_iff_of_view rfl
@[simp] theorem sideSafe_putDsu (f : Dsu → Dsu) : SideSafe k (putDsu f s) ↔ SideSafe k s := sideSafe_iff_of_view rfl
@[simp] theorem sideSafe_putReceiver (r : Receiver) : SideSafe k (putReceiver r s) ↔ SideSafe k s := sideSafe_iff_of_view rfl
@[simp] theorem sideSafe_putCsq (f : Csq → Csq) : SideSafe k (putCsq f s) ↔ SideSafe k s := sideSafe_iff_of_view rfl
@[simp] theorem sideSafe_putLsc (f : Lsc → Lsc) : SideSafe k (putLsc f s) ↔ SideSafe k s := sideSafe_iff_of_view rfl
@[simp] theorem sideSafe_putSpc (f : Spc → Spc) : SideSafe k (putSpc f s) ↔ SideSafe k s := sideSafe_iff_of_view rfl
@[simp] theorem sideSafe_putHolds (l : List Hold) : SideSafe k (putHolds l s) ↔ SideSafe k s := sideSafe_iff_of_view rfl
@[simp] theorem sideSafe_putTrain (t : List Entry) : SideSafe k (putTrain t s) ↔ SideSafe k s := sideSafe_iff_of_view rfl
@[simp] theorem sideSafe_updateEntry (n : SeqNo) (f : Entry → Entry) : SideSafe k (updateEntry n f s) ↔ SideSafe k s := sideSafe_iff_of_view rfl
@[simp] theorem sideSafe_putPeers (l : List Peer) : SideSafe k (putPeers l s) ↔ SideSafe k s := sideSafe_iff_of_view rfl
@[simp] theorem sideSafe_putRoute (r : Route) (x : RouteState) : SideSafe k (putRoute r x s) ↔ SideSafe k s := sideSafe_iff_of_view rfl
@[simp] theorem sideSafe_putInFlight (x : Option InFlight) : SideSafe k (putInFlight x s) ↔ SideSafe k s := sideSafe_iff_of_view rfl
@[simp] theorem sideSafe_putCurrent (x : Option Route) : SideSafe k (putCurrent x s) ↔ SideSafe k s := sideSafe_iff_of_view rfl
@[simp] theorem sideSafe_modifyPort (p : Port) (f : PortState → PortState) : SideSafe k (modifyPort p f s) ↔ SideSafe k s :=
  sideSafe_iff_of_view rfl
@[simp] theorem sideSafe_dropReceived : SideSafe k (dropReceived s) ↔ SideSafe k s := sideSafe_iff_of_view rfl
@[simp] theorem sideSafe_respond (x : RespStatus) (p : List Byte) : SideSafe k (respond x p s) ↔ SideSafe k s := sideSafe_iff_of_view rfl
@[simp] theorem sideSafe_refuse (w : Reason) : SideSafe k (refuse w s) ↔ SideSafe k s := sideSafe_iff_of_view rfl
@[simp] theorem sideSafe_modifyRecord (f : OpenCut → OpenCut) : SideSafe k (modifyRecord f s) ↔ SideSafe k s := sideSafe_iff_of_view rfl
@[simp] theorem sideSafe_flagRecord (f : CutFlags → CutFlags) : SideSafe k (flagRecord f s) ↔ SideSafe k s := sideSafe_iff_of_view rfl
@[simp] theorem sideSafe_changeToVolume : SideSafe k (changeToVolume s) ↔ SideSafe k s := sideSafe_iff_of_view rfl
@[simp] theorem sideSafe_takeStream (t : Route) (x : Source) (a : ActionKind) : SideSafe k (takeStream t x a s) ↔ SideSafe k s :=
  sideSafe_iff_of_view rfl
@[simp] theorem sideSafe_withholdFinal : SideSafe k (withholdFinal s) ↔ SideSafe k s := sideSafe_iff_of_view rfl

@[simp] theorem sideSafe_offerEvent (e : Event) : SideSafe k (offerEvent e s) ↔ SideSafe k s := sideSafe_iff_of_view (by simp [sideView])

@[simp] theorem sideSafe_raiseAlarm (a : Alarm) (d : Nat) : SideSafe k (raiseAlarm a d s) ↔ SideSafe k s :=
  sideSafe_iff_of_view (by simp [sideView])

@[simp] theorem sideSafe_appendToLog (r : LogRecord) : SideSafe k (appendToLog r s) ↔ SideSafe k s :=
  sideSafe_iff_of_view (by simp [sideView])

@[simp] theorem sideSafe_queueLostNotice : SideSafe k (queueLostNotice s) ↔ SideSafe k s := by
  rcases queueLostNotice_cases s with ⟨-, e⟩ | ⟨-, e⟩ <;> rw [e]
  exact sideSafe_spc s _

/-! ### The line (R98 to R119) -/

@[simp] theorem sideSafe_placeFrame (a : Alarm) (p : Port) (c : QueueClass) (f : Frame) : SideSafe k (placeFrame a p c f s) ↔ SideSafe k s := by
  rcases placeFrame_cases a p c f s with ⟨-, e⟩ | ⟨-, e⟩ <;> simp [e]

@[simp] theorem sideSafe_placeReceived (p : Port) (f : Frame) : SideSafe k (placeReceived p f s) ↔ SideSafe k s := by
  rcases placeReceived_cases p f s with ⟨-, e⟩ | ⟨-, e⟩ <;> simp [e]

@[simp] theorem sideSafe_forwardFrame (p : Port) (c : Kind) (f : Frame) : SideSafe k (forwardFrame p c f s) ↔ SideSafe k s := by
  unfold forwardFrame; split <;> simp

@[simp] theorem sideSafe_badFrame (p : Port) : SideSafe k (badFrame p s) ↔ SideSafe k s := by
  simp only [badFrame]; split <;> simp

@[simp] theorem sideSafe_sendOwn (c : Kind) (p : List Byte) : SideSafe k (sendOwn c p s) ↔ SideSafe k s :=
  sideSafe_iff_of_view (by rw [(sentFrom_sendOwn c p s).eq]; rfl)

@[simp] theorem sideSafe_sendAsk (n : Nat) : SideSafe k (sendAsk n s) ↔ SideSafe k s := by simp [sendAsk]

@[simp] theorem sideSafe_sendAskIfDue : SideSafe k (sendAskIfDue s) ↔ SideSafe k s := by
  unfold sendAskIfDue; split <;> simp

@[simp] theorem sideSafe_leaveSynced : SideSafe k (leaveSynced s) ↔ SideSafe k s := by
  unfold leaveSynced; split <;> simp

@[simp] theorem sideSafe_raiseGap : SideSafe k (raiseGap s) ↔ SideSafe k s := by simp [raiseGap]

@[simp] theorem sideSafe_refuseInsertion : SideSafe k (refuseInsertion s) ↔ SideSafe k s := by simp [refuseInsertion]

/-! ### Valves (R171 to R181) -/

@[simp] theorem sideSafe_faultRoute (r : Route) : SideSafe k (faultRoute r s) ↔ SideSafe k s := by simp [faultRoute]

@[simp] theorem sideSafe_commandRoute (r : Route) (p : Limit) (b : Bool) : SideSafe k (commandRoute r p b s).1 ↔ SideSafe k s := by
  rcases commandRoute_cases r p b s with ⟨-, x, e⟩ | ⟨-, x, e⟩ | ⟨-, x, e⟩ <;> simp [e]

end Updates

@[simp] theorem sideSafe_commandCloses {k : SideBlock} (l : List Route) (x : InFlight) (s : State) :
    SideSafe k (commandCloses l x s).1 ↔ SideSafe k s := by
  induction l generalizing x s with
  | nil => rfl
  | cons r rest ih => simp only [commandCloses]; split <;> simp [ih]

section Switches
variable {k : SideBlock} (s : State)

@[simp] theorem sideSafe_makeConfirmed (x : InFlight) : SideSafe k (makeConfirmed x s).1 ↔ SideSafe k s := by
  simp only [makeConfirmed]; (repeat' split) <;> simp

@[simp] theorem sideSafe_makeFaulted (x : InFlight) : SideSafe k (makeFaulted x s).1 ↔ SideSafe k s := by simp [makeFaulted]

@[simp] theorem sideSafe_startSwitch (q : SwitchRequest) : SideSafe k (startSwitch q s).1 ↔ SideSafe k s := by
  simp only [startSwitch]; (repeat' split) <;> simp

end Switches

@[simp] theorem sideSafe_startWaiting {k : SideBlock} (n : Nat) (s : State) : SideSafe k (startWaiting n s).1 ↔ SideSafe k s := by
  induction n generalizing s with
  | zero => rfl
  | succ n ih =>
    simp only [startWaiting]
    split
    · split <;> simp [ih]
    · rfl

section Cutting
variable {k : SideBlock} (s : State)

@[simp] theorem sideSafe_requestSwitch (q : SwitchRequest) : SideSafe k (requestSwitch q s).1 ↔ SideSafe k s := by
  rcases requestSwitch_cases q s with ⟨-, e⟩ | ⟨-, e⟩ | ⟨-, -, e⟩ <;> simp [e]

@[simp] theorem sideSafe_switchCommandEnded (x : InFlight) (r : Route) (e : CommandEnd) :
    SideSafe k (switchCommandEnded x r e s).1 ↔ SideSafe k s := by
  simp only [switchCommandEnded]; (repeat' split) <;> simp

/-! ### Cutting (R131 to R157) -/

@[simp] theorem sideSafe_resolveProduct (p : Nat) : SideSafe k (resolveProduct p s).1 ↔ SideSafe k s := by
  unfold resolveProduct; split <;> simp

@[simp] theorem sideSafe_thresholdTarget (a : ActionKind) (r : OpenCut) : SideSafe k (thresholdTarget a r s).1 ↔ SideSafe k s := by
  unfold thresholdTarget; split <;> simp

@[simp] theorem sideSafe_markReached (a : ActionKind) (t : Option Route) : SideSafe k (markReached a t s) ↔ SideSafe k s := by
  unfold markReached; split <;> simp

@[simp] theorem sideSafe_reachThreshold (a : ActionKind) (x : Source) : SideSafe k (reachThreshold a x s) ↔ SideSafe k s := by
  simp only [reachThreshold]; (repeat' split) <;> simp

@[simp] theorem sideSafe_judgeWith (f : Nat → Bool) (x : Source) : SideSafe k (judgeWith f x s) ↔ SideSafe k s := by
  simp only [judgeWith]; (repeat' split) <;> simp

@[simp] theorem sideSafe_judgeVolume : SideSafe k (judgeVolume s) ↔ SideSafe k s := by
  unfold judgeVolume; split <;> simp

@[simp] theorem sideSafe_judgeDensity : SideSafe k (judgeDensity s) ↔ SideSafe k s := by
  unfold judgeDensity; (repeat' split) <;> simp

@[simp] theorem sideSafe_judgeThresholds : SideSafe k (judgeThresholds s) ↔ SideSafe k s := by
  unfold judgeThresholds; (repeat' split) <;> simp

@[simp] theorem sideSafe_cutRlvChanged : SideSafe k (cutRlvChanged s) ↔ SideSafe k s := by
  unfold cutRlvChanged; (repeat' split) <;> simp

@[simp] theorem sideSafe_cutDensityNotice : SideSafe k (cutDensityNotice s) ↔ SideSafe k s := by
  unfold cutDensityNotice; (repeat' split) <;> simp

@[simp] theorem sideSafe_openDue : SideSafe k (openDue s) ↔ SideSafe k s := by
  unfold openDue openCut; (repeat' split) <;> simp

@[simp] theorem sideSafe_leaveUnknown : SideSafe k (leaveUnknown s) ↔ SideSafe k s := by
  unfold leaveUnknown enterSteady; split <;> simp

@[simp] theorem sideSafe_closeRecord (b : Bool) (x : CutState) : SideSafe k (closeRecord b x s) ↔ SideSafe k s := by
  unfold closeRecord; (repeat' split) <;> simp

@[simp] theorem sideSafe_cutAbandoned (q : SwitchRequest) (r : Option Route) : SideSafe k (cutAbandoned q r s) ↔ SideSafe k s := by
  simp only [cutAbandoned]; (repeat' split) <;> simp

@[simp] theorem sideSafe_cutOutcome (o : SwitchOutcome) : SideSafe k (cutOutcome o s) ↔ SideSafe k s := by
  unfold cutOutcome; (repeat' split) <;> simp

end Cutting

@[simp] theorem sideSafe_cutOutcomes {k : SideBlock} (l : List SwitchOutcome) (s : State) : SideSafe k (cutOutcomes l s) ↔ SideSafe k s := by
  unfold cutOutcomes
  induction l generalizing s with
  | nil => rfl
  | cons o rest ih => simp [ih]

@[simp] theorem sideSafe_executeSwitch {k : SideBlock} (t : Route) (x : Source) (a : ActionKind) (b : Bool) (s : State) :
    SideSafe k (executeSwitch t x a b s) ↔ SideSafe k s := by
  unfold executeSwitch; split <;> simp

@[simp] theorem sideSafe_executeDue {k : SideBlock} (n : Nat) (s : State) : SideSafe k (executeDue n s) ↔ SideSafe k s := by
  induction n generalizing s with
  | zero => rfl
  | succ n ih =>
    simp only [executeDue]
    split
    · split <;> simp [ih]
    · rfl

section Cuts
variable {k : SideBlock} (s : State)

@[simp] theorem sideSafe_switchToTransmix : SideSafe k (switchToTransmix s) ↔ SideSafe k s := by
  unfold switchToTransmix; split <;> simp

@[simp] theorem sideSafe_countLitre : SideSafe k (countLitre s) ↔ SideSafe k s := by
  unfold countLitre; (repeat' split) <;> simp

@[simp] theorem sideSafe_checkProduct : SideSafe k (checkProduct s) ↔ SideSafe k s := by
  simp only [checkProduct]; (repeat' split) <;> simp

@[simp] theorem sideSafe_executeAndSettle : SideSafe k (executeAndSettle s) ↔ SideSafe k s := by
  simp only [executeAndSettle]; split <;> simp

@[simp] theorem sideSafe_mergeActions (b : Bool) : SideSafe k (mergeActions b s) ↔ SideSafe k s := by
  unfold mergeActions; (repeat' split) <;> simp

@[simp] theorem sideSafe_mergeCut (e : Entry) : SideSafe k (mergeCut e s) ↔ SideSafe k s := by
  unfold mergeCut; split <;> simp

@[simp] theorem sideSafe_cutEntered (n : SeqNo) : SideSafe k (cutEntered n s) ↔ SideSafe k s := by
  unfold cutEntered; (repeat' split) <;> simp

@[simp] theorem sideSafe_cutMissed (r : OpenCut) : SideSafe k (cutMissed r s) ↔ SideSafe k s := by
  simp only [cutMissed]; (repeat' split) <;> simp

@[simp] theorem sideSafe_cutDeclared (a : PassageKind) (n : SeqNo) (x : Int) : SideSafe k (cutDeclared a n x s) ↔ SideSafe k s := by
  unfold cutDeclared; (repeat' split) <;> simp

@[simp] theorem sideSafe_cutUntracked : SideSafe k (cutUntracked s) ↔ SideSafe k s := by
  unfold cutUntracked; split <;> simp

@[simp] theorem sideSafe_cutReleaseTo (r : Route) : SideSafe k (cutReleaseTo r s) ↔ SideSafe k s := by simp [cutReleaseTo]

@[simp] theorem sideSafe_cutResync : SideSafe k (cutResync s) ↔ SideSafe k s := by simp [cutResync]

variable {s} (h : SideSafe k s)
include h

theorem sideSafe_cutForceAdvance {t : State} (ht : cutForceAdvance s = some t) : SideSafe k t := by
  unfold cutForceAdvance at ht
  simp only at ht
  (repeat' split at ht) <;> cases ht <;> simp [h]

theorem sideSafe_cutForceTransmix {t : State} (ht : cutForceTransmix s = some t) : SideSafe k t := by
  unfold cutForceTransmix at ht
  split at ht
  · cases ht
  · obtain rfl := Option.some.inj ht
    simp [h]

end Cuts

end Sys2Proof.Machine
end

section
/-! SUPPORT. What DSQ's and HLU's own operations, tracking and launching keep of DSQ and HLU. -/

namespace Sys2Proof.Machine

/-! ### DSQ changed (R158) -/

section Changed
variable {k : SideBlock} {s : State}

/-- DSQ changed so that a delivery is active exactly outside IDLE. -/
theorem sideSafe_putDsq {f : Dsq → Dsq} (h : SideSafe k s) (hf : DeliverySafe s → DeliverySafe (putDsq f s)) : SideSafe k (putDsq f s) := by
  cases k with
  | deliveries => exact hf h
  | holds => exact terminalSafe_congr (s := s) rfl rfl h

/-- DSQ changed beside its state and the presence of its delivery. -/
theorem sideSafe_putDsq_beside {f : Dsq → Dsq} (hst : (f s.dsq).state = s.dsq.state)
    (ha : (f s.dsq).active.isSome = s.dsq.active.isSome) : SideSafe k (putDsq f s) ↔ SideSafe k s := by
  cases k with
  | deliveries => simp [SideSafe, DeliverySafe, hst, ha]
  | holds => exact ⟨terminalSafe_congr (s := putDsq f s) rfl rfl, terminalSafe_congr (s := s) rfl rfl⟩

/-- A delivery that is active moves to a state other than IDLE. -/
theorem sideSafe_moveOn {x : DeliveryState} (h : SideSafe k s) (ha : s.dsq.active.isSome = true) (hx : x ≠ .idle) :
    SideSafe k (putDsq (fun q => { q with state := x }) s) :=
  sideSafe_putDsq h fun _ => by cases x <;> simp_all [DeliverySafe]

@[simp] theorem sideSafe_modifyActive (f : ActiveDelivery → ActiveDelivery) : SideSafe k (modifyActive f s) ↔ SideSafe k s :=
  sideSafe_putDsq_beside rfl (by simp)

@[simp] theorem sideSafe_flagActive (f : DeliveryFlags → DeliveryFlags) : SideSafe k (flagActive f s) ↔ SideSafe k s := sideSafe_modifyActive _

@[simp] theorem sideSafe_noteCloseRequest : SideSafe k (noteCloseRequest s) ↔ SideSafe k s := sideSafe_modifyActive _

@[simp] theorem sideSafe_noteDetection (n : SeqNo) : SideSafe k (noteDetection n s) ↔ SideSafe k s := sideSafe_putDsq_beside rfl rfl

@[simp] theorem sideSafe_skipPassed : SideSafe k (skipPassed s) ↔ SideSafe k s := by
  unfold skipPassed
  (repeat' split) <;> simp [sideSafe_putDsq_beside]

@[simp] theorem sideSafe_chooseCandidate : SideSafe k (chooseCandidate s) ↔ SideSafe k s := by
  unfold chooseCandidate
  (repeat' split) <;> simp [sideSafe_putDsq_beside]

@[simp] theorem modifyActive_isSome (f : ActiveDelivery → ActiveDelivery) (s : State) :
    (modifyActive f s).dsq.active.isSome = s.dsq.active.isSome := by simp [modifyActive]

end Changed

/-! ### Delivering (R158 to R169) -/

section Delivering
variable {k : SideBlock} {s : State} (h : SideSafe k s)
include h

@[simp] theorem sideSafe_endDelivery : SideSafe k (endDelivery s) := by
  unfold endDelivery
  split
  · exact h
  · exact sideSafe_putDsq (by simp [h]) fun _ => rfl

@[simp] theorem sideSafe_closeEnded (e : CommandEnd) : SideSafe k (closeEnded e s) := by
  unfold closeEnded; split <;> simp [h]

@[simp] theorem sideSafe_handClose : SideSafe k (handClose s).1 := by
  unfold handClose
  split
  · exact h
  · next a ha =>
    have hc := (sideSafe_commandRoute _ a.route .closed false).mpr (sideSafe_moveOn (x := .closing) h (by simp [ha]) nofun)
    simp only
    split
    · exact hc
    · exact sideSafe_closeEnded hc _

@[simp] theorem sideSafe_requestClose (f : DeliveryFlags → DeliveryFlags) : SideSafe k (requestClose f s).1 := by
  unfold requestClose; (repeat' split) <;> simp [h]

@[simp] theorem sideSafe_doneTest : SideSafe k (doneTest s).1 := by
  unfold doneTest; (repeat' split) <;> simp [h]

@[simp] theorem sideSafe_openEnded (e : CommandEnd) : SideSafe k (openEnded e s).1 := by
  unfold openEnded
  split
  · exact h
  · next a ha =>
    split
    · split
      · exact sideSafe_handClose h
      · exact sideSafe_doneTest (sideSafe_moveOn h (by simp [ha]) nofun)
    · simp [h]

@[simp] theorem sideSafe_openDelivery (c : Candidate) : SideSafe k (openDelivery c s).1 := by
  simp only [openDelivery]
  split
  · simp [sideSafe_putDsq_beside, h]
  · next r _ =>
    have ho : SideSafe k (putDsq (fun q => { q with
        active := some (openedDelivery s c r), deliveredThrough := some c.seq, candidate := none, state := .opening }) s) :=
      sideSafe_putDsq h fun _ => rfl
    split <;> simp [ho]

@[simp] theorem sideSafe_judgeCandidateOnce : SideSafe k (judgeCandidateOnce s).1 := by
  simp only [judgeCandidateOnce]; (repeat' split) <;> simp [h]

@[simp] theorem sideSafe_judgeCandidate : SideSafe k (judgeCandidate s) := by
  unfold judgeCandidate; split <;> simp [h]

omit h in
@[simp] theorem sideSafe_afterDelivery {y : State × Bool} (hy : SideSafe k y.1) : SideSafe k (afterDelivery y) := by
  unfold afterDelivery; split <;> simp [hy]

@[simp] theorem sideSafe_trailingTest : SideSafe k (trailingTest s) := by
  unfold trailingTest; split <;> simp [h]

@[simp] theorem sideSafe_deliveryAfterEvaluation : SideSafe k (deliveryAfterEvaluation s) :=
  inEitherOrder_keeps (SideSafe k) (fun _ => sideSafe_judgeCandidate) (fun _ => sideSafe_trailingTest)
    (fun t => (sideSafe_choices t _).mpr) h

@[simp] theorem sideSafe_countDelivered : SideSafe k (countDelivered s) := by
  unfold countDelivered; (repeat' split) <;> simp [h]

@[simp] theorem sideSafe_plainOutcome (r : Route) (e : CommandEnd) : SideSafe k (plainOutcome r e s) := by
  unfold plainOutcome; (repeat' split) <;> simp [h]

theorem sideSafe_closeCommanded {t : State} (ht : closeCommanded s = some t) : SideSafe k t := by
  unfold closeCommanded at ht
  (repeat' split at ht) <;> cases ht
  simp [h]

@[simp] theorem sideSafe_deliveryResync : SideSafe k (deliveryResync s) := by
  simp [deliveryResync, sideSafe_putDsq_beside, h]

end Delivering

/-! ### Tracking (R40 to R57) -/

section Tracking
variable {k : SideBlock} {s : State}

@[simp] theorem sideSafe_judgeNudge (e : Entry) : SideSafe k (judgeNudge e s) ↔ SideSafe k s := by
  unfold judgeNudge; split <;> simp

@[simp] theorem sideSafe_handDeclaration (a : PassageKind) (e : Entry) : SideSafe k (handDeclaration a e s) ↔ SideSafe k s := by
  unfold handDeclaration; (repeat' split) <;> simp

@[simp] theorem sideSafe_declare (a : PassageKind) (e : Entry) : SideSafe k (declare a e s) ↔ SideSafe k s := by
  simp only [declare, sideSafe_handDeclaration, sideSafe_sendOwn]
  (repeat' split) <;> simp

@[simp] theorem sideSafe_openWindow (n : SeqNo) : SideSafe k (openWindow n s) ↔ SideSafe k s := by
  unfold openWindow; split <;> simp

@[simp] theorem sideSafe_testWindow (b : Bool) (e : Entry) : SideSafe k (testWindow b e s) ↔ SideSafe k s := by
  unfold testWindow; (repeat' split) <;> simp

end Tracking

@[simp] theorem sideSafe_visitEntry {k : SideBlock} (a : Bool) (b : Option SeqNo) (x : State × Tracker) (n : SeqNo) :
    SideSafe k (visitEntry a b x n).1 ↔ SideSafe k x.1 := by
  simp only [visitEntry]
  (repeat' split) <;> simp

@[simp] theorem sideSafe_visits {k : SideBlock} (a : Bool) (b : Option SeqNo) (l : List SeqNo) (x : State × Tracker) :
    SideSafe k (l.foldl (visitEntry a b) x).1 ↔ SideSafe k x.1 := by
  induction l generalizing x with
  | nil => rfl
  | cons n rest ih => simp [ih]

section Moves
variable {k : SideBlock} {s : State} (h : SideSafe k s)
include h

@[simp] theorem sideSafe_evaluateOnce (a : Bool) (b : Option SeqNo) : SideSafe k (evaluateOnce a b s) := by
  simp only [evaluateOnce]; split <;> simp [h]

@[simp] theorem sideSafe_evaluateRemovals (n l : Nat) : SideSafe k (evaluateRemovals n l s) := by
  induction n generalizing l s with
  | zero => exact h
  | succ n ih => simp only [evaluateRemovals]; split <;> simp [h, ih]

@[simp] theorem sideSafe_evaluate (a : Bool) (b : Option SeqNo) : SideSafe k (evaluate a b s) := by
  unfold evaluate; split <;> simp [h]

@[simp] theorem sideSafe_evaluateIfRemoved (before : State) : SideSafe k (evaluateIfRemoved before s) := by
  unfold evaluateIfRemoved; split <;> simp [h]

@[simp] theorem sideSafe_afterMove (b : Option SeqNo) : SideSafe k (afterMove b s) := by
  unfold afterMove
  split
  · exact inEitherOrder_keeps (SideSafe k) (fun t => (sideSafe_cutRlvChanged t).mpr) (fun _ ht => sideSafe_evaluate ht _ _)
      (fun t => (sideSafe_choices t _).mpr) h
  · exact sideSafe_evaluate h _ _

@[simp] theorem sideSafe_trackLitre : SideSafe k (trackLitre s) := by simp [trackLitre, h]

@[simp] theorem sideSafe_trackDelta (d m : Nat) : SideSafe k (trackDelta d m s) := by simp [trackDelta, h]

@[simp] theorem sideSafe_takeSnap (x : Nat) (n : SeqNo) (a : PassageKind) : SideSafe k (takeSnap x n a s) := by
  unfold takeSnap; (repeat' split) <;> simp [h]

@[simp] theorem sideSafe_takeRemoval (x : Nat) (n : SeqNo) : SideSafe k (takeRemoval x n s) := by
  unfold takeRemoval; (repeat' split) <;> simp [h]

end Moves

/-! ### Launching (R183 to R193) -/

section Launching
variable {k : SideBlock} (s : State)

@[simp] theorem sideSafe_closeRunningEntry : SideSafe k (closeRunningEntry s) ↔ SideSafe k s := by
  unfold closeRunningEntry; split <;> simp

@[simp] theorem sideSafe_appendOrderEntry (n : SeqNo) (o : Order) : SideSafe k (appendOrderEntry n o s) ↔ SideSafe k s := by
  unfold appendOrderEntry; split <;> simp

@[simp] theorem sideSafe_completeChangeover (r : Route) (x : SwitchResult) : SideSafe k (completeChangeover r x s) ↔ SideSafe k s := by
  unfold completeChangeover; split <;> simp

@[simp] theorem sideSafe_changeoverOutcome (o : SwitchOutcome) : SideSafe k (changeoverOutcome o s) ↔ SideSafe k s := by
  unfold changeoverOutcome; split <;> simp

@[simp] theorem sideSafe_startChangeover (o : Order) : SideSafe k (startChangeover o s).1 ↔ SideSafe k s := by
  unfold startChangeover; split <;> simp

@[simp] theorem sideSafe_startWithConflict (o : Order) : SideSafe k (startWithConflict o s).1 ↔ SideSafe k s := by
  unfold startWithConflict; split <;> simp

@[simp] theorem sideSafe_judgeChangeoverOnce : SideSafe k (judgeChangeoverOnce s).1 ↔ SideSafe k s := by
  unfold judgeChangeoverOnce; (repeat' split) <;> simp

end Launching

@[simp] theorem sideSafe_outcomes {k : SideBlock} (l : List SwitchOutcome) (s : State) :
    SideSafe k (l.foldl (fun s o => changeoverOutcome o s) s) ↔ SideSafe k s := by
  induction l generalizing s with
  | nil => rfl
  | cons o rest ih => simp [ih]

@[simp] theorem sideSafe_judgeChangeovers {k : SideBlock} (n : Nat) (s : State) : SideSafe k (judgeChangeovers n s) ↔ SideSafe k s := by
  induction n generalizing s with
  | zero => rfl
  | succ n ih =>
    have hj := sideSafe_judgeChangeoverOnce (k := k) s
    simp only [judgeChangeovers]
    split
    · next s1 e => rwa [e] at hj
    · next s1 l _ e =>
      rw [e] at hj
      simpa [ih] using hj

section Holds
variable {k : SideBlock} (s : State)

@[simp] theorem sideSafe_judgeChangeover : SideSafe k (judgeChangeover s) ↔ SideSafe k s := by simp [judgeChangeover]

@[simp] theorem sideSafe_changeoverOutcomes (l : List SwitchOutcome) : SideSafe k (changeoverOutcomes l s) ↔ SideSafe k s := by
  unfold changeoverOutcomes; split <;> simp

@[simp] theorem sideSafe_countLaunched : SideSafe k (countLaunched s) ↔ SideSafe k s := by simp [countLaunched]

@[simp] theorem sideSafe_setHold (a b c : Nat) : SideSafe k (setHold a b c s) ↔ SideSafe k s := by
  unfold setHold; (repeat' split) <;> simp

@[simp] theorem sideSafe_removeHold (a b : Nat) : SideSafe k (removeHold a b s) ↔ SideSafe k s := by
  unfold removeHold; split <;> simp

@[simp] theorem sideSafe_takeHold (a b c : Nat) : SideSafe k (takeHold a b c s) ↔ SideSafe k s := by
  unfold takeHold; (repeat' split) <;> simp

variable {s} (h : SideSafe k s)
include h

theorem sideSafe_launchForceAdvance {t : State} (ht : launchForceAdvance s = some t) : SideSafe k t := by
  unfold launchForceAdvance at ht
  simp only at ht
  (repeat' split at ht) <;> cases ht <;> simp [h]

/-! ### HLU changed (R194 to R196) -/

/-- HLU changed so that it agrees with its state. -/
theorem sideSafe_putHlu {f : Hlu → Hlu} (hf : TerminalSafe s → TerminalSafe (putHlu f s)) : SideSafe k (putHlu f s) := by
  cases k with
  | deliveries => exact deliverySafe_congr (s := s) rfl h
  | holds => exact hf h

/-- A slot replaced by one whose refresh timer runs exactly while its hold is active (R195). -/
theorem sideSafe_putSlot (p : Nat) {x : HoldSlot} (hx : x.refreshTimer.isSome = x.active) : SideSafe k (putSlot p x s) :=
  sideSafe_putHlu h fun hs => ⟨by simpa using hs.slots, fun y hy => (List.mem_or_eq_of_mem_set hy).elim (hs.timers y) fun e => e ▸ hx,
    hs.headrooms, hs.stale, hs.outside⟩

@[simp] theorem sideSafe_judgeHold (r : Route) : SideSafe k (judgeHold s r) := by
  unfold judgeHold
  (repeat' split) <;> simp [h, sideSafe_putSlot]

theorem sideSafe_foldl_judgeHold (l : List Route) : SideSafe k (l.foldl judgeHold s) := by
  induction l generalizing s with
  | nil => exact h
  | cons r rest ih => exact ih (sideSafe_judgeHold h r)

/-- A SET_STATUS brings headrooms of at most 65,535 and a status that is not stale (R194, R196). -/
theorem sideSafe_takeStatus (v : PerRoute (BitVec 32)) : SideSafe k (takeStatus v s) := by
  have hv (r : Route) (n : Nat) (hn : routeGet (routeMap keptHeadroom v) r = some n) : n ≤ 65535 := by
    rw [routeGet_routeMap, keptHeadroom, Option.some.injEq] at hn
    exact hn ▸ Nat.min_le_left _ _
  have h1 : SideSafe k (restartStaleTimer (putHlu (fun x => { x with headrooms := routeMap keptHeadroom v, stale := false }) s)) :=
    sideSafe_putHlu (f := fun x => { x with
      headrooms := routeMap keptHeadroom v, stale := false, staleTimer := some (s.now + 3 * s.cfg.beaconPeriod * 100) }) h
      fun hs => ⟨hs.slots, hs.timers, hv, nofun, fun _ => rfl⟩
  exact sideSafe_foldl_judgeHold h1 _

theorem sideSafe_refreshHold (p : Nat) : SideSafe k (refreshHold p s) := by
  unfold refreshHold
  split
  · exact h
  · exact sideSafe_putSlot (by simp [h]) _ rfl

/-- The stale timer expires in RUN alone, and stops (R196). -/
theorem sideSafe_statusStale (hr : s.running = true) : SideSafe k (statusStale s) := by
  unfold statusStale
  split
  · exact h
  · next due _ =>
    rw [sideSafe_raiseAlarm]
    exact sideSafe_putHlu ((sideSafe_advanceTo s due).mpr h) fun hs =>
      ⟨hs.slots, hs.timers, hs.headrooms, fun _ => rfl, fun hf => absurd (hr.symm.trans hf) nofun⟩

end Holds

end Sys2Proof.Machine
end

section
/-! SUPPORT. What the density line, joining, ports, peers, litres and the valves' events keep of DSQ and HLU. -/

namespace Sys2Proof.Machine

/-! ### Density -/

section Density
variable {k : SideBlock} {s : State} (h : SideSafe k s)
include h

@[simp] theorem sideSafe_densityNotice (b : Bool) : SideSafe k (densityNotice b s) := by
  unfold densityNotice
  split
  · exact inEitherOrder_keeps (SideSafe k) (fun _ ht => sideSafe_evaluate ht _ _) (fun t => (sideSafe_cutDensityNotice t).mpr)
      (fun t => (sideSafe_choices t _).mpr) h
  · exact sideSafe_evaluate h _ _

@[simp] theorem sideSafe_declareDeparture : SideSafe k (declareDeparture s) := by
  simp only [declareDeparture]; (repeat' split) <;> simp [h]

@[simp] theorem sideSafe_judgeDeparture (n : Nat) : SideSafe k (judgeDeparture n s) := by
  unfold judgeDeparture; (repeat' split) <;> simp [h]

@[simp] theorem sideSafe_acceptSample (v : Nat) : SideSafe k (acceptSample v s) := by
  simp only [acceptSample]; (repeat' split) <;> simp [h]

@[simp] theorem sideSafe_restartDensity : SideSafe k (restartDensity s) := by
  simp only [restartDensity]; (repeat' split) <;> simp [h]

@[simp] theorem sideSafe_rejectSample : SideSafe k (rejectSample s) := by
  unfold rejectSample; split <;> simp [h]

@[simp] theorem sideSafe_judgeSample (l : List Byte) : SideSafe k (judgeSample l s) := by
  unfold judgeSample; split <;> simp [h]

@[simp] theorem sideSafe_huntCharacter (v : Byte) (b : Bool) : SideSafe k (huntCharacter v b s) := by
  unfold huntCharacter; split <;> simp [h]

theorem sideSafe_takeCharacter (v : Byte) (b : Bool) : SideSafe k (takeCharacter v b s) := by
  unfold takeCharacter frameCharacter; (repeat' split) <;> simp [h]

theorem sideSafe_abandonSample : SideSafe k (abandonSample s) := by
  unfold abandonSample; split <;> simp [h]

theorem sideSafe_silenceExpired : SideSafe k (silenceExpired s) := by
  unfold silenceExpired; split <;> simp [h]

end Density

/-! ### Joining -/

section Joining
variable {k : SideBlock} {s : State}

@[simp] theorem sideSafe_applyPrior (m : LaunchMsg) : SideSafe k (applyPrior m s) ↔ SideSafe k s := by
  unfold applyPrior; split <;> simp

@[simp] theorem sideSafe_transferComplete : SideSafe k (transferComplete s) ↔ SideSafe k s := by
  simp only [transferComplete]; split <;> simp

@[simp] theorem sideSafe_transferExpired : SideSafe k (transferExpired s) ↔ SideSafe k s := by
  simp only [transferExpired]; (repeat' split) <;> simp

@[simp] theorem sideSafe_reAskExpired : SideSafe k (reAskExpired s) ↔ SideSafe k s := by
  unfold reAskExpired; split <;> simp

@[simp] theorem sideSafe_trainResync : SideSafe k (trainResync s) ↔ SideSafe k s := by simp [trainResync]

@[simp] theorem sideSafe_takeAsk (x : Nat) (a : AskMsg) : SideSafe k (takeAsk x a s) ↔ SideSafe k s := by
  simp only [takeAsk]; (repeat' split) <;> simp

@[simp] theorem sideSafe_handItem : SideSafe k (handItem s) ↔ SideSafe k s := by
  unfold handItem; (repeat' split) <;> simp

@[simp] theorem sideSafe_startLearning : SideSafe k (startLearning s) ↔ SideSafe k s := by
  unfold startLearning; split <;> simp

@[simp] theorem sideSafe_learningEnds : SideSafe k (learningEnds s) ↔ SideSafe k s := by
  simp only [learningEnds]; split <;> simp

variable (h : SideSafe k s)
include h

theorem sideSafe_makeRoom {t : State} (ht : makeRoom s = some t) : SideSafe k t := by
  unfold makeRoom at ht
  simp only at ht
  (repeat' split at ht) <;> cases ht <;> simp [h]

@[simp] theorem sideSafe_appendLaunch (m : LaunchMsg) (b : Bool) : SideSafe k (appendLaunch m b s) := by
  unfold appendLaunch
  split
  · simp [h]
  · next s1 e =>
    have hs := sideSafe_makeRoom h e
    refine sideSafe_evaluate ?_ _ _
    split <;> simp [hs]

@[simp] theorem sideSafe_placeLaunch (m : LaunchMsg) : SideSafe k (placeLaunch m s) := by
  unfold placeLaunch; (repeat' split) <;> simp [h]

@[simp] theorem sideSafe_insertItem (b : ItemBody) : SideSafe k (insertItem b s).1 := by
  simp only [insertItem]
  split
  · split <;> simp [h]
  · split
    · exact h
    · split
      · exact h
      · split
        · simp [h]
        · next s1 e =>
          have hs := sideSafe_makeRoom h e
          split <;> simp [hs]

@[simp] theorem sideSafe_takeAdopted (m : ItemMsg) : SideSafe k (takeAdopted m s) := by
  have hi (f : Trs → Trs) (b : ItemBody) := sideSafe_insertItem ((sideSafe_putTrs s f).mpr h) b
  simp only [takeAdopted]; (repeat' split) <;> simp [h, hi]

theorem sideSafe_takeItem (x : Nat) (m : ItemMsg) : SideSafe k (takeItem x m s) := by
  unfold takeItem judgeItem; (repeat' split) <;> simp [h]

theorem sideSafe_resync : SideSafe k (resync s) := by
  simp only [resync, sideSafe_trainResync, sideSafe_putDsu]
  (repeat' split) <;> simp [h]

end Joining

/-! ### Ports and peers -/

section Ports
variable {k : SideBlock} {s : State}

@[simp] theorem sideSafe_portBecomesUp (p : Port) : SideSafe k (portBecomesUp p s) ↔ SideSafe k s := by simp [portBecomesUp]

@[simp] theorem sideSafe_trainingSymbol (p : Port) (x : Symbol) : SideSafe k (trainingSymbol p x s) ↔ SideSafe k s := by
  unfold trainingSymbol; (repeat' split) <;> simp

@[simp] theorem sideSafe_receiveFrame (p : Port) (bytes : List Byte) : SideSafe k (receiveFrame p bytes s) ↔ SideSafe k s := by
  unfold receiveFrame receiveGood; (repeat' split) <;> simp

@[simp] theorem sideSafe_beaconExpired (due : Nat) : SideSafe k (beaconExpired due s) ↔ SideSafe k s := by
  simp only [beaconExpired, sendBeacon]
  split
  · exact (sideSafe_sendOwn _ _ _).trans (sideSafe_iff_of_view rfl)
  · exact sideSafe_iff_of_view rfl

@[simp] theorem sideSafe_recomputeReference : SideSafe k (recomputeReference s) ↔ SideSafe k s := by
  simp only [recomputeReference]; split <;> simp

@[simp] theorem sideSafe_createPeer (n : Nat) (b : BeaconMsg) (r : Role) (p : Port) : SideSafe k (createPeer n b r p s) ↔ SideSafe k s := by
  simp only [createPeer]; (repeat' split) <;> simp

@[simp] theorem sideSafe_applyBeacon (q : Peer) (b : BeaconMsg) (r : Role) (p : Port) :
    SideSafe k (applyBeacon q b r p s).1 ↔ SideSafe k s := by
  simp only [applyBeacon]; (repeat' split) <;> simp

@[simp] theorem sideSafe_judgeBeaconGap (n : Nat) : SideSafe k (judgeBeaconGap n s) ↔ SideSafe k s := by
  unfold judgeBeaconGap; split <;> simp

@[simp] theorem sideSafe_learnSequence (b : BeaconMsg) : SideSafe k (learnSequence b s) ↔ SideSafe k s := by
  unfold learnSequence; (repeat' split) <;> simp

@[simp] theorem sideSafe_judgePeerChange (t : State) : SideSafe k (judgePeerChange t s) ↔ SideSafe k s := by
  unfold judgePeerChange; split <;> simp

@[simp] theorem sideSafe_peerSuspect (n : Nat) : SideSafe k (peerSuspect n s) ↔ SideSafe k s := by
  simp only [peerSuspect]; (repeat' split) <;> simp

@[simp] theorem sideSafe_peerSilence (n : Nat) : SideSafe k (peerSilence n s) ↔ SideSafe k s := by
  unfold peerSilence; (repeat' split) <;> simp

@[simp] theorem sideSafe_peerFree (n : Nat) : SideSafe k (peerFree n s) ↔ SideSafe k s := by
  unfold peerFree; (repeat' split) <;> simp

@[simp] theorem sideSafe_holdEnds (n : Nat) : SideSafe k (holdEnds n s) ↔ SideSafe k s := by
  unfold holdEnds; (repeat' split) <;> simp

@[simp] theorem sideSafe_holdExpired (x p : Nat) : SideSafe k (holdExpired x p s) ↔ SideSafe k s := by
  unfold holdExpired; split <;> simp

@[simp] theorem sideSafe_receiveHold (f : RxFrame) : SideSafe k (receiveHold f s) ↔ SideSafe k s := by
  unfold receiveHold; split <;> simp

variable (h : SideSafe k s)
include h

theorem sideSafe_takeBeacon (n : Nat) (b : BeaconMsg) (r : Role) (p : Port) : SideSafe k (takeBeacon n b r p s) := by
  unfold takeBeacon
  split
  · simp [h]
  · next q _ =>
    have ha := (sideSafe_applyBeacon q b r p).mpr h
    split
    · next s1 v e =>
      rw [e] at ha
      exact inEitherOrder_keeps (SideSafe k) (fun _ ht => sideSafe_trackDelta ht _ _) (fun _ => (sideSafe_judgeBeaconGap n).mpr)
        (fun t => (sideSafe_choices t _).mpr) ha
    · next s1 e =>
      rw [e] at ha
      exact (sideSafe_judgeBeaconGap n).mpr ha

theorem sideSafe_receiveBeacon (f : RxFrame) : SideSafe k (receiveBeacon f s) := by
  simp only [receiveBeacon]
  split
  · split
    · exact (sideSafe_judgePeerChange _).mpr (sideSafe_takeBeacon ((sideSafe_learnSequence _).mpr h) _ _ _ _)
    · exact h
  · exact h

theorem sideSafe_receiveLaunch (f : RxFrame) : SideSafe k (receiveLaunch f s) := by
  unfold receiveLaunch; split <;> simp [h]

theorem sideSafe_receivePassage (f : RxFrame) : SideSafe k (receivePassage f s) := by
  unfold receivePassage; split <;> simp [h]

/-- A telegram taken from the receive queue (R107). -/
theorem sideSafe_taken {a : Kind} {f : RxFrame → State → State} (hf : ∀ x, SideSafe k (f x s)) :
    SideSafe k (match headFrame a s with | some x => dropReceived (f x s) | none => s) := by
  split
  · exact (sideSafe_dropReceived _).mpr (hf _)
  · exact h

end Ports

/-! ### Litres (R28, R31) -/

section Litres
variable {k : SideBlock} {s : State} (h : SideSafe k s)
include h

theorem sideSafe_handLitre : SideSafe k (handLitre s) := by
  unfold handLitre
  split
  · exact inEitherOrder_keeps (SideSafe k) (fun t ht => sideSafe_evaluateIfRemoved ((sideSafe_executeAndSettle t).mpr ht) _)
      (fun _ => sideSafe_trackLitre) (fun t => (sideSafe_choices t _).mpr) ((sideSafe_countLitre s).mpr h)
  · split <;> simp [h]

theorem sideSafe_emitLitres (n : Nat) : SideSafe k (emitLitres n s) := by
  induction n generalizing s with
  | zero => exact h
  | succ n ih => exact ih (sideSafe_handLitre ((sideSafe_putMtr s _).mpr h))

theorem sideSafe_emitDeliveries (n : Nat) : SideSafe k (emitDeliveries n s) := by
  induction n generalizing s with
  | zero => exact h
  | succ n ih => exact ih (sideSafe_countDelivered ((sideSafe_putMtr s _).mpr h))

theorem sideSafe_takeMainline : SideSafe k (takeMainline s) := sideSafe_emitLitres ((sideSafe_putMtr s _).mpr h) _

theorem sideSafe_takeDelivery : SideSafe k (takeDelivery s) := sideSafe_emitDeliveries ((sideSafe_putMtr s _).mpr h) _

end Litres

/-! ### The valves' events and the start reading (R171 to R175, R180) -/

section Valves
variable {k : SideBlock} {s : State} (h : SideSafe k s)
include h

theorem sideSafe_commandEnded (r : Route) (b : Bool) (e : CommandEnd) : SideSafe k (commandEnded r b e s) := by
  unfold commandEnded; (repeat' split) <;> simp [h]

theorem sideSafe_limitSettled (r : Route) (x : RouteState) : SideSafe k (limitSettled r x s) := by
  unfold limitSettled
  split
  · exact sideSafe_commandEnded (by simp [h]) _ _ _
  · exact sideSafe_commandEnded (by simp [h]) _ _ _
  · split <;> simp [h]

omit h in
theorem sideSafe_readCurrentRoute {f : Option Route → State → State} (hf : ∀ r t, SideSafe k (f r t) ↔ SideSafe k t) :
    SideSafe k (readCurrentRoute f s) ↔ SideSafe k s := by
  unfold readCurrentRoute; split <;> simp [hf]

omit h in
theorem sideSafe_reportRouteToCut (r : Option Route) (t : State) : SideSafe k (reportRouteToCut r t) ↔ SideSafe k t := by
  simp [reportRouteToCut]

omit h in
theorem sideSafe_reportRouteToLaunch (r : Option Route) (t : State) : SideSafe k (reportRouteToLaunch r t) ↔ SideSafe k t := by
  unfold reportRouteToLaunch; split <;> simp

theorem sideSafe_startCloses (l : List Route) : SideSafe k (l.foldl (fun s r => (commandRoute r .closed true s).1) s) := by
  induction l generalizing s with
  | nil => exact h
  | cons r rest ih => exact ih ((sideSafe_commandRoute s r .closed true).mpr h)

theorem sideSafe_startReading : SideSafe k (startReading s) := by
  have hcut := (sideSafe_readCurrentRoute sideSafe_reportRouteToCut).mpr h
  have hlaunch := (sideSafe_readCurrentRoute sideSafe_reportRouteToLaunch).mpr h
  unfold startReading
  (repeat' split)
  · exact sideSafe_evaluateIfRemoved (by simp [hcut]) _
  · simp [hlaunch]
  · exact sideSafe_startCloses h _
  · exact h

end Valves

end Sys2Proof.Machine
end

section
/-! SUPPORT. What every command keeps of DSQ and HLU: settled O60. -/

namespace Sys2Proof.Machine

/-! ### Requests (12.2) -/

section Requests
variable {k : SideBlock} {s : State} (h : SideSafe k s)
include h

theorem sideSafe_ite {c : Prop} [Decidable c] {t : State} (ht : c → SideSafe k t) : SideSafe k (if c then t else s) := by
  split
  · next hc => exact ht hc
  · exact h

/-- A command for a role, refused at the others (R199). -/
theorem sideSafe_orRefuse {c : Prop} [Decidable c] {t : State} (w : Reason) (ht : SideSafe k t) :
    SideSafe k (if c then t else refuse w s) := by
  split
  · exact ht
  · exact (sideSafe_refuse s w).mpr h

theorem sideSafe_whenRunning {f : State → State} (hf : SideSafe k (f s)) : SideSafe k (whenRunning f s) := sideSafe_orRefuse h _ hf

theorem sideSafe_respondDone {d : Option State} (hd : ∀ t, d = some t → SideSafe k t) : SideSafe k (respondDone d s) := by
  unfold respondDone
  split
  · exact (sideSafe_respond _ _ _).mpr (hd _ rfl)
  · exact (sideSafe_refuse s _).mpr h

omit h in
theorem sideSafe_evaluated {d : Option State} {t : State} (hd : ∀ t, d = some t → SideSafe k t) (ht : evaluated s d = some t) :
    SideSafe k t := by
  obtain ⟨x, hx, rfl⟩ := Option.map_eq_some_iff.mp ht
  exact sideSafe_evaluateIfRemoved (hd x hx) _

theorem sideSafe_readEvent : SideSafe k (readEvent s) := by
  unfold readEvent; split <;> simp [h]

theorem sideSafe_readCut : SideSafe k (readCut s) := by
  unfold readCut; split <;> simp [h]

theorem sideSafe_respondRead (x : Option (List Byte)) : SideSafe k (respondRead x s) := by
  unfold respondRead; split <;> simp [h]

theorem sideSafe_ackAlarms (bits : BitVec 32) : SideSafe k (ackAlarms bits s) := by
  unfold ackAlarms; split <;> simp [h]

theorem sideSafe_setStatus (v : PerRoute (BitVec 32)) : SideSafe k (setStatus v s) :=
  sideSafe_orRefuse h _ ((sideSafe_respond _ _ _).mpr (sideSafe_takeStatus h v))

theorem sideSafe_enterOrder (o : Order) (n : Nat) (b : Bool) : SideSafe k (enterOrder o n b s) := by
  unfold enterOrder judgeIfOnly; (repeat' split) <;> simp [h]

theorem sideSafe_cancelOrder (n : Nat) : SideSafe k (cancelOrder n s) := by
  simp only [cancelOrder]; (repeat' split) <;> simp [h]

theorem sideSafe_releaseTo (n : Nat) : SideSafe k (releaseTo n s) := by
  unfold releaseTo; (repeat' split) <;> simp [h]

theorem sideSafe_execRequest {c : Instr} {t : State} (ht : execRequest c s = .next t) : SideSafe k t := by
  cases c <;> cases ht
  case readStatus => exact (sideSafe_respond _ _ _).mpr h
  case readEvent => exact sideSafe_whenRunning h (sideSafe_readEvent h)
  case readCut => exact sideSafe_whenRunning h (sideSafe_readCut h)
  case readTrain | readPeer => exact sideSafe_whenRunning h (sideSafe_respondRead h _)
  case ackAlarms bits => exact sideSafe_whenRunning h (sideSafe_ackAlarms h bits)
  case setStatus v => exact sideSafe_whenRunning h (sideSafe_setStatus h v)
  case enterOrder => exact sideSafe_whenRunning h (sideSafe_orRefuse h _ (sideSafe_enterOrder h _ _ _))
  case cancelOrder => exact sideSafe_whenRunning h (sideSafe_orRefuse h _ (sideSafe_cancelOrder h _))
  case forceAdvance =>
    refine sideSafe_whenRunning h ?_
    split
    · exact sideSafe_respondDone h fun _ => sideSafe_evaluated fun _ => sideSafe_cutForceAdvance h
    · exact sideSafe_orRefuse h _ (sideSafe_respondDone h fun _ => sideSafe_launchForceAdvance h)
  case forceTransmix =>
    exact sideSafe_whenRunning h (sideSafe_orRefuse h _
      (sideSafe_respondDone h fun _ => sideSafe_evaluated fun _ => sideSafe_cutForceTransmix h))
  case releaseTo => exact sideSafe_whenRunning h (sideSafe_orRefuse h _ (sideSafe_releaseTo h _))
  case closeDelivery =>
    exact sideSafe_whenRunning h (sideSafe_orRefuse h _ (sideSafe_respondDone h fun _ => sideSafe_closeCommanded h))
  case resync =>
    refine sideSafe_whenRunning h ?_
    split
    · exact (sideSafe_refuse s _).mpr h
    · exact (sideSafe_respond _ _ _).mpr (sideSafe_resync h)
  all_goals exact h

/-- The bytes of a transaction (R198, R199). -/
theorem sideSafe_spiBadRequest {bytes : List Byte} {t : State} (ht : execSpiBadRequest bytes s = .next t) : SideSafe k t := by
  rcases execSpiBadRequest_cases bytes s with ⟨-, e⟩ | ⟨-, why, -, e⟩ | ⟨c, -, e⟩ | ⟨-, e⟩ <;> rw [e] at ht
  · cases ht; exact (sideSafe_putSpc s _).mpr h
  · cases ht; exact (sideSafe_refuse s why).mpr h
  · exact sideSafe_execRequest h ht
  · cases ht; exact h

/-! ### Loading and reset (R207 to R210) -/

/-- In LOADING the status is not stale, so that HLU agrees with its state whatever is loaded and whether its stale timer starts (R196, R210). -/
theorem sideSafe_loaded {t : State} (hr : s.running = false) (hd : t.dsq = s.dsq) (hh : ∃ x, t.hlu = { s.hlu with staleTimer := x }) :
    SideSafe k t := by
  cases k with
  | deliveries => exact deliverySafe_congr hd h
  | holds =>
    obtain ⟨x, hx⟩ := hh
    have hstale : t.hlu.stale = false := by rw [hx]; exact h.outside hr
    refine ⟨by rw [hx]; exact h.slots, by rw [hx]; exact h.timers, by rw [hx]; exact h.headrooms, fun hf => ?_, fun _ => hstale⟩
    exact absurd (hstale.symm.trans hf) nofun

omit h in
/-- The loading leaves DSQ as it is and HLU but for its stale timer (R210). -/
theorem finishLoad_side (m : MemoryRead) (s : State) :
    (finishLoad m s).dsq = s.dsq ∧ ∃ x, (finishLoad m s).hlu = { s.hlu with staleTimer := x } := by
  have hstart (p : Published) (f : Cfl → Cfl) : ∃ x, (startBlocks p (putCfl f s)).hlu = { s.hlu with staleTimer := x } := by
    by_cases hr : p.role = some .delivery ∨ p.role = some .terminus
    · exact ⟨some (s.now + 3 * p.beaconPeriod * 100), if_pos hr⟩
    · exact ⟨_, if_neg hr⟩
  unfold finishLoad loadRecord publish
  simp only
  (repeat' split)
  · exact ⟨rfl, _, rfl⟩
  · exact ⟨rfl, _, rfl⟩
  · exact ⟨rfl, hstart _ _⟩
  · exact ⟨raiseAlarm_dsq .., by rw [raiseAlarm_hlu]; exact hstart _ _⟩

omit h in
theorem sideSafe_reset (k : SideBlock) : SideSafe k State.reset := by
  obtain ⟨-, -, -, -, -, -, -, -, -, -, hd, ht⟩ := resetIsSafe
  cases k with
  | deliveries => exact hd
  | holds => exact ht

/-! ### Commands -/

/-- Every command keeps DSQ and HLU in agreement with their states. -/
theorem sideSafe_exec {c : Instr} {t : State} (ht : exec c s = .next t) : SideSafe k t := by
  by_cases hq : Instr.byRequest c = true
  · exact sideSafe_execRequest h (exec_byRequest hq s ▸ ht)
  cases c
  case spiBadRequest bytes => exact sideSafe_spiBadRequest h ht
  case readStatus | readEvent | readCut | readTrain | readPeer | ackAlarms | setStatus | enterOrder | cancelOrder | forceAdvance
      | forceTransmix | releaseTo | closeDelivery | resync => exact absurd rfl hq
  case powerOnReset => cases ht; exact sideSafe_congr (s := State.reset) rfl (sideSafe_reset k)
  case resetRelease => cases ht; exact sideSafe_ite h fun hl => sideSafe_loaded h (running_loading hl) rfl ⟨_, rfl⟩
  case configLoadDone m =>
    cases ht
    exact sideSafe_ite h fun hl => sideSafe_loaded h (running_loading hl.1) (finishLoad_side m s).1 (finishLoad_side m s).2
  case mainlinePulse => cases ht; exact sideSafe_ite h fun _ => sideSafe_takeMainline h
  case trimNudge => cases ht; split <;> simp [takeNudge, h]
  case deliveryPulse => cases ht; exact sideSafe_ite h fun _ => sideSafe_takeDelivery h
  case densityCharacter => cases ht; exact sideSafe_ite h fun _ => sideSafe_takeCharacter h _ _
  case frameCharTimeout => cases ht; exact sideSafe_ite h fun _ => sideSafe_abandonSample h
  case silenceTimerExpiry => cases ht; exact sideSafe_ite h fun _ => sideSafe_silenceExpired h
  case portSignalDetected | portReachesUp | frameReceived | rxFrameAborted | trainingSymbolReceived =>
    cases ht
    exact sideSafe_ite h fun _ => by simp [h]
  case lossOfSignal => cases ht; (repeat' split) <;> simp [h]
  case noiseCleanExpiry => cases ht; exact sideSafe_ite h fun _ => by simp [portClean, h]
  case beaconTaken => cases ht; exact sideSafe_taken h (sideSafe_receiveBeacon h)
  case launchTaken => cases ht; exact sideSafe_taken h (sideSafe_receiveLaunch h)
  case passageTaken => cases ht; exact sideSafe_taken h (sideSafe_receivePassage h)
  case holdTaken => cases ht; exact sideSafe_taken h fun _ => (sideSafe_receiveHold _).mpr h
  case askTaken => cases ht; exact sideSafe_taken h fun _ => (sideSafe_takeAsk _ _).mpr h
  case itemTaken => cases ht; exact sideSafe_taken h fun _ => sideSafe_takeItem h _ _
  case peerSuspectExpiry | peerSilenceExpiry | peerFreeExpiry | conflictHoldExpiry => cases ht; exact sideSafe_ite h fun _ => by simp [h]
  case askSend => cases ht; exact (sideSafe_sendAskIfDue s).mpr h
  case transferTimerExpiry | reAskTimerExpiry | answerItemHanded | learnTimerExpiry | holdEntryExpiry =>
    cases ht
    exact sideSafe_ite h fun _ => by simp [h]
  case beaconTimerExpiry => cases ht; split <;> simp [h]
  case txPortFree => cases ht; split <;> simp [portFree, h]
  case limitChange r limit shown =>
    cases ht
    have hl := (sideSafe_putRoute s r ((routeState s r).withLimit limit shown)).mpr h
    exact sideSafe_ite hl fun _ => sideSafe_limitSettled hl _ _
  case travelTimerExpiry =>
    cases ht
    split
    · exact sideSafe_commandEnded (by simp [h]) _ _ _
    · exact h
  case startReading =>
    cases ht
    split
    · exact sideSafe_startReading (sideSafe_congr (s := s) rfl h)
    · exact h
  case holdRefreshExpiry => cases ht; exact sideSafe_ite h fun _ => sideSafe_refreshHold h _
  case staleTimerExpiry =>
    cases ht
    refine sideSafe_ite h fun hr => sideSafe_statusStale h ?_
    simp only [holdRole, State.hasRole, Bool.or_eq_true, Bool.and_eq_true] at hr
    exact hr.elim And.left And.left
  case spiRequestAborted => cases ht; exact (sideSafe_putSpc s _).mpr h
  case readEventRetire => cases ht; exact sideSafe_ite h fun _ => by simp [h]
  case readCutRetire => cases ht; exact sideSafe_ite h fun _ => (sideSafe_putSpc s _).mpr h
  case lostNoticeQueued => cases ht; exact (sideSafe_queueLostNotice s).mpr h

end Requests

/-- Every step keeps DSQ and HLU in agreement with their states. -/
theorem sideSafe_step {k : SideBlock} {s t : State} (h : SideSafe k s) (ht : step s = .next t) : SideSafe k t := by
  unfold step at ht
  split at ht
  · cases ht
    exact sideSafe_congr (s := s) rfl h
  · next c rest _ => exact sideSafe_exec (s := { s with pending := rest }) (sideSafe_congr (s := s) rfl h) ht

/-- Settles O60: DSQ's state moves with its active delivery, and HLU's slots and stale timer are set and cleared with what they time. -/
theorem deliveryAndTerminalStaySafe : Obligations.DeliveryAndTerminalStaySafe := fun _ _ ht =>
  ⟨fun h => sideSafe_step (k := .deliveries) h ht, fun h => sideSafe_step (k := .holds) h ht⟩

end Sys2Proof.Machine
end

section
/-! SUPPORT. What opens, closes and ends a side-stream delivery: settled O51. -/

namespace Sys2Proof.Machine

/-! ### CLOSE_DELIVERY (R164, R167) -/

theorem exec_closeDelivery {s : State} (hr : s.hasRole .delivery = true) :
    exec .closeDelivery s = .next (respondDone (closeCommanded s) s) := by
  show execCloseDelivery s = _
  simp only [execCloseDelivery, whenRunning, running_of_hasRole hr, hr, if_true]

theorem closeCommanded_none {s : State} (h : s.dsq.active = none ∨ s.dsq.state = .closing) : closeCommanded s = none := by
  unfold closeCommanded
  rcases h with h | h
  · rw [h]
  · split
    · rfl
    · exact if_neg (by simp [h])

theorem closeCommanded_requested {s t : State} {a : ActiveDelivery} (ha : s.dsq.active = some a)
    (ho : s.dsq.state = .delivering ∨ (s.dsq.state = .opening ∧ a.closePending = false))
    (h : requestClose (fun f => { f with commanded := true }) s = (t, false)) : closeCommanded s = some t := by
  have hopen : s.dsq.state = .delivering ∨ (s.dsq.state = .opening ∧ (!a.closePending) = true) := by simpa using ho
  simp only [closeCommanded, ha, if_pos hopen, h]
  rfl

/-! ### The candidate (R160, R161) -/

theorem orderedAt_of_mem {d : DeliveryRec} {l : List DeliveryRec} (hd : d ∈ l) (hn : (l.map (·.station)).Nodup) :
    orderedAt d.station l = some d.volume := by
  unfold orderedAt
  induction l with
  | nil => cases hd
  | cons a l ih =>
    obtain ⟨ha, hl⟩ := List.nodup_cons.mp (List.map_cons ▸ hn)
    rcases List.mem_cons.mp hd with rfl | hm
    · simp
    · have hne : (a.station == d.station) = false := by
        rw [beq_eq_false_iff_ne]
        intro h
        exact ha (h ▸ List.mem_map_of_mem hm)
      rw [List.find?_cons, hne]
      exact ih hm hl

/-- The train's one entry is PASSED with an order for the station and is not delivered-through, no delivery is active and no candidate or note
stands (R159, R160). -/
structure Awaits (s : State) (x : Entry) (v : Nat) : Prop where
  train : s.trs.train = [x]
  passed : x.track = .passed
  order : orderedAt s.cfg.station x.deliveries = some v
  ahead : s.dsq.deliveredThrough.all (fun n => seqAfter x.seq n) = true
  idle : s.dsq.state = .idle
  note : s.dsq.note = none
  candidate : s.dsq.candidate = none

/-- How far past the station the entry is due (R162). -/
def State.dueAt (s : State) (x : Entry) : Int := (halfWidth s x.sinceSnap + s.cfg.deliveryGuard : Nat)

/-- The candidate an entry with an order for the station makes (R160). -/
def Entry.asCandidate (x : Entry) (v : Nat) : Candidate := ⟨x.seq, x.product, v⟩

/-- The state with a candidate and nothing else changed. -/
def State.choosing (s : State) (c : Candidate) : State := { s with dsq := { s.dsq with candidate := some c } }

theorem Dsq.without_candidate {q : Dsq} (h : q.candidate = none) : { q with candidate := none } = q := by
  cases q
  cases h
  rfl

/-- The OPEN of a route, its limit not yet showing it, is in travel (R173). -/
def State.openingRoute (s : State) (r : Route) : State := { s with
  vld := { s.vld with routes := routeSet s.vld.routes r { routeState s r with
    latch := .opened, faultMark := false, startupClose := false, travel := some (s.now + s.cfg.travelTimeout * 1000) } } }

theorem commandRoute_open (s : State) {r : Route} (h : (routeState s r).openLimit = false) :
    commandRoute r .opened false s = (s.openingRoute r, none) := by
  simp [commandRoute, RouteState.shows, h, State.openingRoute, putRoute, latchOf]

section Opening
variable {s : State} {c : Candidate}

/-- Without a route the delivery is skipped (R162). -/
theorem openDelivery_unrouted (hp : productRoute s.cfg c.product = none) : openDelivery c s
    = (offerEvent (.deliverySkipped c.seq c.product c.ordered .noRoute)
        { s with dsq := { s.dsq with deliveredThrough := some c.seq, candidate := none } }, false) := by
  simp only [openDelivery, deliveryRoute, hp, offerEvent_offered]
  rfl

/-- On its product's route the delivery opens (R162). -/
theorem openDelivery_routed {r : Route} (hp : productRoute s.cfg c.product = some r) (ho : (routeState s r).openLimit = false) :
    openDelivery c s = (offerEvent (.deliveryOpened c.seq c.product r c.ordered) { s.openingRoute r with dsq := { s.dsq with
      state := .opening, deliveredThrough := some c.seq, active := some (openedDelivery s c r), candidate := none } }, false) := by
  simp only [openDelivery, deliveryRoute, hp]
  rw [commandRoute_open]
  · rfl
  · exact ho

end Opening

section Candidate
variable {s : State} {x : Entry} {v : Nat} (h : Awaits s x v)
include h

theorem chooseCandidate_awaits : chooseCandidate (skipPassed s) = s.choosing (x.asCandidate v) := by
  have hskip : skipPassed s = s := by simp only [skipPassed, h.candidate]
  have hbatch : batchAtStation s.trs.train = some x := by
    rw [h.train]
    exact batchAtStation_passed (passed := [x]) (coming := []) (by simpa using h.passed) (by simp)
  simp only [hskip, chooseCandidate, hbatch, h.ahead, if_true, h.order]
  rfl

theorem candidateDue_awaits : candidateDue (s.choosing (x.asCandidate v)) (x.asCandidate v) = decide (x.rlv ≤ -s.dueAt x) := by
  have hn : (s.choosing (x.asCandidate v)).dsq.note = none := h.note
  have hf : findEntry (s.choosing (x.asCandidate v)).trs.train (x.asCandidate v).seq = some x := by
    rw [show (s.choosing (x.asCandidate v)).trs.train = [x] from h.train]
    simp [findEntry, Entry.asCandidate]
  simp only [candidateDue, hn, hf, Bool.false_or]
  rfl

/-- The judgement of the chosen entry (R160, R162). -/
theorem judgeCandidateOnce_awaits : judgeCandidateOnce s
    = if x.rlv ≤ -s.dueAt x then openDelivery (x.asCandidate v) (s.choosing (x.asCandidate v)) else (s.choosing (x.asCandidate v), false) := by
  have hi : (s.choosing (x.asCandidate v)).dsq.state = .idle := h.idle
  have hc : (s.choosing (x.asCandidate v)).dsq.candidate = some (x.asCandidate v) := rfl
  simp only [judgeCandidateOnce, chooseCandidate_awaits h, hi, hc, candidateDue_awaits h, decide_eq_true_eq]

/-- An entry not yet far enough past the station is the candidate (R160). -/
theorem judgeCandidate_near (hn : 0 < x.rlv + s.dueAt x) : judgeCandidate s = s.choosing (x.asCandidate v) := by
  have hd : ¬ x.rlv ≤ -s.dueAt x := by omega
  have honce : judgeCandidateOnce s = (s.choosing (x.asCandidate v), false) := by rw [judgeCandidateOnce_awaits h, if_neg hd]
  rw [judgeCandidate, honce]
  rfl

/-- A due entry without a route is skipped (R162). -/
theorem judgeCandidate_unrouted (hd : x.rlv ≤ -s.dueAt x) (hp : productRoute s.cfg x.product = none) : judgeCandidate s
    = offerEvent (.deliverySkipped x.seq x.product v .noRoute) { s with dsq := { s.dsq with deliveredThrough := some x.seq } } := by
  have hq := Dsq.without_candidate (q := { s.dsq with deliveredThrough := some x.seq }) h.candidate
  rw [judgeCandidate, judgeCandidateOnce_awaits h, if_pos hd, openDelivery_unrouted (s := s.choosing _) (c := x.asCandidate v) hp]
  exact congrArg (fun q => offerEvent (.deliverySkipped x.seq x.product v .noRoute) { s with dsq := q }) hq

/-- A due entry's delivery opens on its product's route (R162). -/
theorem judgeCandidate_opens {r : Route} (hd : x.rlv ≤ -s.dueAt x) (hp : productRoute s.cfg x.product = some r)
    (ho : (routeState s r).openLimit = false) : judgeCandidate s
    = offerEvent (.deliveryOpened x.seq x.product r v) { s.openingRoute r with dsq := { s.dsq with
        state := .opening, deliveredThrough := some x.seq, active := some (openedDelivery s (x.asCandidate v) r) } } := by
  have hq := Dsq.without_candidate (q := { s.dsq with
    state := .opening, deliveredThrough := some x.seq, active := some (openedDelivery s (x.asCandidate v) r) }) h.candidate
  rw [judgeCandidate, judgeCandidateOnce_awaits h, if_pos hd, openDelivery_routed (s := s.choosing _) (c := x.asCandidate v) hp ho]
  exact congrArg (fun q => offerEvent (.deliveryOpened x.seq x.product r v) { s.openingRoute r with dsq := q }) hq

end Candidate

/-! ### The litre at a DELIVERY station (R40, R160, R163) -/

/-- A PASSED entry one litre further from the station (R28). -/
def Entry.movedPast (e : Entry) : Entry := { e with rlv := lowerRlv e.rlv 1 }

theorem advance_passed {e : Entry} (hp : e.track = .passed) : e.advance 1 = e.movedPast := by
  simp only [Entry.advance, hp, if_true, Entry.movedPast]

section Litre
variable {s t : State} {x : Entry}

/-- Without a successor in the train the trailing interface closes nothing (R164). -/
theorem trailingTest_lone (ht : s.trs.train = [x]) : trailingTest s = s := by
  refine if_neg ?_
  unfold trailingNear
  split
  · simp
  · simp [ht, successorOf]

theorem deliveryAfterEvaluation_lone (hs : s.trs.train = [x]) (ht : t.trs.train = [x])
    (hj : judgeCandidate { s with choices := s.choices + 1 } = t) : deliveryAfterEvaluation s = t := by
  have hs' : ({ s with choices := s.choices + 1 } : State).trs.train = [x] := hs
  unfold deliveryAfterEvaluation
  rcases inEitherOrder_cases judgeCandidate trailingTest s with he | he
  · rw [he, hj, trailingTest_lone ht]
  · rw [he, trailingTest_lone hs', hj]

/-- The window evaluation of a train whose one entry is PASSED is the judgement of the candidate (R40, R160). -/
theorem evaluate_lone (before : Option SeqNo) (hr : s.hasRole .delivery = true) (hs : s.trs.train = [x]) (hp : x.track = .passed)
    (ht : t.trs.train = [x]) (hj : judgeCandidate { s with choices := s.choices + 1 } = t) : evaluate false before s = t := by
  have hq : ∀ e ∈ s.trs.train, Quiet s e := by
    rw [hs]
    intro e he
    exact .inl (List.mem_singleton.mp he ▸ hp)
  have honce : evaluateOnce false before s = t := by
    simp only [evaluateOnce, visits_quiet false before hq, hr, if_true]
    exact deliveryAfterEvaluation_lone hs ht hj
  simp only [evaluate, nonOrigin_of_hasRole hr (by decide), if_true, honce]
  simp [evaluateRemovals, hs, ht]

/-- The state in which the litre's free order is judged: its litre taken, its entry moved (R26, R40). -/
def State.litreAt (s : State) (x : Entry) : State :=
  { s with choices := s.choices + 1, mtr := s.mtr.metered (pulsedFine s) 1, trs := { s.trs with train := [x] } }

theorem handLitre_lone {e : Entry} (hr : s.hasRole .delivery = true) (hs : s.trs.train = [e]) (hp : e.track = .passed)
    (ht : t.trs.train = [e.movedPast])
    (hj : judgeCandidate { s.withTrain [e.movedPast] with choices := s.choices + 1 } = t) : handLitre s = t := by
  have hterm : (s.withTrain [e.movedPast]).hasRole .terminus = false := hasRole_other hr (by decide)
  simp only [handLitre, hasRole_other hr (show Role.delivery ≠ .terminus by decide), hasRole_other hr (show Role.delivery ≠ .origin by decide),
    Bool.false_eq_true, if_false, trackLitre_eq, hs, List.map_cons, List.map_nil, advance_passed hp, afterMove, hterm]
  exact evaluate_lone (s := s.withTrain [e.movedPast]) _ hr rfl hp ht hj

/-- A pulse that brings one litre to a DELIVERY station where the train's one entry is PASSED. -/
theorem exec_pulse_delivery {e : Entry} (hr : s.hasRole .delivery = true) (hc : s.mtr.count ≤ lastTakenCount)
    (h1 : pulsedFine s / litre = 1) (hs : s.trs.train = [e]) (hp : e.track = .passed) (ht : t.trs.train = [e.movedPast])
    (hj : judgeCandidate (s.litreAt e.movedPast) = t) : exec .mainlinePulse s = .next t := by
  rw [exec_mainlinePulse_taken (running_of_hasRole hr) hc, takeMainline_one h1]
  exact congrArg _ (handLitre_lone (s := { s with mtr := s.mtr.metered (pulsedFine s) 1 }) hr hs hp ht hj)

end Litre

/-! ### The end of a command of the delivery's route (R165, R166) -/

section Ends
variable {s : State} {a : ActiveDelivery} {startup : Bool} (hs : startup = false) (hr : s.hasRole .delivery = true)
  (hf : s.vld.inFlight = none) (ha : s.dsq.active = some a)
include hs hr hf ha

/-- In OPENING DSQ takes the end of the command as its open's (R166). -/
theorem commandEnded_opening (e : CommandEnd) (hst : s.dsq.state = .opening) :
    commandEnded a.route startup e s = afterDelivery (openEnded e s) := by
  simp only [commandEnded, hs, Bool.false_eq_true, if_false, hf, hr, if_true, plainOutcome, ha, hst]

/-- In CLOSING DSQ takes the end of the command as its close's (R165). -/
theorem commandEnded_closing (e : CommandEnd) (hst : s.dsq.state = .closing) :
    commandEnded a.route startup e s = judgeCandidate (closeEnded e s) := by
  simp only [commandEnded, hs, Bool.false_eq_true, if_false, hf, hr, if_true, plainOutcome, ha, hst]

end Ends

/-- The confirmed open below the ordered volume (R163, R166). -/
theorem openEnded_confirmed {s : State} {a : ActiveDelivery} (ha : s.dsq.active = some a) (hp : a.closePending = false)
    (hd : a.delivered < a.ordered) : openEnded .confirmed s = ({ s with dsq := { s.dsq with state := .delivering } }, false) := by
  have hdone : ¬ a.ordered ≤ a.delivered := by omega
  simp [openEnded, doneTest, putDsq, ha, hp, hdone]

theorem loggedWithDsq (e : Event) (r : LogRecord) (q : Dsq) (s : State) :
    offerEvent e (appendToLog r { s with dsq := q }) = { offerEvent e (appendToLog r s) with dsq := q } := by
  simp only [appendToLog, offerEvent_offered]
  split <;> rfl

/-- The confirmed close ends the delivery with its record (R165). -/
theorem closeEnded_confirmed {s : State} {a : ActiveDelivery} (ha : s.dsq.active = some a) : closeEnded .confirmed s
    = offerEvent (.deliveryClosed a.seq a.delivered (a.flags.handedOn (logFull s)))
        (appendToLog (.delivery (a.record s.mtr.count s.mtr.deliveryCount)) { s with dsq := { s.dsq with state := .idle, active := none } }) := by
  rw [loggedWithDsq]
  simp only [closeEnded, endDelivery, reduceCtorEq, if_false, ha, putDsq, offerEvent_dsq, appendToLog_dsq]

/-- An empty train has no candidate (R160). -/
theorem judgeCandidate_empty {s : State} (ht : s.trs.train = []) (hc : s.dsq.candidate = none) : judgeCandidate s = s := by
  have hchosen : chooseCandidate (skipPassed s) = s := by
    have hq := Dsq.without_candidate hc
    simp only [skipPassed, hc, chooseCandidate, ht, batchAtStation, List.filter_nil, List.getLast?_nil, putDsq, hq]
  have honce : judgeCandidateOnce s = (s, false) := by
    simp only [judgeCandidateOnce, hchosen, hc]
    cases s.dsq.state <;> rfl
  rw [judgeCandidate, honce]
  rfl

/-- An OPEN in travel whose limit alone shows is confirmed (R173). -/
theorem travelEnd_opened {x : RouteState} (hl : x.latch = .opened) (ht : x.travel.isSome = true) (hc : x.closeLimit = false) :
    (x.withLimit .opened true).travelEnd = some .confirmed := by
  obtain ⟨due, hd⟩ := Option.isSome_iff_exists.mp ht
  simp [RouteState.withLimit, RouteState.travelEnd, RouteState.shows, latchPosition, hl, hd, hc]

/-! ### The obligation -/

/-- The close requested by the command, in OPENING and in DELIVERING (R164). -/
theorem closeDelivery_requests {s : State} {a : ActiveDelivery} (hr : s.hasRole .delivery = true) (ha : s.dsq.active = some a)
    (hc : a.atCloseRequest = none) (hp : a.closePending = false) :
    (s.dsq.state = .opening → exec .closeDelivery s = .next (respond .ok [] { s with dsq := { s.dsq with
      active := some { a.closeRequested (fun f => { f with commanded := true }) with closePending := true } } }))
    ∧ (s.dsq.state = .delivering → (routeState s a.route).closeLimit = false →
      exec .closeDelivery s = .next (respond .ok [] { s.closingRoute a.route with dsq := { s.dsq with
        state := .closing, active := some (a.closeRequested fun f => { f with commanded := true }) } })) := by
  refine ⟨fun ho => ?_, fun ho hl => ?_⟩
  · rw [exec_closeDelivery hr, closeCommanded_requested ha (.inr ⟨ho, hp⟩) (requestClose_opening _ ha hc ho)]
    rfl
  · rw [exec_closeDelivery hr, closeCommanded_requested ha (.inl ho) (requestClose_delivering _ ha hc ho hl)]
    rfl

theorem awaits_litreAt {s : State} {e : Entry} {v : Nat} (hp : e.track = .passed) (ho : ⟨s.cfg.station, v⟩ ∈ e.deliveries)
    (hn : (e.deliveries.map (·.station)).Nodup) (ha : s.dsq.deliveredThrough.all (fun n => seqAfter e.seq n) = true)
    (hi : s.dsq.state = .idle) (hnote : s.dsq.note = none) (hc : s.dsq.candidate = none) :
    Awaits (s.litreAt e.movedPast) e.movedPast v where
  train := rfl
  passed := hp
  order := orderedAt_of_mem ho hn
  ahead := ha
  idle := hi
  note := hnote
  candidate := hc

/-- The confirmed close with an empty train: the delivery has ended and no other is judged (R165). -/
theorem judgeCandidate_closeEnded {s : State} {a : ActiveDelivery} (ha : s.dsq.active = some a) (ht : s.trs.train = [])
    (hc : s.dsq.candidate = none) : judgeCandidate (closeEnded .confirmed s) = closeEnded .confirmed s := by
  refine judgeCandidate_empty ?_ ?_
  · rw [closeEnded_confirmed ha]
    simp [ht]
  · rw [closeEnded_confirmed ha]
    simp [hc]

/-- Settles O51: the command's requests, the litre's judgement of the lone entry, and the ends of the delivery's route. -/
theorem deliveriesOpenAndClose : Obligations.DeliveriesOpenAndClose := by
  refine ⟨fun s hr => ⟨fun h => ?_, fun a ha hc hp => closeDelivery_requests hr ha hc hp⟩, ?_, ?_⟩
  · rw [exec_closeDelivery hr, closeCommanded_none h]
    rfl
  · intro s e ordered r
    have hx : s.mtr.fine + ((s.cfg.pulseWeight : Int) * (1000000 + s.mtr.trim)).toNat = pulsedFine s := rfl
    have hlit : (1000000000 : Nat) = litre := rfl
    simp only [hx, hlit]
    intro hr hcount h1 ht hp ho hn hi _ hnote hc ha
    have haw : Awaits (s.litreAt e.movedPast) e.movedPast ordered := awaits_litreAt hp ho hn ha hi hnote hc
    have hpulse {t : State} (htt : t.trs.train = [e.movedPast]) (hj : judgeCandidate (s.litreAt e.movedPast) = t) :
        exec .mainlinePulse s = .next t := exec_pulse_delivery hr hcount h1 ht hp htt hj
    refine ⟨fun hnear => hpulse rfl (judgeCandidate_near (x := e.movedPast) haw hnear), fun hdue hroute hopen => ?_, fun hdue hroute => ?_⟩
    · exact hpulse (by rw [offerEvent_trs]; rfl) (judgeCandidate_opens (x := e.movedPast) haw hdue hroute hopen)
    · exact hpulse (by rw [offerEvent_trs]; rfl) (judgeCandidate_unrouted (x := e.movedPast) haw hdue hroute)
  · intro s a hr hf ha x ht hs put
    refine ⟨fun hst hl hc hp hd => ?_, fun hst hl ho htr hcand => ?_⟩
    · rw [exec_limitChange_confirmed (running_of_hasRole hr) (travelEnd_opened hl ht hc), confirmedNow_opened hs,
        commandEnded_opening (s := putRoute _ _ s) hs hr hf ha .confirmed hst, openEnded_confirmed (s := putRoute _ _ s) ha hp hd]
      rfl
    · have hend : (x.withLimit .closed true).travelEnd = some .confirmed := by rw [travelEnd_closed hl ht, ho]; rfl
      rw [exec_limitChange_confirmed (running_of_hasRole hr) hend, confirmedNow_closed hs,
        commandEnded_closing (s := putRoute _ _ s) hs hr hf ha .confirmed hst, judgeCandidate_closeEnded (s := putRoute _ _ s) ha htr hcand,
        closeEnded_confirmed (s := putRoute _ _ s) ha]
      rfl

end Sys2Proof.Machine
end
